-- ==== Sys2Proof/Word.lean ====
section
/-! DEFINITION. The word types of the HX12 and their plainest arithmetic. -/

namespace Sys2Proof

/-- A byte, the smallest addressable unit of every space (R24, R140). -/
abbrev Byte := BitVec 8

/-- A general-register value (R31). -/
abbrev Word := BitVec 64

/-- An instruction word (R83) or a 32-bit lane (R185). -/
abbrev Word32 := BitVec 32

/-- A general-register number g0–g63 (R84). -/
abbrev Reg := BitVec 6

/-- A predicate number p0–p7 (R32). -/
abbrev Pred := BitVec 3

/-- An element pattern of 128 bits (R103). -/
abbrev Pattern := BitVec 128

end Sys2Proof
end

