-- ==== Sys2Proof/Config.lean ====
section
/-! DEFINITION. What the spec leaves to the implementation or open: constants without a body, so that no proof sees a
value of them (log 3), and the module's fixed sizes. -/

namespace Sys2Proof.Config

/-- A free 64-bit value, selected by the plain counter `State.fresh` (log 3). -/
opaque freeWord : Nat → BitVec 64

/-- A free byte, selected by a counter: contents of untracked pages after a rollback (R277, R379; log 3). -/
opaque freeByte : Nat → BitVec 8

/-- A free choice among alternatives that the spec allows (R149, R269, R310, R328; log 3). -/
opaque freeChoice : Nat → Nat

/-- XMSS signature check of a firmware image (R417): RFC 8391 is outside the spec, so it stays uninterpreted (log 4). -/
opaque xmssVerify : List (BitVec 8) → Bool

/-- XMSS signature of a message under one leaf of the device key (R418; log 4). -/
opaque xmssSign : Nat → List (BitVec 8) → List (BitVec 8)

/-- Number of leaves of the device's XMSS key: tree height 20 (R417, R418). -/
def xmssLeaves : Nat := 2 ^ 20

/-- Compute cores of the module (R2). -/
def coreCount : Nat := 768

/-- Bytes of one granule of the unified array (R5). -/
def granule : Nat := 65536

/-- Entries of a partition's pending-launch pool (R301). -/
def poolSize : Nat := 4096

/-- Commands that one engine context holds pending (R169). -/
def chainSize : Nat := 64

/-- Tokens that a port's replay buffer of 64 KiB holds (R41, R360). -/
def replayTokens : Nat := 1024

/-- Writes that a partition's egress hold queue holds (R156). -/
def egressSize : Nat := 1024

/-- Records that a fault queue holds (R357). -/
def faultQueueSize : Nat := 4096

/-- Cycles without a movement after which the region controller raises QUIESCE (R287). -/
def quiesceCycles : Nat := 65536

/-- Uncommitted segments that a team may have (R151). -/
def maxUncommitted : Nat := 4

/-- Entries of a slice's ordered-atomic buffer (R146). The spec states that the buffer is finite and gives no size, so the
size is an uninterpreted constant (log 5). -/
opaque amooEntries : Nat

/-- Lines of a slice that one team's uncommitted segments may hold (R271). -/
def teamSliceLines : Nat := 1024

/-- Lines of a slice that hold speculative versions (R271). -/
def sliceLines : Nat := 4096

/-- A lane of the operand that selector K supplies where R195–R197 and R222 state none: a function of the opcode, the format, the
constant and the lane (log 64). -/
opaque constLane (opc fmt : Nat) (k : BitVec 64) (lane : Nat) : BitVec 32

/-- Read marks of a slice (R272): finite, the spec gives no number (log 5). -/
opaque readMarks : Nat

/-- Draws of the sampling generators and the cycles that a record's stages give, which no architectural value depends on (R328; log 42). -/
opaque glintDraw : Nat → Nat

/-- Which entry a full translation cache gives up (R413), by cache and clock (log 12). -/
opaque tlbVictim : Nat → Nat → Nat

/-- What an integer run whose exact sum is a NaN closes to, by its column: the value in the low 32 bits, the saturation flag above
(R66, R75; log 146). -/
opaque satNaN : Nat → BitVec 33

/-- Bytes behind one group of 8 pseudo-channels of HBM: 576 GB in 576 groups (R2, R7; log 102). -/
def groupBytes : Nat := 10 ^ 9

end Sys2Proof.Config
end

