-- ==== Sys2Proof/Machine/Bits.lean ====
section
/-! DEFINITION. Bit fields, sign extension, byte order, sparse maps in canonical form, and byte memories. -/

namespace Sys2Proof.Machine

/-- Bits hi down to lo of a number (R30). -/
def bitsOf (v hi lo : Nat) : Nat := (v / 2 ^ lo) % 2 ^ (hi + 1 - lo)

/-- Bit n of a number. -/
def bitAt (v n : Nat) : Bool := (v / 2 ^ n) % 2 = 1

/-- The two's complement value of the low w bits. -/
def signedOf (w v : Nat) : Int :=
  let u := v % 2 ^ w
  if 2 * u ≥ 2 ^ w then (u : Int) - 2 ^ w else u

/-- The low w bits of an integer, as a number. -/
def wrapOf (w : Nat) (v : Int) : Nat := (v % 2 ^ w).toNat

/-- `sat` of R66 to a signed integer of w bits. -/
def satSigned (w : Nat) (v : Int) : Int :=
  if v > 2 ^ (w - 1) - 1 then 2 ^ (w - 1) - 1 else if v < -(2 ^ (w - 1)) then -(2 ^ (w - 1)) else v

/-- Clamp to a closed range (R66). -/
def clampInt (lo hi v : Int) : Int := if v < lo then lo else if v > hi then hi else v

/-- A Boolean as a number. -/
def b2n (b : Bool) : Nat := if b then 1 else 0

/-- ⌈a / b⌉. -/
def ceilDiv (a b : Nat) : Nat := (a + b - 1) / b

/-- The bytes of v, least significant first (R24). -/
def leBytes : Nat → Nat → List Byte
  | 0, _ => []
  | n + 1, v => BitVec.ofNat 8 v :: leBytes n (v / 256)

/-- The number whose little-endian bytes these are. -/
def leNat : List Byte → Nat
  | [] => 0
  | b :: bs => b.toNat + 256 * leNat bs

/-- The list f 0, …, f (n − 1). -/
def tabulate (n : Nat) (f : Nat → α) : List α := (List.range n).map f

/-- Replace entry k of a list. -/
def listSet (l : List α) (k : Nat) (x : α) : List α := l.set k x

/-- Change entry k of a list. -/
def listModify (l : List α) (k : Nat) (f : α → α) : List α := l.modify k f

/-- A number packed from w-bit values, value 0 in the lowest bits (R70). -/
def packVals (w : Nat) : List Nat → Nat
  | [] => 0
  | v :: vs => v % 2 ^ w + 2 ^ w * packVals w vs

/-- Value i of a string of w-bit values (R70). -/
def valAt (w i bits : Nat) : Nat := (bits / 2 ^ (w * i)) % 2 ^ w

/-! ## Sparse maps -/

/-- Look up a key in a list sorted by key. -/
def mapGet (k : Nat) : List (Nat × α) → Option α
  | [] => none
  | (j, x) :: m => if j = k then some x else mapGet k m

/-- Insert or replace a key, keeping the keys rising. -/
def mapSet (k : Nat) (x : α) : List (Nat × α) → List (Nat × α)
  | [] => [(k, x)]
  | (j, y) :: m => if k < j then (k, x) :: (j, y) :: m else if k = j then (k, x) :: m else (j, y) :: mapSet k x m

/-- Remove a key. -/
def mapErase (k : Nat) (m : List (Nat × α)) : List (Nat × α) := m.filter (fun p => p.1 ≠ k)

/-- The keys rise strictly. -/
def mapSorted : List (Nat × α) → Bool
  | [] => true
  | [_] => true
  | (j, _) :: (k, y) :: m => decide (j < k) && mapSorted ((k, y) :: m)

/-- Insert a number into a strictly rising list of numbers. -/
def setInsert (k : Nat) : List Nat → List Nat
  | [] => [k]
  | j :: m => if k < j then k :: j :: m else if k = j then j :: m else j :: setInsert k m

/-- Union of two sets. -/
def setUnion (a b : List Nat) : List Nat := a.foldr setInsert b

/-! ## Byte memories

A byte memory lists (address, byte) pairs with strictly rising addresses and no zero byte; an unlisted address reads as
zero (log 2). -/

/-- What an unlisted address reads as (log 2). -/
def memDefault : Byte := 0#8

/-- Read one byte. -/
def memRead (m : List Host.Cell) (a : Nat) : Byte := (mapGet a m).getD memDefault

/-- Write one byte, keeping the canonical form. -/
def memWrite (m : List Host.Cell) (a : Nat) (b : Byte) : List Host.Cell :=
  if b = memDefault then mapErase a m else mapSet a b m

/-- The canonical form: addresses strictly rising, no entry equal to what an unlisted address reads as. -/
def Memory.wf (m : List Host.Cell) : Bool := mapSorted m && m.all (fun p => p.2 ≠ memDefault)

/-- Read n bytes in ascending address order. -/
def memReadBytes (m : List Host.Cell) : Nat → Nat → List Byte
  | _, 0 => []
  | a, n + 1 => memRead m a :: memReadBytes m (a + 1) n

/-- Write bytes in ascending address order. -/
def memWriteBytes (m : List Host.Cell) : Nat → List Byte → List Host.Cell
  | _, [] => m
  | a, b :: bs => memWriteBytes (memWrite m a b) (a + 1) bs

/-- Read a little-endian number of n bytes. -/
def memReadLE (m : List Host.Cell) (a n : Nat) : Nat := leNat (memReadBytes m a n)

/-- Write a little-endian number of n bytes. -/
def memWriteLE (m : List Host.Cell) (a n v : Nat) : List Host.Cell := memWriteBytes m a (leBytes n v)

/-- Keep only the bytes whose address satisfies a test. -/
def memFilter (m : List Host.Cell) (f : Nat → Bool) : List Host.Cell := m.filter (fun p => f p.1)

/-- Add to an address-indexed list of bytes held as versions: the later write stands. -/
def verWrite (m : List Host.Cell) (a : Nat) (b : Byte) : List Host.Cell := mapSet a b m

/-- Write bytes as versions. Versions list zero bytes too, since an absent entry means 'not written'. -/
def verWriteBytes (m : List Host.Cell) : Nat → List Byte → List Host.Cell
  | _, [] => m
  | a, b :: bs => verWriteBytes (verWrite m a b) (a + 1) bs

/-- The versions of `new` over those of `old`. -/
def verMerge (old new : List Host.Cell) : List Host.Cell := new.foldl (fun m p => mapSet p.1 p.2 m) old

/-- The lines (address / 64) that versions touch. -/
def verLines (m : List Host.Cell) : List Nat := m.foldl (fun l p => setInsert (p.1 / 64) l) []

end Sys2Proof.Machine
end

