-- ==== Sys2Proof/Syntax.lean ====
section
/-! DEFINITION. The steps of the HX12: one constructor of `Instr` for each row of spec/opcode_table.json. Rows with a word
carry the fields of the word (R84–R99). Element rows carry the thicket and the place of the element that fires. The other
rows are events of units, firmware and host; they carry the unit, object or record they act on. A row that acts on a tile
task's core acts on the task in focus. -/

namespace Sys2Proof

/-- Where an element stands (R106, R108): a PE at column x and row y of its thicket, or an edge element of the core. -/
inductive Place where
  | pe (x y : BitVec 3)
  | window (n : BitVec 1)
  | scratch (n : BitVec 1)
  | request (n : BitVec 2)
  deriving DecidableEq, Repr

/-- What an uncorrectable error strikes (R387): at an element buffer a corrected error does the same (R360); `tile` is an error that
falsifies the next tile of an MMA, once or in its rerun too (R241). A speculative version is named by its segment of the team in focus and its
physical address, a replay granule by its source port and token. -/
inductive EccTarget where
  | memory (addr : BitVec 52)
  | weight (vf : BitVec 6) (offset : BitVec 30)
  | version (seq : BitVec 64) (addr : BitVec 52)
  | scratch (offset : BitVec 22)
  | shadow (offset : BitVec 16)
  | program (offset : BitVec 22)
  | replay (port : BitVec 4) (n : BitVec 10)
  | slot (n : BitVec 7)
  | row (n : BitVec 9)
  | element (t : BitVec 2) (p : Place)
  | tile (twice : Bool)
  deriving DecidableEq, Repr

/-- Registers that a REGISTER_WRITE stores to: those without behaviour of their own (R404, R416, R307, R364, R377, R393,
R409, R332); SLT_BIND_HI submits a bind record (R305). -/
inductive RegName where
  | vfPtroot | vfFqbase | vfFqhead | vfRbbase | vfDlbase | vfDlhead | vfIntmask
  | vfQbase (q : BitVec 3)
  | prtSeal | prtMkdl | prtEinja | prtEinjr
  | sltWdog (die : BitVec 4) | sltBindLo (die : BitVec 4) | sltBindHi (die : BitVec 4)
  | spanRoute (domain : BitVec 8)
  | debugArm | snapArmBrk | snapArmRegion | swapEnable
  deriving DecidableEq, Repr

/-- Registers that a virtual function or the management function reads (R404, R416): those of a virtual function, of its partition, of a die's
slot-table port, of the span ports, and of a core. -/
inductive ReadName where
  | vfPtroot | vfTlbinv | vfFqbase | vfFqhead | vfFqtail | vfRbbase | vfDlbase | vfDlhead | vfDltail | vfIntmask
  | vfQbase (q : BitVec 3) | vfQctl (q : BitVec 3) | vfQtail (q : BitVec 3) | vfQhead (q : BitVec 3)
  | prtSeal | prtMkdl | prtRcvst | prtEinja | prtEinjr
  | sltSts (die : BitVec 4) | sltWdog (die : BitVec 4) | sltBindLo (die : BitVec 4)
  | spanRoute (domain : BitVec 8) | spanDrop (domain : BitVec 8)
  | corePemap (core : BitVec 10)
  deriving DecidableEq, Repr

/-- A stencil table as the loader installs it (R27, R340): weights class by class, as FP32 bits. -/
structure StencilTable where
  d : BitVec 2
  prolong : Bool
  weights : List (BitVec 32)
  deriving DecidableEq, Repr

/-- The .sync words of a kernel's program image (R20, R21), by image address and entry label: scratchpad offsets with targets (log 43). -/
structure Kernel where
  kptr : BitVec 64
  entry : Nat
  syncs : List (Nat × Nat)
  deriving DecidableEq, Repr

/-- What bring-up maps out (R419): pseudo-channel groups, weight-store banks and sprigs. -/
structure MapOut where
  groups : List (BitVec 10)
  banks : List (BitVec 9)
  sprigs : List (BitVec 8)
  deriving DecidableEq, Repr

/-- The alternative actions of a bring-up (R419): the steps whose alternative fails, and what those of steps 3 to 5 find to map out. -/
structure Alternatives where
  fail : BitVec 8
  out : MapOut
  deriving DecidableEq, Repr

/-- A miss of a sprig's translation cache (R413, R414): the sprig, by %core >> 2, and the virtual address. -/
structure Miss where
  sprig : BitVec 8
  va : BitVec 49
  deriving DecidableEq, Repr

/-- What firmware gives a partition when it creates or resizes it (R400–R403, R302, R323, R378). Sprigs are named by %core >> 2. `share` is
its share of every port but those that `ports` lists with another (R401); no `logSize` stands for 1/16 of its HBM (R378); `kernels` lists
its program images with .sync words (log 43). -/
structure PartDesc where
  sprigs : List (BitVec 8)
  wbanks : List (BitVec 9)
  hbmGroups : List (BitVec 10)
  share : BitVec 9
  ports : List (Nat × BitVec 9)
  sharedGroup : Option (BitVec 6)
  listSize : Nat
  logSize : Option Nat
  overflowBytes : Nat
  heapSpill : Nat
  detBytes : Nat
  glintSize : Nat
  kernels : List Kernel
  deriving DecidableEq, Repr

/-- The steps of the machine. -/
inductive Instr where
  -- integer register operations (R89, R115–R118)
  | add (d a b : Reg) (e f : Bool)
  | sub (d a b : Reg) (e f : Bool)
  | mul (d a b : Reg) (e f : Bool)
  | mulh (d a b : Reg) (e f : Bool)
  | mulhu (d a b : Reg) (e f : Bool)
  | div (d a b : Reg) (e f : Bool)
  | divu (d a b : Reg) (e f : Bool)
  | rem (d a b : Reg) (e f : Bool)
  | remu (d a b : Reg) (e f : Bool)
  | and (d a b : Reg) (e f : Bool)
  | or (d a b : Reg) (e f : Bool)
  | xor (d a b : Reg) (e f : Bool)
  | shl (d a b : Reg) (e f : Bool)
  | shr (d a b : Reg) (e f : Bool)
  | sar (d a b : Reg) (e f : Bool)
  | rol (d a b : Reg) (e f : Bool)
  | min (d a b : Reg) (e f : Bool)
  | max (d a b : Reg) (e f : Bool)
  | minu (d a b : Reg) (e f : Bool)
  | maxu (d a b : Reg) (e f : Bool)
  | clz (d a : Reg) (e : Bool)
  | ctz (d a : Reg) (e : Bool)
  | popc (d a : Reg) (e : Bool)
  | mov (d a : Reg) (e : Bool)
  -- immediates and fields (R90, R119, R122)
  | addi (d a : Reg) (e : Bool) (i : BitVec 13)
  | andi (d a : Reg) (e : Bool) (i : BitVec 13)
  | ori (d a : Reg) (e : Bool) (i : BitVec 13)
  | xori (d a : Reg) (e : Bool) (i : BitVec 13)
  | shli (d a : Reg) (e : Bool) (n : BitVec 6)
  | shri (d a : Reg) (e : Bool) (n : BitVec 6)
  | sari (d a : Reg) (e : Bool) (n : BitVec 6)
  | roli (d a : Reg) (e : Bool) (n : BitVec 6)
  | sext (d a : Reg) (e : Bool) (w : BitVec 6)
  | zext (d a : Reg) (e : Bool) (w : BitVec 6)
  | bfx (d a : Reg) (e : Bool) (l p : BitVec 6)
  | bfi (d a : Reg) (e : Bool) (l p : BitVec 6)
  | wfld (d a : Reg) (e : Bool) (i : BitVec 3)
  | wcmb (d a : Reg) (e : Bool) (i : BitVec 3)
  | sel (d a b : Reg) (e f : Bool) (p : Pred)
  | lea (d a b : Reg) (e f : Bool) (s : BitVec 3)
  | li (d : Reg) (imm : BitVec 32)
  | lui (d : Reg) (imm : BitVec 32)
  -- compares and predicates (R91, R123, R124)
  | cmp (p : Pred) (c : BitVec 3) (a b : Reg) (e f : Bool)
  | cmpi (p : Pred) (c : BitVec 3) (a : Reg) (e : Bool) (i : BitVec 13)
  | pand (d a b : Pred)
  | por (d a b : Pred)
  | pxor (d a b : Pred)
  | pnot (d a : Pred)
  | fset (d : Reg) (v : Bool)
  | fchk (p : Pred) (a : Reg)
  -- control flow (R125–R127)
  | br (p : Pred) (n : Bool) (d : BitVec 22)
  | jmp (d : BitVec 22)
  | jal (r : Reg) (d : BitVec 20)
  | jr (a : Reg) (e : Bool)
  | ret
  | loop (a : Reg) (e : Bool) (l : BitVec 13)
  -- memory (R140–R149)
  | ld (t a : Reg) (e : Bool) (s h : BitVec 2) (o : BitVec 9)
  | st (t a : Reg) (e : Bool) (s h : BitVec 2) (o : BitVec 9)
  | ldp (t a : Reg) (e : Bool) (s : BitVec 2) (o : BitVec 9)
  | stp (t a : Reg) (e : Bool) (s : BitVec 2) (o : BitVec 9)
  | ldw (t a : Reg) (e : Bool) (s : BitVec 2) (o : BitVec 9)
  | prf (a : Reg) (e : Bool) (h : BitVec 2) (o : BitVec 9)
  | amo (d a b : Reg) (e f : Bool) (s : BitVec 2) (o : BitVec 4)
  | amoo (d a b : Reg) (e f : Bool) (s : BitVec 2) (o : BitVec 4)
  | amof (d a b : Reg) (e f : Bool) (s : BitVec 2) (o : BitVec 4)
  | amop (d a b : Reg) (e f : Bool) (s : BitVec 2) (o : BitVec 4)
  | cas (d a b : Reg) (e f : Bool) (s : BitVec 2)
  | disc (a b : Reg) (e f : Bool)
  -- segments, seals (R150–R156)
  | tset (a : Reg) (e : Bool)
  | cmt
  | abrt
  | tsrd (d a : Reg) (e : Bool)
  | seal (d : Reg)
  | sealw (a : Reg) (e : Bool)
  | xwr (t a : Reg) (e : Bool) (s : BitVec 1) (o : BitVec 9)
  -- synchronisation (R157–R163)
  | barr
  | barrCarve (a : Reg) (e : Bool)
  | syarm (a b : Reg) (e f : Bool)
  | sywait (a b : Reg) (e f : Bool)
  | sywaitImm (a : Reg) (e : Bool) (g : BitVec 13)
  | tlwait (n : BitVec 4) (a : Reg) (e : Bool)
  | mwait (a b : Reg) (e f : Bool)
  -- work and launch (R164–R168)
  | hpush (a b : Reg) (e f : Bool)
  | hpop (d : Reg)
  | lnch (d a : Reg) (e : Bool)
  | lnchw (d a : Reg) (e : Bool)
  | yield
  | halt
  -- engine commands (R96, R171)
  | cpyG2g (a d : Reg) (t : BitVec 4) (e : Bool)
  | cpyG2s (a d : Reg) (t : BitVec 4) (e : Bool)
  | cpyS2g (a d : Reg) (t : BitVec 4) (e : Bool)
  | cpyS2s (a d : Reg) (t : BitVec 4) (e : Bool)
  | gtx (a d : Reg) (t : BitVec 4) (e : Bool)
  | gth (a d : Reg) (t : BitVec 4) (e : Bool)
  | pxst (a d : Reg) (t : BitVec 4) (e : Bool)
  | pxcp (a d : Reg) (t : BitVec 4) (e : Bool)
  | strmInG (a d : Reg) (t : BitVec 4) (e : Bool)
  | strmInS (a d : Reg) (t : BitVec 4) (e : Bool)
  | strmInW (a d : Reg) (t : BitVec 4) (e : Bool)
  | strmOutG (a d : Reg) (t : BitVec 4) (e : Bool)
  | strmOutS (a d : Reg) (t : BitVec 4) (e : Bool)
  -- fabric control (R97, R175–R180)
  | cfsw (a : Reg) (e : Bool) (n t : BitVec 2)
  | thst (d : Reg) (t : BitVec 2)
  | thwt (t : BitVec 2)
  | acz (n : BitVec 4)
  | acrd (d : Reg) (n : BitVec 4)
  | mrk (t : BitVec 2)
  | gsq (d a : Reg) (e : Bool)
  | stk (d : Reg) (n : BitVec 4)
  | cfg (d a : Reg) (e : Bool) (t : BitVec 2)
  | cfgKill (d a : Reg) (e : Bool) (t : BitVec 2)
  -- matrix engine (R232)
  | mldb (a d : Reg) (e : Bool)
  | mldbT (a d : Reg) (e : Bool)
  | mma (a d : Reg) (e : Bool) (s : BitVec 2)
  | mmat (a d : Reg) (e : Bool) (s : BitVec 2)
  | mdrn (a d : Reg) (e : Bool)
  | mclr (a d : Reg) (e : Bool)
  | mscl (a d : Reg) (e : Bool)
  | mzb (a d : Reg) (e : Bool)
  | mchk (d : Reg)
  | msig (d : Reg)
  -- system (R99, R181)
  | nop
  | trap (n : BitVec 6)
  | eret
  | mfs (d : Reg) (s : BitVec 6)
  | mts (a : Reg) (e : Bool) (s : BitVec 6)
  | brk (n : BitVec 6)
  | glnt (a : Reg) (e : Bool)
  | dgst (d a : Reg) (e : Bool)
  | fenceCore
  | fenceTeam
  | fenceDevice
  | fenceSystem
  -- events of a task's core (R33, R169, R354)
  | fillArrive (d : Reg)
  | engCommandAppend
  | trapEntry
  | syncWordArrival (t : BitVec 4)
  | copyCommandComplete (t : BitVec 4)
  | strmInComplete (n : BitVec 4)
  | strmOutComplete (n : BitVec 4)
  | gtxComplete (t : BitVec 4)
  | gthReply (t : BitVec 4)
  | pxFlitLand
  | pxAck
  | txqReply (t : BitVec 2) (n : BitVec 2)
  | pageWalk (vf : BitVec 6) (miss : Miss) (wr : Bool)
  | mxeTileExecute
  | mxeCommandComplete
  | gsqAppend
  -- segments (R265, R267, R146)
  | segmentCommit (team : Nat)
  | abortRestore (team : Nat)
  | amooApply (k : Nat)
  -- fabric events (R279–R287, R359–R369)
  | thicketLoadComplete (t : BitVec 2)
  | thicketPhaseComplete (t : BitVec 2)
  | roundInject (t : BitVec 2) (n : BitVec 4)
  | balInject (t : BitVec 2) (n : BitVec 4)
  | linkRequest (t : BitVec 2) (p : Place) (i : BitVec 2)
  | linkTokenTransfer (t : BitVec 2) (p : Place) (i : BitVec 2)
  | nonDataAlign (t : BitVec 2) (p : Place)
  | quiesce (t : BitVec 2)
  | regionContainment (t : BitVec 2)
  | elementCkptRecord (t : BitVec 2) (p : Place) (i : BitVec 2)
  | elementCkptSave (t : BitVec 2) (p : Place)
  | markerDeadlineExpire (t : BitVec 2)
  -- element firings (R195–R223)
  | vadd (t : BitVec 2) (p : Place)
  | vsub (t : BitVec 2) (p : Place)
  | vmul (t : BitVec 2) (p : Place)
  | vfma (t : BitVec 2) (p : Place)
  | vfms (t : BitVec 2) (p : Place)
  | vmin (t : BitVec 2) (p : Place)
  | vmax (t : BitVec 2) (p : Place)
  | vabs (t : BitVec 2) (p : Place)
  | vneg (t : BitVec 2) (p : Place)
  | vcvt (t : BitVec 2) (p : Place)
  | vqnt (t : BitVec 2) (p : Place)
  | vdqn (t : BitVec 2) (p : Place)
  | vand (t : BitVec 2) (p : Place)
  | vor (t : BitVec 2) (p : Place)
  | vxor (t : BitVec 2) (p : Place)
  | vshl (t : BitVec 2) (p : Place)
  | vshr (t : BitVec 2) (p : Place)
  | vsar (t : BitVec 2) (p : Place)
  | vcmp (t : BitVec 2) (p : Place)
  | vsel (t : BitVec 2) (p : Place)
  | vclp (t : BitVec 2) (p : Place)
  | vlut (t : BitVec 2) (p : Place)
  | vred (t : BitVec 2) (p : Place)
  | vscn (t : BitVec 2) (p : Place)
  | vrng (t : BitVec 2) (p : Place)
  | pass (t : BitVec 2) (p : Place)
  | dup (t : BitVec 2) (p : Place)
  | hold (t : BitVec 2) (p : Place)
  | filt (t : BitVec 2) (p : Place)
  | join (t : BitVec 2) (p : Place)
  | reci (t : BitVec 2) (p : Place)
  | leav (t : BitVec 2) (p : Place)
  | rate (t : BitVec 2) (p : Place)
  | ctrn (t : BitVec 2) (p : Place)
  | swin (t : BitVec 2) (p : Place)
  | spad (t : BitVec 2) (p : Place)
  | txq (t : BitVec 2) (p : Place)
  | sink (t : BitVec 2) (p : Place)
  | cnt (t : BitVec 2) (p : Place)
  | ddai (t : BitVec 2) (p : Place)
  | ddal (t : BitVec 2) (p : Place)
  | ddao (t : BitVec 2) (p : Place)
  | incs (t : BitVec 2) (p : Place)
  | lrec (t : BitVec 2) (p : Place)
  | tsel (t : BitVec 2) (p : Place)
  -- binding, launches, swaps (R300–R316)
  | bind (die : BitVec 4) (rec : BitVec 128)
  | move (die : BitVec 4) (rec : BitVec 128)
  | withdraw (die : BitVec 4) (rec : BitVec 128)
  | programLoadComplete (core : BitVec 10)
  | teamStart (team : Nat)
  | contextSaveComplete (team : Nat)
  | teamRetire (team : Nat)
  | bindWatchdogExpire (team : Nat)
  | launchDispatch (l : Nat)
  | dependencyMet (l : Nat)
  | launchComplete (l : Nat)
  | swapTick (die : BitVec 4) (bush : BitVec 2)
  | swapExecute (team : Nat)
  | glintRecord (src : BitVec 2) (loc op : BitVec 32)
  -- recovery (R377–R393)
  | periodicSealTimer
  | prepare
  | ready (domain : BitVec 8) (ok : Bool)
  | commit
  | abort
  | sealTimeout
  | rollback
  | einjArm (vf : BitVec 6) (v : Word)
  -- host packets and registers (R404–R415)
  | launchPacket (vf : BitVec 6) (q : BitVec 3)
  | copyPacket (vf : BitVec 6) (q : BitVec 3)
  | copyPacketDone (vf : BitVec 6) (q : BitVec 3)
  | waitv (vf : BitVec 6) (q : BitVec 3)
  | captureStart (vf : BitVec 6) (q : BitVec 3)
  | captureStop (vf : BitVec 6) (q : BitVec 3)
  | sealPacket (vf : BitVec 6) (q : BitVec 3)
  | countPacket (vf : BitVec 6) (q : BitVec 3)
  | queueDoorbell (vf : BitVec 6) (q : BitVec 3) (v : Word)
  | queueCtlWrite (vf : BitVec 6) (q : BitVec 3) (v : Word)
  | tlbInvalidateAll (vf : BitVec 6)
  | tlbInvalidatePage (vf : BitVec 6) (v : Word)
  | tlbInvalidateDone (vf : BitVec 6)
  | fqansRetry (vf : BitVec 6) (seq : BitVec 32)
  | fqansFail (vf : BitVec 6) (seq : BitVec 32)
  | vfRback (vf : BitVec 6)
  | registerWrite (vf : BitVec 6) (r : RegName) (v : Word)
  | snapshotTrigger (vf : BitVec 6)
  | debugStopRequest (vf : BitVec 6)
  | debugResume (vf : BitVec 6)
  | attestationReport (nonce : BitVec 256)
  -- management and module (R38, R340, R400–R421)
  | partitionResize (vf : BitVec 6) (desc : PartDesc)
  | weightStoreRefresh
  | thermalClockStep (up : Bool)
  | junctionTrip
  | powerOn (fail : BitVec 8) (alt : Alternatives)
  | unassignedWord (w : BitVec 32) (detail : BitVec 16)
  | cfswPlaneFilled (t : BitVec 2)
  | uncorrectableEccError (x : EccTarget)
  | stencilTableInstall (vf : BitVec 6) (slot : BitVec 4) (tab : StencilTable)
  | partitionCreate (vf : BitVec 6) (desc : PartDesc)
  | partitionDestroy (vf : BitVec 6)
  | peerWriteArrival (addr : BitVec 52) (data : Word) (wide : Bool)
  deriving DecidableEq, Repr

end Sys2Proof
end

