-- ==== Sys2Proof/WellFormed.lean ====
section
/-! DEFINITION. Which instructions an encoding admits (R85–R99): the operand values that a word can hold without ILL. -/

namespace Sys2Proof

/-- The timeline counters that an ENG command may name (R96), by its fn in major 0x32. -/
def permittedTl (fn tl : Nat) : Bool :=
  if fn ≤ 3 then tl ≤ 3
  else if fn = 4 then tl = 4 || tl = 5
  else if fn = 5 then tl = 6 || tl = 7
  else if fn ≤ 7 then tl = 9
  else tl = 14

/-- Field limits of an ENG instruction of major 0x32 (R19, R96). -/
def engOk (fn : Nat) (a : Reg) (t : BitVec 4) : Bool := a.toNat ≤ 60 && permittedTl fn t.toNat

/-- Whether every field of the step lies in its limits. Rows without a word have no encoding limits beyond their types. -/
def Instr.wf : Instr → Bool
  | .bfx _ _ _ l p => p.toNat + (l.toNat + 1) ≤ 64
  | .bfi _ _ _ l p => p.toNat + (l.toNat + 1) ≤ 64
  | .wfld _ _ _ i => i.toNat ≤ 5
  | .wcmb _ _ _ i => i.toNat ≤ 5
  | .cmp _ c _ _ _ _ => c.toNat ≠ 7
  | .cmpi _ c _ _ _ => c.toNat ≠ 7
  | .loop _ _ l => l.toNat ≠ 0
  | .ld _ _ _ _ h _ => h.toNat ≠ 3
  | .st _ _ _ _ h _ => h.toNat ≠ 3
  | .prf _ _ h _ => h.toNat ≠ 3
  | .amo _ _ _ _ _ s o => 2 ≤ s.toNat && o.toNat ≤ 8
  | .amoo _ _ _ _ _ s o => 2 ≤ s.toNat && o.toNat ≤ 8
  | .amof _ _ _ _ _ s o => 2 ≤ s.toNat && o.toNat ≤ 8
  | .amop _ _ _ _ _ s o => 2 ≤ s.toNat && o.toNat ≤ 8
  | .cas _ _ _ _ _ s => 2 ≤ s.toNat
  | .hpop d => 1 ≤ d.toNat && d.toNat ≤ 62
  | .cpyG2g a _ t _ => engOk 0 a t
  | .cpyG2s a _ t _ => engOk 1 a t
  | .cpyS2g a _ t _ => engOk 2 a t
  | .cpyS2s a _ t _ => engOk 3 a t
  | .gtx a _ t _ => engOk 4 a t
  | .gth a _ t _ => engOk 5 a t
  | .pxst a _ t _ => engOk 6 a t
  | .pxcp a _ t _ => engOk 7 a t
  | .strmInG a _ t _ => engOk 8 a t
  | .strmInS a _ t _ => engOk 9 a t
  | .strmInW a _ t _ => engOk 10 a t
  | .strmOutG a _ t _ => engOk 11 a t
  | .strmOutS a _ t _ => engOk 12 a t
  | .mldb a _ _ => a.toNat ≤ 60
  | .mldbT a _ _ => a.toNat ≤ 60
  | .mma a _ _ _ => a.toNat ≤ 60
  | .mmat a _ _ _ => a.toNat ≤ 60
  | .mdrn a _ _ => a.toNat ≤ 60
  | .mclr a _ _ => a.toNat ≤ 60
  | .mscl a _ _ => a.toNat ≤ 60
  | .mzb a _ _ => a.toNat ≤ 60
  | .mfs _ s => s.toNat ≤ 16
  | .mts _ _ s => s.toNat = 15 || s.toNat = 16
  | _ => true

end Sys2Proof
end

