-- ==== Sys2Proof/Decode.lean ====
section
/-! DEFINITION. The decoder (R83–R102), total on any words, rejecting with the ILL detail code of R101, and the encoder. -/

namespace Sys2Proof

open Machine

/-- The field of len bits at bit lo of a word (R84). -/
def fld (w : BitVec 32) (lo len : Nat) : BitVec len := BitVec.ofNat len (w.toNat / 2 ^ lo)

/-- One bit of a word. -/
def flag (w : BitVec 32) (n : Nat) : Bool := (w.toNat / 2 ^ n) % 2 = 1

/-- The bits hi down to lo of a word are zero. -/
def zeroBits (w : BitVec 32) (hi lo : Nat) : Bool := (w.toNat / 2 ^ lo) % 2 ^ (hi + 1 - lo) = 0

/-- Reject with a detail code unless a check holds (R101). -/
def need (ok : Bool) (detail : BitVec 16) (r : Except (BitVec 16) Instr) : Except (BitVec 16) Instr :=
  if ok then r else .error detail

/-- An unassigned major or function (R88, R101). -/
def unassigned : Except (BitVec 16) Instr := .error 0

/-- Major 0x01 (R89). -/
def decodeInt (w : BitVec 32) : Except (BitVec 16) Instr :=
  let d := fld w 20 6
  let a := fld w 14 6
  let b := fld w 8 6
  let e := flag w 7
  let f := flag w 6
  let one := zeroBits w 13 8 && zeroBits w 6 6
  match w.toNat % 64 with
  | 0 => .ok (.add d a b e f)
  | 1 => .ok (.sub d a b e f)
  | 2 => .ok (.mul d a b e f)
  | 3 => .ok (.mulh d a b e f)
  | 4 => .ok (.mulhu d a b e f)
  | 5 => .ok (.div d a b e f)
  | 6 => .ok (.divu d a b e f)
  | 7 => .ok (.rem d a b e f)
  | 8 => .ok (.remu d a b e f)
  | 16 => .ok (.and d a b e f)
  | 17 => .ok (.or d a b e f)
  | 18 => .ok (.xor d a b e f)
  | 24 => .ok (.shl d a b e f)
  | 25 => .ok (.shr d a b e f)
  | 26 => .ok (.sar d a b e f)
  | 27 => .ok (.rol d a b e f)
  | 32 => .ok (.min d a b e f)
  | 33 => .ok (.max d a b e f)
  | 34 => .ok (.minu d a b e f)
  | 35 => .ok (.maxu d a b e f)
  | 40 => need one 1 (.ok (.clz d a e))
  | 41 => need one 1 (.ok (.ctz d a e))
  | 42 => need one 1 (.ok (.popc d a e))
  | 48 => need one 1 (.ok (.mov d a e))
  | _ => unassigned

/-- Majors 0x02–0x0F (R90). -/
def decodeImm (w : BitVec 32) : Except (BitVec 16) Instr :=
  let d := fld w 20 6
  let a := fld w 14 6
  let e := flag w 13
  let i := fld w 0 13
  let n := fld w 0 6
  let l := fld w 6 6
  let k := fld w 0 3
  let sh := zeroBits w 12 6
  match w.toNat / 2 ^ 26 with
  | 0x02 => .ok (.addi d a e i)
  | 0x03 => .ok (.andi d a e i)
  | 0x04 => .ok (.ori d a e i)
  | 0x05 => .ok (.xori d a e i)
  | 0x06 => need sh 1 (.ok (.shli d a e n))
  | 0x07 => need sh 1 (.ok (.shri d a e n))
  | 0x08 => need sh 1 (.ok (.sari d a e n))
  | 0x09 => need sh 1 (.ok (.roli d a e n))
  | 0x0A => need sh 1 (.ok (.sext d a e n))
  | 0x0B => need sh 1 (.ok (.zext d a e n))
  | 0x0C => need (zeroBits w 12 12) 1 (need (n.toNat + (l.toNat + 1) ≤ 64) 2 (.ok (.bfx d a e l n)))
  | 0x0D => need (zeroBits w 12 12) 1 (need (n.toNat + (l.toNat + 1) ≤ 64) 2 (.ok (.bfi d a e l n)))
  | 0x0E => need (zeroBits w 12 3) 1 (need (k.toNat ≤ 5) 2 (.ok (.wfld d a e k)))
  | 0x0F => need (zeroBits w 12 3) 1 (need (k.toNat ≤ 5) 2 (.ok (.wcmb d a e k)))
  | _ => unassigned

/-- Majors 0x10–0x17 (R90, R91, R120); `next` is the second word of a LONG instruction, none outside the region: a
reserved bit of the first word comes before that (R101; log 149). -/
def decodeMid (w : BitVec 32) (next : Option (BitVec 32)) : Except (BitVec 16) Instr :=
  let d := fld w 20 6
  let a := fld w 14 6
  let b := fld w 8 6
  let p := fld w 23 3
  let c := fld w 20 3
  let e := flag w 7
  let f := flag w 6
  match w.toNat / 2 ^ 26 with
  | 0x10 => need (zeroBits w 5 3) 1 (.ok (.sel d a b e f (fld w 0 3)))
  | 0x11 => need (zeroBits w 5 3) 1 (.ok (.lea d a b e f (fld w 0 3)))
  | 0x12 =>
    match w.toNat % 64 with
    | 0 => need (zeroBits w 19 6) 1 (match next with | some i => .ok (.li d i) | none => .error 3)
    | 1 => need (zeroBits w 19 6) 1 (match next with | some i => .ok (.lui d i) | none => .error 3)
    | _ => unassigned
  | 0x13 => need (zeroBits w 5 0) 1 (need (c.toNat ≠ 7) 2 (.ok (.cmp p c a b e f)))
  | 0x14 => need (c.toNat ≠ 7) 2 (.ok (.cmpi p c a (flag w 13) (fld w 0 13)))
  | 0x15 =>
    match w.toNat % 64 with
    | 0 => need (zeroBits w 16 6) 1 (.ok (.pand p c (fld w 17 3)))
    | 1 => need (zeroBits w 16 6) 1 (.ok (.por p c (fld w 17 3)))
    | 2 => need (zeroBits w 16 6) 1 (.ok (.pxor p c (fld w 17 3)))
    | 3 => need (zeroBits w 19 6) 1 (.ok (.pnot p c))
    | _ => unassigned
  | 0x16 => need (zeroBits w 19 1) 1 (.ok (.fset d (flag w 0)))
  | 0x17 => need (zeroBits w 22 20 && zeroBits w 13 0) 1 (.ok (.fchk p a))
  | _ => unassigned

/-- Majors 0x18–0x1C (R87, R90, R125, R127). -/
def decodeFlow (w : BitVec 32) : Except (BitVec 16) Instr :=
  let a := fld w 14 6
  match w.toNat / 2 ^ 26 with
  | 0x18 => .ok (.br (fld w 23 3) (flag w 22) (fld w 0 22))
  | 0x19 => need (zeroBits w 25 22) 1 (.ok (.jmp (fld w 0 22)))
  | 0x1A => .ok (.jal (fld w 20 6) (fld w 0 20))
  | 0x1B =>
    match w.toNat % 64 with
    | 0 => need (zeroBits w 25 20 && zeroBits w 13 8 && zeroBits w 6 6) 1 (.ok (.jr a (flag w 7)))
    | 1 => need (zeroBits w 25 6) 1 (.ok .ret)
    | _ => unassigned
  | 0x1C => need (zeroBits w 25 20) 1 (need (!zeroBits w 12 0) 2 (.ok (.loop a (flag w 13) (fld w 0 13))))
  | _ => unassigned

/-- Majors 0x20–0x2E (R92, R94, R95); a hint where none is allowed is a reserved field (log 137). -/
def decodeMem (w : BitVec 32) : Except (BitVec 16) Instr :=
  let d := fld w 20 6
  let a := fld w 14 6
  let b := fld w 8 6
  let e := flag w 13
  let s := fld w 11 2
  let h := fld w 9 2
  let o := fld w 0 9
  let ea := flag w 7
  let eb := flag w 6
  let az := fld w 4 2
  let ao := fld w 0 4
  let aok := (2 ≤ az.toNat && ao.toNat ≤ 8 : Bool)
  match w.toNat / 2 ^ 26 with
  | 0x20 => need (h.toNat ≠ 3) 2 (.ok (.ld d a e s h o))
  | 0x21 => need (h.toNat ≠ 3) 2 (.ok (.st d a e s h o))
  | 0x22 => need (zeroBits w 10 9) 1 (.ok (.ldp d a e s o))
  | 0x23 => need (zeroBits w 10 9) 1 (.ok (.stp d a e s o))
  | 0x24 => need (zeroBits w 10 9) 1 (.ok (.ldw d a e s o))
  | 0x25 => need (zeroBits w 25 20 && zeroBits w 12 11) 1 (need (h.toNat ≠ 3) 2 (.ok (.prf a e h o)))
  | 0x26 => need aok 0 (.ok (.amo d a b ea eb az ao))
  | 0x27 => need aok 0 (.ok (.amoo d a b ea eb az ao))
  | 0x28 => need aok 0 (.ok (.amof d a b ea eb az ao))
  | 0x29 => need aok 0 (.ok (.amop d a b ea eb az ao))
  | 0x2A => need (2 ≤ az.toNat && zeroBits w 3 0) 0 (.ok (.cas d a b ea eb az))
  | 0x2B => need (zeroBits w 5 0) 0 (need (zeroBits w 25 20) 1 (.ok (.disc a b ea eb)))
  | 0x2C =>
    match w.toNat % 64 with
    | 0 => need (zeroBits w 25 20 && zeroBits w 13 8 && zeroBits w 6 6) 1 (.ok (.tset a ea))
    | 1 => need (zeroBits w 25 6) 1 (.ok .cmt)
    | 2 => need (zeroBits w 25 6) 1 (.ok .abrt)
    | 3 => need (zeroBits w 13 8 && zeroBits w 6 6) 1 (.ok (.tsrd d a ea))
    | _ => unassigned
  | 0x2D =>
    match w.toNat % 64 with
    | 0 => need (zeroBits w 19 6) 1 (.ok (.seal d))
    | 1 => need (zeroBits w 25 20 && zeroBits w 13 8 && zeroBits w 6 6) 1 (.ok (.sealw a ea))
    | _ => unassigned
  | 0x2E => need (zeroBits w 10 9) 1 (need (2 ≤ s.toNat) 2 (.ok (.xwr d a e (fld w 11 1) o)))
  | _ => unassigned

/-- Majors 0x2F–0x31 (R95). -/
def decodeSync (w : BitVec 32) : Except (BitVec 16) Instr :=
  let d := fld w 20 6
  let a := fld w 14 6
  let b := fld w 8 6
  let e := flag w 7
  let f := flag w 6
  let noD := zeroBits w 25 20
  let noB := zeroBits w 13 8 && zeroBits w 6 6
  match w.toNat / 2 ^ 26 with
  | 0x2F =>
    match w.toNat % 64 with
    | 0 => need (zeroBits w 25 6) 1 (.ok .barr)
    | 1 => need (noD && noB) 1 (.ok (.barrCarve a e))
    | 2 => need noD 1 (.ok (.syarm a b e f))
    | 3 => need noD 1 (.ok (.sywait a b e f))
    | 4 => need noB 1 (need (d.toNat < 16) 2 (.ok (.tlwait (fld w 20 4) a e)))
    | 5 => need noD 1 (.ok (.mwait a b e f))
    | _ => unassigned
  | 0x30 => need noD 1 (.ok (.sywaitImm a (flag w 13) (fld w 0 13)))
  | 0x31 =>
    match w.toNat % 64 with
    | 0 => need noD 1 (.ok (.hpush a b e f))
    | 1 => need (zeroBits w 19 6) 1 (need (1 ≤ d.toNat && d.toNat ≤ 62) 2 (.ok (.hpop d)))
    | 2 => need noB 1 (.ok (.lnch d a e))
    | 3 => need noB 1 (.ok (.lnchw d a e))
    | 4 => need (zeroBits w 25 6) 1 (.ok .yield)
    | 5 => need (zeroBits w 25 6) 1 (.ok .halt)
    | _ => unassigned
  | _ => unassigned

/-- Major 0x32 (R96). -/
def decodeEng (w : BitVec 32) : Except (BitVec 16) Instr :=
  let a := fld w 14 6
  let d := fld w 8 6
  let t := fld w 4 4
  let e := flag w 3
  let fn := w.toNat / 2 ^ 20 % 64
  let ok (i : Instr) : Except (BitVec 16) Instr := need (zeroBits w 2 0) 1 (need (engOk fn a t) 2 (.ok i))
  match fn with
  | 0 => ok (.cpyG2g a d t e)
  | 1 => ok (.cpyG2s a d t e)
  | 2 => ok (.cpyS2g a d t e)
  | 3 => ok (.cpyS2s a d t e)
  | 4 => ok (.gtx a d t e)
  | 5 => ok (.gth a d t e)
  | 6 => ok (.pxst a d t e)
  | 7 => ok (.pxcp a d t e)
  | 8 => ok (.strmInG a d t e)
  | 9 => ok (.strmInS a d t e)
  | 10 => ok (.strmInW a d t e)
  | 11 => ok (.strmOutG a d t e)
  | 12 => ok (.strmOutS a d t e)
  | _ => unassigned

/-- Majors 0x33, 0x34 and 0x36 (R90, R97, R232). -/
def decodeFab (w : BitVec 32) : Except (BitVec 16) Instr :=
  let d := fld w 20 6
  let a := fld w 14 6
  let t := fld w 8 2
  let n := fld w 8 4
  let noD := zeroBits w 25 20
  let noA := zeroBits w 19 14 && zeroBits w 7 6
  match w.toNat / 2 ^ 26 with
  | 0x33 =>
    match w.toNat % 64 with
    | 0 => need (noD && zeroBits w 13 12 && zeroBits w 6 6) 1 (.ok (.cfsw a (flag w 7) (fld w 10 2) t))
    | 1 => need (noA && zeroBits w 13 10) 1 (.ok (.thst d t))
    | 2 => need (noD && noA && zeroBits w 13 10) 1 (.ok (.thwt t))
    | 3 => need (noD && noA && zeroBits w 13 12) 1 (.ok (.acz n))
    | 4 => need (noA && zeroBits w 13 12) 1 (.ok (.acrd d n))
    | 5 => need (noD && noA && zeroBits w 13 10) 1 (.ok (.mrk t))
    | 6 => need (zeroBits w 13 8 && zeroBits w 6 6) 1 (.ok (.gsq d a (flag w 7)))
    | 7 => need (noA && zeroBits w 13 12) 1 (.ok (.stk d n))
    | _ => unassigned
  | 0x34 =>
    need (zeroBits w 12 3) 1
      (if flag w 2 then .ok (.cfgKill d a (flag w 13) (fld w 0 2)) else .ok (.cfg d a (flag w 13) (fld w 0 2)))
  | 0x36 =>
    match w.toNat % 64 with
    | 0 => need (zeroBits w 19 6) 1 (.ok (.mchk d))
    | 1 => need (zeroBits w 19 6) 1 (.ok (.msig d))
    | _ => unassigned
  | _ => unassigned

/-- Major 0x35 (R96, R232). -/
def decodeMxe (w : BitVec 32) : Except (BitVec 16) Instr :=
  let a := fld w 14 6
  let d := fld w 8 6
  let e := flag w 3
  let s := fld w 0 2
  let lim := (a.toNat ≤ 60 && w.toNat / 16 % 16 = 8 : Bool)
  let ok (i : Instr) : Except (BitVec 16) Instr := need (zeroBits w 2 0) 1 (need lim 2 (.ok i))
  let okS (i : Instr) : Except (BitVec 16) Instr := need (zeroBits w 2 2) 1 (need lim 2 (.ok i))
  match w.toNat / 2 ^ 20 % 64 with
  | 0 => ok (.mldb a d e)
  | 1 => ok (.mldbT a d e)
  | 2 => okS (.mma a d e s)
  | 3 => okS (.mmat a d e s)
  | 4 => ok (.mdrn a d e)
  | 5 => ok (.mclr a d e)
  | 6 => ok (.mscl a d e)
  | 7 => ok (.mzb a d e)
  | _ => unassigned

/-- Major 0x3E (R99). -/
def decodeSys (w : BitVec 32) : Except (BitVec 16) Instr :=
  let d := fld w 20 6
  let a := fld w 14 6
  let e := flag w 13
  let c := fld w 6 6
  let noD := zeroBits w 25 20
  let noA := zeroBits w 19 13
  let no12 := zeroBits w 12 12
  let noC := zeroBits w 11 6
  match w.toNat % 64 with
  | 0 => need (zeroBits w 25 6) 1 (.ok .nop)
  | 1 => need (zeroBits w 25 12) 1 (.ok (.trap c))
  | 2 => need (zeroBits w 25 6) 1 (.ok .eret)
  | 3 => need (noA && no12) 1 (need (c.toNat ≤ 16) 2 (.ok (.mfs d c)))
  | 4 => need (noD && no12) 1 (need (c.toNat ≤ 16) 2 (need (15 ≤ c.toNat) 4 (.ok (.mts a e c))))
  | 5 => need (zeroBits w 25 12) 1 (.ok (.brk c))
  | 6 => need (noD && no12 && noC) 1 (.ok (.glnt a e))
  | 7 => need (no12 && noC) 1 (.ok (.dgst d a e))
  | 8 =>
    need (zeroBits w 25 12) 1
      (match c.toNat with
       | 0 => .ok .fenceCore
       | 1 => .ok .fenceTeam
       | 2 => .ok .fenceDevice
       | 3 => .ok .fenceSystem
       | _ => .error 2)
  | _ => unassigned

/-- Decode a word, with the word behind it for a LONG instruction (R83, R88, R100; log 80, log 109). -/
def decodeWord (w : BitVec 32) (next : Option (BitVec 32)) : Except (BitVec 16) Instr :=
  let mj := w.toNat / 2 ^ 26
  if mj = 0 then unassigned
  else if mj = 1 then decodeInt w
  else if mj ≤ 0x0F then decodeImm w
  else if mj ≤ 0x17 then decodeMid w next
  else if mj ≤ 0x1C then decodeFlow w
  else if mj ≤ 0x1F then unassigned
  else if mj ≤ 0x2E then decodeMem w
  else if mj ≤ 0x31 then decodeSync w
  else if mj = 0x32 then decodeEng w
  else if mj = 0x35 then decodeMxe w
  else if mj ≤ 0x36 then decodeFab w
  else if mj = 0x3E then decodeSys w
  else unassigned

/-- The little-endian word at the start of a byte list, if four bytes stand there (R83). -/
def wordOfBytes (bs : List Byte) : Option (BitVec 32) :=
  if bs.length < 4 then none else some (BitVec.ofNat 32 (leNat (bs.take 4)))

/-- Whether an instruction takes two words (R83). -/
def Instr.isLong : Instr → Bool
  | .li .. => true
  | .lui .. => true
  | _ => false

/-- Length in bytes of an instruction (R83). -/
def Instr.size (i : Instr) : Nat := if i.isLong then 8 else 4

/-- Decode an instruction from bytes in ascending offset order, with the bytes behind it; a fetch past the end is DETAIL
0x0003 (R102). -/
def decodeBytes (bs : List Byte) : Except (BitVec 16) (Instr × List Byte) :=
  match wordOfBytes bs with
  | none => .error 3
  | some w =>
    match decodeWord w (wordOfBytes (bs.drop 4)) with
    | .ok i => .ok (i, bs.drop i.size)
    | .error d => .error d

/-- The instruction that the decoder reads from a table word of nbits bits, later words zero (log 109). -/
def decodeTableWord (nbits w : Nat) : Option Instr :=
  match decodeBytes (leBytes 8 (w % 2 ^ nbits)) with
  | .ok (i, _) => some i
  | .error _ => none

/-! ## The encoder -/

/-- RR layout (R84). -/
def packRR (mj : Nat) (d a b : Reg) (e f : Bool) (fn : Nat) : BitVec 32 :=
  BitVec.ofNat 32 (mj * 2 ^ 26 + d.toNat * 2 ^ 20 + a.toNat * 2 ^ 14 + b.toNat * 2 ^ 8 + b2n e * 2 ^ 7 + b2n f * 2 ^ 6 + fn)

/-- RI layout (R84). -/
def packRI (mj : Nat) (d a : Reg) (e : Bool) (imm : Nat) : BitVec 32 :=
  BitVec.ofNat 32 (mj * 2 ^ 26 + d.toNat * 2 ^ 20 + a.toNat * 2 ^ 14 + b2n e * 2 ^ 13 + imm)

/-- MEM layout (R84). -/
def packMem (mj : Nat) (t a : Reg) (e : Bool) (s h : Nat) (o : BitVec 9) : BitVec 32 :=
  BitVec.ofNat 32
    (mj * 2 ^ 26 + t.toNat * 2 ^ 20 + a.toNat * 2 ^ 14 + b2n e * 2 ^ 13 + s * 2 ^ 11 + h * 2 ^ 9 + o.toNat)

/-- CMP layouts (R84): the rest holds bits 19 to 0. -/
def packCmp (mj : Nat) (p c : BitVec 3) (rest : Nat) : BitVec 32 :=
  BitVec.ofNat 32 (mj * 2 ^ 26 + p.toNat * 2 ^ 23 + c.toNat * 2 ^ 20 + rest)

/-- ENG layout (R84). -/
def packEng (mj fn : Nat) (a d : Reg) (t : BitVec 4) (e : Bool) (q : Nat) : BitVec 32 :=
  BitVec.ofNat 32
    (mj * 2 ^ 26 + fn * 2 ^ 20 + a.toNat * 2 ^ 14 + d.toNat * 2 ^ 8 + t.toNat * 2 ^ 4 + b2n e * 2 ^ 3 + q)

/-- SYS layout (R84). -/
def packSys (d a : Reg) (e : Bool) (c fn : Nat) : BitVec 32 :=
  BitVec.ofNat 32 (0x3E * 2 ^ 26 + d.toNat * 2 ^ 20 + a.toNat * 2 ^ 14 + b2n e * 2 ^ 13 + c * 2 ^ 6 + fn)

/-- The words of a well-formed instruction (R84–R99). A row without a word has none (log 109). -/
def encode : Instr → List (BitVec 32)
  | .add d a b e f => [packRR 1 d a b e f 0]
  | .sub d a b e f => [packRR 1 d a b e f 1]
  | .mul d a b e f => [packRR 1 d a b e f 2]
  | .mulh d a b e f => [packRR 1 d a b e f 3]
  | .mulhu d a b e f => [packRR 1 d a b e f 4]
  | .div d a b e f => [packRR 1 d a b e f 5]
  | .divu d a b e f => [packRR 1 d a b e f 6]
  | .rem d a b e f => [packRR 1 d a b e f 7]
  | .remu d a b e f => [packRR 1 d a b e f 8]
  | .and d a b e f => [packRR 1 d a b e f 16]
  | .or d a b e f => [packRR 1 d a b e f 17]
  | .xor d a b e f => [packRR 1 d a b e f 18]
  | .shl d a b e f => [packRR 1 d a b e f 24]
  | .shr d a b e f => [packRR 1 d a b e f 25]
  | .sar d a b e f => [packRR 1 d a b e f 26]
  | .rol d a b e f => [packRR 1 d a b e f 27]
  | .min d a b e f => [packRR 1 d a b e f 32]
  | .max d a b e f => [packRR 1 d a b e f 33]
  | .minu d a b e f => [packRR 1 d a b e f 34]
  | .maxu d a b e f => [packRR 1 d a b e f 35]
  | .clz d a e => [packRR 1 d a 0 e false 40]
  | .ctz d a e => [packRR 1 d a 0 e false 41]
  | .popc d a e => [packRR 1 d a 0 e false 42]
  | .mov d a e => [packRR 1 d a 0 e false 48]
  | .addi d a e i => [packRI 2 d a e i.toNat]
  | .andi d a e i => [packRI 3 d a e i.toNat]
  | .ori d a e i => [packRI 4 d a e i.toNat]
  | .xori d a e i => [packRI 5 d a e i.toNat]
  | .shli d a e n => [packRI 6 d a e n.toNat]
  | .shri d a e n => [packRI 7 d a e n.toNat]
  | .sari d a e n => [packRI 8 d a e n.toNat]
  | .roli d a e n => [packRI 9 d a e n.toNat]
  | .sext d a e n => [packRI 10 d a e n.toNat]
  | .zext d a e n => [packRI 11 d a e n.toNat]
  | .bfx d a e l p => [packRI 0x0C d a e (l.toNat * 2 ^ 6 + p.toNat)]
  | .bfi d a e l p => [packRI 0x0D d a e (l.toNat * 2 ^ 6 + p.toNat)]
  | .wfld d a e i => [packRI 0x0E d a e i.toNat]
  | .wcmb d a e i => [packRI 0x0F d a e i.toNat]
  | .sel d a b e f p => [packRR 0x10 d a b e f p.toNat]
  | .lea d a b e f s => [packRR 0x11 d a b e f s.toNat]
  | .li d i => [packRR 0x12 d 0 0 false false 0, i]
  | .lui d i => [packRR 0x12 d 0 0 false false 1, i]
  | .cmp p c a b e f => [packCmp 0x13 p c (a.toNat * 2 ^ 14 + b.toNat * 2 ^ 8 + b2n e * 2 ^ 7 + b2n f * 2 ^ 6)]
  | .cmpi p c a e i => [packCmp 0x14 p c (a.toNat * 2 ^ 14 + b2n e * 2 ^ 13 + i.toNat)]
  | .pand d a b => [packCmp 0x15 d a (b.toNat * 2 ^ 17)]
  | .por d a b => [packCmp 0x15 d a (b.toNat * 2 ^ 17 + 1)]
  | .pxor d a b => [packCmp 0x15 d a (b.toNat * 2 ^ 17 + 2)]
  | .pnot d a => [packCmp 0x15 d a 3]
  | .fset d v => [packRI 0x16 d 0 false (b2n v)]
  | .fchk p a => [packCmp 0x17 p 0 (a.toNat * 2 ^ 14)]
  | .br p n d => [packCmp 0x18 p 0 (b2n n * 2 ^ 22 + d.toNat)]
  | .jmp d => [packCmp 0x19 0 0 d.toNat]
  | .jal r d => [packRI 0x1A r 0 false d.toNat]
  | .jr a e => [packRR 0x1B 0 a 0 e false 0]
  | .ret => [packRR 0x1B 0 0 0 false false 1]
  | .loop a e l => [packRI 0x1C 0 a e l.toNat]
  | .ld t a e s h o => [packMem 0x20 t a e s.toNat h.toNat o]
  | .st t a e s h o => [packMem 0x21 t a e s.toNat h.toNat o]
  | .ldp t a e s o => [packMem 0x22 t a e s.toNat 0 o]
  | .stp t a e s o => [packMem 0x23 t a e s.toNat 0 o]
  | .ldw t a e s o => [packMem 0x24 t a e s.toNat 0 o]
  | .prf a e h o => [packMem 0x25 0 a e 0 h.toNat o]
  | .amo d a b e f s o => [packRR 0x26 d a b e f (s.toNat * 2 ^ 4 + o.toNat)]
  | .amoo d a b e f s o => [packRR 0x27 d a b e f (s.toNat * 2 ^ 4 + o.toNat)]
  | .amof d a b e f s o => [packRR 0x28 d a b e f (s.toNat * 2 ^ 4 + o.toNat)]
  | .amop d a b e f s o => [packRR 0x29 d a b e f (s.toNat * 2 ^ 4 + o.toNat)]
  | .cas d a b e f s => [packRR 0x2A d a b e f (s.toNat * 2 ^ 4)]
  | .disc a b e f => [packRR 0x2B 0 a b e f 0]
  | .tset a e => [packRR 0x2C 0 a 0 e false 0]
  | .cmt => [packRR 0x2C 0 0 0 false false 1]
  | .abrt => [packRR 0x2C 0 0 0 false false 2]
  | .tsrd d a e => [packRR 0x2C d a 0 e false 3]
  | .seal d => [packRR 0x2D d 0 0 false false 0]
  | .sealw a e => [packRR 0x2D 0 a 0 e false 1]
  | .xwr t a e s o => [packMem 0x2E t a e (2 + s.toNat) 0 o]
  | .barr => [packRR 0x2F 0 0 0 false false 0]
  | .barrCarve a e => [packRR 0x2F 0 a 0 e false 1]
  | .syarm a b e f => [packRR 0x2F 0 a b e f 2]
  | .sywait a b e f => [packRR 0x2F 0 a b e f 3]
  | .sywaitImm a e g => [packRI 0x30 0 a e g.toNat]
  | .tlwait n a e => [packRR 0x2F (n.setWidth 6) a 0 e false 4]
  | .mwait a b e f => [packRR 0x2F 0 a b e f 5]
  | .hpush a b e f => [packRR 0x31 0 a b e f 0]
  | .hpop d => [packRR 0x31 d 0 0 false false 1]
  | .lnch d a e => [packRR 0x31 d a 0 e false 2]
  | .lnchw d a e => [packRR 0x31 d a 0 e false 3]
  | .yield => [packRR 0x31 0 0 0 false false 4]
  | .halt => [packRR 0x31 0 0 0 false false 5]
  | .cpyG2g a d t e => [packEng 0x32 0 a d t e 0]
  | .cpyG2s a d t e => [packEng 0x32 1 a d t e 0]
  | .cpyS2g a d t e => [packEng 0x32 2 a d t e 0]
  | .cpyS2s a d t e => [packEng 0x32 3 a d t e 0]
  | .gtx a d t e => [packEng 0x32 4 a d t e 0]
  | .gth a d t e => [packEng 0x32 5 a d t e 0]
  | .pxst a d t e => [packEng 0x32 6 a d t e 0]
  | .pxcp a d t e => [packEng 0x32 7 a d t e 0]
  | .strmInG a d t e => [packEng 0x32 8 a d t e 0]
  | .strmInS a d t e => [packEng 0x32 9 a d t e 0]
  | .strmInW a d t e => [packEng 0x32 10 a d t e 0]
  | .strmOutG a d t e => [packEng 0x32 11 a d t e 0]
  | .strmOutS a d t e => [packEng 0x32 12 a d t e 0]
  | .cfsw a e n t => [packRR 0x33 0 a 0 e false (n.toNat * 2 ^ 10 + t.toNat * 2 ^ 8)]
  | .thst d t => [packRR 0x33 d 0 0 false false (t.toNat * 2 ^ 8 + 1)]
  | .thwt t => [packRR 0x33 0 0 0 false false (t.toNat * 2 ^ 8 + 2)]
  | .acz n => [packRR 0x33 0 0 0 false false (n.toNat * 2 ^ 8 + 3)]
  | .acrd d n => [packRR 0x33 d 0 0 false false (n.toNat * 2 ^ 8 + 4)]
  | .mrk t => [packRR 0x33 0 0 0 false false (t.toNat * 2 ^ 8 + 5)]
  | .gsq d a e => [packRR 0x33 d a 0 e false 6]
  | .stk d n => [packRR 0x33 d 0 0 false false (n.toNat * 2 ^ 8 + 7)]
  | .cfg d a e t => [packRI 0x34 d a e t.toNat]
  | .cfgKill d a e t => [packRI 0x34 d a e (4 + t.toNat)]
  | .mldb a d e => [packEng 0x35 0 a d 8 e 0]
  | .mldbT a d e => [packEng 0x35 1 a d 8 e 0]
  | .mma a d e s => [packEng 0x35 2 a d 8 e s.toNat]
  | .mmat a d e s => [packEng 0x35 3 a d 8 e s.toNat]
  | .mdrn a d e => [packEng 0x35 4 a d 8 e 0]
  | .mclr a d e => [packEng 0x35 5 a d 8 e 0]
  | .mscl a d e => [packEng 0x35 6 a d 8 e 0]
  | .mzb a d e => [packEng 0x35 7 a d 8 e 0]
  | .mchk d => [packRR 0x36 d 0 0 false false 0]
  | .msig d => [packRR 0x36 d 0 0 false false 1]
  | .nop => [packSys 0 0 false 0 0]
  | .trap n => [packSys 0 0 false n.toNat 1]
  | .eret => [packSys 0 0 false 0 2]
  | .mfs d s => [packSys d 0 false s.toNat 3]
  | .mts a e s => [packSys 0 a e s.toNat 4]
  | .brk n => [packSys 0 0 false n.toNat 5]
  | .glnt a e => [packSys 0 a e 0 6]
  | .dgst d a e => [packSys d a e 0 7]
  | .fenceCore => [packSys 0 0 false 0 8]
  | .fenceTeam => [packSys 0 0 false 1 8]
  | .fenceDevice => [packSys 0 0 false 2 8]
  | .fenceSystem => [packSys 0 0 false 3 8]
  | _ => []

/-- The bytes of a well-formed instruction, in ascending offset order (R83). -/
def encodeBytes (i : Instr) : List Byte := (encode i).flatMap (fun w => leBytes 4 w.toNat)

end Sys2Proof
end

