-- ==== Sys2Proof/Machine/Keccak.lean ====
section
/-! DEFINITION. SHAKE256 of FIPS 202, which R82, R181, R319, R321 and R323 name. The standard's own tables are PRESUMED
(log 4). -/

namespace Sys2Proof.Machine

/-- Round constants of Keccak-f[1600]. -/
def keccakRC : List (BitVec 64) :=
  [0x0000000000000001#64, 0x0000000000008082#64, 0x800000000000808A#64, 0x8000000080008000#64,
   0x000000000000808B#64, 0x0000000080000001#64, 0x8000000080008081#64, 0x8000000000008009#64,
   0x000000000000008A#64, 0x0000000000000088#64, 0x0000000080008009#64, 0x000000008000000A#64,
   0x000000008000808B#64, 0x800000000000008B#64, 0x8000000000008089#64, 0x8000000000008003#64,
   0x8000000000008002#64, 0x8000000000000080#64, 0x000000000000800A#64, 0x800000008000000A#64,
   0x8000000080008081#64, 0x8000000000008080#64, 0x0000000080000001#64, 0x8000000080008008#64]

/-- Rotation offsets, lane x + 5y. -/
def keccakRot : List Nat :=
  [0, 1, 62, 28, 27, 36, 44, 6, 55, 20, 3, 10, 43, 25, 39, 41, 45, 15, 21, 8, 18, 2, 61, 56, 14]

/-- One round on 25 lanes (θ, ρ, π, χ, ι). -/
def keccakRound (a : List (BitVec 64)) (rc : BitVec 64) : List (BitVec 64) :=
  let at' (l : List (BitVec 64)) (i : Nat) : BitVec 64 := l.getD i 0
  let c := tabulate 5 (fun x => at' a x ^^^ at' a (x + 5) ^^^ at' a (x + 10) ^^^ at' a (x + 15) ^^^ at' a (x + 20))
  let d := tabulate 5 (fun x => at' c ((x + 4) % 5) ^^^ (at' c ((x + 1) % 5)).rotateLeft 1)
  let th := tabulate 25 (fun i => at' a i ^^^ at' d (i % 5))
  -- lane (x, y) of B is lane (x + 3y mod 5, x) of θ's output, rotated
  let b := tabulate 25 (fun i =>
    let x := i % 5
    let y := i / 5
    let j := (x + 3 * y) % 5 + 5 * x
    (at' th j).rotateLeft (keccakRot.getD j 0))
  let ch := tabulate 25 (fun i =>
    let x := i % 5
    let y := i / 5
    at' b i ^^^ ((~~~ at' b ((x + 1) % 5 + 5 * y)) &&& at' b ((x + 2) % 5 + 5 * y)))
  match ch with
  | [] => []
  | l :: ls => (l ^^^ rc) :: ls

/-- Keccak-f[1600]. -/
def keccakF (a : List (BitVec 64)) : List (BitVec 64) := keccakRC.foldl keccakRound a

/-- XOR a block of lanes into the state. -/
def xorLanes : List (BitVec 64) → List (BitVec 64) → List (BitVec 64)
  | a :: as, b :: bs => (a ^^^ b) :: xorLanes as bs
  | as, _ => as

/-- The lanes of a byte string, n of them. -/
def lanesOf : Nat → List Byte → List (BitVec 64)
  | 0, _ => []
  | n + 1, bs => BitVec.ofNat 64 (leNat (bs.take 8)) :: lanesOf n (bs.drop 8)

/-- Absorb full blocks of 136 bytes. -/
def shakeAbsorb : Nat → List Byte → List (BitVec 64) → List (BitVec 64)
  | 0, _, s => s
  | n + 1, bs, s => shakeAbsorb n (bs.drop 136) (keccakF (xorLanes s (lanesOf 17 (bs.take 136))))

/-- Pad a message to a multiple of 136 bytes with SHAKE's suffix 1111 and pad10*1. -/
def shakePad (msg : List Byte) : List Byte :=
  let r := msg.length % 136
  if r = 135 then msg ++ [0x9F#8]
  else msg ++ [0x1F#8] ++ List.replicate (134 - r) 0#8 ++ [0x80#8]

/-- The first n ≤ 136 bytes of SHAKE256. -/
def shake256 (n : Nat) (msg : List Byte) : List Byte :=
  let p := shakePad msg
  let s := shakeAbsorb (p.length / 136) p (List.replicate 25 0#64)
  (s.flatMap (fun l => leBytes 8 l.toNat)).take n

/-- The first 8 bytes of SHAKE256, read as a little-endian number (R181, R319, R323). -/
def shakeWord (msg : List Byte) : Word := BitVec.ofNat 64 (leNat (shake256 8 msg))

end Sys2Proof.Machine
end

