-- ==== Sys2Proof/Machine/Num.lean ====
section
/-! DEFINITION. Number formats and arithmetic (R57–R82): exact values, one rounding, overflow, MX blocks, conversions. -/

namespace Sys2Proof.Machine

/-- An exact value: NaN, an infinity, or ±m·2^e. A finite value with m = 0 is a zero with its sign (R59, R63). -/
inductive Num where
  | nan
  | inf (neg : Bool)
  | fin (neg : Bool) (m : Nat) (e : Int)
  deriving DecidableEq, Repr

/-- Width in bits of a format code (R57). -/
def fmtWidth : Nat → Nat
  | 0 => 64 | 1 => 32 | 2 => 16 | 3 => 16 | 4 => 8 | 5 => 8 | 6 => 6 | 7 => 6 | 8 => 4 | 9 => 8
  | 10 => 32 | 11 => 8 | 12 => 4 | 13 => 2 | 14 => 4 | _ => 8

/-- Exponent bits, fraction bits and bias of a floating format (R58). -/
def floatSpec : Nat → Option (Nat × Nat × Nat)
  | 0 => some (11, 52, 1023) | 1 => some (8, 23, 127) | 2 => some (5, 10, 15) | 3 => some (8, 7, 127)
  | 4 => some (5, 2, 15) | 5 => some (4, 3, 7) | 6 => some (3, 2, 3) | 7 => some (2, 3, 1) | 8 => some (2, 1, 1)
  | _ => none

/-- Whether the format has infinities (R58): FP64, FP32, FP16, BF16, E5M2. -/
def hasInf (f : Nat) : Bool := f ≤ 4

/-- The integer formats and their widths (R69). -/
def intWidth : Nat → Option Nat
  | 10 => some 32 | 11 => some 8 | 12 => some 4 | _ => none

/-- The numeric formats of R423. -/
def isNumeric (f : Nat) : Bool := f ≤ 8 || f = 10 || f = 11 || f = 12

/-- The canonical NaN of a format (R60); formats without NaN have none, and 0 stands in their place. -/
def canonNaN : Nat → Nat
  | 0 => 0x7FF8000000000000 | 1 => 0x7FC00000 | 2 => 0x7E00 | 3 => 0x7FC0 | 4 => 0x7E | 5 => 0x7F | _ => 0

/-- An integer as an exact value. -/
def numOfInt (v : Int) : Num := .fin (v < 0) v.natAbs 0

/-- The exact value of an encoding (R59, R60, R67, R69). A TERN 10 or INCR 1000 contributes nothing (R69). -/
def decodeNum (f bits : Nat) : Num :=
  match floatSpec f with
  | some (eb, mb, bias) =>
    let m := bits % 2 ^ mb
    let e := (bits / 2 ^ mb) % 2 ^ eb
    let s := bitAt bits (eb + mb)
    if hasInf f && e == 2 ^ eb - 1 then (if m = 0 then .inf s else .nan)
    else if f == 5 && e == 15 && m == 7 then .nan
    else if e = 0 then .fin s m (1 - bias - mb)
    else .fin s (m + 2 ^ mb) ((e : Int) - bias - mb)
  | none =>
    match intWidth f with
    | some w => numOfInt (signedOf w bits)
    | none =>
      match f with
      | 9 => if bits % 256 = 255 then .nan else .fin false 1 ((bits % 256 : Int) - 127)
      | 13 => if bits % 4 = 1 then .fin false 1 0 else if bits % 4 = 3 then .fin true 1 0 else .fin false 0 0
      | 14 => if bits % 16 = 8 then .fin false 0 0 else numOfInt (signedOf 4 bits)
      | _ => .fin false (bits % 256) 0

/-- Signed mantissa of a finite value at exponent e0 ≤ e. -/
def mantAt (neg : Bool) (m : Nat) (e e0 : Int) : Int :=
  let v : Int := (m * 2 ^ (e - e0).toNat : Nat)
  if neg then -v else v

/-- Exact sum, with R61's specials and R63's sign of an exact zero; rd is true under RD. -/
def numAdd (rd : Bool) : Num → Num → Num
  | .nan, _ => .nan
  | _, .nan => .nan
  | .inf s, .inf t => if s = t then .inf s else .nan
  | .inf s, .fin .. => .inf s
  | .fin .., .inf s => .inf s
  | .fin s m e, .fin t n d =>
    let e0 := if e < d then e else d
    let v := mantAt s m e e0 + mantAt t n d e0
    if v = 0 then
      if m = 0 && n = 0 && s == t then .fin s 0 0 else .fin rd 0 0
    else .fin (v < 0) v.natAbs e0

/-- The value with its sign inverted. -/
def numNeg : Num → Num
  | .nan => .nan
  | .inf s => .inf (!s)
  | .fin s m e => .fin (!s) m e

/-- The value with its sign cleared. -/
def numAbs : Num → Num
  | .nan => .nan
  | .inf _ => .inf false
  | .fin _ m e => .fin false m e

/-- Exact product (R71), with R61's specials. -/
def numMul : Num → Num → Num
  | .nan, _ => .nan
  | _, .nan => .nan
  | .inf s, .inf t => .inf (s != t)
  | .inf s, .fin t m _ => if m = 0 then .nan else .inf (s != t)
  | .fin s m _, .inf t => if m = 0 then .nan else .inf (s != t)
  | .fin s m e, .fin t n d => .fin (s != t) (m * n) (e + d)

/-- Multiplication by 2^k, exact. -/
def numScale (k : Int) : Num → Num
  | .fin s m e => .fin s m (e + k)
  | x => x

/-- a < b for values that are not NaN. −0 and +0 compare equal. -/
def numLt : Num → Num → Bool
  | .nan, _ => false
  | _, .nan => false
  | .inf s, .inf t => s && !t
  | .inf s, .fin .. => s
  | .fin .., .inf t => !t
  | .fin s m e, .fin t n d =>
    let e0 := if e < d then e else d
    decide (mantAt s m e e0 < mantAt t n d e0)

/-- a = b by R61: NaN equals nothing, −0 equals +0. -/
def numEq (a b : Num) : Bool :=
  match a, b with
  | .nan, _ => false
  | _, .nan => false
  | a, b => !numLt a b && !numLt b a

/-- Whether the value is negative or a negative zero. -/
def numSign : Num → Bool
  | .nan => false
  | .inf s => s
  | .fin s _ _ => s

/-- Minimum by R61. -/
def numMin (a b : Num) : Num :=
  if a = .nan || b = .nan then .nan
  else if numLt a b then a else if numLt b a then b else if numSign a then a else b

/-- Maximum by R61. -/
def numMax (a b : Num) : Num :=
  if a = .nan || b = .nan then .nan
  else if numLt b a then a else if numLt a b then b else if numSign a then b else a

/-! ## Rounding -/

/-- Rounding modes by their RM code (R63): 0 RNE, 1 RZ, 2 RU, 3 RD. Whether q + r/d (0 ≤ r < d) rounds up in magnitude. -/
def roundsUp (mode : Nat) (neg : Bool) (q r d : Nat) : Bool :=
  match mode with
  | 0 => decide (2 * r > d) || (decide (2 * r = d) && decide (q % 2 = 1))
  | 1 => false
  | 2 => !neg && decide (r ≠ 0)
  | _ => neg && decide (r ≠ 0)

/-- n/d·2^e (n, d > 0) in units of 2^q, rounded once to a natural number. -/
def roundUnits (mode : Nat) (neg : Bool) (n d : Nat) (e q : Int) : Nat :=
  let sh := e - q
  let num := if sh ≥ 0 then n * 2 ^ sh.toNat else n
  let den := if sh ≥ 0 then d else d * 2 ^ (-sh).toNat
  num / den + b2n (roundsUp mode neg (num / den) (num % den) den)

/-- floor(log2(n/d)) for n, d > 0. -/
def log2Quot (n d : Nat) : Int :=
  let k : Int := (Nat.log2 n : Int) - Nat.log2 d
  let below := if k ≥ 0 then n < d * 2 ^ k.toNat else n * 2 ^ (-k).toNat < d
  if below then k - 1 else k

/-- Largest finite encoding of a floating format, without its sign (R58). -/
def maxFinite (f : Nat) : Nat :=
  match floatSpec f with
  | some (eb, mb, _) =>
    if hasInf f then (2 ^ eb - 1) * 2 ^ mb - 1 else if f = 5 then 0x7E else 2 ^ (eb + mb) - 1
  | none => 0

/-- Encoding of an infinity in a format with infinities. -/
def infBits (f : Nat) : Nat :=
  match floatSpec f with
  | some (eb, mb, _) => (2 ^ eb - 1) * 2 ^ mb
  | none => 0

/-- Width of the magnitude part: position of the sign bit. -/
def signPos (f : Nat) : Nat := fmtWidth f - 1

/-- The result of an overflow (R64). -/
def overflowBits (f mode : Nat) (ovf neg : Bool) : Nat :=
  let s := b2n neg * 2 ^ signPos f
  if f = 4 && ovf then s + maxFinite f
  else if f = 5 then (if ovf then canonNaN 5 else s + maxFinite f)
  else if hasInf f then
    let toInf := match mode with
      | 0 => true
      | 1 => false
      | 2 => !neg
      | _ => neg
    if toInf then s + infBits f else s + maxFinite f
  else s + maxFinite f

/-- The encoding of an infinite value converted to a format (R64). -/
def infTo (f : Nat) (ovf neg : Bool) : Nat :=
  let s := b2n neg * 2 ^ signPos f
  if f = 4 && ovf then s + maxFinite f
  else if f = 5 then (if ovf then canonNaN 5 else s + maxFinite f)
  else if hasInf f then s + infBits f
  else s + maxFinite f

/-- `round(t, mode, ±n/d·2^e)` to a floating format (R63, R64), n, d > 0. -/
def roundQuot (f mode : Nat) (ovf neg : Bool) (n d : Nat) (e : Int) : Nat :=
  match floatSpec f with
  | none => 0
  | some (eb, mb, bias) =>
    let k := log2Quot n d + e
    let qmin : Int := 1 - bias - mb
    let q := if k - mb < qmin then qmin else k - mb
    let u := roundUnits mode neg n d e q
    let s := b2n neg * 2 ^ signPos f
    let (u, q) := if u = 2 ^ (mb + 1) then (2 ^ mb, q + 1) else (u, q)
    if u < 2 ^ mb then s + u
    else
      let ef := (q + mb + bias).toNat
      let mag := ef * 2 ^ mb + (u - 2 ^ mb)
      if mag > maxFinite f || ef ≥ 2 ^ eb then overflowBits f mode ovf neg else s + mag

/-- `round(t, mode, v)` to a floating format. -/
def roundFloat (f mode : Nat) (ovf : Bool) : Num → Nat
  | .nan => canonNaN f
  | .inf s => infTo f ovf s
  | .fin s m e => if m = 0 then b2n s * 2 ^ signPos f else roundQuot f mode ovf s m 1 e

/-- Round ±n/d·2^e to an integer. -/
def roundIntQuot (mode : Nat) (neg : Bool) (n d : Nat) (e : Int) : Int :=
  let u : Int := roundUnits mode neg n d e 0
  if neg then -u else u

/-- Conversion to an integer of w bits: rounding, clamping, 0 for NaN (R65); a wider integer clamps as well (log 136). -/
def roundToIntW (w mode : Nat) : Num → Int
  | .nan => 0
  | .inf s => if s then -(2 ^ (w - 1)) else 2 ^ (w - 1) - 1
  | .fin s m e => satSigned w (if m = 0 then 0 else roundIntQuot mode s m 1 e)

/-- `round(t, mode, v)` to a floating or integer target (R63–R65), as bits. -/
def roundNum (f mode : Nat) (ovf : Bool) (x : Num) : Nat :=
  match intWidth f with
  | some w => wrapOf w (roundToIntW w mode x)
  | none => roundFloat f mode ovf x

/-- Conversion between numeric formats (R65): the same code keeps its bits but for NaN (R60). -/
def convertNum (src dst mode : Nat) (ovf : Bool) (bits : Nat) : Nat := roundNum dst mode ovf (decodeNum src bits)

/-- exact(x / s) rounded to a target (R72): VQNT's division. -/
def roundDiv (f mode : Nat) (ovf : Bool) (x s : Num) : Nat :=
  match x, s with
  | .nan, _ => roundNum f mode ovf .nan
  | _, .nan => roundNum f mode ovf .nan
  | .inf _, .inf _ => roundNum f mode ovf .nan
  | .inf a, .fin b n _ => roundNum f mode ovf (.inf (if n = 0 then a else a != b))
  | .fin a _ _, .inf b => roundNum f mode ovf (.fin (a != b) 0 0)
  | .fin a m e, .fin b n d =>
    if n = 0 then (if m = 0 then roundNum f mode ovf .nan else roundNum f mode ovf (.inf a))
    else if m = 0 then roundNum f mode ovf (.fin (a != b) 0 0)
    else
      match intWidth f with
      | some w => wrapOf w (satSigned w (roundIntQuot mode (a != b) m n (e - d)))
      | none => roundQuot f mode ovf (a != b) m n (e - d)

/-! ## MX blocks -/

/-- emax of an MX element format (R68). -/
def mxEmax : Nat → Int
  | 5 => 8 | 4 => 15 | 6 => 4 | 7 => 2 | _ => 2

/-- Decode an element under an E8M0 scale byte (R67). -/
def decodeMx (f scale bits : Nat) : Num :=
  if scale % 256 = 255 then .nan else numScale ((scale % 256 : Int) - 127) (decodeNum f bits)

/-- floor(log2) of the largest finite magnitude, none when all are zero or not finite. -/
def maxLog2 : List Num → Option Int
  | [] => none
  | .fin _ m e :: xs =>
    if m = 0 then maxLog2 xs
    else
      let k : Int := (Nat.log2 m : Int) + e
      match maxLog2 xs with
      | none => some k
      | some j => some (if k < j then j else k)
  | _ :: xs => maxLog2 xs

/-- Whether a value is infinite. -/
def isInfNum : Num → Bool
  | .inf _ => true
  | _ => false

/-- Encode values as an MX block of element format f: the scale byte and the element codes (R68); the scale of a block
whose values are all infinite is 127 (log 135). -/
def encodeMx (f mode : Nat) (xs : List Num) : Nat × List Nat :=
  if xs.any (fun x => decide (x = .nan)) || (decide (f ≠ 4) && xs.any isInfNum) then (255, xs.map (fun _ => 0))
  else
    let sc : Int := match maxLog2 xs with
      | none => 127
      | some k => clampInt 0 254 (k - mxEmax f + 127)
    (sc.toNat, xs.map (fun x =>
      match x with
      | .inf s => infTo f false s
      | x =>
        -- elements of an MX block always saturate, whatever OVF (R64)
        roundFloat f mode (decide (f = 4)) (numScale (127 - sc) x)))

/-! ## Integrators and the recurrence -/

/-- DDAL: Y from a tensor value and a scale (R79); none for a NaN or infinity, which raises FMT. -/
def ddalY (mode f : Nat) (x s : Num) : Option Int :=
  match numScale f (numMul x s) with
  | .fin n m e =>
    if isInfNum x || isInfNum s then none
    else some (satSigned 48 (if m = 0 then 0 else roundIntQuot mode n m 1 e))
  | _ => none

/-- DDAO: Y sampled to format t (R80). Y = 0 gives +0. -/
def ddaoZ (t mode : Nat) (ovf : Bool) (f : Nat) (y : Int) (s : Num) : Nat :=
  if y = 0 then roundFloat t mode ovf (.fin false 0 0)
  else roundFloat t mode ovf (numScale (-(f : Int)) (numMul (numOfInt y) s))

/-- The result of one lane of an integrator firing (R77): dz, REM and Y, or none for INCOVF. -/
def integrate (w v : Nat) (carry : Bool) (y rem dx dysum : Int) : Option (Int × Int × Int) :=
  let t := rem + y * dx
  let dz := t / 2 ^ w
  let out := dz < -7 || dz > 7
  if out && !carry then none
  else
    let dz := if out then clampInt (-7) 7 dz else dz
    let nrem := t - dz * 2 ^ w
    if nrem < -(2 ^ 47) || nrem > 2 ^ 47 - 1 then none
    else some (dz, nrem, signedOf 48 (wrapOf 48 (y + dysum * 2 ^ v)))

/-- One LREC step on FP32 bits (R81). -/
def lrecStep (mode : Nat) (h x a b : Nat) (reset : Bool) : Nat :=
  let t := roundFloat 1 mode false (numMul (decodeNum 1 b) (decodeNum 1 x))
  if reset then t
  else roundFloat 1 mode false (numAdd (decide (mode = 3)) (numMul (decodeNum 1 a) (decodeNum 1 h)) (decodeNum 1 t))

end Sys2Proof.Machine
end

