-- ==== Sys2Proof/Machine/State.lean ====
section
/-! DEFINITION. The state of the module as plain data: tile tasks, teams, segments, launches, partitions, recovery and host
state, and the machine at reset. -/

namespace Sys2Proof.Machine

/-- A byte memory: (address, byte) pairs, addresses strictly rising, no zero byte (log 2). -/
abbrev Mem := List Host.Cell

/-! ## Control-core registers (R31–R40) -/

/-- Condition of a general register (R33, R132): full, pending (a fill is on its way) or void. -/
inductive RegCond where
  | full | pending | void
  deriving DecidableEq, Repr

/-- An entry of the loop stack (R128): body start, end offset and trips left. -/
structure LoopEntry where
  start : Nat
  stop : Nat
  left : Nat
  deriving DecidableEq, Repr

/-- The registers of a tile task that follow the snapshot (R44, R131, R354). -/
structure Regs where
  g : Vector Word 64
  cond : Vector RegCond 64
  poisonG : BitVec 64
  p : BitVec 8
  poisonP : BitVec 8
  pc : Nat
  loops : List LoopEntry
  handler : Bool
  ts : Word
  seq : Word
  dgs : Word
  tcause : Word
  taddr : Word
  tval : Word
  epc : Word
  tvec : Word
  poisonSr : BitVec 17
  glintK : Nat
  glintMark : Bool
  deriving DecidableEq, Repr

/-! ## Fills, engine commands, timelines (R33, R42, R169) -/

/-- What a pending fill brings when it arrives (R33). -/
inductive FillSrc where
  | value (v : Word) (poison : Bool)
  | pair (v w : Word)
  | amoo
  | stk (n : BitVec 4)
  | append
  | status
  deriving DecidableEq, Repr

/-- A pending fill of a long-latency producer. -/
structure Fill where
  rd : Reg
  src : FillSrc
  deriving DecidableEq, Repr

/-- The engine commands (R96). -/
inductive CmdKind where
  | cpyG2g | cpyG2s | cpyS2g | cpyS2s | gtx | gth | pxst | pxcp
  | strmInG | strmInS | strmInW | strmOutG | strmOutS
  | mldb | mldbT | mma | mmat | mdrn | mclr | mscl | mzb
  deriving DecidableEq, Repr

/-- An engine command in a chain: its number, words, the segment it belongs to, and its progress. `buf` holds bytes that it took
as it issued or started, `bad` whether they are poisoned, `tab` GTX's copy of its table, `src` the source bytes that it has read, with their poison (R344),
`short` that the thicket which feeds it has completed (R240). -/
structure Cmd where
  num : Nat
  kind : CmdKind
  q : BitVec 3
  w0 : Word
  w1 : Word
  w2 : Word
  w3 : Word
  seg : Word
  pos : Nat
  acked : Nat
  started : Bool
  cancelled : Bool
  stall : Option Nat
  buf : List Byte
  tab : Option StencilTable
  src : List (Byte × Bool)
  short : Bool
  bad : Bool
  deriving DecidableEq, Repr

/-- A timeline counter with its context's chain (R42): the counter, the last number issued, the commands not completed, and
numbers completed ahead of the counter. -/
structure Timeline where
  count : Word
  issued : Word
  cmds : List Cmd
  done : List Nat
  deriving DecidableEq, Repr

/-- An engine command issued and not yet appended (R169). -/
structure Append where
  rd : Reg
  tl : BitVec 4
  cmd : Cmd
  deriving DecidableEq, Repr

/-! ## Tokens, ports, elements (R183–R224, R284) -/

/-- Token kinds (R184). -/
inductive Kind where
  | data | scale | state | eos | round | ckpt | bal
  deriving DecidableEq, Repr

/-- A token with its side band (R183). -/
structure Token where
  kind : Kind
  payload : BitVec 512
  head : Bool
  tail : Bool
  vmask : BitVec 16
  rmask : BitVec 16
  sbx : BitVec 32
  poison : Bool
  deriving DecidableEq, Repr

/-- A buffer entry with its pending-consumer mask (R284): bits 4 west, 3 north, 2 east, 1 south, 0 SNK. It keeps its side of the
buffer (R205, R207) and the pattern that produced it, whose delivery it goes to (R283). -/
structure Entry where
  tok : Token
  mask : BitVec 5
  alt : Bool
  pat : Pattern
  deriving DecidableEq, Repr

/-- One lane of an integrator bank (R76, R217). -/
structure Lane where
  y : Int
  rem : Int
  dz : Int
  deriving DecidableEq, Repr

/-- An element's own state (R224). -/
inductive Own where
  | none
  | lut (tab : List (BitVec 32))
  | red (vals : List Nat) (head : Bool)
  | scn (s : Option Nat)
  | dup (left : Nat)
  | hold (tok : Token)
  | fair (p : Nat) (inRec : Option Nat)
  | reci (occ : Nat)
  | rate (tok : Option Token) (cur : Nat)
  | ctrn (buf : List Token)
  | swin (pix : List Nat)
  | fifo (toks : List Token) (tail : Nat)
  | txq (reqs : List (Token × Option Token))
  | eos (n : Nat)
  | cnt (data : Nat) (eos : Nat)
  | ddai (step : Nat) (count : Nat) (dzs : List (List Int)) (loaded : Bool)
  | ddal (vals : List Int)
  | ddao (half : Token)
  | incs (q : List Int) (step : Nat) (out : List (List Int))
  | lrec (h : List Nat)
  | tsel (f : Nat)
  | vals (xs : List (Nat × Bool)) (head : Bool)
  deriving DecidableEq, Repr

/-- What a sink point latches as it consumes a BAL (R359): accumulator lanes and flag, the byte position of its STRM.OUT with
the tokens that wait for it, the tokens that STK and MMA have taken, and its EOS count. -/
structure SinkLatch where
  acc : List (BitVec 32)
  sat : Bool
  bad : Bool
  pos : Nat
  fifo : List Token
  taken : Nat
  eos : Bool
  deriving DecidableEq, Repr

/-- The state that an element latches as it consumes a BAL (R359); `sink` tells that a sink point is to latch too, and `snk` is what
it latched. -/
structure BalLatch where
  seq : Nat
  active : BitVec 2
  rounds : Nat
  own : Own
  kept : List (Nat × Own)
  bank : List Lane
  held : Option Token
  dirty : Bool
  sink : Bool
  snk : Option SinkLatch
  deriving DecidableEq, Repr

/-- A pending element fault (R192): its trap cause and the lanes or address it names. -/
structure ElemFault where
  cause : Nat
  lanes : BitVec 16
  addr : Word
  delivered : Bool
  deriving DecidableEq, Repr

/-- An input of an element: latch, outstanding request, and tokens recorded as channel state (R284, R285, R369). -/
structure Input where
  latch : Option Token
  req : Bool
  chan : List Token
  deriving DecidableEq, Repr

/-- An element of a thicket. `pats` holds the planes' patterns; `out` the output entries in the order they were filled; `pend`
tokens that a firing produced and that await an output entry; `snkReq` the ports whose request is outstanding; `dirty` that its own
state derives from poison; `kept` the own state of opcodes that another plane holds (R190); `since` when it last fired (R328). -/
structure Elem where
  pats : List (Nat × Pattern)
  active : BitVec 2
  a : Input
  b : Input
  c : Input
  out : List Entry
  pend : List Entry
  snkReq : List Nat
  snkEos : Bool
  held : Option Token
  dirty : Bool
  bank : List Lane
  own : Own
  kept : List (Nat × Own)
  fault : Option ElemFault
  pendPlane : Option (BitVec 2)
  rounds : Nat
  saved : Bool
  balSeq : Nat
  bals : List BalLatch
  since : Option Word
  deriving DecidableEq, Repr

/-- Thicket states (R177, R279). -/
inductive ThState where
  | idle | loading | running | complete | saved
  deriving DecidableEq, Repr

/-- A thicket and its region controller (R279). `roundPlanes` lists the planes of the phase's rounds in order; `err` a region
error not yet answered, by its element and whether it is an imbalance; `emptied` marks a thicket saved empty, with the tokens
discarded then (R365); `lastFix`
the balance point of the last containment; `loadEnd`, `firstOut` and `lastIn` time the region log (R331); `calm` is the cycle
from which the region controller counts towards QUIESCE (R287). -/
structure Thicket where
  st : ThState
  x0 : Nat
  y0 : Nat
  w : Nat
  h : Nat
  filled : BitVec 4
  active : BitVec 2
  elems : List (Nat × Elem)
  num : Nat
  rounds : Nat
  loading : Option (BitVec 2 × List (Nat × Pattern) × Bool)
  roundPlanes : List (BitVec 2)
  marking : Bool
  stopped : Bool
  emptied : Option Nat
  checked : Nat
  disc : Nat
  events : BitVec 5
  err : Option (Nat × Bool)
  lastFix : Option Nat
  cfgClk : Word
  load : Nat
  loadEnd : Word
  firstOut : Option Word
  lastIn : Word
  calm : Option Word
  deriving DecidableEq, Repr

/-- What a source port keeps for one thicket's phase (R183, R216, R282, R359, R366): the number of the phase's first token; how many
tokens at the end of the replay buffer it delivers once more; its data tokens since the last BAL; BALs and ROUNDs injected; whether
the last data token carried TAIL, or none came; whether EOS was delivered; the BALs that its readers had passed at its first token; and
its position at each balance point (log 112); and the number of the phase. -/
structure PortPhase where
  start : Nat
  back : Nat
  since : Nat
  balSeq : Nat
  rounds : Nat
  tail : Bool
  eos : Bool
  fromSeq : Option Nat
  posAt : List (Nat × Nat)
  num : Nat
  deriving DecidableEq, Repr

/-- A source port (R41, R183, R216, R282, R368). `replay` holds the last tokens delivered, oldest first, each with the phase that a
ROUND belongs to (0 for other tokens), `base` the number of the oldest; `edge` the tokens that an edge element delivered; `cur` the
token at its head with the inputs (thicket · 512 + element key · 4 + input) that have not taken it; `inject` the markers to deliver
next, each with its thicket; `phases` what it keeps for each thicket. -/
structure SrcPort where
  replay : List (Nat × Token)
  base : Nat
  edge : List Token
  cur : Option (Token × List Nat)
  inject : List (Nat × Token)
  phases : List (Nat × PortPhase)
  deriving DecidableEq, Repr

/-- A sink port (R41, R174): tokens delivered and not yet taken, and the STK cursor; the tokens that STK and MMA have taken, and
how many of those a replay still has to deliver once more, which are dropped (R365; log 63). -/
structure SnkPort where
  fifo : List Token
  cursor : Nat
  taken : Nat
  skip : Nat
  deriving DecidableEq, Repr

/-- A fabric accumulator (R41, R179). -/
structure Acc where
  lanes : List (BitVec 32)
  sat : Bool
  cursor : Nat
  poison : Bool
  deriving DecidableEq, Repr

/-! ## The matrix engine (R226–R246) -/

/-- A B slot (R226): values by k·32 + n, scales by n·(K/32) + b; an unlisted value is zero bits. -/
structure Slot where
  fmt : Nat
  mx : Bool
  valid : Bool
  vals : List (Nat × Nat)
  scales : List (Nat × Nat)
  poison : Bool
  deriving DecidableEq, Repr

/-- Run state of an accumulator row (R227): NONE, or OPEN with shape and accumulator format. -/
inductive Run where
  | none
  | open (shape : Nat) (acc : Nat)
  deriving DecidableEq, Repr

/-- An accumulator row (R227). `vals` are the 32 entries in the held or open format; `parts` the partial sums s0 to s3 of a QUAD
run; `wide` the exact sums of an EXACT or integer run. -/
structure Row where
  vals : List Nat
  run : Run
  held : Option Nat
  valid : Bool
  sat : List Bool
  parts : List (List Nat)
  wide : List Num
  poison : Bool
  deriving DecidableEq, Repr

/-- A column-scale set (R228): 32 FP32 values. -/
structure ScaleSet where
  vals : List (BitVec 32)
  poison : Bool
  deriving DecidableEq, Repr

/-- The matrix engine of a core. Absent slots are INVALID; absent rows are clear. The issued view of R233 is computed from this
state and the commands of tl8 (log 33). `upset` counts the runs of the next tile that an error falsifies (R241; log 70). -/
structure Mxe where
  slots : List (Nat × Slot)
  rows : List (Nat × Row)
  cs0 : Option ScaleSet
  cs1 : Option ScaleSet
  sig : Word
  rerun : Nat
  err : Nat
  upset : Nat
  deriving DecidableEq, Repr

/-- Position of the graph sequencer (R250): section address, tile, node; waiting sections' counters by command number. -/
structure Gsq where
  running : Bool
  sect : Word
  tile : Nat
  node : Nat
  adds : List (Nat × Word)
  deriving DecidableEq, Repr

/-! ## Tile tasks, segments, teams -/

/-- Core slot states (R50); `unbound` is a task that holds no slot, and `gone` one that has retired and left its slot EMPTY while its
team goes on (R54). -/
inductive SlotState where
  | unbound | loading | ready | running | saving | retiring | gone
  deriving DecidableEq, Repr

/-- A pending asynchronous cause with its registers (R356). -/
structure Cause where
  cause : Nat
  detail : BitVec 16
  taddr : Word
  tval : Word
  deriving DecidableEq, Repr

/-- What a member has arrived at (R48, R151, R157, R163, R168), or the SEALW target it waits for (R384). A retiring member
keeps `halt`; LNCH and LNCHW keep the condition that their destination had before they marked it empty (R33). -/
inductive Arrival where
  | cmt
  | lnch (rd : Reg) (addr : Word) (wait : Bool) (was : RegCond)
  | halt
  | barr
  | carve (w : Word)
  | yield
  | sealw (target : Nat)
  deriving DecidableEq, Repr

/-- A byte of an exchange that has arrived and whose command has not completed (R274): sender, command, offset in the shadow bank;
`hit` when a later arrival to it has landed in the present shadow bank. -/
structure PxByte where
  sender : Nat
  num : Nat
  off : Nat
  val : Byte
  bad : Bool
  hit : Bool
  deriving DecidableEq, Repr

/-- What bytes of an engine command are known under until a wait covers it (R275): its counter and number, the sync word and memory
counter that it names, whether the bytes were counted in a generation that the sync word has passed (R160), and whether the command has added
to its counter (R162; log 115). -/
structure CmdTag where
  tl : Nat
  num : Nat
  sync : Option Nat
  ctr : Option Nat
  passed : Bool
  added : Bool
  deriving DecidableEq, Repr

/-- Scratchpad bytes that an engine command has written and that no wait of its core covers yet (R142), each with what stood there before
the write and the poison of that. -/
structure SpadHide where
  tag : CmdTag
  old : List (Nat × (Byte × Bool))
  deriving DecidableEq, Repr

/-- The state of one tile task (R44). `px` holds arrivals that no completion has landed yet (R274); `runFrom` is when the present
stretch in RUNNING began, and `ranFor` sums the earlier ones (R312); `markClk` is when the markers of the save or MRK under way entered
(R364); `entered` when the instruction at the program counter entered its first stage, while glints are sampled (R328). -/
structure Task where
  core : Nat
  slot : SlotState
  regs : Regs
  retry : Word
  tl : Vector Timeline 16
  fills : List Fill
  appends : List Append
  fi : Vector SrcPort 16
  fo : Vector SnkPort 16
  fa : Vector Acc 16
  thickets : Vector Thicket 4
  spad : Mem
  poisonS : List Nat
  poisonProg : List Nat
  hid : List SpadHide
  bank0 : Mem
  bank1 : Mem
  shadowSel : Bool
  prog : Mem
  mxe : Mxe
  gsq : Gsq
  causes : List Cause
  arrived : Option Arrival
  px : List PxByte
  runFrom : Option Nat
  ranFor : Nat
  markClk : Option Word
  entered : Option Word
  deriving DecidableEq, Repr

/-- A carve-out in granules (R20, R163). -/
structure Carve where
  prog : Nat
  spad : Nat
  replay : Nat
  dcache : Nat
  deriving DecidableEq, Repr

/-- A member's snapshot at a segment's opening barrier (R44, R229, R273); scratchpad, lit bank and carve-out serve its sync words
(R158), `px` tells which arrivals that no completion has landed a later one had overtaken by then (R274), `bad` lists the poisoned
scratchpad bytes. -/
structure Snap where
  carve : Carve
  regs : Regs
  retry : Word
  sig : Word
  rerun : Nat
  err : Nat
  shadowSel : Bool
  shadow : Mem
  lit : Mem
  spad : Mem
  px : List PxByte
  bad : List Nat
  deriving DecidableEq, Repr

/-- Global bytes that an engine command of a member has written and that no wait of the member covers yet (R275): their physical
addresses with the values written, and whether a BARR has published them since (log 115). -/
structure EngWrite where
  member : Nat
  tag : CmdTag
  vals : Mem
  out : Bool
  deriving DecidableEq, Repr

/-- A segment of a team (R48, R141, R265). Versions and read marks are kept by physical address; `vlines` maps a physical
line to the virtual line of its first access. `own` holds what each member and its engines wrote, `seen` what the member's own loads
see of it (R275), `syncs` the sync words that changed (R158); `reads` is the read set, `marked` its lines that a slice has marked (R272). -/
structure Seg where
  seq : Word
  ts : Word
  snaps : List Snap
  own : List Mem
  seen : List Mem
  unseen : List EngWrite
  pub : Mem
  fin : Mem
  poison : List Nat
  reads : List Nat
  marked : List Nat
  vlines : List (Nat × Nat)
  pushes : List (Nat × (Word × Word))
  pops : List (Nat × (Word × Word))
  adds : List Nat
  syncs : List (List Nat)
  launches : List Nat
  abort : Bool
  refusedBy : Option Nat
  deriving DecidableEq, Repr

/-- Where a team stands: staged, running, saving, holding a saved context unbound, or gone. -/
inductive TeamState where
  | staged | running | saving | saved
  deriving DecidableEq, Repr

/-- A team (R46). Its members' list is the location table; `traffic` counts bytes by pair, with the halvings done (R313); `swaps` are
the pairs of members whose swap is in progress (R316) and `swapFrom` the cycle of the last decision (R318); `firstTick` is the swap tick
at its first start (R326); `table` tells that the location table of a seal stands at its bindings until it starts (R318). -/
structure Team where
  launch : Nat
  vf : Nat
  wid : Word
  size : BitVec 2
  st : TeamState
  resumed : Bool
  members : List Task
  segs : List Seg
  openSeg : Option Seg
  committed : Nat
  lastLate : Bool
  carve : Carve
  traffic : List (Nat × (Nat × Nat))
  swaps : List (Nat × Nat)
  swapFrom : Option Word
  firstTick : Option Nat
  table : Bool
  stagedFor : Nat
  compared : Bool
  deriving DecidableEq, Repr

/-- An ordered-atomic entry at its slice (R146), in order of arrival; its timestamp is its segment's. -/
structure Amoo where
  team : Nat
  member : Nat
  seq : Word
  launch : Nat
  addr : Nat
  wide : Bool
  op : Nat
  operand : Word
  rd : Reg
  applied : Bool
  deriving DecidableEq, Repr

/-! ## Launches (R298–R303, R321–R327) -/

/-- A launch header (R298). -/
structure Header where
  kptr : Word
  entry : Nat
  carve : Carve
  widths : List Nat
  team : BitVec 2
  prio : Nat
  sumchk : Bool
  trace : Nat
  resident : Bool
  rpol : Nat
  dmode : Nat
  disjoint : Bool
  depv : Nat
  exts : List Nat
  args : List Word
  depc : Word
  done : Word
  key : Word
  deriving DecidableEq, Repr

/-- Launch stages (R300). -/
inductive Stage where
  | pooled | held | ready | complete
  deriving DecidableEq, Repr

/-- A launch. `lidx` is its run-list index (R302); `retired` lists each retired work identifier with its task digest and whether its
team failed; `syncs` holds its kernel's .sync words as it was accepted (R21); `posted` tells that a COMPLETE launch has written its
record (R404). -/
structure Launch where
  vf : Nat
  hdr : Header
  stage : Stage
  lidx : Nat
  parent : Option (Nat × Word)
  retired : List (Nat × (Word × Bool))
  sig : Word
  tainted : Bool
  corrected : Bool
  digestTrap : Bool
  maxTs : Option Nat
  lines : List (Nat × Nat)
  queue : BitVec 3
  pseq : Nat
  record : Word
  host : Bool
  occ : Nat
  mode : Nat
  unrecorded : Bool
  reexec : Bool
  window : Bool
  trace : List (BitVec 128)
  traceAt : List (Nat × Nat)
  dropped : Bool
  syncs : List (Nat × Nat)
  verdict : Nat
  status : Nat
  rinDone : Nat
  posted : Bool
  deriving DecidableEq, Repr

/-! ## Partitions and host queues (R400–R416) -/

/-- A host queue (R404, R405). `busy` is the packet in progress, by its PSEQ and the launch it waits for. -/
structure Queue where
  base : Word
  ctlEnable : Bool
  halted : Bool
  hstat : Nat
  log2 : Nat
  tail : Word
  head : Word
  pseq : Nat
  busy : Bool
  copied : Nat
  restart : Bool
  waitRin : Option Nat
  window : Bool
  launches : List (Nat × Nat)
  deriving DecidableEq, Repr

/-- A held irrevocable write (R156): destination kind, peer domain, address, size, data, RIN, core, and order. -/
structure Xwr where
  peer : Option Nat
  addr : Nat
  wide : Bool
  data : Word
  rin : Nat
  core : Nat
  deriving DecidableEq, Repr

/-- An umbra log record (R378): the pre-image of a line, or of a heap block of four entries (kind 1; log 99). -/
structure LogRec where
  line : Nat
  rin : Nat
  kind : Nat
  poison : Bool
  data : List Byte
  deriving DecidableEq, Repr

/-- A stalled access with its fault record (R173, R357). -/
structure Stall where
  seq : Nat
  team : Nat
  member : Nat
  tl : Nat
  num : Nat
  txq : Bool
  cause : Nat
  detail : BitVec 16
  addr : Word
  deriving DecidableEq, Repr

/-- A fault record as written to the fault queue (R357). -/
structure FaultRec where
  wid : Word
  addr : Word
  core : Nat
  kind : Nat
  cause : Nat
  detail : BitVec 16
  src : Nat
  seq : Nat
  lidx : Nat
  deriving DecidableEq, Repr

/-- A record entry of a record set (R324). -/
structure RecEntry where
  key : Word
  occ : Nat
  team : BitVec 2
  trunc : Bool
  sumchk : Bool
  digest : List Byte
  sig : Word
  pairs : List (Nat × (Word × Bool))
  msum : Word
  trace : List (BitVec 128)
  deriving DecidableEq, Repr

/-- A cached translation (R413): page base, page size exponent, and leaf entry (log 118). -/
structure TlbEntry where
  page : Nat
  size : Nat
  leaf : Word
  deriving DecidableEq, Repr

/-- The registers of a partition that software reads or writes (R364, R377, R391, R393, R404). -/
structure PartRegs where
  ptroot : Word
  tlbinv : Word
  fqbase : Word
  fqhead : Word
  fqtail : Word
  rbbase : Word
  dlbase : Word
  dlhead : Word
  dltail : Word
  intmask : BitVec 8
  sealPeriod : Nat
  mkdl : Nat
  einjLine : Nat
  einjArm : Bool
  einjr : Nat
  einjMin : Nat
  fails : Nat
  deriving DecidableEq, Repr

/-- A region-log entry (R331): its core's %core number and thicket, %clk at the CFG, work identifier, cycles, tokens discarded, event
bits and rounds. -/
structure RegionRec where
  core : Nat
  thicket : Nat
  clk : Word
  wid : Word
  load : Nat
  fill : Nat
  steady : Nat
  drain : Nat
  disc : Nat
  event : BitVec 5
  rounds : Nat
  deriving DecidableEq, Repr

/-- A fault record that waits for room in the fault queue (R357): its launch, and the access that it reports when it is no failure (log 110). -/
structure WaitRec where
  launch : Nat
  entry : FaultRec
  stall : Option Stall
  deriving DecidableEq, Repr

/-- Who waits for a counter in device memory: a task at its MWAIT (R162), or a HELD launch (R300). -/
inductive Waiter where
  | task (team member : Nat)
  | launch (n : Nat)
  deriving DecidableEq, Repr

/-- The team of a waiting task. -/
def Waiter.team : Waiter → Option Nat
  | .task t _ => some t
  | .launch _ => none

/-- The launch of a waiting launch. -/
def Waiter.launch? : Waiter → Option Nat
  | .task _ _ => none
  | .launch n => some n

/-- A wait for a counter (R162, R300): the physical address and the value that it waits for, and whether a write to the line has met it. -/
structure MemWait where
  who : Waiter
  addr : Nat
  target : Nat
  met : Bool
  deriving DecidableEq, Repr

/-- Debug and sampling state of a partition (R328–R332). `glintDue` holds records of marked events that are not written yet (log 116). -/
structure DebugRegs where
  armed : Bool
  stopReq : Bool
  snapBrk : Bool
  snapRegion : Bool
  glintDue : List (List Byte)
  glint : List (List Byte)
  glintDropped : Nat
  region : List RegionRec
  deriving DecidableEq, Repr

/-- What a partition's snapshot registers latch (R332; log 116): %clk, its teams with their cores' state and the versions and marks of their
segments, its launches, ordered atomics, waits, registers, description, queues, heaps, hold queue, log, translation caches, stalled accesses,
fault, rollback and interrupt state, record sets with their occurrence numbers, weight store, stencil tables, debug and sampling state, the
lines that its slices keep with their poison, the swap hardware's ticks and damping, and the PE maps of its cores (R371). -/
structure Snapshot where
  clk : Word
  teams : List (Nat × Team)
  launches : List (Nat × Launch)
  regs : PartRegs
  queues : Vector Queue 8
  heaps : List (Nat × List (Option (Word × Word)))
  amoos : List Amoo
  egress : List Xwr
  log : List LogRec
  tlb : List (Nat × TlbEntry)
  stalls : List Stall
  waitingRecs : List WaitRec
  recs : List (Nat × List RecEntry)
  stencils : List (Nat × StencilTable)
  poisonW : List Nat
  pemaps : List (Nat × BitVec 64)
  desc : PartDesc
  wstore : Mem
  faultSeq : Nat
  occs : List (Nat × Nat)
  dbg : DebugRegs
  irqs : List Nat
  awaitAck : Bool
  rollbacks : Nat
  swaps : Bool
  waits : List MemWait
  swapAt : List (Nat × Nat)
  swapTicks : List (Nat × Nat)
  mem : Mem
  poisonMem : List Nat
  prev : List (Nat × List Byte)
  loose : List (Nat × Nat)
  deriving DecidableEq, Repr

/-- Debug and sampling state of a partition with what its snapshot has latched (R332). -/
structure Debug extends DebugRegs where
  latched : Option Snapshot
  deriving DecidableEq, Repr

/-- A partition and its virtual function (R400). -/
structure Part where
  desc : PartDesc
  wstore : Mem
  poisonW : List Nat
  stencils : List (Nat × StencilTable)
  heaps : List (Nat × List (Option (Word × Word)))
  egress : List Xwr
  log : List LogRec
  regs : PartRegs
  queues : Vector Queue 8
  tlb : List (Nat × TlbEntry)
  stalls : List Stall
  faultSeq : Nat
  waitingRecs : List WaitRec
  recs : List (Nat × List RecEntry)
  occs : List (Nat × Nat)
  dbg : Debug
  irqs : List Nat
  awaitAck : Bool
  rollbacks : Nat
  swaps : Bool
  madeAt : Nat
  deriving DecidableEq, Repr

/-! ## Recovery (R375–R390) -/

/-- What a seal records of a partition: its queues at their read positions, and the occurrence numbers given (R323, R381). Heaps
are logged (R311). -/
structure SealPart where
  queues : Vector Queue 8
  occs : List (Nat × Nat)
  deriving DecidableEq, Repr

/-- A seal's recorded state (R381, R382): teams in sealed form, launches, and queue positions by virtual function. -/
structure SealCopy where
  num : Nat
  teams : List (Nat × Team)
  launches : List (Nat × Launch)
  parts : List (Nat × SealPart)
  deriving DecidableEq, Repr

/-- A seal in progress (R381–R384). -/
structure Sealing where
  num : Nat
  copy : SealCopy
  answered : List (Nat × Bool)
  since : Word
  deriving DecidableEq, Repr

/-- A consumption of poison that has fallen due as a rollback (R387, R389). -/
structure Consumed where
  site : Nat
  whereCode : Nat
  addr : Nat
  deriving DecidableEq, Repr

/-- Board flash and root of trust (R375, R417–R419). -/
structure Flash where
  status : Vector (BitVec 2) 8
  image0 : List Byte
  image1 : List Byte
  version0 : Nat
  version1 : Nat
  domain : Nat
  pemaps : List (Nat × BitVec 64)
  floor : Nat
  leaf : Nat
  deriving DecidableEq, Repr

/-- Power state of the module (R419, R421). -/
inductive Power where
  | off | on | stopped | tripped
  deriving DecidableEq, Repr

/-- The slot-table port of a die (R305–R307). -/
structure Slt where
  wdog : Nat
  withdrawn : Nat
  code : Nat
  bindLo : Word
  deriving DecidableEq, Repr

/-! ## The module -/

/-- Which agent moves (log 1): the task whose core issues, or a unit event with the task it acts on. -/
inductive Turn where
  | issue (team member : Nat)
  | unit (team member : Nat) (i : Instr)
  deriving DecidableEq, Repr

/-- The state of the module. `prev` keeps, by line, the content before the line's last committed write (R149); `loose` lists the
untracked pages that were written, by base and size exponent (R379); `waits` are the tasks at an MWAIT and the HELD launches that wait; `glints` counts the
draws of the sampling generators (R328); `own` is this module's domain number (R375), and `spanDrop` counts the requests dropped by peer
(R409); `out` is what bring-up has mapped out (R419). -/
structure State where
  agenda : List Turn
  focus : Option (Nat × Nat)
  fresh : Nat
  glints : Nat
  clk : Word
  mem : Mem
  poisonMem : List Nat
  prev : List (Nat × List Byte)
  loose : List (Nat × Nat)
  hostMem : Mem
  parts : List (Nat × Part)
  launches : List (Nat × Launch)
  teams : List (Nat × Team)
  amoos : List Amoo
  waits : List MemWait
  nextLaunch : Nat
  nextTeam : Nat
  rin : Nat
  sealed : Nat
  sealCopy : SealCopy
  sealing : Option Sealing
  sealPending : Bool
  sealDue : Bool
  sealClk : Word
  consumed : Option Consumed
  own : Nat
  domain : List Nat
  spanRoute : List (Nat × Nat)
  spanDrop : List (Nat × Nat)
  peerOut : List Xwr
  slt : Vector Slt 12
  pemap : List (Nat × BitVec 64)
  out : MapOut
  swapAt : List (Nat × Nat)
  swapTicks : List (Nat × Nat)
  mhz : Nat
  power : Power
  flash : Flash
  reports : List (List Byte)
  deriving DecidableEq, Repr

/-- The reasons for which the machine stops with a fault. -/
inductive Fault where
  /-- Raised by `step` when a junction trip has removed power (R421) and no power-on is next on the agenda. Safe: the
  hardware does nothing then. -/
  | moduleStopped
  deriving DecidableEq, Repr

/-- The reasons for which a step has no meaning. -/
inductive Refusal where
  /-- Raised by an arm of `exec` for an instruction that has no meaning yet. Safe: nothing is claimed of it. -/
  | notModelled (mnemonic : String)
  deriving DecidableEq, Repr

/-! ## Start values and reset -/

/-- Registers of a tile task at its start (R35, R44): entry label, work identifier and the four argument words. -/
def Regs.start (entry : Nat) (wid : Word) (args : List Word) : Regs where
  g := ((((Vector.replicate 64 0#64).set 60 (args.getD 0 0)).set 61 (args.getD 1 0)).set 62 (args.getD 2 0)).set 63
    (args.getD 3 0)
  cond := Vector.replicate 64 .full
  poisonG := 0
  p := 0
  poisonP := 0
  pc := entry
  loops := []
  handler := false
  ts := wid
  seq := 0
  dgs := 0
  tcause := 0
  taddr := 0
  tval := 0
  epc := 0
  tvec := 0
  poisonSr := 0
  glintK := 0
  glintMark := false

/-- A timeline counter at task start (R42). -/
def Timeline.start : Timeline := { count := 0, issued := 0, cmds := [], done := [] }

/-- Phase `num` of a thicket begins at a token number, with tokens to deliver once more. -/
def PortPhase.begin_ (start back num : Nat) : PortPhase :=
  { start := start, back := back, since := 0, balSeq := 0, rounds := 0, tail := true, eos := false, fromSeq := none, posAt := [], num := num }

/-- A source port at task start. -/
def SrcPort.start : SrcPort := { replay := [], base := 0, edge := [], cur := none, inject := [], phases := [] }

/-- A sink port at task start. -/
def SnkPort.start : SnkPort := { fifo := [], cursor := 0, taken := 0, skip := 0 }

/-- An accumulator at task start (R41). -/
def Acc.start : Acc := { lanes := List.replicate 16 0#32, sat := false, cursor := 0, poison := false }

/-- A thicket at task start (R279). -/
def Thicket.start : Thicket :=
  { st := .idle, x0 := 0, y0 := 0, w := 0, h := 0, filled := 0, active := 0, elems := [], num := 0, rounds := 0,
    loading := none, roundPlanes := [], marking := false, stopped := false, emptied := none, checked := 0, disc := 0, events := 0,
    err := none, lastFix := none, cfgClk := 0, load := 0, loadEnd := 0,
    firstOut := none, lastIn := 0, calm := none }

/-- The matrix engine at task start (R229); SIG starts with the launch's part (R246). -/
def Mxe.start (sig : Word) : Mxe :=
  { slots := [], rows := [], cs0 := none, cs1 := none, sig := sig, rerun := 0, err := 0, upset := 0 }

/-- The graph sequencer at task start (R229). -/
def Gsq.start : Gsq := { running := false, sect := 0, tile := 0, node := 0, adds := [] }

/-- A tile task at its start (R44). -/
def Task.start (core : Nat) (slot : SlotState) (regs : Regs) (sig : Word) (spad prog : Mem) : Task where
  core := core
  slot := slot
  regs := regs
  retry := 0
  tl := Vector.replicate 16 Timeline.start
  fills := []
  appends := []
  fi := Vector.replicate 16 SrcPort.start
  fo := Vector.replicate 16 SnkPort.start
  fa := Vector.replicate 16 Acc.start
  thickets := Vector.replicate 4 Thicket.start
  spad := spad
  poisonS := []
  poisonProg := []
  hid := []
  bank0 := []
  bank1 := []
  shadowSel := true
  prog := prog
  mxe := Mxe.start sig
  gsq := Gsq.start
  causes := []
  arrived := none
  px := []
  runFrom := none
  ranFor := 0
  markClk := none
  entered := none

/-- Registers of a partition when it is created (R364, R377, R391, R393, R404). -/
def PartRegs.start : PartRegs :=
  { ptroot := 0, tlbinv := 0, fqbase := 0, fqhead := 0, fqtail := 0, rbbase := 0, dlbase := 0, dlhead := 0, dltail := 0,
    intmask := 0xFF, sealPeriod := 600000, mkdl := 60000, einjLine := 0, einjArm := false, einjr := 0, einjMin := 0, fails := 0 }

/-- A host queue when its partition is created (R404). -/
def Queue.start : Queue :=
  { base := 0, ctlEnable := false, halted := false, hstat := 0, log2 := 0, tail := 0, head := 0, pseq := 0, busy := false, copied := 0,
    restart := false, waitRin := none, window := false, launches := [] }

/-- Debug state of a new partition. -/
def Debug.start : Debug :=
  { armed := false, stopReq := false, snapBrk := false, snapRegion := false, latched := none, glintDue := [], glint := [],
    glintDropped := 0, region := [] }

/-- A new partition (R400, R340: its stencil slots are empty). -/
def Part.start (desc : PartDesc) (madeAt : Nat) : Part :=
  { desc := desc, wstore := [], poisonW := [], stencils := [], heaps := [], egress := [], log := [],
    regs := PartRegs.start, queues := Vector.replicate 8 Queue.start, tlb := [], stalls := [], faultSeq := 0,
    waitingRecs := [], recs := [], occs := [], dbg := Debug.start, irqs := [], awaitAck := false, rollbacks := 0,
    swaps := false, madeAt := madeAt }

/-- Seal 0: no team and no launch (R375). -/
def SealCopy.start : SealCopy := { num := 0, teams := [], launches := [], parts := [] }

/-- Board flash and root of trust at reset (log 6). -/
def Flash.start : Flash :=
  { status := Vector.replicate 8 0, image0 := [], image1 := [], version0 := 0, version1 := 0, domain := 0, pemaps := [], floor := 0,
    leaf := 0 }

/-- A slot-table port at reset (R306, R307). -/
def Slt.start : Slt := { wdog := 6000000, withdrawn := 0, code := 0, bindLo := 0 }

/-- The module right after reset: before bring-up (R419), no partition, no launch, memory with nothing listed. -/
def State.reset : State where
  agenda := []
  focus := none
  fresh := 0
  glints := 0
  clk := 0
  mem := []
  poisonMem := []
  prev := []
  loose := []
  hostMem := []
  parts := []
  launches := []
  teams := []
  amoos := []
  waits := []
  nextLaunch := 0
  nextTeam := 0
  rin := 0
  sealed := 0
  sealCopy := SealCopy.start
  sealing := none
  sealPending := false
  sealDue := false
  sealClk := 0
  consumed := none
  own := 0
  domain := []
  spanRoute := []
  spanDrop := []
  peerOut := []
  slt := Vector.replicate 12 Slt.start
  pemap := []
  out := { groups := [], banks := [], sprigs := [] }
  swapAt := []
  swapTicks := []
  mhz := 600
  power := .off
  flash := Flash.start
  reports := []

end Sys2Proof.Machine
end

