-- ==== Sys2Proof/Machine/Ops.lean ====
section
/-! DEFINITION. Operations that the meanings share: the task in focus, registers and issue checks, traps and failure,
translation, the segment view of memory, scratchpads and sync words, committed writes, timelines and fills. -/

namespace Sys2Proof.Machine

/-- What a step answers. -/
abbrev Out := Host.Outcome State Fault Refusal

/-! ## The task in focus -/

/-- The tile task in focus: its team's number, its member number, its team and itself. -/
structure Cur where
  tid : Nat
  mem : Nat
  team : Team
  task : Task

/-- The task in focus, when there is one. -/
def State.cur (s : State) : Option Cur :=
  match s.focus with
  | none => none
  | some (t, m) =>
    match mapGet t s.teams with
    | none => none
    | some tm =>
      match tm.members[m]? with
      | none => none
      | some tk => some { tid := t, mem := m, team := tm, task := tk }

/-- Replace a team. -/
def State.setTeam (s : State) (t : Nat) (tm : Team) : State := { s with teams := mapSet t tm s.teams }

/-- Change a team, when it exists. -/
def State.modTeam (s : State) (t : Nat) (f : Team → Team) : State :=
  match mapGet t s.teams with
  | none => s
  | some tm => s.setTeam t (f tm)

/-- Change a member of a team. -/
def Team.modMember (tm : Team) (m : Nat) (f : Task → Task) : Team := { tm with members := tm.members.modify m f }

/-- Change a task named by team and member. -/
def State.modTask (s : State) (t m : Nat) (f : Task → Task) : State := s.modTeam t (fun tm => tm.modMember m f)

/-- Change the task in focus. -/
def State.modCur (s : State) (f : Task → Task) : State :=
  match s.focus with
  | none => s
  | some (t, m) => s.modTask t m f

/-- The state with the focused task replaced. -/
def Cur.put (c : Cur) (s : State) (tk : Task) : State :=
  s.setTeam c.tid { c.team with members := c.team.members.set c.mem tk }

/-- The state with the focused task's registers replaced. -/
def Cur.putRegs (c : Cur) (s : State) (r : Regs) : State := c.put s { c.task with regs := r }

/-- Take a fresh index for a free value (log 3). -/
def State.tick (s : State) : State := { s with fresh := s.fresh + 1 }

/-- CORE_PEMAP of a core, as the management core reads it; a core that board flash does not list has every PE (R371; log 6). -/
def State.peMap (s : State) (core : Nat) : BitVec 64 := (mapGet core s.pemap).getD (BitVec.allOnes 64)

/-- The partition with a number. -/
def State.part (s : State) (vf : Nat) : Option Part := mapGet vf s.parts

/-- Change a partition, when it exists. -/
def State.modPart (s : State) (vf : Nat) (f : Part → Part) : State :=
  match mapGet vf s.parts with
  | none => s
  | some p => { s with parts := mapSet vf (f p) s.parts }

/-- Change a launch, when it exists. -/
def State.modLaunch (s : State) (l : Nat) (f : Launch → Launch) : State :=
  match mapGet l s.launches with
  | none => s
  | some x => { s with launches := mapSet l (f x) s.launches }

/-- The launch of a team. -/
def State.launchOf (s : State) (tm : Team) : Option Launch := mapGet tm.launch s.launches

/-- Whether a team's launch is DISJOINT (R270). -/
def State.disjoint (s : State) (tm : Team) : Bool :=
  match s.launchOf tm with
  | none => false
  | some l => l.hdr.disjoint

/-- Members of a team, by its size code (R37). -/
def teamSize (code : BitVec 2) : Nat := 4 ^ code.toNat

/-! ## General registers and predicates (R31–R33) -/

/-- The value of a register; g0 reads zero. -/
def Regs.val (r : Regs) (n : Reg) : Word := if n = 0 then 0 else r.g.get n.toFin

/-- The condition of a register; g0 is always full. -/
def Regs.condOf (r : Regs) (n : Reg) : RegCond := if n = 0 then .full else r.cond.get n.toFin

/-- Whether a register holds poison (R387). -/
def Regs.bad (r : Regs) (n : Reg) : Bool := if n = 0 then false else r.poisonG.getLsbD n.toNat

/-- Set or clear one bit of a poison mask. -/
def setBit {w : Nat} (x : BitVec w) (n : Nat) (v : Bool) : BitVec w :=
  if v then x ||| BitVec.ofNat w (2 ^ n) else x &&& ~~~(BitVec.ofNat w (2 ^ n))

/-- Write a register and leave it full; a write to g0 is discarded (R31). -/
def Regs.write (r : Regs) (d : Reg) (v : Word) (bad : Bool) : Regs :=
  if d = 0 then r
  else { r with g := r.g.set d.toFin v d.toFin.isLt, cond := r.cond.set d.toFin .full d.toFin.isLt,
                poisonG := setBit r.poisonG d.toNat bad }

/-- Change a register's condition; g0 stays full (R132). -/
def Regs.mark (r : Regs) (d : Reg) (c : RegCond) : Regs :=
  if d = 0 then r else { r with cond := r.cond.set d.toFin c d.toFin.isLt }

/-- The value of a predicate; p0 reads true (R32). -/
def Regs.pred (r : Regs) (n : Pred) : Bool := if n = 0 then true else r.p.getLsbD n.toNat

/-- Whether a predicate was written from poisoned data (R387). -/
def Regs.badPred (r : Regs) (n : Pred) : Bool := if n = 0 then false else r.poisonP.getLsbD n.toNat

/-- Write a predicate; a write to p0 is discarded (R32). -/
def Regs.setPred (r : Regs) (n : Pred) (v bad : Bool) : Regs :=
  if n = 0 then r else { r with p := setBit r.p n.toNat v, poisonP := setBit r.poisonP n.toNat bad }

/-- Whether any register has a fill pending (R34). -/
def Task.fillsPending (t : Task) : Bool := !t.fills.isEmpty

/-! ## Sequential advance and transfers (R126–R130) -/

/-- The loop-back rule at a sequential advance to `pc` (R128). -/
def loopBack : List LoopEntry → Nat → List LoopEntry × Nat
  | [], pc => ([], pc)
  | e :: es, pc =>
    if pc = e.stop then
      if 1 < e.left then ({ e with left := e.left - 1 } :: es, e.start) else loopBack es pc
    else (e :: es, pc)

/-- Advance sequentially to `pc`; in a handler the loop stack is not checked (R130). -/
def Regs.seqTo (r : Regs) (pc : Nat) : Regs :=
  if r.handler then { r with pc := pc }
  else { r with loops := (loopBack r.loops pc).1, pc := (loopBack r.loops pc).2 }

/-- Advance past an instruction of n bytes. -/
def Regs.advance (r : Regs) (n : Nat) : Regs := r.seqTo (r.pc + n)

/-- Entries left after a taken transfer to t (R129). -/
def popLoops : List LoopEntry → Nat → List LoopEntry
  | [], _ => []
  | e :: es, t => if e.start ≤ t ∧ t < e.stop then e :: es else popLoops es t

/-- Transfer to t, popping loops unless in a handler (R129, R130). -/
def Regs.jump (r : Regs) (t : Nat) (pops : Bool) : Regs :=
  { r with pc := t, loops := if r.handler || !pops then r.loops else popLoops r.loops t }

/-! ## Issue checks (R33, R100, R133) -/

/-- Outcome of a check at issue. -/
inductive Ready where
  | ok
  | wait
  | empty (n : Reg) (void : Bool)
  deriving DecidableEq, Repr

/-- The first check that fails decides (R100). -/
def Ready.then (a b : Ready) : Ready := if a = .ok then b else a

/-- A destination that the instruction only writes (R33, R133; log 88). -/
def Regs.dst (r : Regs) (d : Reg) : Ready := if r.condOf d = .pending then .wait else .ok

/-- A destination that the instruction also reads (R112, R133; log 88). -/
def Regs.dstRead (r : Regs) (d : Reg) : Ready :=
  match r.condOf d with
  | .full => .ok
  | .pending => .wait
  | .void => .empty d true

/-- A source operand with its e-bit (R33, R133; log 88). -/
def Regs.src (r : Regs) (a : Reg) (e : Bool) : Ready :=
  match r.condOf a with
  | .full => .ok
  | .pending => if e then .empty a false else .wait
  | .void => .empty a true

/-! ## Endpoints and home slices (R289, R292) -/

/-- Endpoint of a core by its %core number (R36, R289). -/
def coreEndpoint (core : Nat) : Nat := core / 64 * 512 + core % 64

/-- Endpoints of a partition's slices in the order of R292. Which 4 slices of its bush bank a sprig brings is the model's choice: sprig k of
the bush brings 4k to 4k + 3 (R400; log 147). -/
def homeList (d : PartDesc) : List Nat :=
  let spr := d.sprigs.map (·.toNat)
  let ascending := spr.foldl (fun l x => setInsert x l) []
  let die (x : Nat) := x / 16 * 512
  (ascending.flatMap fun x => tabulate 8 fun i => die x + 0x80 + 8 * (x % 16) + i) ++
  (ascending.flatMap fun x => tabulate 4 fun i => die x + 0x100 + 16 * (x / 4 % 4) + 4 * (x % 4) + i) ++
  (ascending.flatMap fun x => tabulate 4 fun i => die x + 0x140 + 4 * (x % 16) + i)

/-- Sprigs whose slices form the home list: the partition's, or its whole shared group's (R402). -/
def State.homeDesc (s : State) (p : Part) : PartDesc :=
  match p.desc.sharedGroup with
  | none => p.desc
  | some g =>
    { p.desc with sprigs := s.parts.flatMap fun q => if q.2.desc.sharedGroup = some g then q.2.desc.sprigs else [] }

/-- Index of a line's home slice (R292). -/
def State.homeIndex (s : State) (p : Part) (pa : Nat) : Nat :=
  let ns := 16 * (s.homeDesc p).sprigs.length
  if ns = 0 then 0 else (pa / 64) % ns

/-- Endpoint of a line's home slice (R292). -/
def State.homeSlice (s : State) (vf pa : Nat) : Nat :=
  match s.part vf with
  | none => 0
  | some p => (homeList (s.homeDesc p)).getD (s.homeIndex p pa) 0

/-! ## Host memory, interrupts, fault records (R357, R404, R408) -/

/-- Write host memory. -/
def State.hostWrite (s : State) (a : Nat) (bs : List Byte) : State :=
  { s with hostMem := memWriteBytes s.hostMem a bs }

/-- Raise an interrupt vector of a virtual function when its mask bit is set (R404, R408). -/
def State.raise (s : State) (vf v : Nat) : State :=
  s.modPart vf fun p => if p.regs.intmask.getLsbD v then { p with irqs := p.irqs ++ [v] } else p

/-- The 32 bytes of a fault record (R357). -/
def FaultRec.bytes (r : FaultRec) : List Byte :=
  leBytes 8 r.wid.toNat ++ leBytes 8 r.addr.toNat ++ leBytes 2 r.core ++ leBytes 1 r.kind ++ leBytes 1 r.cause ++
  leBytes 2 r.detail.toNat ++ leBytes 1 r.src ++ leBytes 1 0 ++ leBytes 4 r.seq ++ leBytes 4 r.lidx

/-- Whether the fault queue is full (R404; log 110). -/
def Part.fqFull (p : Part) : Bool := p.regs.fqtail = p.regs.fqhead + BitVec.ofNat 64 Config.faultQueueSize

/-- Write a record that fits into the fault queue, and raise vector 2 (R357, R408; log 110). -/
def State.writeFault (s : State) (vf : Nat) (r : FaultRec) : State :=
  match s.part vf with
  | none => s
  | some p =>
    let a := p.regs.fqbase.toNat + 32 * (p.regs.fqtail.toNat % Config.faultQueueSize)
    ((s.hostWrite a { r with seq := p.faultSeq % 2 ^ 32 }.bytes).modPart vf fun p =>
      { p with regs := { p.regs with fqtail := p.regs.fqtail + 1 }, faultSeq := p.faultSeq + 1 }).raise vf 2

/-! ## Consumption of poison (R387–R389) -/

/-- Poison is consumed; the first consumption stands until the rollback (R388). -/
def State.consume (s : State) (site whereCode addr : Nat) : State :=
  if s.consumed.isSome then s else { s with consumed := some { site := site, whereCode := whereCode, addr := addr } }

/-- Consumption as an address or a branch condition at the focused core (R387). -/
def Cur.consumeAddr (c : Cur) (s : State) : State := s.consume (coreEndpoint c.task.core) 3 0

/-! ## Patterns (R103) -/

/-- Bits of a pattern. -/
def pf (p : Pattern) (hi lo : Nat) : Nat := bitsOf p.toNat hi lo

/-! Fields of a pattern (R103). -/

/-- Element opcode. -/
def pOpc (p : Pattern) : Nat := pf p 127 121
/-- Format code. -/
def pFmt (p : Pattern) : Nat := pf p 120 117
/-- Rounding mode. -/
def pRm (p : Pattern) : Nat := pf p 116 115
/-- FP8 overflow choice. -/
def pOvf (p : Pattern) : Bool := bitAt p.toNat 114
/-- Element-specific mode. -/
def pMode (p : Pattern) : Nat := pf p 113 110
/-- Selector of input i (0 a, 1 b, 2 c). -/
def pSel (p : Pattern) (i : Nat) : Nat := pf p (109 - 6 * i) (104 - 6 * i)
/-- Consumers among neighbours: bits 3 west, 2 north, 1 east, 0 south. -/
def pNmask (p : Pattern) : Nat := pf p 91 88
/-- Delivery to a port or an accumulator. -/
def pSnk (p : Pattern) : Bool := bitAt p.toNat 87
/-- The port or accumulator of SNK. -/
def pSsel (p : Pattern) : Nat := pf p 86 82
/-- DEPTH field: entries minus 1. -/
def pDepth (p : Pattern) : Nat := pf p 81 78
/-- Firing rule. -/
def pFire (p : Pattern) : Nat := pf p 77 75
/-- Element-specific parameters. -/
def pAux (p : Pattern) : Nat := pf p 74 64
/-- Constant. -/
def pK (p : Pattern) : Nat := pf p 63 0

/-- The pattern NONE as every element holds it at reset: DEPTH field 1 (R103). -/
def nonePattern : Pattern := BitVec.ofNat 128 (2 ^ 78)

/-- Class of a place key (R108). -/
def keyClass (k : Nat) : Nat := if k < 64 then 0 else if k < 72 then 1 else if k < 80 then 2 else 3

/-- Sink ports that an edge element's pattern reads (R210). -/
def readsFo (p : Pattern) : List Nat := ([pSel p 0, pSel p 1, pSel p 2].filter fun s => 16 ≤ s && s ≤ 31).map (· - 16)

/-- Distinct numbers of a list. -/
def distinct (l : List Nat) : List Nat := l.foldl (fun s x => setInsert x s) []

/-- An element's active pattern. -/
def Elem.pat (e : Elem) : Pattern := (mapGet e.active.toNat e.pats).getD nonePattern

/-! ## Region log (R329, R331) -/

/-- Tokens that an element holds: latches, recorded tokens, entries and tokens that await an entry. -/
def Elem.tokens (e : Elem) : Nat :=
  ([e.a, e.b, e.c].map fun i => b2n i.latch.isSome + i.chan.length).sum + e.out.length + e.pend.length

/-- Tokens and half-matched operands in a thicket's elements. -/
def Thicket.tokens (x : Thicket) : Nat := (x.elems.map fun e => e.2.tokens).sum

/-- Source ports that a thicket's edge elements feed, and sink ports that they read (R210). -/
def Thicket.edgePorts (x : Thicket) : List Nat × List Nat :=
  let edges := (x.elems.filter fun e => keyClass e.1 ≠ 0).map fun e => e.2.pat
  (distinct ((edges.filter pSnk).map fun p => pSsel p % 16), distinct (edges.flatMap readsFo))

/-- Tokens that stand in the ports between a thicket's PEs and its edge elements (R210). -/
def Task.edgeTokens (tk : Task) (x : Thicket) : Nat :=
  let q := x.edgePorts
  (q.1.map fun n => let p := tk.fi.get (BitVec.ofNat 4 n).toFin; p.edge.length + b2n (p.cur.any fun c => !c.2.isEmpty)).sum +
    (q.2.map fun n => (tk.fo.get (BitVec.ofNat 4 n).toFin).fifo.length).sum

/-- What is discarded with a thicket: the tokens and half-matched operands in it and in the ports of its edge elements (R360, R365; log 25). -/
def Task.inThicket (tk : Task) (x : Thicket) : Nat := x.tokens + tk.edgeTokens x

/-- The entry of a phase that ends at `clk` (log 113): the load's end, the first sink delivery and the last source token come no
later. -/
def Thicket.logRec (x : Thicket) (core t : Nat) (wid clk : Word) : RegionRec :=
  let loaded := if x.st = .loading then clk else x.loadEnd
  let first := if x.st = .loading then clk else x.firstOut.getD clk
  let last := if x.st = .loading then clk else x.lastIn
  { core := core, thicket := t, clk := x.cfgClk, wid := wid, load := x.load, fill := first.toNat - loaded.toNat,
    steady := last.toNat - first.toNat, drain := clk.toNat - last.toNat, disc := x.disc, event := x.events, rounds := x.rounds }

/-- The 64 bytes of a region-log entry (R331). -/
def RegionRec.bytes (r : RegionRec) : List Byte :=
  leBytes 8 r.clk.toNat ++ leBytes 8 r.wid.toNat ++ leBytes 4 r.load ++ leBytes 4 r.fill ++ leBytes 4 r.steady ++
  leBytes 4 r.drain ++ leBytes 4 r.disc ++ leBytes 2 r.event.toNat ++ leBytes 2 (r.rounds % 65536) ++ leBytes 24 0

/-- The region log of one core (R331). -/
def Part.regionOf (p : Part) (core : Nat) : List RegionRec := p.dbg.region.filter fun r => r.core = core

/-- Write the entry of a thicket's phase into its core's log, in place of one that it has there, when its launch is in window (log 113). -/
def State.regionLog (s : State) (tm : Team) (core t : Nat) (x : Thicket) : State :=
  match s.launchOf tm with
  | none => s
  | some l =>
    if l.window then
      let r := x.logRec core t tm.wid s.clk
      let old (z : RegionRec) : Bool := z.core = core && z.thicket = t && z.clk = r.clk && z.wid = r.wid
      s.modPart tm.vf fun p => { p with dbg := { p.dbg with region := p.dbg.region.filter (fun z => !old z) ++ [r] } }
    else s

/-- DISC of the entry that a COMPLETE thicket's phase has counts the tokens discarded since (R214, R331). -/
def State.regionDisc (s : State) (tm : Team) (core t : Nat) (x : Thicket) : State :=
  if x.st ≠ .complete then s
  else
    let new (z : RegionRec) : RegionRec :=
      if z.core = core && z.thicket = t && z.clk = x.cfgClk && z.wid = tm.wid then { z with disc := x.disc } else z
    s.modPart tm.vf fun p => { p with dbg := { p.dbg with region := p.dbg.region.map new } }

/-- The entries of every phase that a member of a failed team still runs (R331). -/
def State.logMembers (s : State) (tm : Team) : State :=
  tm.members.foldl (fun s tk => (List.range 4).foldl (fun s i =>
    let x := tk.thickets.get (BitVec.ofNat 2 i).toFin
    if x.st = .loading || x.st = .running then s.regionLog tm tk.core i { x with disc := x.disc + tk.inThicket x } else s) s) s

/-! ## Glint sampling (R181, R328, R329) -/

/-- Whether glint records of a team are kept: its launch is in window (R329). -/
def State.inWindow (s : State) (tm : Team) : Bool := (s.launchOf tm).any (·.window)

/-- A glint record (R328). -/
def glintRec (clk wid seq : Word) (src tl queue eng loc op : Nat) (stages : List Nat) : List Byte :=
  leBytes 8 clk.toNat ++ leBytes 8 wid.toNat ++ leBytes 8 seq.toNat ++ leBytes 1 (16 * tl + src) ++ leBytes 1 queue ++ leBytes 2 eng ++
  leBytes 4 loc ++ leBytes 4 op ++ stages.flatMap (leBytes 4)

/-- A marked event's record is due; the cycles of its stages are free values, since the model keeps no timing (log 42). -/
def State.addGlint (s : State) (tm : Team) (core src tl : Nat) (clk seq : Word) (loc op : Nat) : State :=
  let queue := ((s.launchOf tm).map (·.queue.toNat)).getD 0
  let stages := tabulate 7 fun i => if i = 6 || (i = 5 && src = 1) then 0 else Config.glintDraw (s.glints + i) % 2 ^ 32
  { s with glints := s.glints + 7 }.modPart tm.vf fun p =>
    { p with dbg := { p.dbg with glintDue := p.dbg.glintDue ++ [glintRec clk tm.wid seq src tl queue (coreEndpoint core) loc op stages] } }

/-- The draw that marks an event with probability 2^-k, freely, from a generator of its own; none with sampling off (R328). -/
def State.drawGlint (s : State) (k : Nat) : State × Bool :=
  if k = 0 then (s, false) else ({ s with glints := s.glints + 1 }, Config.glintDraw s.glints % 2 ^ k = 0)

/-! ## Failure of a tile task (R56, R357) -/

/-- Discard the launches that uncommitted segments placed in the pool (R166). -/
def State.withdraw (s : State) (ids : List Nat) : State :=
  { s with launches := s.launches.filter fun l => !(ids.contains l.1 && l.2.stage == Stage.pooled) }

/-- Every uncommitted segment of a team, the open one last. -/
def Team.uncommitted (tm : Team) : List Seg := tm.segs ++ tm.openSeg.toList

/-- Stalls of a partition's accesses go; a record of one that still waits for room is no access's any more (R173, R357). -/
def Part.dropStalls (p : Part) (gone : Stall → Bool) : Part :=
  { p with stalls := p.stalls.filter (fun x => !gone x),
           waitingRecs := p.waitingRecs.map fun r => if r.stall.any gone then { r with stall := none } else r }

/-- Remove a team that has failed: its segments, commands and entries go, its work identifier counts as retired, and its
launch is tainted (R56). -/
def State.dropTeam (s : State) (t : Nat) : State :=
  match mapGet t s.teams with
  | none => s
  | some tm =>
    let dgs := match tm.members with
      | [] => 0
      | tk :: _ => tk.regs.dgs
    let s := (s.logMembers tm).withdraw (tm.uncommitted.flatMap (·.launches))
    let s := { s with teams := mapErase t s.teams, amoos := s.amoos.filter fun a => a.team ≠ t, waits := s.waits.filter fun w => w.who.team ≠ some t }
    let s := s.modPart tm.vf fun p => p.dropStalls fun x => x.team = t
    s.modLaunch tm.launch fun l => { l with retired := mapSet tm.wid.toNat (dgs, true) l.retired, tainted := true }

/-- Run-list index of a launch (R302). -/
def State.lidxOf (s : State) (launch : Nat) : Nat := ((mapGet launch s.launches).map (·.lidx)).getD 0

/-- Whether a team has failed and waits for room for its record (R357). -/
def State.failing (s : State) (tm : Team) : Bool :=
  match s.part tm.vf with
  | none => false
  | some p => p.waitingRecs.any fun r => r.entry.kind == 1 && r.entry.wid == tm.wid && r.launch == tm.launch

/-- ADDR of a failure's record (R357): none for the causes whose %taddr is an offset of the program region, the scratchpad or the weight
store; an ALIGN of such an offset fails through `Cur.trapOffset`. -/
def faultAddr (cause : Nat) (detail : BitVec 16) (taddr : Word) : Word :=
  if cause = 1 ∨ cause = 2 ∨ (cause = 5 ∧ detail = 2) then 0 else taddr

/-- A tile task fails: its record is written and the team is removed, or both wait for room in the fault queue; a team writes one
record (R357). -/
def State.failTask (s : State) (t m : Nat) (cause : Nat) (detail : BitVec 16) (taddr : Word) : State :=
  match mapGet t s.teams with
  | none => s
  | some tm =>
    let core := match tm.members[m]? with
      | none => 0
      | some tk => coreEndpoint tk.core
    let r : FaultRec := { wid := tm.wid, addr := faultAddr cause detail taddr, core := core, kind := 1, cause := cause, detail := detail,
                          src := 0, seq := 0, lidx := s.lidxOf tm.launch }
    match s.part tm.vf with
    | none => s.dropTeam t
    | some p =>
      if s.failing tm then s
      else if p.fqFull then
        s.modPart tm.vf fun p => { p with waitingRecs := p.waitingRecs ++ [{ launch := tm.launch, entry := r, stall := none }] }
      else (s.writeFault tm.vf r).dropTeam t

/-- A task fails for an event that the spec gives no trap cause: the record's CAUSE is a free value (log 15). -/
def State.failFree (s : State) (t m : Nat) : State :=
  s.tick.failTask t m ((Config.freeWord s.fresh).toNat % 256) 0 0

/-- Withdraw an arrival: an LNCH or LNCHW that has not completed gives its destination back as it was (R48, R52; log 81). -/
def Task.leaveBarrier (tk : Task) : Task :=
  match tk.arrived with
  | some (.lnch d _ _ was) =>
    { tk with arrived := none, fills := tk.fills.filter (fun f => f.src ≠ .status),
              regs := if tk.fills.any (fun f => f.src = .status) && tk.regs.condOf d == .pending then tk.regs.mark d was else tk.regs }
  | _ => { tk with arrived := none }

/-- A task's stretch in RUNNING begins (R312). -/
def Task.startRun (tk : Task) (clk : Nat) : Task := { tk with runFrom := some clk }

/-- A task's stretch in RUNNING ends, and counts (R312). -/
def Task.stopRun (tk : Task) (clk : Nat) : Task :=
  { tk with ranFor := tk.ranFor + (tk.runFrom.elim 0 fun t => clk - t), runFrom := none }

/-- Whether a member is in a swap (R316). -/
def Team.swapping (tm : Team) (m : Nat) : Bool := tm.swaps.any fun x => x.1 = m || x.2 = m

/-- Whether a task's context can leave its core: fills landed and thickets saved (R34, R363). -/
def Task.settled (tk : Task) : Bool := !tk.fillsPending && tk.thickets.toList.all fun x => !(x.st = .loading || x.st = .running)

/-- Whether a member that leaves its core by a move or a swap has come to its boundaries, so that its units stand still (R316, R363). -/
def Cur.still (c : Cur) : Bool := (c.team.st == .saving || c.team.swapping c.mem) && c.task.settled

/-- Whether a team's tasks and engines are at work: it holds its cores, or saves its context, and has not failed (R50, R357,
R363). -/
def State.atWork (s : State) (tm : Team) : Bool := (tm.st == .running || tm.st == .saving) && !s.failing tm

/-- Act on the task in focus; with none, or none at work, nothing happens (log 10). -/
def withCur (s : State) (f : Cur → Out) : Out :=
  match s.cur with
  | none => .next s
  | some c => if s.atWork c.team && !c.still then f c else .next s

/-! ## Taking a trap and returning from one (R353–R356) -/

/-- The registers after trap entry (R354). -/
def Regs.enter (r : Regs) (cause : Nat) (epc : Nat) (detail : BitVec 16) (taddr tval : Word) : Regs :=
  { r with epc := BitVec.ofNat 64 epc, poisonSr := r.poisonSr &&& ~~~0xF000#17,
           tcause := BitVec.ofNat 64 (detail.toNat * 65536 + cause), taddr := taddr, tval := tval, handler := true,
           pc := r.tvec.toNat + 4 * cause }

/-- A task leaves its MWAIT, which tests afresh when it issues again (R162). -/
def State.leaveWait (s : State) (t m : Nat) : State := { s with waits := s.waits.filter fun w => w.who ≠ .task t m }

/-- Every member of a team leaves its MWAIT. -/
def State.leaveWaits (s : State) (t : Nat) : State := { s with waits := s.waits.filter fun w => w.who.team ≠ some t }

/-- A task takes a trap at an instruction boundary (R354): with %tvec = 0 it fails (R39); a barrier arrival is withdrawn
(R48); a poisoned %tvec is consumed as an address (R387). -/
def State.takeTrap (s : State) (c : Cur) (cause : Nat) (epc : Nat) (detail : BitVec 16) (taddr tval : Word) : State :=
  if c.task.regs.poisonSr.getLsbD 16 then c.consumeAddr s
  else if c.task.regs.tvec = 0 then s.failTask c.tid c.mem cause detail taddr
  else
    let tk := c.task.leaveBarrier
    (c.put s { tk with regs := tk.regs.enter cause epc detail taddr tval, entered := none }).leaveWait c.tid c.mem

/-- A synchronous trap of the focused task: in a handler it fails the task (R355). -/
def Cur.trapAt (c : Cur) (s : State) (cause : Nat) (epc : Nat) (detail : BitVec 16) (taddr tval : Word) : Out :=
  if c.task.regs.handler then .next (s.failTask c.tid c.mem cause detail taddr)
  else .next (s.takeTrap c cause epc detail taddr tval)

/-- A synchronous trap with %epc at the instruction. -/
def Cur.trap (c : Cur) (s : State) (cause : Nat) (detail : BitVec 16) (taddr tval : Word) : Out :=
  c.trapAt s cause c.task.regs.pc detail taddr tval

/-- A synchronous trap that names an offset of the program region, the scratchpad or the weight store (R126, R139): a failure's record
gives no virtual address then (R357). -/
def Cur.trapOffset (c : Cur) (s : State) (cause : Nat) (detail : BitVec 16) (off tval : Word) : Out :=
  if c.task.regs.handler || (c.task.regs.tvec = 0 && !c.task.regs.poisonSr.getLsbD 16) then .next (s.failTask c.tid c.mem cause detail 0)
  else .next (s.takeTrap c cause c.task.regs.pc detail off tval)

/-- The ILL trap of an instruction word (R101). -/
def Cur.ill (c : Cur) (s : State) (detail : BitVec 16) (w : BitVec 32) : Out :=
  c.trap s 1 detail (BitVec.ofNat 64 c.task.regs.pc) (w.setWidth 64)

/-- The first word of an instruction. -/
def wordOf (i : Instr) : BitVec 32 := (encode i).headD 0

/-- Return from a handler (R355): the flag clears and pc := %epc. -/
def Regs.leave (r : Regs) : Regs := { r with handler := false, pc := r.epc.toNat }

/-- EMPTY-READ (R133; log 88). -/
def Cur.emptyRead (c : Cur) (s : State) (n : Reg) (void : Bool) : Out :=
  c.trap s 2 (if void then 1 else 0) (BitVec.ofNat 64 c.task.regs.pc) (n.setWidth 64)

/-- Issue of an instruction (R100): the checks after decode, then its execution. A wait leaves the state as it is. -/
def issue (s : State) (checks : Regs → Ready) (body : Cur → Out) : Out :=
  withCur s fun c =>
    match checks c.task.regs with
    | .ok => body c
    | .wait => .next s
    | .empty n v => c.emptyRead s n v

/-- An instruction that computes one register from registers. -/
def issueWrite (s : State) (size : Nat) (d : Reg) (checks : Regs → Ready) (val : Regs → Word) (bad : Regs → Bool) : Out :=
  issue s checks fun c =>
    .next (c.putRegs s ((c.task.regs.write d (val c.task.regs) (bad c.task.regs)).advance size))

/-- A task goes on past an instruction word. -/
def Task.past (tk : Task) : Task := { tk with regs := tk.regs.advance 4 }

/-! ## Translation (R410–R415) -/

/-- Whether a leaf entry is one the walker accepts (R261, R411, R412), for a page of 2^size bytes (log 118). -/
def leafOk (size leaf : Nat) : Bool :=
  let geo := bitsOf leaf 11 10
  let fmt := bitsOf leaf 9 6
  bitsOf leaf 55 52 = 0 && bitsOf leaf 15 14 = 0 && bitsOf leaf 13 12 ≠ 3 && bitsOf leaf 5 4 ≠ 3 &&
  (bitsOf leaf 51 16 * 65536) % 2 ^ size = 0 &&
  (if geo = 0 then !(decide (6 ≤ fmt) && decide (fmt ≤ 8))
   else if geo = 1 then decide (4 ≤ fmt) && decide (fmt ≤ 8)
   else fmt ≠ 9 && fmt ≠ 15)

/-- A walk from a table entry on (R410, R411): the levels still to go, with the bits that index each. -/
def walkLevels (mem : Mem) (va : Nat) : List (Nat × Nat × Bool) → Nat → Option TlbEntry
  | [], _ => none
  | (lo, n, mayLeaf) :: rest, table =>
    let e := memReadLE mem (table + 8 * ((va / 2 ^ lo) % n)) 8
    if !bitAt e 0 then none
    else if bitAt e 1 then
      if mayLeaf && leafOk lo e then
        some { page := va / 2 ^ lo, size := lo, leaf := BitVec.ofNat 64 e }
      else none
    else if bitsOf e 7 2 = 0 && bitsOf e 63 52 = 0 then walkLevels mem va rest (bitsOf e 51 8 * 256)
    else none

/-- The four levels: low index bit, entries, whether a leaf may stand there (R410). -/
def walkPlan : List (Nat × Nat × Bool) := [(39, 1024, false), (30, 512, true), (21, 512, true), (16, 32, true)]

/-- A table walk; an address of more than 49 bits has no translation (R140; log 11). -/
def walk (mem : Mem) (root : Word) (va : Nat) : Option TlbEntry :=
  if va ≥ 2 ^ 49 then none else walkLevels mem va walkPlan root.toNat

/-- Table entries that a walk reads, by address (R410). -/
def walkReads (mem : Mem) (va : Nat) : List (Nat × Nat × Bool) → Nat → List Nat
  | [], _ => []
  | (lo, n, _) :: rest, table =>
    let a := table + 8 * ((va / 2 ^ lo) % n)
    let e := memReadLE mem a 8
    a :: if bitAt e 0 && !bitAt e 1 && bitsOf e 7 2 = 0 && bitsOf e 63 52 = 0 then walkReads mem va rest (bitsOf e 51 8 * 256) else []

/-- The caches that a core's own accesses use: its sprig's. Caches 0 to 191 are the sprigs', 192 + %core the port group's of a core (R413;
log 12). -/
def Task.via (tk : Task) : List Nat := [tk.core / 4]

/-- The caches that the accesses of a core's engines and TXQ use: its port group's, then its sprig's (R413; log 12). -/
def Task.engVia (tk : Task) : List Nat := [192 + tk.core, tk.core / 4]

/-- The translation caches that a context's command looks in: the gather engine's, tl6 and tl7, the sprig's alone (R294; log 12). -/
def Task.ctxVia (tk : Task) (tl : BitVec 4) : List Nat := if tl = 6 || tl = 7 then tk.via else tk.engVia

/-- Entries that a cache holds: 4,096 in a sprig's, 256 in a port group's (R413). -/
def tlbSize (cache : Nat) : Nat := if cache < 192 then 4096 else 256

/-- A translation that some caches hold (R413). -/
def Part.cached (p : Part) (via : List Nat) (va : Nat) : Option TlbEntry :=
  (p.tlb.find? fun e => via.contains e.1 && decide (va / 2 ^ e.2.size = e.2.page)).map (·.2)

/-- The translation that an access of a partition uses: one that the caches of its way hold, else a walk's (R413; log 12). -/
def State.lookup (s : State) (vf va : Nat) (via : List Nat) : Option TlbEntry :=
  match s.part vf with
  | none => none
  | some p => (p.cached via va).or (walk s.mem p.regs.ptroot va)

/-- Keep a translation in a cache; a full one gives up one of its entries, freely (R413; log 12). -/
def Part.keep (p : Part) (e : TlbEntry) (clk cache : Nat) : Part :=
  if p.tlb.contains (cache, e) then p
  else
    let mine := p.tlb.filter fun x => x.1 = cache
    let left := if mine.length < tlbSize cache then p.tlb else (mine[Config.tlbVictim cache clk % mine.length]?).elim p.tlb p.tlb.erase
    { p with tlb := (cache, e) :: left }

/-- Whether a read of a line fires the armed error injection of a partition (R393). -/
def State.fires (s : State) (vf pa : Nat) : Bool :=
  match s.part vf with
  | none => false
  | some p => p.regs.einjArm && p.regs.einjLine == pa / 64 && decide (p.regs.einjMin ≤ s.rin)

/-- ARM clears as the injection fires (R393). -/
def State.disarm (s : State) (vf : Nat) : State := s.modPart vf fun p => { p with regs := { p.regs with einjArm := false } }

/-- Fire the armed error injection on a read of a line (R393): the state with ARM clear, and whether it fired. -/
def State.inject (s : State) (vf pa : Nat) : State × Bool := if s.fires vf pa then (s.disarm vf, true) else (s, false)

/-- An access looks for its translation: one that no cache of its way holds is walked for, whose reads of the tables may fire the error
injection, which marks no byte that the access returns (R393; log 131). -/
def State.walked (s : State) (vf va : Nat) (via : List Nat) : State :=
  match s.part vf with
  | none => s
  | some p =>
    if (p.cached via va).isNone && decide (va < 2 ^ 49) && (walkReads s.mem va walkPlan p.regs.ptroot.toNat).any (s.fires vf) then s.disarm vf else s

/-- Keep the translation of an access in the caches of its way (R413, R414). -/
def State.cache (s : State) (vf : Nat) (e : TlbEntry) (via : List Nat) : State :=
  (s.walked vf (e.page * 2 ^ e.size) via).modPart vf fun p => via.foldl (fun p n => p.keep e s.clk.toNat n) p

/-- Physical address of a virtual one under a translation. -/
def TlbEntry.pa (e : TlbEntry) (va : Nat) : Nat := bitsOf e.leaf.toNat 51 16 * 65536 + va % 2 ^ e.size

/-- Kind of a page: 0 device memory, 1 host aperture, 2 peer aperture (R411). -/
def TlbEntry.kind (e : TlbEntry) : Nat := bitsOf e.leaf.toNat 13 12

/-- Block geometry of a page (R261). -/
def TlbEntry.geo (e : TlbEntry) : Nat := bitsOf e.leaf.toNat 11 10

/-- Element format of a page (R57). -/
def TlbEntry.fmt (e : TlbEntry) : Nat := bitsOf e.leaf.toNat 9 6

/-- Whether a page may be written (R412). -/
def TlbEntry.writable (e : TlbEntry) : Bool := bitAt e.leaf.toNat 2

/-- Whether a page is recovery-tracked (R379). -/
def TlbEntry.tracked (e : TlbEntry) : Bool := bitAt e.leaf.toNat 3

/-- The page that a rollback leaves with free content when it is not tracked: its base and its size exponent (R379). -/
def TlbEntry.free (e : TlbEntry) : Option (Nat × Nat) := if e.tracked then none else some (bitsOf e.leaf.toNat 51 16 * 65536, e.size)

/-- Elements of a unit (R261). -/
def unitElems (e : TlbEntry) : Nat := if e.geo = 1 then 32 else if e.geo = 2 then 256 else if e.geo = 3 then 1024 else 1

/-- Data bytes of a unit; a page of single elements counts bytes. -/
def unitBytes (e : TlbEntry) : Nat := if e.geo = 0 then 1 else max 1 (unitElems e * fmtWidth e.fmt / 8)

/-- Whether a page carries scales (R262). -/
def hasScale (e : TlbEntry) : Bool := e.geo = 1 || (e.geo ≠ 0 && 4 ≤ e.fmt && e.fmt ≤ 8)

/-- Units of a page (R262). -/
def unitCount (e : TlbEntry) : Nat :=
  if hasScale e then 2 ^ e.size / (unitBytes e + 1) else 2 ^ e.size / unitBytes e

/-- Whether a byte of a page lies past its last unit and scale, where it reads as zero (R262). -/
def TlbEntry.unusedAt (e : TlbEntry) (va : Nat) : Bool := hasScale e && decide (unitCount e * (unitBytes e + 1) ≤ va % 2 ^ e.size)

/-- Bytes read at a virtual address as its page gives them (R262). -/
def TlbEntry.reads (e : TlbEntry) (va : Nat) (bs : List Byte) : List Byte :=
  tabulate bs.length fun i => if e.unusedAt (va + i) then 0 else bs.getD i 0

/-- What an access asks of a page. -/
inductive Access where
  | read
  | write
  | store
  | aperture
  deriving DecidableEq, Repr

/-- Outcome of translating for an access: the page, or a trap cause and detail (R139). -/
inductive Xlate where
  | ok (e : TlbEntry)
  | bad (cause : Nat) (detail : BitVec 16)
  deriving DecidableEq, Repr

/-- The page checks of R139. `store` is ST, which refuses sub-byte and unit pages; `aperture` is XWR (log 73). -/
def pageCheck (a : Access) (e : TlbEntry) : Xlate :=
  if a = .aperture ∧ e.kind = 0 then .bad 5 4
  else if a ≠ .read && !e.writable then .bad 5 1
  else if a = .store && e.kind = 0 && (e.geo ≠ 0 || [6, 7, 8, 12, 13, 14].contains e.fmt) then
    .bad 5 3
  else if a ≠ .aperture ∧ e.kind ≠ 0 then .bad 5 4
  else .ok e

/-- Translate an address for an access. -/
def State.xlate (s : State) (vf va : Nat) (a : Access) (via : List Nat) : Xlate :=
  match s.lookup vf va via with
  | none => .bad 4 0
  | some e => pageCheck a e

/-- Committed bytes at a virtual address of a page (R262). -/
def State.pageBytes (s : State) (e : TlbEntry) (va n : Nat) : List Byte := e.reads va (memReadBytes s.mem (e.pa va) n)

/-- A little-endian number in a page of committed memory. -/
def State.pageLE (s : State) (e : TlbEntry) (va n : Nat) : Nat := leNat (s.pageBytes e va n)

/-- The address checks of a global access of the focused core (R100, R139): poison, alignment, translation; then go on with
the page and the caches holding it (log 73). -/
def Cur.access (c : Cur) (s : State) (bad : Bool) (va align : Nat) (a : Access) (f : State → TlbEntry → Out) : Out :=
  if bad then .next (c.consumeAddr s)
  else if va % align ≠ 0 then c.trap s 3 0 (BitVec.ofNat 64 va) 0
  else match s.xlate c.team.vf va a c.task.via with
    | .bad cause detail => c.trap (s.walked c.team.vf va c.task.via) cause detail (BitVec.ofNat 64 va) 0
    | .ok e => f (s.cache c.team.vf e c.task.via) e

/-! ## Segments: frontier, views, versions, marks (R141, R265–R272) -/

/-- Whether a member has passed its HALT: it is in RETIRING, or was saved there (R54, R306). -/
def Task.retired (tk : Task) : Bool := tk.arrived = some .halt && tk.slot ≠ .running

/-- The timestamp of an open segment as its members now hold it (R48, R150). -/
def Team.openTs (tm : Team) : Nat := tm.members.foldl (fun m tk => if tk.retired then m else max m tk.regs.ts.toNat) 0

/-- Timestamps of the segments of a team that exist (R266). -/
def Team.stamps (tm : Team) : List Nat :=
  tm.segs.map (·.ts.toNat) ++ (if tm.openSeg.isSome then [tm.openTs] else [])

/-- The smallest of a list of numbers. -/
def minOf : List Nat → Option Nat
  | [] => none
  | x :: xs =>
    match minOf xs with
    | none => some x
    | some m => some (min x m)

/-- The frontier's timestamp of a launch (R266). -/
def State.frontier (s : State) (launch : Nat) : Option Nat :=
  minOf (s.teams.flatMap fun t => if t.2.launch = launch then t.2.stamps else [])

/-- Whether a segment of a launch with a timestamp is at the frontier. -/
def State.atFrontier (s : State) (launch ts : Nat) : Bool := s.frontier launch = some ts

/-- A segment of a team by its number. -/
def Team.seg (tm : Team) (seq : Word) : Option Seg := tm.uncommitted.find? fun g => g.seq = seq

/-- The timestamp of a team's segment, closed or open. -/
def Team.segTs (tm : Team) (seq : Word) : Nat :=
  match tm.segs.find? fun g => g.seq = seq with
  | some g => g.ts.toNat
  | none => tm.openTs

/-- A segment of a team is aborted with every later one (R267; log 134). -/
def Team.abortFrom (tm : Team) (seq : Word) : Team :=
  let hit (g : Seg) : Seg := if seq.toNat ≤ g.seq.toNat then { g with abort := true } else g
  { tm with segs := tm.segs.map hit, openSeg := tm.openSeg.map hit }

/-- Change a segment of a team by its number. -/
def Team.modSeg (tm : Team) (seq : Word) (f : Seg → Seg) : Team :=
  { tm with segs := tm.segs.map (fun g => if g.seq = seq then f g else g),
            openSeg := tm.openSeg.map fun g => if g.seq = seq then f g else g }

/-- Number of a team's open segment. -/
def Team.openSeq (tm : Team) : Word :=
  match tm.openSeg with
  | none => 0
  | some g => g.seq

/-- A byte of versions: its value and whether it is poisoned. -/
def Seg.byte (g : Seg) (m : Mem) (pa : Nat) : Option (Byte × Bool) :=
  match mapGet pa m with
  | none => none
  | some b => some (b, g.poison.contains pa)

/-- Whether a byte was last written by a command of a member that no wait of it covers (R275). -/
def Seg.hidden (g : Seg) (m pa : Nat) : Bool := g.unseen.any fun x => x.member = m && (mapGet pa x.vals).isSome

/-- Whether a BARR has published such a byte, which still hides it from its member's loads. -/
def Seg.hiddenOut (g : Seg) (m pa : Nat) : Bool := g.unseen.any fun x => x.out && x.member = m && (mapGet pa x.vals).isSome

/-- Sources 1 and 2 of R141: the member's own versions of the open segment, those that its core wrote or has waited for (R275), then the
published ones. -/
def Team.openByte (tm : Team) (m : Nat) (pa : Nat) : Option (Byte × Bool) :=
  match tm.openSeg with
  | none => none
  | some g => (g.byte (g.seen.getD m []) pa).or (if g.hiddenOut m pa then none else g.byte g.pub pa)

/-- Source 3 of R141: older uncommitted segments, newest first, own versions before the others' (log 115). -/
def olderByte (m : Nat) (pa : Nat) : List Seg → Option (Byte × Bool)
  | [] => none
  | g :: gs => ((g.byte (g.seen.getD m []) pa).or (if g.hidden m pa then g.byte g.pub pa else g.byte g.fin pa)).or (olderByte m pa gs)

/-- A byte of committed memory with its poison. -/
def State.committedByte (s : State) (pa : Nat) : Byte × Bool := (memRead s.mem pa, s.poisonMem.contains pa)

/-- What a member's core reads for a byte (R141, R275), and so what an engine of it reads (R169). -/
def State.viewByte (s : State) (tm : Team) (m : Nat) (pa : Nat) : Byte × Bool :=
  ((tm.openByte m pa).or (olderByte m pa tm.segs.reverse)).getD (s.committedByte pa)

/-- n bytes of a member's view, and whether any is poisoned. -/
def State.viewBytes (s : State) (tm : Team) (m : Nat) (pa n : Nat) : List Byte × Bool :=
  let xs := tabulate n fun i => s.viewByte tm m (pa + i)
  (xs.map (·.1), xs.any (·.2))

/-- Whether sources 1 and 2 serve every byte of a read (R141). -/
def Team.servedOpen (tm : Team) (m pa n : Nat) : Bool :=
  (List.range n).all fun i => (tm.openByte m (pa + i)).isSome

/-- Read marks held at a slice: each mark of a team is kept at its line's home in the team's own partition (R259, R272). -/
def State.marksAt (s : State) (home : Nat) : Nat :=
  (s.teams.flatMap fun t => t.2.uncommitted.flatMap fun g => g.marked.filter fun l => s.homeSlice t.2.vf (64 * l) = home).length

/-- Whether a read of a segment needs a mark (R265). -/
def State.needsMark (s : State) (tm : Team) (m : Nat) (pa n : Nat) : Bool := !s.disjoint tm && !tm.servedOpen m pa n

/-- Whether the slice of a line has no mark left for a segment that does not hold the line's (R272; log 87, log 97). -/
def State.marksOut (s : State) (tm : Team) (seq : Word) (pa : Nat) : Bool :=
  decide (Config.readMarks ≤ s.marksAt (s.homeSlice tm.vf pa)) && !((tm.seg seq).elim false fun g => g.marked.contains (pa / 64))

/-- The line of a read joins the read set of its segment (R265); at the line's slice it is marked but for a frontier's read (R272; log 87). -/
def Seg.noteRead (g : Seg) (mark : Bool) (pa : Nat) : Seg :=
  { g with reads := setInsert (pa / 64) g.reads, marked := if mark then setInsert (pa / 64) g.marked else g.marked }

/-- Whether a read must wait for a read mark (R272; log 87). -/
def State.markWait (s : State) (tm : Team) (m : Nat) (seq : Word) (pa n : Nat) : Bool :=
  s.needsMark tm m pa n && s.marksOut tm seq pa && !s.atFrontier tm.launch (tm.segTs seq)

/-- Note that a segment touched a line at a virtual line (log 87). -/
def Seg.note (g : Seg) (va pa : Nat) : Seg :=
  if (mapGet (pa / 64) g.vlines).isSome then g else { g with vlines := mapSet (pa / 64) (va / 64) g.vlines }

/-- A read by a member through the segment view of a page (R141, R169, R262): the state with its marks, and the bytes and their
poison. -/
def State.segRead (s : State) (t m : Nat) (seq : Word) (e : TlbEntry) (va n : Nat) : State × List Byte × Bool :=
  match mapGet t s.teams with
  | none => (s, [], false)
  | some tm =>
    let pa := e.pa va
    let (bs, bad) := s.viewBytes tm m pa n
    let (s1, fired) := s.inject tm.vf pa
    let s2 := if s.needsMark tm m pa n then
        s1.modTeam t fun tm => tm.modSeg seq fun g => (g.note va pa).noteRead (!s.atFrontier tm.launch (tm.segTs seq)) pa
      else s1
    (s2, e.reads va bs, bad || fired)

/-- Version lines of a team at a slice, each kept at its home in the team's own partition (R259, R271). -/
def State.linesAt (s : State) (home : Nat) (tm : Team) : Nat :=
  (tm.uncommitted.flatMap fun g => (verLines g.fin).filter fun l => s.homeSlice tm.vf (64 * l) = home).length

/-- Version lines that stand or seek room at a slice: a team's lines beyond its share stand in the version overflow area (R271). -/
def State.sliceLines (s : State) (home : Nat) : Nat := (s.teams.map fun t => min Config.teamSliceLines (s.linesAt home t.2)).sum

/-- Whether a segment gets every version line that it needs (R271): the frontier; in a DISJOINT launch, whose commits take no account
of timestamps, the team's oldest segment (log 114). -/
def State.unlimited (s : State) (tm : Team) (seq : Word) : Bool :=
  if s.disjoint tm then (tm.uncommitted.head?.any fun g => g.seq = seq) else s.atFrontier tm.launch (tm.segTs seq)

/-- Whether a segment already holds a version of a line. -/
def Team.holdsLine (tm : Team) (seq : Word) (pa : Nat) : Bool :=
  match tm.seg seq with
  | none => false
  | some g => g.fin.any fun x => x.1 / 64 = pa / 64

/-- Whether a write of a segment must wait for a version line (R271; log 114). -/
def State.versionWait (s : State) (tm : Team) (seq : Word) (pa : Nat) : Bool :=
  let home := s.homeSlice tm.vf pa
  !tm.holdsLine seq pa && !s.unlimited tm seq &&
    (decide (Config.teamSliceLines ≤ s.linesAt home tm) || decide (4032 ≤ s.sliceLines home))

/-- Bytes of version lines that a partition's teams hold in its version overflow area (R271): lines beyond a team's share of a slice, and
lines within it that a full slice has no room for, which only a frontier has. -/
def State.overflow (s : State) (vf : Nat) (p : Part) : Nat :=
  let beyond (home : Nat) : Nat :=
    ((s.teams.filter fun t => t.2.vf = vf).map fun t => s.linesAt home t.2 - Config.teamSliceLines).sum + (s.sliceLines home - Config.sliceLines)
  64 * ((homeList (s.homeDesc p)).map beyond).sum

/-- Add a command's write to the ones that a segment hides from its member's loads, oldest first. -/
def hideWrite (x : EngWrite) : List EngWrite → List EngWrite
  | [] => [x]
  | y :: ys =>
    if ys.isEmpty && y.member = x.member && y.tag = x.tag && y.out = x.out then
      [{ y with vals := x.vals.foldl (fun v c => mapSet c.1 c.2 v) y.vals }]
    else y :: hideWrite x ys

/-- The writes that stay hidden, oldest first, when some are covered: a byte that a later covered one wrote is hidden under none before it
(R275; log 115). -/
def stillHidden (done : EngWrite → Bool) : List EngWrite → List EngWrite
  | [] => []
  | x :: xs =>
    let later (a : Nat) : Bool := xs.any fun y => done y && y.member = x.member && (mapGet a y.vals).isSome
    if done x then stillHidden done xs else { x with vals := x.vals.filter fun c => !later c.1 } :: stillHidden done xs

/-- Versions written by a member into a segment: its own, and the ones that stand (R141, R275). `eng` names the command of an engine's
write, which the member's loads do not see yet (log 115). -/
def Seg.write (g : Seg) (eng : Option EngWrite) (m va pa : Nat) (bs : List Byte) (bad : Bool) : Seg :=
  let g := g.note va pa
  let addrs := tabulate bs.length fun i => pa + i
  let stored := g.unseen.map fun x => if x.member = m then { x with vals := x.vals.filter fun c => !addrs.contains c.1 } else x
  { g with own := g.own.modify m fun v => verWriteBytes v pa bs, fin := verWriteBytes g.fin pa bs,
           seen := if eng.isSome then g.seen else g.seen.modify m fun v => verWriteBytes v pa bs,
           unseen := match eng with
             | none => stored
             | some x => hideWrite { x with member := m, vals := verWriteBytes [] pa bs } g.unseen,
           poison := if bad then setUnion addrs g.poison else g.poison.filter fun a => !addrs.contains a }

/-- The writes of the commands that a wait of a member covers become visible to its loads, in the order in which they were made (R161, R275;
log 115). -/
def Seg.acquire (g : Seg) (m : Nat) (covers : CmdTag → Bool) : Seg :=
  let done (x : EngWrite) : Bool := x.member = m && covers x.tag
  let show_ (v : Mem) (x : EngWrite) : Mem := x.vals.foldl (fun v c => mapSet c.1 c.2 v) v
  { g with unseen := stillHidden done g.unseen, seen := g.seen.modify m fun v => (g.unseen.filter done).foldl show_ v }

/-- BARR publishes what stands (R141, R157): a member goes on to read what it could see of the bytes that its engines wrote and no wait
of it covers (R275). -/
def Seg.publish (g : Seg) : Seg :=
  let keep (m : Nat) (v : Mem) : Mem :=
    ((g.unseen.filter fun x => x.member = m && !x.out).flatMap (·.vals.map (·.1))).foldl (fun v a =>
      match mapGet a v, mapGet a g.pub with
      | none, some b => mapSet a b v
      | _, _ => v) v
  { g with seen := ((List.range g.seen.length).zip g.seen).map (fun x => keep x.1 x.2), pub := g.fin,
           unseen := g.unseen.map fun x => { x with out := true } }

/-- The scratchpad writes that stay hidden, oldest first, when some are covered: a byte that a later covered one wrote is hidden under none
before it (R142; log 133). -/
def stillHid (covers : CmdTag → Bool) : List SpadHide → List SpadHide
  | [] => []
  | x :: xs =>
    let later (k : Nat) : Bool := xs.any fun y => covers y.tag && (mapGet k y.old).isSome
    if covers x.tag then stillHid covers xs else { x with old := x.old.filter fun y => !later y.1 } :: stillHid covers xs

/-- The scratchpad bytes of the commands that a wait of a core covers become visible to its LDPs (R142). -/
def Task.acquire (tk : Task) (covers : CmdTag → Bool) : Task := { tk with hid := stillHid covers tk.hid }

/-- A wait of a member has ended that covers some of its commands (R142, R275). -/
def Team.acquire (tm : Team) (m : Nat) (covers : CmdTag → Bool) : Team :=
  let tm1 : Team := { tm with segs := tm.segs.map (fun g => g.acquire m covers), openSeg := tm.openSeg.map fun g => g.acquire m covers }
  tm1.modMember m fun tk => tk.acquire covers

/-- The tags of a member's hidden bytes change as an arrival or an add makes waits cover them (R160, R162, R275). -/
def Team.retag (tm : Team) (m : Nat) (f : CmdTag → CmdTag) : Team :=
  let inSeg (g : Seg) : Seg := { g with unseen := g.unseen.map fun x => if x.member = m then { x with tag := f x.tag } else x }
  let tm1 : Team := { tm with segs := tm.segs.map inSeg, openSeg := tm.openSeg.map inSeg }
  tm1.modMember m fun tk => { tk with hid := tk.hid.map fun x => { x with tag := f x.tag } }

/-- Write versions for a member into a segment of its team. -/
def State.segWrite (s : State) (eng : Option EngWrite) (t m : Nat) (seq : Word) (va pa : Nat) (bs : List Byte) (bad : Bool) : State :=
  s.modTeam t fun tm => tm.modSeg seq fun g => g.write eng m va pa bs bad

/-- A store of a member, or of a command of it, into a segment: it waits for a version line (R271); a frontier that overflows the version area fails
its team; else the versions are written and `k` goes on. -/
def State.storeVersion (s : State) (eng : Option EngWrite) (t m : Nat) (seq : Word) (va pa : Nat) (bs : List Byte) (bad : Bool)
    (k : State → Out) : Out :=
  match mapGet t s.teams with
  | none => .next s
  | some tm =>
    if s.versionWait tm seq pa then .next s
    else
      let s1 := s.segWrite eng t m seq va pa bs bad
      match s1.part tm.vf with
      | some p =>
        if tm.holdsLine seq pa || decide (s1.overflow tm.vf p ≤ p.desc.overflowBytes) then k s1 else .next (s.failFree t m)
      | none => k s1

/-! ## Committed writes and the umbra log (R376–R380) -/

/-- Bytes of one umbra record (R378). -/
def logRecBytes : Nat := 80

/-- Bytes of a partition's log: 1/16 of its HBM unless firmware set another size (R378; log 102). -/
def logBytes (d : PartDesc) : Nat := d.logSize.getD (Config.groupBytes * d.hbmGroups.length / 16)

/-- Fill in per cent of a partition's log with n records, at most 100 (R391). -/
def Part.fillOf (p : Part) (n : Nat) : Nat := if logBytes p.desc = 0 then 0 else min 100 (100 * logRecBytes * n / logBytes p.desc)

/-- Fill of a partition's log in per cent (R391). -/
def Part.logFill (p : Part) : Nat := p.fillOf p.log.length

/-- Whether a line or heap block has a record of an interval in a partition's log. -/
def Part.logged (p : Part) (rin kind line : Nat) : Bool :=
  p.log.any fun r => r.rin = rin && r.kind = kind && r.line = line

/-- Whether a line has a record of the open interval already, in any partition's log (R379). -/
def State.lineLogged (s : State) (line : Nat) : Bool := s.parts.any fun p => p.2.logged s.rin 0 line

/-- Whether a write that would append a record must wait (R380). -/
def Part.logStall (p : Part) : Bool := 95 ≤ p.logFill

/-- Whether what one step performs must wait for log space (R380): one of the records that it appends would find the log at 95 %, and a seal
can free some (log 132). -/
def State.logFull (s after : State) (vf : Nat) : Bool :=
  match s.part vf, after.part vf with
  | some p, some q => decide (p.log.length < q.log.length) && !p.log.isEmpty && decide (95 ≤ p.fillOf (q.log.length - 1))
  | _, _ => false

/-- Request a seal: now, or after the one in progress (R377). -/
def State.requestSeal (s : State) : State :=
  if s.sealing.isSome then { s with sealPending := true } else { s with sealDue := true }

/-- Append a record to a partition's log, requesting a seal at 75 % (R379, R380). -/
def State.logAppend (s : State) (vf : Nat) (r : LogRec) : State :=
  let s := s.modPart vf fun p => { p with log := p.log ++ [r] }
  if (s.part vf).any fun p => decide (75 ≤ p.logFill) then s.requestSeal else s

/-- Append records until the log is at 95 % (R380; log 132). -/
def State.logUpTo (s : State) (vf : Nat) : List LogRec → State
  | [] => s
  | r :: rs => if (s.part vf).any Part.logStall then s else (s.logAppend vf r).logUpTo vf rs

/-- A step waits for log space: the records of its first writes fill the log to 95 %, and the write of the next one waits (R380; log
132; log 132). -/
def State.fillLog (s after : State) (vf : Nat) : State :=
  match s.part vf, after.part vf with
  | some p, some q => s.logUpTo vf (q.log.drop p.log.length)
  | _, _ => s

/-- Perform a step that may append records, or wait for log space (R380; log 132). -/
def State.orStall (s after : State) (vf : Nat) : Out := .next (if s.logFull after vf then s.fillLog after vf else after)

/-- Log the pre-image of a line before its first write of the interval (R379). -/
def State.logLine (s : State) (vf pa : Nat) (tracked : Bool) : State :=
  let line := pa / 64
  if !tracked || s.lineLogged line then s
  else s.logAppend vf { line := line, rin := s.rin, kind := 0, data := memReadBytes s.mem (64 * line) 64,
                        poison := s.poisonMem.any fun a => a / 64 = line }

/-- Note that a page is left with free content by a rollback (R379). -/
def State.noteFree (s : State) (free : Option (Nat × Nat)) : State :=
  match free with
  | none => s
  | some x => if s.loose.contains x then s else { s with loose := x :: s.loose }

/-- A task or a HELD launch waits for a counter, from now (R162, R300). -/
def State.enterWait (s : State) (who : Waiter) (pa target : Nat) : State :=
  if s.waits.any fun w => w.who = who then s else { s with waits := { who := who, addr := pa, target := target, met := false } :: s.waits }

/-- Whether a write has met a wait since it began (R162, R300). -/
def State.waitMet (s : State) (who : Waiter) : Bool := s.waits.any fun w => w.who = who && w.met

/-- A line has been written: a wait for a counter on it is met when the value meets it (R162, R300). -/
def State.noteWrite (s : State) (line : Nat) : State :=
  let met (w : MemWait) : Bool := w.addr / 64 = line && decide (w.target ≤ memReadLE s.mem w.addr 8)
  { s with waits := s.waits.map fun w => if met w then { w with met := true } else w }

/-- Write committed bytes within one line, logging its pre-image. Every device address is memory (log 118). -/
def State.commitWrite (s : State) (vf pa : Nat) (free : Option (Nat × Nat)) (bs : List Byte) : State :=
  let s := s.logLine vf pa free.isNone
  let addrs := tabulate bs.length fun i => pa + i
  ({ s with mem := memWriteBytes s.mem pa bs, poisonMem := s.poisonMem.filter (fun a => !addrs.contains a),
            prev := mapSet (pa / 64) (memReadBytes s.mem (pa / 64 * 64) 64) s.prev }.noteFree free).noteWrite (pa / 64)

/-- Whether a committed write of a line would have to wait for log space (R380). -/
def State.stalled (s : State) (vf pa : Nat) (tracked : Bool) : Bool :=
  match s.part vf with
  | none => false
  | some p => tracked && !s.lineLogged (pa / 64) && p.logStall

/-- Add to a uint64 memory counter on committed memory (R170, R303). An address without a translation, or on a page that may not be written,
adds nothing (log 13); the sum of a poisoned counter is poisoned (R387). -/
def State.counterAdd (s : State) (vf va : Nat) (v : Nat) (via : List Nat) : State :=
  match s.lookup vf va via with
  | none => s
  | some e =>
    if e.kind ≠ 0 || !e.writable then s
    else
      let pa := e.pa va
      let addrs := tabulate 8 fun i => pa + i
      let (s1, fired) := (s.walked vf va via).inject vf pa
      let bad := fired || addrs.any s1.poisonMem.contains
      let s2 := s1.commitWrite vf pa e.free (leBytes 8 ((s1.pageLE e va 8 + v) % 2 ^ 64))
      if bad then { s2 with poisonMem := setUnion addrs s2.poisonMem } else s2

/-! ## Scratchpad, exchange banks, sync words (R140, R158, R273) -/

/-- First scratchpad offset of the lit bank (R273). -/
def Carve.litBase (c : Carve) : Nat := (c.spad - 2) * Config.granule

/-- Whether the carve-out has an exchange region (R273). -/
def Carve.exchange (c : Carve) : Bool := 2 ≤ c.spad

/-- The first scratchpad offset that traps PROT 0x0002 (R139, R273). -/
def Carve.spadLimit (c : Carve) : Nat := if c.exchange then (c.spad - 1) * Config.granule else c.spad * Config.granule

/-- Whether a scratchpad range lies in the carve-out (log 84). -/
def Carve.spadOk (c : Carve) (off n : Nat) : Bool := off + n ≤ c.spadLimit

/-- The lit bank. -/
def Task.lit (t : Task) : Mem := if t.shadowSel then t.bank0 else t.bank1

/-- The shadow bank. -/
def Task.shadow (t : Task) : Mem := if t.shadowSel then t.bank1 else t.bank0

/-- Read a scratchpad byte (log 84). -/
def Task.spadRead (t : Task) (c : Carve) (off : Nat) : Byte :=
  if c.exchange && decide (c.litBase ≤ off) then memRead t.lit (off - c.litBase) else memRead t.spad off

/-- Write a scratchpad byte. -/
def Task.spadWrite (t : Task) (c : Carve) (off : Nat) (b : Byte) : Task :=
  if c.exchange && decide (c.litBase ≤ off) then
    if t.shadowSel then { t with bank0 := memWrite t.bank0 (off - c.litBase) b }
    else { t with bank1 := memWrite t.bank1 (off - c.litBase) b }
  else { t with spad := memWrite t.spad off b }

/-- Number under which the poison of a scratchpad byte is kept: banks keep theirs beside the granules. -/
def Task.spadKey (t : Task) (c : Carve) (off : Nat) : Nat :=
  if c.exchange && decide (c.litBase ≤ off) then (if t.shadowSel then 2 ^ 22 else 2 ^ 23) + (off - c.litBase) else off

/-- Read n scratchpad bytes, and whether any is poisoned. -/
def Task.spadBytes (t : Task) (c : Carve) (off n : Nat) : List Byte × Bool :=
  (tabulate n fun i => t.spadRead c (off + i), (List.range n).any fun i => t.poisonS.contains (t.spadKey c (off + i)))

/-- Bytes of the scratchpad are as they stand for the core, by number. -/
def unhide (gone : Nat → Bool) (l : List SpadHide) : List SpadHide := l.map fun x => { x with old := x.old.filter fun y => !gone y.1 }

/-- Write scratchpad bytes in ascending order, with their poison; what hides them from LDP stays. -/
def Task.spadLand (t : Task) (c : Carve) (bad : Bool) : Nat → List Byte → Task
  | _, [] => t
  | off, b :: bs =>
    let k := t.spadKey c off
    let t := t.spadWrite c off b
    { t with poisonS := if bad then setInsert k t.poisonS else t.poisonS.filter (· ≠ k) }.spadLand c bad (off + 1) bs

/-- Write scratchpad bytes that LDP reads at once (R142). -/
def Task.spadPut (t : Task) (c : Carve) (bad : Bool) (off : Nat) (bs : List Byte) : Task :=
  let keys := tabulate bs.length fun i => t.spadKey c (off + i)
  { t.spadLand c bad off bs with hid := unhide keys.contains t.hid }

/-- A scratchpad byte as an LDP of the core reads it, with its poison: under hidden writes what stood before the oldest (R142; log 133). -/
def Task.coreByte (t : Task) (c : Carve) (off : Nat) : Byte × Bool :=
  let k := t.spadKey c off
  (t.hid.findSome? fun x => mapGet k x.old).getD (t.spadRead c off, t.poisonS.contains k)

/-- n scratchpad bytes as an LDP of the core reads them, and whether any is poisoned (log 133). -/
def Task.coreBytes (t : Task) (c : Carve) (off n : Nat) : List Byte × Bool :=
  let xs := tabulate n fun i => t.coreByte c (off + i)
  (xs.map (·.1), xs.any (·.2))

/-- Add a command's scratchpad write to the hidden ones, oldest first. -/
def hideSpad (x : SpadHide) : List SpadHide → List SpadHide
  | [] => [x]
  | y :: ys => if ys.isEmpty && y.tag = x.tag then [{ y with old := y.old ++ x.old }] else y :: hideSpad x ys

/-- Write scratchpad bytes for an engine command: the core's LDPs see them once a wait covers the command (R142; log 133). -/
def Task.engPut (t : Task) (c : Carve) (tag : CmdTag) (bad : Bool) (off : Nat) (bs : List Byte) : Task :=
  let old := tabulate bs.length fun i =>
    let k := t.spadKey c (off + i)
    (k, (t.spadRead c (off + i), t.poisonS.contains k))
  { t.spadLand c bad off bs with hid := hideSpad { tag := tag, old := old } t.hid }

/-- A little-endian number in the scratchpad. -/
def Task.spadLE (t : Task) (c : Carve) (off n : Nat) : Nat := leNat (t.spadBytes c off n).1

/-- COUNT, GEN and flags of a sync word after an arrival of n bytes (R158). -/
def syncStep (target count gen flags n : Nat) : Nat × Nat × Nat :=
  let c := count + n
  if target ≠ 0 ∧ target ≤ c then
    (c % target, (gen + c / target) % 2 ^ 32, if c % target ≠ 0 then 1 else flags % 2)
  else (c % 2 ^ 32, gen, flags % 2)

/-- Note that an arrival or a SYARM changed a sync word in a segment (R158). -/
def Seg.saveSync (g : Seg) (m off : Nat) : Seg := { g with syncs := g.syncs.modify m fun l => setInsert off l }

/-- COUNT, GEN and flags of a sync word (R158). -/
def Task.syncFields (t : Task) (c : Carve) (off : Nat) : Nat × Nat × Nat :=
  (t.spadLE c (off + 4) 4, t.spadLE c (off + 8) 4, t.spadLE c (off + 12) 4)

/-- Write COUNT, GEN and flags of a sync word, with their poison. -/
def Task.setSync (t : Task) (c : Carve) (off : Nat) (v : Nat × Nat × Nat) (bad : Bool) : Task :=
  t.spadPut c bad (off + 4) (leBytes 4 v.1 ++ leBytes 4 v.2.1 ++ leBytes 4 v.2.2)

/-- Note a changed sync word in the team's newest uncommitted segment. -/
def Team.noteSync (tm : Team) (m off : Nat) : Team :=
  { tm with openSeg := tm.openSeg.map fun g => g.saveSync m off,
            segs := if tm.openSeg.isSome then tm.segs else match tm.segs.reverse with
              | [] => []
              | g :: gs => (g.saveSync m off :: gs).reverse }

/-- Whether an arrival of n bytes advances the generation of a sync word (R158). -/
def Task.advances (tk : Task) (c : Carve) (off n : Nat) : Bool :=
  let target := tk.spadLE c off 4
  target ≠ 0 && decide (target ≤ tk.spadLE c (off + 4) 4 + n)

/-- An arrival of n bytes counted into a sync word of a member (R158), whose poison stays in its fields (R387); a generation that has passed
makes a SYWAIT cover the bytes of the member's commands counted in it (R160; log 115). -/
def State.syncArrive (s : State) (t m off n : Nat) : State :=
  s.modTeam t fun tm =>
    let step (tk : Task) : Task :=
      let (c, g, f) := tk.syncFields tm.carve off
      tk.setSync tm.carve off (syncStep (tk.spadLE tm.carve off 4) c g f n) (tk.spadBytes tm.carve off 16).2
    let tm1 := (tm.noteSync m off).modMember m step
    if (tm.members[m]?).any fun tk => tk.advances tm.carve off n then
      tm1.retag m fun x => if x.sync == some off then { x with passed := true } else x
    else tm1

/-- Whether one of n bytes of program at an offset is poisoned (R387; log 79). -/
def Task.progBad (tk : Task) (off n : Nat) : Bool := tk.poisonProg.any fun a => decide (off ≤ a) && decide (a < off + n)

/-! ## Timelines, fills, causes (R33, R42, R169, R356) -/

/-- Let the counter rise past every number that is done (R42). -/
def Timeline.rise : Nat → Timeline → Timeline
  | 0, t => t
  | n + 1, t =>
    let k := t.count.toNat + 1
    if t.done.contains k then Timeline.rise n { t with count := t.count + 1, done := t.done.filter (· ≠ k) } else t

/-- The command numbered n has completed, or its cancellation has (R42, R43). -/
def Timeline.complete (t : Timeline) (n : Nat) : Timeline :=
  Timeline.rise (t.done.length + 1) { t with cmds := t.cmds.filter (fun c => c.num ≠ n), done := setInsert n t.done }

/-- A timeline counter of a task. -/
def Task.timeline (t : Task) (n : BitVec 4) : Timeline := t.tl.get n.toFin

/-- Change a timeline counter. -/
def Task.modTl (t : Task) (n : BitVec 4) (f : Timeline → Timeline) : Task :=
  { t with tl := t.tl.set n.toFin (f (t.timeline n)) n.toFin.isLt }

/-- Complete a command on a counter. -/
def Task.complete (t : Task) (n : BitVec 4) (num : Nat) : Task := t.modTl n (·.complete num)

/-- Mark a destination pending with the fill that will come; g0 takes none (R31, R33). -/
def Task.pend (t : Task) (d : Reg) (src : FillSrc) : Task :=
  if d = 0 then t else { t with regs := t.regs.mark d .pending, fills := t.fills ++ [{ rd := d, src := src }] }

/-- A pending fill takes its value. -/
def Task.resolve (t : Task) (d : Reg) (src : FillSrc) (v : Word) (bad : Bool) : Task :=
  { t with fills := t.fills.map fun f => if f.rd = d && f.src == src then { f with src := .value v bad } else f }

/-- Add a pending asynchronous cause (R356). -/
def Task.addCause (t : Task) (c : Cause) : Task := { t with causes := t.causes ++ [c] }

/-- FMT of an engine command (R358). -/
def fmtCause (tl : BitVec 4) (addr : Word) (num : Nat) : Cause :=
  { cause := 7, detail := 0x40 + tl.setWidth 16, taddr := addr, tval := BitVec.ofNat 64 num }

end Sys2Proof.Machine
end

