-- ==== Sys2Proof/Machine/Operands.lean ====
section
/-! DEFINITION. Operand forms: immediates, effective addresses, access sizes, widths of atomics, bit fields. -/

namespace Sys2Proof.Machine

/-- Sign extension of an immediate field to 64 bits (R90). -/
def sext13 (i : BitVec 13) : Word := i.signExtend 64

/-- Bytes of a MEM size field (R92). -/
def accessSize (s : BitVec 2) : Nat := 2 ^ s.toNat

/-- Effective address g[a] + sext(offset9)·size of the MEM format (R140). -/
def effAddr (base : Word) (o : BitVec 9) (size : Nat) : Word :=
  base + o.signExtend 64 * BitVec.ofNat 64 size

/-- Target of a branch with a 22-bit displacement in words from its own offset (R87, R125). -/
def branchTarget (pc : Nat) (d : Int) : Int := (pc : Int) + 4 * d

/-- The low w bits of a word, zero-extended. -/
def lowBits (w : Nat) (v : Word) : Word := BitVec.ofNat 64 (v.toNat % 2 ^ w)

/-- SEXT of the low w bits, w from 1 to 64 (R119). -/
def sextBits (w : Nat) (v : Word) : Word := BitVec.ofInt 64 (signedOf w v.toNat)

/-- Bits pos + len − 1 to pos of a word (R119). -/
def extractBits (pos len : Nat) (v : Word) : Word := BitVec.ofNat 64 (v.toNat / 2 ^ pos % 2 ^ len)

/-- A mask of len ones at pos. -/
def fieldMask (pos len : Nat) : Word := BitVec.ofNat 64 ((2 ^ len - 1) * 2 ^ pos)

/-- Replace a field of `old` by the low bits of v (R119, R122). -/
def insertBits (pos len : Nat) (old v : Word) : Word :=
  (old &&& ~~~(fieldMask pos len)) ||| ((v <<< pos) &&& fieldMask pos len)

/-- Width and offset of a work-identifier field, when the launch has it (R45, R122). -/
def widField (widths : List Nat) (i : Nat) : Option (Nat × Nat) :=
  match widths[i]? with
  | none => none
  | some w => some (w, (widths.take i).sum)

/-- Operand width of an atomic in bytes (R94, R145). -/
def atomicSize (s : BitVec 2) : Nat := if s = 2 then 4 else 8

/-- The new value of an atomic's location (R145): operation, bytes, old value, operand. -/
def atomicOp (op n old b : Nat) : Nat :=
  let w := 8 * n
  if op = 0 then (old + b) % 2 ^ w
  else if op = 1 then old &&& b
  else if op = 2 then old ||| b
  else if op = 3 then old ^^^ b
  else if op = 4 then if signedOf w b < signedOf w old then b else old
  else if op = 5 then if signedOf w old < signedOf w b then b else old
  else if op = 6 then min old b
  else if op = 7 then max old b
  else b

end Sys2Proof.Machine
end

