-- ==== Sys2Proof/Machine/Flags.lean ====
section
/-! DEFINITION. Predicates: the compare conditions (R91) and predicate logic (R124). The core has no other flags (R112). -/

namespace Sys2Proof.Machine

/-- The comparison that a cc field selects (R91): EQ, NE, LT, GE, LTU, GEU, and 6. -/
def compareCond (c : BitVec 3) (a b : Word) : Bool :=
  match c.toNat with
  | 0 => a == b
  | 1 => a != b
  | 2 => a.slt b
  | 3 => !a.slt b
  | 4 => a.ult b
  | 5 => !a.ult b
  | 6 => decide (a &&& b ≠ 0)
  | _ => false

/-- A compare or a predicate operation writes its predicate and goes on (R32, R123). -/
def issuePred (s : State) (p : Pred) (checks : Regs → Ready) (val bad : Regs → Bool) : Out :=
  issue s checks fun c =>
    .next (c.putRegs s ((c.task.regs.setPred p (val c.task.regs) (bad c.task.regs)).advance 4))

/-- Predicate logic on two predicates (R124). -/
def execPredicate (s : State) (d a b : Pred) (op : Bool → Bool → Bool) : Out :=
  issuePred s d (fun _ => .ok) (fun r => op (r.pred a) (r.pred b)) fun r => r.badPred a || r.badPred b

end Sys2Proof.Machine
end

