-- ==== Sys2Proof/Machine/Alu.lean ====
section
/-! DEFINITION. Integer, field, compare and full/empty instructions (chapter 05, R112–R124, R132–R134). -/

namespace Sys2Proof.Machine

/-- Register–register form (R89, R115): operands a and b with their e-bits, result to d. -/
def execRR (d a b : Reg) (e f : Bool) (op : Word → Word → Word) (s : State) : Out :=
  issueWrite s 4 d (fun r => (r.dst d).then ((r.src a e).then (r.src b f))) (fun r => op (r.val a) (r.val b))
    fun r => r.bad a || r.bad b

/-- Form with one source (R90, R118). -/
def execR1 (d a : Reg) (e : Bool) (op : Word → Word) (s : State) : Out :=
  issueWrite s 4 d (fun r => (r.dst d).then (r.src a e)) (fun r => op (r.val a)) fun r => r.bad a

/-- Form that also reads its destination (R112, R133). -/
def execRd (d a : Reg) (e : Bool) (op : Word → Word → Word) (s : State) : Out :=
  issueWrite s 4 d (fun r => (r.dstRead d).then (r.src a e)) (fun r => op (r.val d) (r.val a)) fun r => r.bad d || r.bad a

/-- Signed quotient and remainder (R116). -/
def divRem (a b : Word) : Word × Word :=
  if b = 0 then (BitVec.allOnes 64, a)
  else if a = BitVec.ofInt 64 (-(2 ^ 63)) ∧ b = BitVec.allOnes 64 then (a, 0)
  else (BitVec.ofInt 64 (a.toInt.tdiv b.toInt), BitVec.ofInt 64 (a.toInt.tmod b.toInt))

/-- Unsigned quotient and remainder (R116). -/
def divRemU (a b : Word) : Word × Word :=
  if b = 0 then (BitVec.allOnes 64, a)
  else (BitVec.ofNat 64 (a.toNat / b.toNat), BitVec.ofNat 64 (a.toNat % b.toNat))

/-- Number of zero bits above the highest one bit of the low n bits (R118). -/
def clzBits : Nat → Nat → Nat
  | 0, _ => 0
  | n + 1, v => if bitAt v n then 0 else 1 + clzBits n v

/-- Number of zero bits below the lowest one bit of n bits (R118). -/
def ctzBits : Nat → Nat → Nat
  | 0, _ => 0
  | n + 1, v => if v % 2 = 1 then 0 else 1 + ctzBits n (v / 2)

/-- Number of one bits of n bits (R118). -/
def popBits : Nat → Nat → Nat
  | 0, _ => 0
  | n + 1, v => v % 2 + popBits n (v / 2)

/-- ADD (R115). -/
def execAdd (d a b : Reg) (e f : Bool) (s : State) : Out := execRR d a b e f (fun x y => x + y) s
/-- SUB (R115). -/
def execSub (d a b : Reg) (e f : Bool) (s : State) : Out := execRR d a b e f (fun x y => x - y) s
/-- MUL: bits [63:0] of the product (R115). -/
def execMul (d a b : Reg) (e f : Bool) (s : State) : Out := execRR d a b e f (fun x y => x * y) s
/-- MULH: bits [127:64] of the signed product (R115). -/
def execMulh (d a b : Reg) (e f : Bool) (s : State) : Out :=
  execRR d a b e f (fun x y => BitVec.ofInt 64 (x.toInt * y.toInt / 2 ^ 64)) s
/-- MULHU: bits [127:64] of the unsigned product (R115). -/
def execMulhu (d a b : Reg) (e f : Bool) (s : State) : Out :=
  execRR d a b e f (fun x y => BitVec.ofNat 64 (x.toNat * y.toNat / 2 ^ 64)) s
/-- DIV (R116). -/
def execDiv (d a b : Reg) (e f : Bool) (s : State) : Out := execRR d a b e f (fun x y => (divRem x y).1) s
/-- DIVU (R116). -/
def execDivu (d a b : Reg) (e f : Bool) (s : State) : Out := execRR d a b e f (fun x y => (divRemU x y).1) s
/-- REM (R116). -/
def execRem (d a b : Reg) (e f : Bool) (s : State) : Out := execRR d a b e f (fun x y => (divRem x y).2) s
/-- REMU (R116). -/
def execRemu (d a b : Reg) (e f : Bool) (s : State) : Out := execRR d a b e f (fun x y => (divRemU x y).2) s
/-- AND (R117). -/
def execAnd (d a b : Reg) (e f : Bool) (s : State) : Out := execRR d a b e f (fun x y => x &&& y) s
/-- OR (R117). -/
def execOr (d a b : Reg) (e f : Bool) (s : State) : Out := execRR d a b e f (fun x y => x ||| y) s
/-- XOR (R117). -/
def execXor (d a b : Reg) (e f : Bool) (s : State) : Out := execRR d a b e f (fun x y => x ^^^ y) s
/-- SHL by b[5:0] (R117). -/
def execShl (d a b : Reg) (e f : Bool) (s : State) : Out := execRR d a b e f (fun x y => x <<< (y.toNat % 64)) s
/-- SHR by b[5:0] (R117). -/
def execShr (d a b : Reg) (e f : Bool) (s : State) : Out := execRR d a b e f (fun x y => x >>> (y.toNat % 64)) s
/-- SAR by b[5:0] (R117). -/
def execSar (d a b : Reg) (e f : Bool) (s : State) : Out := execRR d a b e f (fun x y => x.sshiftRight (y.toNat % 64)) s
/-- ROL by b[5:0] (R117). -/
def execRol (d a b : Reg) (e f : Bool) (s : State) : Out := execRR d a b e f (fun x y => x.rotateLeft (y.toNat % 64)) s
/-- MIN, signed (R118). -/
def execMin (d a b : Reg) (e f : Bool) (s : State) : Out := execRR d a b e f (fun x y => if y.slt x then y else x) s
/-- MAX, signed (R118). -/
def execMax (d a b : Reg) (e f : Bool) (s : State) : Out := execRR d a b e f (fun x y => if x.slt y then y else x) s
/-- MINU (R118). -/
def execMinu (d a b : Reg) (e f : Bool) (s : State) : Out := execRR d a b e f (fun x y => if y.ult x then y else x) s
/-- MAXU (R118). -/
def execMaxu (d a b : Reg) (e f : Bool) (s : State) : Out := execRR d a b e f (fun x y => if x.ult y then y else x) s
/-- CLZ (R118). -/
def execClz (d a : Reg) (e : Bool) (s : State) : Out := execR1 d a e (fun x => BitVec.ofNat 64 (clzBits 64 x.toNat)) s
/-- CTZ (R118). -/
def execCtz (d a : Reg) (e : Bool) (s : State) : Out := execR1 d a e (fun x => BitVec.ofNat 64 (ctzBits 64 x.toNat)) s
/-- POPC (R118). -/
def execPopc (d a : Reg) (e : Bool) (s : State) : Out := execR1 d a e (fun x => BitVec.ofNat 64 (popBits 64 x.toNat)) s
/-- MOV (R121). -/
def execMov (d a : Reg) (e : Bool) (s : State) : Out := execR1 d a e (fun x => x) s
/-- ADDI (R115). -/
def execAddi (d a : Reg) (e : Bool) (i : BitVec 13) (s : State) : Out := execR1 d a e (fun x => x + sext13 i) s
/-- ANDI (R117). -/
def execAndi (d a : Reg) (e : Bool) (i : BitVec 13) (s : State) : Out := execR1 d a e (fun x => x &&& sext13 i) s
/-- ORI (R117). -/
def execOri (d a : Reg) (e : Bool) (i : BitVec 13) (s : State) : Out := execR1 d a e (fun x => x ||| sext13 i) s
/-- XORI (R117). -/
def execXori (d a : Reg) (e : Bool) (i : BitVec 13) (s : State) : Out := execR1 d a e (fun x => x ^^^ sext13 i) s
/-- SHLI (R117). -/
def execShli (d a : Reg) (e : Bool) (n : BitVec 6) (s : State) : Out := execR1 d a e (fun x => x <<< n.toNat) s
/-- SHRI (R117). -/
def execShri (d a : Reg) (e : Bool) (n : BitVec 6) (s : State) : Out := execR1 d a e (fun x => x >>> n.toNat) s
/-- SARI (R117). -/
def execSari (d a : Reg) (e : Bool) (n : BitVec 6) (s : State) : Out := execR1 d a e (fun x => x.sshiftRight n.toNat) s
/-- ROLI (R117). -/
def execRoli (d a : Reg) (e : Bool) (n : BitVec 6) (s : State) : Out := execR1 d a e (fun x => x.rotateLeft n.toNat) s
/-- SEXT; the field holds width − 1 (R119). -/
def execSext (d a : Reg) (e : Bool) (w : BitVec 6) (s : State) : Out := execR1 d a e (fun x => sextBits (w.toNat + 1) x) s
/-- ZEXT; the field holds width − 1 (R119). -/
def execZext (d a : Reg) (e : Bool) (w : BitVec 6) (s : State) : Out := execR1 d a e (fun x => lowBits (w.toNat + 1) x) s
/-- BFX; l holds len − 1 (R119). -/
def execBfx (d a : Reg) (e : Bool) (l p : BitVec 6) (s : State) : Out :=
  execR1 d a e (fun x => extractBits p.toNat (l.toNat + 1) x) s
/-- BFI; l holds len − 1; reads its destination (R112, R119). -/
def execBfi (d a : Reg) (e : Bool) (l p : BitVec 6) (s : State) : Out :=
  execRd d a e (fun old x => insertBits p.toNat (l.toNat + 1) old x) s

/-- The field widths of the launch of the focused task (R122). -/
def State.widths (s : State) : List Nat :=
  match s.cur with
  | none => []
  | some c =>
    match s.launchOf c.team with
    | none => []
    | some l => l.hdr.widths

/-- WFLD (R122). -/
def execWfld (d a : Reg) (e : Bool) (i : BitVec 3) (s : State) : Out :=
  execR1 d a e (fun x =>
    match widField s.widths i.toNat with
    | none => 0
    | some (w, o) => extractBits o w x) s

/-- WCMB; reads its destination (R112, R122). -/
def execWcmb (d a : Reg) (e : Bool) (i : BitVec 3) (s : State) : Out :=
  execRd d a e (fun old x =>
    match widField s.widths i.toNat with
    | none => old
    | some (w, o) => insertBits o w old x) s

/-- SEL reads both operands; a poisoned predicate is consumed as a branch condition (R121, R387). -/
def execSel (d a b : Reg) (e f : Bool) (p : Pred) (s : State) : Out :=
  issue s (fun r => (r.dst d).then ((r.src a e).then (r.src b f))) fun c =>
    let r := c.task.regs
    if r.badPred p then .next (c.consumeAddr s)
    else
      let n := if r.pred p then a else b
      .next (c.putRegs s ((r.write d (r.val n) (r.bad n)).advance 4))

/-- LEA (R121). -/
def execLea (d a b : Reg) (e f : Bool) (sh : BitVec 3) (s : State) : Out :=
  execRR d a b e f (fun x y => x + (y <<< sh.toNat)) s

/-- LI (R120). -/
def execLi (d : Reg) (imm : BitVec 32) (s : State) : Out :=
  issueWrite s 8 d (fun r => r.dst d) (fun _ => imm.setWidth 64) fun _ => false

/-- LUI; reads its destination (R112, R120). -/
def execLui (d : Reg) (imm : BitVec 32) (s : State) : Out :=
  issueWrite s 8 d (fun r => r.dstRead d) (fun r => imm ++ (r.val d).setWidth 32) fun r => r.bad d

/-- CMP (R123). -/
def execCmp (p : Pred) (cc : BitVec 3) (a b : Reg) (e f : Bool) (s : State) : Out :=
  issuePred s p (fun r => (r.src a e).then (r.src b f)) (fun r => compareCond cc (r.val a) (r.val b))
    fun r => r.bad a || r.bad b

/-- CMPI (R123). -/
def execCmpi (p : Pred) (cc : BitVec 3) (a : Reg) (e : Bool) (i : BitVec 13) (s : State) : Out :=
  issuePred s p (fun r => r.src a e) (fun r => compareCond cc (r.val a) (sext13 i)) fun r => r.bad a

/-- PAND (R124). -/
def execPand (d a b : Pred) (s : State) : Out := execPredicate s d a b fun x y => x && y
/-- POR (R124). -/
def execPor (d a b : Pred) (s : State) : Out := execPredicate s d a b fun x y => x || y
/-- PXOR (R124). -/
def execPxor (d a b : Pred) (s : State) : Out := execPredicate s d a b fun x y => x ^^ y
/-- PNOT (R124). -/
def execPnot (d a : Pred) (s : State) : Out := execPredicate s d a a fun x _ => !x

/-- FSET waits while its register is pending, then makes it full or void (R132). -/
def execFset (d : Reg) (v : Bool) (s : State) : Out :=
  issue s (fun r => r.dst d) fun c =>
    .next (c.putRegs s ((c.task.regs.mark d (if v then .full else .void)).advance 4))

/-- FCHK reads only the full/empty bit (R134). -/
def execFchk (p : Pred) (a : Reg) (s : State) : Out :=
  issuePred s p (fun _ => .ok) (fun r => r.condOf a = .full) fun _ => false

end Sys2Proof.Machine
end

