-- ==== Sys2Proof/Machine/Pattern.lean ====
section
/-! DEFINITION. Element patterns and configuration blocks, and their validation (R103–R111, R175, R176, R187–R223). -/

namespace Sys2Proof.Machine

/-- Whether a selector names a stream input (R186). -/
def streamSel (s : Nat) : Bool := (1 ≤ s && s ≤ 4) || (16 ≤ s && s ≤ 47)

/-- Whether an opcode belongs to an edge element, and its class (R106, R108). -/
def opcClass (opc : Nat) : Nat := if opc = 0x29 then 1 else if opc = 0x2A then 2 else if opc = 0x2B then 3 else 0

/-- Whether an opcode is assigned (R106). -/
def opcAssigned (opc : Nat) : Bool :=
  opc ≤ 0x19 || (0x20 ≤ opc && opc ≤ 0x2D) || (0x30 ≤ opc && opc ≤ 0x33) || opc = 0x38 || opc = 0x39

/-- Whether the element is terminal under R105 (R212, R215). -/
def terminal (p : Pattern) : Bool := pOpc p = 0 || pOpc p = 0x2C || (pOpc p = 0x2A && pMode p = 2)

/-- Formats of the arithmetic elements (R195). -/
def arithFmt (f : Nat) : Bool := [0, 1, 2, 3, 10].contains f

/-- What an element's description allows of its fields. -/
structure PatRule where
  fmt : Bool
  rm : Bool
  ovf : Bool
  mode : Bool
  inB : Option Bool
  inC : Option Bool
  fire : Bool
  aux : Bool
  k : Bool
  extra : Bool

/-- Rule of a pattern by its opcode (R195–R223). `inB`, `inC`: some true required, some false absent, none optional. `k`:
the constant serves as parameters (log 74, log 83, log 119, log 120, log 121, log 122, log 124). -/
def patRule (p : Pattern) : PatRule :=
  let f := pFmt p
  let m := pMode p
  let aux := pAux p
  let k := pK p
  let int := f = 10
  let w := fmtWidth f
  let base : PatRule := { fmt := true, rm := false, ovf := false, mode := m = 0, inB := some false, inC := some false,
                          fire := false, aux := aux = 0, k := false, extra := true }
  match pOpc p with
  | 0x01 | 0x02 | 0x03 =>
    { base with fmt := arithFmt f, rm := !int, mode := m = 0 || (m = 1 && int), inB := some true, fire := true }
  | 0x04 | 0x05 => { base with fmt := arithFmt f, rm := !int, inB := some true, inC := some true, fire := true }
  | 0x06 | 0x07 => { base with fmt := arithFmt f, inB := some true, fire := true }
  | 0x08 | 0x09 => { base with fmt := arithFmt f, mode := m = 0 || (m = 1 && int) }
  | 0x0A => { base with fmt := isNumeric f, rm := true, ovf := true, aux := [0, 1, 2, 3, 4, 5, 10, 11, 12].contains aux }
  | 0x0B =>
    { base with fmt := arithFmt f, rm := true, ovf := true, mode := m ≤ 2, inB := some (m = 1), fire := m = 1, k := m = 0,
                aux := if m = 2 then 4 ≤ aux && aux ≤ 8 else [2, 3, 4, 5, 10, 11].contains aux }
  | 0x0C =>
    { base with fmt := if m = 2 then 4 ≤ f && f ≤ 8 else [2, 3, 4, 5, 10, 11].contains f, rm := true, mode := m ≤ 2,
                inB := some (m = 1), fire := m = 1, k := m = 0, aux := aux ≤ 3 }
  | 0x0D | 0x0E | 0x0F => { base with fmt := f = 10 || f = 15, inB := some true, fire := true }
  | 0x10 | 0x11 | 0x12 => { base with fmt := int, inB := some true, fire := true }
  | 0x13 => { base with fmt := arithFmt f, mode := m ≤ 5 || (m ≤ 7 && int), inB := some true, fire := true }
  | 0x14 => { base with fmt := [8, 16, 32, 64].contains w, inB := some true, inC := some true, fire := true }
  | 0x15 => { base with fmt := f = 10 || f = 15, mode := m ≤ 1, inB := some true, extra := streamSel (pSel p 1) }
  | 0x16 | 0x17 => { base with fmt := f = 0 || f = 1 || int, rm := true, mode := m ≤ 2 }
  | 0x18 => { base with fmt := f = 15, inB := some true, fire := true, extra := pFire p ≠ 0 }
  | 0x19 =>
    { base with fmt := arithFmt f, inB := some true, inC := some true, fire := true,
                extra := !(f = 0 && (pSel p 1 = 5 || pSel p 2 = 5)) }
  | 0x20 => { base with mode := m ≤ 1, inB := some (m = 1), fire := m = 1 }
  | 0x21 => { base with aux := true }
  | 0x22 => { base with inB := some true, fire := true, aux := aux < 16, extra := (aux &&& pNmask p) = 0 }
  | 0x23 => { base with mode := m ≤ 1, inB := some true, inC := if m = 0 then some false else none }
  | 0x24 => { base with inB := some true, aux := aux < 16, k := true, extra := k < 64 }
  | 0x25 => { base with inB := some true, fire := true, aux := aux < 16, k := true, extra := k < 64 }
  | 0x26 => { base with mode := m ≤ 1, inB := some true }
  | 0x27 => { base with fmt := 4 ≤ f && f ≤ 8, mode := m ≤ 1, inB := some true, extra := streamSel (pSel p 1) }
  | 0x28 => { base with fmt := [8, 16, 32].contains w }
  | 0x29 =>
    let span := (aux % 8) * (bitsOf aux 6 5 + 1) + 1
    { base with fmt := [8, 16, 32].contains w, aux := aux < 128 && aux % 8 ≤ 6, k := true,
                extra := k < 4096 && span * (k % 4096 + 1) * w / 8 ≤ 65536 && pSnk p && pSsel p < 16 && pNmask p = 0 }
  | 0x2A =>
    { base with mode := m ≤ 2, inB := some (m = 2), fire := m = 2, aux := aux < 4, k := true,
                extra := k % 65536 = 0 && k < 2 ^ 22 && pNmask p = 0 && (if m = 2 then !pSnk p else pSnk p && pSsel p < 16) }
  | 0x2B => { base with fmt := f = 15, aux := aux < 4, extra := pSnk p && pSsel p < 16 && pNmask p = 0 }
  | 0x2C => { base with k := true, extra := 0 < k && k < 65536 && pNmask p = 0 && !pSnk p }
  | 0x2D => { base with aux := aux = 0 || (6 ≤ aux && aux ≤ 20), k := true, extra := k < 2 ^ 32 }
  | 0x30 =>
    { base with fmt := f = 14, mode := m ≤ 3, inB := none, inC := none, aux := true, k := true,
                extra := bitsOf k 13 8 ≤ 47 && bitsOf k 21 16 ≤ 47 && bitsOf k 7 0 = 0 && bitsOf k 15 14 = 0 &&
                  bitsOf k 31 22 = 0 && bitsOf k 63 48 = 0 }
  | 0x31 => { base with fmt := f ≤ 3, rm := true, aux := aux ≤ 47, k := true, extra := k < 2 ^ 32 }
  | 0x32 => { base with fmt := f ≤ 5, rm := true, ovf := true, aux := aux ≤ 47, k := true, extra := k < 2 ^ 32 }
  | 0x33 => { base with fmt := f = 14, mode := m ≤ 7, inB := none, k := true }
  | 0x38 => { base with fmt := f = 1, rm := true, inB := some true, inC := some true, fire := true }
  | 0x39 => { base with fmt := f = 11, inB := some true }
  | _ => base

/-- Whether an input's presence is as required. -/
def presence (need : Option Bool) (sel : Nat) : Bool :=
  match need with
  | none => true
  | some b => b == decide (sel ≠ 0)

/-- The check of one pattern alone (R111 stage 3): none when it passes, else the DETAIL (log 74). DETAIL 0x0012 comes before 0x0013 (log 139),
and DEPTH may hold any value (log 140). -/
def patCheck (p : Pattern) : Option Nat :=
  let opc := pOpc p
  if !opcAssigned opc then some 0x11
  else if opc = 0 then if p.toNat = 0 ∨ p.toNat = 2 ^ 78 then none else some 0x12
  else
    let r := patRule p
    let edge := opcClass opc ≠ 0
    let selOk (s : Nat) := s ≤ 5 || 32 ≤ s || (edge && 16 ≤ s)
    let sels := [pSel p 0, pSel p 1, pSel p 2]
    let usesK := sels.contains 5
    let ok := r.fmt && (r.rm || pRm p = 0) && (r.ovf || !pOvf p) && r.mode && sels.all selOk && pSel p 0 ≠ 0 &&
      presence r.inB (pSel p 1) && presence r.inC (pSel p 2) && r.aux && (r.k || usesK || pK p = 0) && r.extra &&
      (pFire p = 0 || (pFire p ≤ 2 && r.fire && streamSel (pSel p 0) && streamSel (pSel p 1))) &&
      (pSnk p || pSsel p = 0) && (!pSnk p || pSsel p < 16 || pFmt p = 1 || pFmt p = 10)
    if !ok then some 0x12
    else if !terminal p && pNmask p = 0 && !pSnk p then some 0x13
    else none

/-! ## Places -/

/-- Key of a place: PEs by 8·row + column, edge elements after them. -/
def placeKey : Place → Nat
  | .pe x y => 8 * y.toNat + x.toNat
  | .window n => 64 + n.toNat
  | .scratch n => 72 + n.toNat
  | .request n => 80 + n.toNat

/-- Direction codes of a neighbour mask: bits 3 west, 2 north, 1 east, 0 south, as moves in column and row. -/
def neighbour (w h k dir : Nat) : Option Nat :=
  let x := k % 8
  let y := k / 8
  if dir = 3 then if 0 < x then some (k - 1) else none
  else if dir = 2 then if 0 < y then some (k - 8) else none
  else if dir = 1 then if x + 1 < w then some (k + 1) else none
  else if y + 1 < h then some (k + 8) else none

/-- The direction of a neighbour selector 1–4 (west, north, east, south). -/
def selDir (s : Nat) : Nat := 4 - s

/-- Neighbour directions that a pattern names in selectors, NMASK and its second side (R105, R205, R207; log 123). -/
def namedDirs (p : Pattern) : List Nat :=
  (([pSel p 0, pSel p 1, pSel p 2].filter fun s => 1 ≤ s && s ≤ 4).map selDir) ++
  ((List.range 4).filter fun d => bitAt (pNmask p) d || ((pOpc p = 0x22 || pOpc p = 0x25) && bitAt (pAux p) d))

/-- Whether a pattern names a port or an accumulator (R105). -/
def namesPort (p : Pattern) : Bool := pSnk p || [pSel p 0, pSel p 1, pSel p 2].any fun s => 16 ≤ s

/-- Source ports that a pattern reads. -/
def readsFi (p : Pattern) : List Nat := ([pSel p 0, pSel p 1, pSel p 2].filter fun s => 32 ≤ s && s ≤ 47).map (· - 32)

/-! ## Blocks -/

/-- A rectangle word's fields (R108). -/
structure Rect where
  plane : Nat
  cls : Nat
  x : Nat
  y : Nat
  wm1 : Nat
  hm1 : Nat
  pidx : Nat
  low : Nat

/-- A configuration block as read (R107). -/
structure Block where
  version : Nat
  w : Nat
  h : Nat
  npat : Nat
  nrect : Nat
  planes : Nat
  edge : Nat
  x0 : Nat
  y0 : Nat
  len : Nat
  pats : List Pattern
  rects : List Rect

/-- Read a block from the program region (R107, R108). -/
def readBlock (prog : Mem) (a : Nat) : Block :=
  let u (off n : Nat) := memReadLE prog (a + off) n
  let npat := u 4 2
  let nrect := u 6 2
  { version := u 0 2, w := u 2 1, h := u 3 1, npat := npat, nrect := nrect, planes := u 8 1, edge := u 9 1, x0 := u 10 1,
    y0 := u 11 1, len := u 12 4,
    pats := tabulate (min npat 264) fun i => BitVec.ofNat 128 (u (16 + 16 * i) 16),
    rects := tabulate (min nrect 512) fun i =>
      let v := u (16 + 16 * npat + 4 * i) 4
      { plane := bitsOf v 31 30, cls := bitsOf v 29 27, x := bitsOf v 26 24, y := bitsOf v 23 21, wm1 := bitsOf v 20 18,
        hm1 := bitsOf v 17 15, pidx := bitsOf v 14 6, low := bitsOf v 5 0 } }

/-- A validation result: the DETAIL and the offset of the first fault. -/
abbrev CfgFault := Nat × Nat

/-- Header check in ascending offset (R107, R111 stage 2); CFSW ignores the origin (R176; log 125). A block that passes the end of the region
is reported at LEN, and at VERSION, which reads zero there, when its header lies beyond the end (log 150). -/
def headerFault (b : Block) (a region : Nat) (cfsw : Bool) : Option CfgFault :=
  if b.version ≠ 1 then some (0x10, 0)
  else if b.w = 0 ∨ 8 < b.w then some (0x10, 2)
  else if b.h = 0 ∨ 8 < b.h then some (0x10, 3)
  else if b.npat = 0 ∨ 264 < b.npat then some (0x10, 4)
  else if b.nrect = 0 ∨ 512 < b.nrect then some (0x10, 6)
  else if b.planes = 0 ∨ 15 < b.planes then some (0x10, 8)
  else if !cfsw ∧ 8 < b.x0 + b.w then some (0x10, 10)
  else if !cfsw ∧ 8 < b.y0 + b.h then some (0x10, 11)
  else if b.len % 16 ≠ 0 ∨ b.len < 16 + 16 * b.npat + 4 * b.nrect ∨ region < a + b.len then some (0x10, 12)
  else none

/-- First faulting pattern (R111 stage 3). -/
def patternsFault : List Pattern → Nat → Option CfgFault
  | [], _ => none
  | p :: ps, off =>
    match patCheck p with
    | some d => some (d, off)
    | none => patternsFault ps (off + 16)

/-- A placement of a block: element key, plane, pattern, and the number of its rectangle. -/
structure Placed where
  key : Nat
  plane : Nat
  pat : Pattern
  rect : Nat

/-- Element keys that a rectangle covers. -/
def rectKeys (r : Rect) : List Nat :=
  if r.cls = 0 then (List.range (r.hm1 + 1)).flatMap fun j => tabulate (r.wm1 + 1) fun i => 8 * (r.y + j) + r.x + i
  else if r.cls = 1 then [64 + r.x]
  else if r.cls = 2 then [72 + r.x]
  else [80 + r.x]

/-- Whether EDGE claims an edge element (R107). -/
def edgeClaimed (edge cls n : Nat) : Bool :=
  if cls = 1 then n < 2 && bitAt edge n else if cls = 2 then n < 2 && bitAt edge (2 + n) else n < 4 && bitAt edge (4 + n)

/-- What validation knows of the core beside the block. -/
structure CfgEnv where
  cfsw : Option Nat
  x0 : Nat
  y0 : Nat
  held : Nat → Bool
  ports : List Nat
  replay : Nat
  spadLimit : Nat
  base : List Placed

/-- The shape checks of a rectangle (R108). -/
def rectShapeOk (b : Block) (r : Rect) : Bool :=
  r.low = 0 && r.cls ≤ 3 && bitAt b.planes r.plane && r.pidx < b.npat &&
    if r.cls = 0 then r.x + r.wm1 < b.w && r.y + r.hm1 < b.h
    else r.y = 0 && r.wm1 = 0 && r.hm1 = 0 && edgeClaimed b.edge r.cls r.x

/-- Conditions of R105 and R210 on one placement (log 124). -/
def placeOk (b : Block) (k : Nat) (p : Pattern) : Bool :=
  if keyClass k = 0 then
    (namedDirs p).all (fun d => (neighbour b.w b.h k d).isSome) &&
      (!namesPort p || k % 8 = 0 || k / 8 = 0 || k % 8 + 1 = b.w || k / 8 + 1 = b.h)
  else (namedDirs p).isEmpty

/-- Interval of a CNT (R216). -/
def cntInterval (p : Pattern) : Nat := if pAux p % 32 = 0 then 4096 else 2 ^ (pAux p % 32)

/-- Ports named both ways among placements (R210). -/
def portClash (ps : List Placed) : Bool :=
  let edges := ps.filter fun q => keyClass q.key ≠ 0
  edges.any fun q =>
    (pSnk q.pat && edges.any fun r => (readsFi r.pat).contains (pSsel q.pat) ||
      (r.key ≠ q.key && pSnk r.pat && pSsel r.pat = pSsel q.pat)) ||
    (readsFo q.pat).any fun n => edges.any fun r => r.key ≠ q.key && (readsFo r.pat).contains n

/-- Check one rectangle against itself and those before it (R111 stage 4): the placements so far with it, or the DETAIL. An opcode on an
element of the wrong class comes after the rectangle's own fields and before a second placement (log 138). -/
def rectCheck (b : Block) (env : CfgEnv) (n : Nat) (r : Rect) (sofar : List Placed) : Except Nat (List Placed) :=
  if !rectShapeOk b r then .error 0x13
  else
    let p := b.pats.getD r.pidx 0
    let plane := env.cfsw.getD r.plane
    let keys := rectKeys r
    let new := sofar ++ keys.map fun k => { key := k, plane := plane, pat := p, rect := n }
    if pOpc p ≠ 0 ∧ opcClass (pOpc p) ≠ r.cls then .error 0x11
    else if keys.any fun k => sofar.any fun q => q.key = k && q.plane = plane then .error 0x13
    else if keys.any fun k => !placeOk b k p then .error 0x13
    else if portClash new then .error 0x13
    else if pOpc p = 0x2D ∧ sofar.any (fun q => pOpc q.pat = 0x2D && cntInterval q.pat ≠ cntInterval p) then .error 0x12
    else if keys.any fun k => env.held (if k < 64 then 8 * (k / 8 + env.y0) + k % 8 + env.x0 else k) then .error 0x14
    else if pOpc p = 0x2A ∧ env.spadLimit < pK p / 65536 + pAux p % 4 + 1 then .error 0x14
    else if env.replay < (distinct (env.ports ++ new.flatMap fun q => readsFi q.pat)).length then .error 0x14
    else .ok new

/-- All rectangles in order (R111 stage 4; log 91). -/
def rectsCheck (b : Block) (env : CfgEnv) : List Rect → Nat → List Placed → Except CfgFault (List Placed)
  | [], _, sofar => .ok sofar
  | r :: rs, n, sofar =>
    match rectCheck b env n r sofar with
    | .error d => .error (d, 16 + 16 * b.npat + 4 * n)
    | .ok s => rectsCheck b env rs (n + 1) s

/-- Whether a RECI or LEAV has its partner where K names it, naming it back (R207). -/
def partnered (ps : List Placed) (q : Placed) : Bool :=
  let other := if pOpc q.pat = 0x24 then 0x25 else 0x24
  if pOpc q.pat = 0x24 ∨ pOpc q.pat = 0x25 then
    ps.any fun r => r.plane = q.plane && pOpc r.pat = other && r.key = pK q.pat % 64 && pK r.pat % 64 = q.key
  else true

/-- Validation after the state checks (R111 stages 2–5): the placements, or the first fault (log 91, log 126). -/
def validate (b : Block) (env : CfgEnv) (a region : Nat) : Except CfgFault (List Placed) :=
  match headerFault b a region env.cfsw.isSome with
  | some f => .error f
  | none =>
    match patternsFault b.pats 16 with
    | some f => .error f
    | none =>
      match rectsCheck b env b.rects 0 env.base with
      | .error f => .error f
      | .ok ps =>
        match ps.find? fun q => !partnered ps q with
        | some q => .error (0x13, 16 + 16 * b.npat + 4 * q.rect)
        | none => .ok (ps.drop env.base.length)

end Sys2Proof.Machine
end

