-- ==== Sys2Proof/Machine/Fire.lean ====
section
/-! DEFINITION. What one firing of each element computes from its inputs (R183–R223): pure functions of the pattern, the
element's state and the tokens at its latches. -/

namespace Sys2Proof.Machine

/-! ## Values of a token (R70, R185) -/

/-- Values that a token carries in a format (R70). -/
def valsPerToken (f : Nat) : Nat := if fmtWidth f = 6 then 64 else 512 / fmtWidth f

/-- Value v of a token. -/
def Token.val (t : Token) (w v : Nat) : Nat := valAt w v t.payload.toNat

/-- Whether value v of width w is valid (R185): by the lane of its lowest bit, where it lies in two (R70; log 155). -/
def Token.ok (t : Token) (w v : Nat) : Bool := t.vmask.getLsbD (v * w / 32)

/-- A payload from values of width w. -/
def payloadOf (w : Nat) (vs : List Nat) : BitVec 512 := BitVec.ofNat 512 (packVals w vs)

/-- A mask of 16 bits from a test. -/
def mask16 (f : Nat → Bool) : BitVec 16 := BitVec.ofNat 16 (packVals 1 (tabulate 16 fun i => b2n (f i)))

/-- A DATA token without marks, all lanes valid. -/
def plainToken : Token :=
  { kind := .data, payload := 0, head := false, tail := false, vmask := 0xFFFF, rmask := 0, sbx := 0, poison := false }

/-- A non-data token (R184). -/
def controlToken (k : Kind) (sbx : Nat) : Token :=
  { plainToken with kind := k, vmask := 0xFFFF, sbx := BitVec.ofNat 32 sbx }

/-- A token of a repeated value. -/
def repeatToken (w v : Nat) : Token := { plainToken with payload := payloadOf w (List.replicate (512 / w) v) }

/-- Width in bits of a value that selector K supplies, 0 where no rule states it: by R195 from FMT, a lane of the bitwise and shift
elements (R196), the FP32 scale of VQNT and VDQN (R199), and for RAW bits [31:0] at an element of 32-bit lanes, all 64 bits at VRNG
and TXQ, whose values have 64 (R23); log 64. -/
def constWidth (p : Pattern) : Nat :=
  let opc := pOpc p
  if 0x0B ≤ opc ∧ opc ≤ 0x0C ∨ 0x0D ≤ opc ∧ opc ≤ 0x12 then 32
  else match pFmt p with
    | 0 => 64
    | 1 | 10 => 32
    | 2 | 3 => 16
    | 15 => if opc = 0x18 ∨ opc = 0x2B then 64 else 32
    | _ => 0

/-- The constant as an operand (R195–R197, R222): by width, input c of VCLP and LREC from the upper half; free lanes where no rule
states what K supplies (log 64). -/
def constToken (p : Pattern) (i : Nat) : Token :=
  let w := constWidth p
  let k := if i = 2 && (pOpc p = 0x19 || pOpc p = 0x38) then pK p / 2 ^ 32 else pK p
  if w = 0 then
    { plainToken with payload := payloadOf 32 (tabulate 16 fun l =>
        (Config.constLane (pOpc p) (pFmt p) (BitVec.ofNat 64 (pK p)) l).toNat) }
  else repeatToken w (k % 2 ^ w)

/-- What a firing may see of its core: whether an output entry is free, the accumulators, the scratchpad and a fresh
index. -/
structure FireEnv where
  room : Bool
  acc : Nat → Token
  read : Nat → Option (BitVec 32 × Bool)
  fresh : Nat

/-- What a firing does: which inputs it consumes, the new own state and whether it derives from poison, bank and held token, tokens
produced, the token of the second side, scratchpad words written, and tokens or accesses discarded. -/
structure Fired where
  takes : Bool × Bool × Bool
  own : Own
  dirty : Bool
  bank : List Lane
  held : Option Token
  out : List Token
  alt : Option Token
  spad : List (Nat × BitVec 32)
  disc : Nat
  hold : Bool

/-- Outcome of trying to fire. -/
inductive Fire where
  | idle
  | go (x : Fired)
  | fault (cause : Nat) (lanes : BitVec 16) (addr : Word)
  | region (imbalance : Bool)

/-- A firing that keeps the element's state and emits nothing. -/
def Elem.fired (e : Elem) : Fired :=
  { takes := (false, false, false), own := e.own, dirty := e.dirty, bank := e.bank, held := e.held, out := [], alt := none, spad := [],
    disc := 0, hold := false }

/-- Token at the head of input i. -/
def Elem.head (e : Elem) (i : Nat) : Option Token := if i = 0 then e.a.latch else if i = 1 then e.b.latch else e.c.latch

/-- Whether a token is of a data-class kind (R186). -/
def Kind.dataClass : Kind → Bool
  | .data | .scale | .state => true
  | .eos | .round | .ckpt | .bal => false

/-- What an input offers: a usable token, nothing, or a token of the wrong data-class kind. -/
inductive Offer where
  | none
  | tok (t : Token)
  | wrong

/-- What input i offers when a token of a kind is expected (R186). -/
def offer (env : FireEnv) (p : Pattern) (e : Elem) (i : Nat) (k : Kind) : Offer :=
  let s := pSel p i
  if s = 0 then .tok plainToken
  else if s = 5 then .tok (constToken p i)
  else if 48 ≤ s then .tok (env.acc (s - 48))
  else
    match e.head i with
    | none => .none
    | some t => if t.kind = k then .tok t else if t.kind.dataClass then .wrong else .none

/-- Fire by the default rule with input b by FIRE (R186, R187). -/
def gate (env : FireEnv) (p : Pattern) (e : Elem) (ka : Kind) (f : Token → Token → Token → Fire) : Fire :=
  match offer env p e 0 ka, offer env p e 2 .data with
  | .tok a, .tok c =>
    let keep := pFire p ≠ 0 && !(pFire p = 1 && a.head)
    let (b, takeB) : Offer × Bool :=
      match keep, e.held with
      | true, some h => (.tok h, false)
      | _, _ => (offer env p e 1 .data, streamSel (pSel p 1))
    match b with
    | .tok b =>
      match f a b c with
      | .go x =>
        .go { x with takes := (streamSel (pSel p 0), takeB, streamSel (pSel p 2)),
                     held := if pFire p ≠ 0 then some b else x.held }
      | r => r
    | .wrong => .region false
    | .none => .idle
  | .wrong, _ => .region false
  | _, .wrong => .region false
  | _, _ => .idle

/-- The token of R189: marks of a, a payload, a mask. -/
def emitted (a : Token) (vm : BitVec 16) (payload : BitVec 512) (poison : Bool) : Token :=
  { kind := .data, payload := payload, head := a.head, tail := a.tail, vmask := vm, rmask := a.rmask, sbx := 0,
    poison := poison }

/-- Mask of the operands of a firing (R189). -/
def maskOf (p : Pattern) (a b c : Token) : BitVec 16 :=
  a.vmask &&& (if pSel p 1 = 0 then 0xFFFF else b.vmask) &&& (if pSel p 2 = 0 then 0xFFFF else c.vmask)

/-- Poison of the operands and the element's own state. -/
def badOf (p : Pattern) (e : Elem) (a b c : Token) : Bool :=
  e.dirty || a.poison || (pSel p 1 ≠ 0 && b.poison) || (pSel p 2 ≠ 0 && c.poison)

/-- A firing that computes each valid value of width w from the values of a, b and c (R185, R195). -/
def mapFire (w : Nat) (f : Nat → Nat → Nat → Nat) (env : FireEnv) (p : Pattern) (e : Elem) : Fire :=
  gate env p e .data fun a b c =>
    let vm := maskOf p a b c
    let vs := tabulate (512 / w) fun v =>
      if vm.getLsbD (v * w / 32) then f (a.val w v) (b.val w v) (c.val w v) else 0
    .go { e.fired with out := [emitted a vm (payloadOf w vs) (badOf p e a b c)] }

/-- An arithmetic result: floating operands through an exact function, INT32 through integers, wrapped or saturated
(R195). -/
def arith (p : Pattern) (fl : Num → Num → Num → Num) (int : Int → Int → Int → Int) (x y z : Nat) : Nat :=
  let f := pFmt p
  if f = 10 then
    let v := int (signedOf 32 x) (signedOf 32 y) (signedOf 32 z)
    wrapOf 32 (if pMode p = 1 then satSigned 32 v else v)
  else roundNum f (pRm p) (pOvf p) (fl (decodeNum f x) (decodeNum f y) (decodeNum f z))

/-- An arithmetic element (R195). -/
def arithFire (fl : Num → Num → Num → Num) (int : Int → Int → Int → Int) (env : FireEnv) (p : Pattern) (e : Elem) : Fire :=
  mapFire (fmtWidth (pFmt p)) (arith p fl int) env p e

/-- VADD. -/
def fireVadd (env : FireEnv) (p : Pattern) (e : Elem) : Fire :=
  arithFire (fun x y _ => numAdd (pRm p = 3) x y) (fun x y _ => x + y) env p e
/-- VSUB. -/
def fireVsub (env : FireEnv) (p : Pattern) (e : Elem) : Fire :=
  arithFire (fun x y _ => numAdd (pRm p = 3) x (numNeg y)) (fun x y _ => x - y) env p e
/-- VMUL. -/
def fireVmul (env : FireEnv) (p : Pattern) (e : Elem) : Fire :=
  arithFire (fun x y _ => numMul x y) (fun x y _ => x * y) env p e
/-- VFMA. -/
def fireVfma (env : FireEnv) (p : Pattern) (e : Elem) : Fire :=
  arithFire (fun x y z => numAdd (pRm p = 3) (numMul x y) z) (fun x y z => x * y + z) env p e
/-- VFMS. -/
def fireVfms (env : FireEnv) (p : Pattern) (e : Elem) : Fire :=
  arithFire (fun x y z => numAdd (pRm p = 3) (numMul x y) (numNeg z)) (fun x y z => x * y - z) env p e
/-- VMIN by R61. -/
def fireVmin (env : FireEnv) (p : Pattern) (e : Elem) : Fire :=
  arithFire (fun x y _ => numMin x y) (fun x y _ => min x y) env p e
/-- VMAX by R61. -/
def fireVmax (env : FireEnv) (p : Pattern) (e : Elem) : Fire :=
  arithFire (fun x y _ => numMax x y) (fun x y _ => max x y) env p e
/-- VABS. -/
def fireVabs (env : FireEnv) (p : Pattern) (e : Elem) : Fire :=
  arithFire (fun x _ _ => numAbs x) (fun x _ _ => x.natAbs) env p e
/-- VNEG. -/
def fireVneg (env : FireEnv) (p : Pattern) (e : Elem) : Fire :=
  arithFire (fun x _ _ => numNeg x) (fun x _ _ => -x) env p e

/-- VAND (R196). -/
def fireVand (env : FireEnv) (p : Pattern) (e : Elem) : Fire := mapFire 32 (fun x y _ => x &&& y) env p e
/-- VOR (R196). -/
def fireVor (env : FireEnv) (p : Pattern) (e : Elem) : Fire := mapFire 32 (fun x y _ => x ||| y) env p e
/-- VXOR (R196). -/
def fireVxor (env : FireEnv) (p : Pattern) (e : Elem) : Fire := mapFire 32 (fun x y _ => x ^^^ y) env p e
/-- VSHL (R196). -/
def fireVshl (env : FireEnv) (p : Pattern) (e : Elem) : Fire := mapFire 32 (fun x y _ => x * 2 ^ (y % 32) % 2 ^ 32) env p e
/-- VSHR (R196). -/
def fireVshr (env : FireEnv) (p : Pattern) (e : Elem) : Fire := mapFire 32 (fun x y _ => x / 2 ^ (y % 32)) env p e
/-- VSAR (R196). -/
def fireVsar (env : FireEnv) (p : Pattern) (e : Elem) : Fire :=
  mapFire 32 (fun x y _ => wrapOf 32 (signedOf 32 x / 2 ^ (y % 32))) env p e

/-- The comparison of VCMP by its cc (R61, R197). -/
def vcmpCond (f cc x y : Nat) : Bool :=
  let a := decodeNum f x
  let b := decodeNum f y
  match cc with
  | 0 => numEq a b
  | 1 => !numEq a b
  | 2 => numLt a b
  | 3 => numLt a b || numEq a b
  | 4 => numLt b a
  | 5 => numLt b a || numEq a b
  | 6 => x < y
  | _ => y ≤ x

/-- VCMP. -/
def fireVcmp (env : FireEnv) (p : Pattern) (e : Elem) : Fire :=
  let w := fmtWidth (pFmt p)
  mapFire w (fun x y _ => if vcmpCond (pFmt p) (pMode p) x y then 2 ^ w - 1 else 0) env p e
/-- VSEL: b where a's bits are not all zero, else c (R197). -/
def fireVsel (env : FireEnv) (p : Pattern) (e : Elem) : Fire :=
  mapFire (fmtWidth (pFmt p)) (fun x y z => if x ≠ 0 then y else z) env p e
/-- VCLP: min(max(a, lo), hi) (R197). -/
def fireVclp (env : FireEnv) (p : Pattern) (e : Elem) : Fire :=
  arithFire (fun x y z => numMin (numMax x y) z) (fun x y z => min (max x y) z) env p e

/-- Lay values of width w out over as many tokens as they take (R198): HEAD on the first, TAIL on the last; a lane is valid
when its values are, invalid when none is or it is unused, and free when they differ (log 18, log 82). -/
def layOut (a : Token) (w : Nat) (vals : List (Nat × Bool)) (poison : Bool) (sbx : Nat → Nat) (fresh : Nat) : List Token :=
  let per := if w = 6 then 64 else 512 / w
  let n := max 1 (ceilDiv vals.length per)
  tabulate n fun j =>
    let vs := (vals.drop (j * per)).take per
    let lane (i : Nat) := (List.range vs.length).filter fun v => v * w / 32 = i || (v * w ≤ 32 * i && 32 * i < v * w + w)
    let vm := mask16 fun i =>
      let l := (lane i).map fun v => (vs.getD v (0, false)).2
      if l.isEmpty || l.all (· == false) then false
      else if l.all (· == true) then true
      else Config.freeChoice fresh % 2 = 1
    { kind := .data, payload := payloadOf w (vs.map fun v => if v.2 then v.1 else 0), head := a.head && j = 0,
      tail := a.tail && j + 1 = n, vmask := vm, rmask := a.rmask, sbx := BitVec.ofNat 32 (sbx j), poison := poison }

/-- VCVT (R198). -/
def fireVcvt (env : FireEnv) (p : Pattern) (e : Elem) : Fire :=
  gate env p e .data fun a _ _ =>
    let f := pFmt p
    let t := pAux p % 16
    let w := fmtWidth f
    let mx := 6 ≤ f && f ≤ 8
    let vals := tabulate (valsPerToken f) fun v =>
      let x := if mx then decodeMx f (a.sbx.toNat / 256 ^ (v / 32)) (a.val w v) else decodeNum f (a.val w v)
      (if f = t && !mx then convertNum f t (pRm p) (pOvf p) (a.val w v) else roundNum t (pRm p) (pOvf p) x, a.ok w v)
    .go { e.fired with out := layOut a (fmtWidth t) vals (a.poison || e.dirty) (fun _ => 0) env.fresh, hold := true }

/-- VDQN (R72, R199; log 82). -/
def fireVdqn (env : FireEnv) (p : Pattern) (e : Elem) : Fire :=
  gate env p e .data fun a b _ =>
    let f := pFmt p
    let t := pAux p % 16
    let w := fmtWidth f
    let vals := tabulate (valsPerToken f) fun v =>
      let x := if pMode p = 2 then decodeMx f (a.sbx.toNat / 256 ^ (v / 32)) (a.val w v)
        else numMul (decodeNum f (a.val w v)) (decodeNum 1 (if pMode p = 1 then b.val 32 (v * w / 32) else pK p % 2 ^ 32))
      (roundNum t (pRm p) false x, a.ok w v && (pMode p ≠ 1 || b.ok w v))
    .go { e.fired with out := layOut a (fmtWidth t) vals (badOf p e a b b) (fun _ => 0) env.fresh, hold := true }

/-- The tokens of full or final MX groups from collected values, with the reset marks of the token that fills them (R68, R189, R199; log 82), the
first with the HEAD given, that of the first token whose values they hold (log 157). -/
def mxTokens (p : Pattern) (rmask : BitVec 16) (head tail flush poison : Bool) : Nat → List (Nat × Bool) → List Token × List (Nat × Bool)
  | 0, xs => ([], xs)
  | n + 1, xs =>
    let t := pAux p % 16
    let per := if t = 8 then 128 else 64
    if xs.length < per ∧ (!flush ∨ xs.isEmpty) then ([], xs)
    else
      let now := xs.take per
      let rest := xs.drop per
      let full := now ++ List.replicate (32 * ceilDiv now.length 32 - now.length) (0, true)
      let blocks := tabulate (ceilDiv now.length 32) fun j =>
        encodeMx t (pRm p) ((full.drop (32 * j)).take 32 |>.map fun v => if v.2 then decodeNum (pFmt p) v.1 else .fin false 0 0)
      let codes := blocks.flatMap (·.2)
      let w := fmtWidth t
      let vm := mask16 fun i => decide (32 * i < w * full.length) &&
        (List.range full.length).all fun v => v * w / 32 ≠ i || (full.getD v (0, false)).2
      let tok : Token :=
        { kind := .data, payload := payloadOf w codes, head := head, tail := tail && rest.isEmpty, vmask := vm, rmask := rmask,
          sbx := BitVec.ofNat 32 (packVals 8 (blocks.map (·.1))), poison := poison }
      let (ts, r) := mxTokens p rmask false tail flush poison n rest
      (tok :: ts, r)

/-- VQNT (R72, R199): in .MX the values of a record are grouped into blocks (log 82, log 157). -/
def fireVqnt (env : FireEnv) (p : Pattern) (e : Elem) : Fire :=
  gate env p e .data fun a b _ =>
    let f := pFmt p
    let t := pAux p % 16
    let w := fmtWidth f
    if pMode p = 2 then
      let (old, head) := match e.own with
        | .vals xs h => (xs, h)
        | _ => ([], false)
      let xs := old ++ tabulate (valsPerToken f) fun v => (a.val w v, a.ok w v)
      let h := if old.isEmpty then a.head else head
      let (ts, rest) := mxTokens p a.rmask h a.tail a.tail (a.poison || e.dirty) 8 xs
      .go { e.fired with out := ts, own := .vals rest (h && ts.isEmpty), dirty := !rest.isEmpty && (a.poison || e.dirty) }
    else
      let vals := tabulate (valsPerToken f) fun v =>
        let s := decodeNum 1 (if pMode p = 1 then b.val 32 (v * w / 32) else pK p % 2 ^ 32)
        (roundDiv t (pRm p) (pOvf p) (decodeNum f (a.val w v)) s, a.ok w v && (pMode p ≠ 1 || b.ok w v))
      .go { e.fired with out := layOut a (fmtWidth t) vals (badOf p e a b b) (fun _ => 0) env.fresh, hold := true }

/-- VLUT fills its table from the first 16 tokens of b, then maps lanes of a (R200). -/
def fireVlut (env : FireEnv) (p : Pattern) (e : Elem) : Fire :=
  let tab := match e.own with
    | .lut t => t
    | _ => []
  match e.b.latch with
  | some b =>
    if b.kind = .data then
      if tab.length < 256 then
        .go { e.fired with takes := (false, true, false), dirty := e.dirty || b.poison,
                           own := .lut (tab ++ tabulate 16 fun i => BitVec.ofNat 32 (b.val 32 i)) }
      else .go { e.fired with takes := (false, true, false), disc := 1 }
    else lookup tab
  | none => lookup tab
where
  /-- A firing on a. -/
  lookup (tab : List (BitVec 32)) : Fire :=
    if tab.length < 256 then .idle
    else match offer env p e 0 .data with
      | .tok a =>
        let idx (x : Nat) := if pMode p = 1 then (clampInt 0 255 (signedOf 32 x)).toNat else x % 256
        let vs := tabulate 16 fun i => if a.ok 32 i then (tab.getD (idx (a.val 32 i)) 0).toNat else 0
        .go { e.fired with takes := (streamSel (pSel p 0), false, false),
                           out := [emitted a a.vmask (payloadOf 32 vs) (a.poison || e.dirty)] }
      | .wrong => .region false
      | .none => .idle

/-- The operation of VRED and VSCN on bits (R201). -/
def redOp (p : Pattern) (x y : Nat) : Nat :=
  let f := pFmt p
  let m := pMode p
  if f = 10 then
    let a := signedOf 32 x
    let b := signedOf 32 y
    wrapOf 32 (if m = 0 then a + b else if m = 1 then min a b else max a b)
  else
    let a := decodeNum f x
    let b := decodeNum f y
    roundNum f (pRm p) false (if m = 0 then numAdd (pRm p = 3) a b else if m = 1 then numMin a b else numMax a b)

/-- The identity of the operation (R201): −0, +∞ or −∞; for INT32 0, 2^31 − 1 and −2^31. -/
def redIdentity (p : Pattern) : Nat :=
  let f := pFmt p
  let m := pMode p
  if f = 10 then (if m = 0 then 0 else if m = 1 then 2 ^ 31 - 1 else 2 ^ 31)
  else if m = 0 then 2 ^ signPos f
  else roundNum f 0 true (.inf (m = 2))

/-- A balanced pairwise tree in index order (R73, R201). -/
def pairTree (op : Nat → Nat → Nat) : Nat → List Nat → Nat
  | 0, xs => xs.headD 0
  | n + 1, xs => op (pairTree op n (xs.take (2 ^ n))) (pairTree op n (xs.drop (2 ^ n)))

/-- The output token of VRED from its results. -/
def redToken (p : Pattern) (vals : List Nat) (head tail poison : Bool) : Token :=
  let w := fmtWidth (pFmt p)
  { kind := .data, payload := payloadOf w vals, head := head, tail := tail,
    vmask := mask16 fun i => decide (i * 32 / w < vals.length), rmask := 0, sbx := 0, poison := poison }

/-- VRED (R201). -/
def fireVred (env : FireEnv) (p : Pattern) (e : Elem) : Fire :=
  gate env p e .data fun a _ _ =>
    let w := fmtWidth (pFmt p)
    let n := 512 / w
    let (old, head) := match e.own with
      | .red v h => (v, h)
      | _ => ([], false)
    let xs := tabulate n fun v => if a.ok w v then a.val w v else redIdentity p
    let vals := old ++ [pairTree (redOp p) (if n = 8 then 3 else 4) xs]
    let h := if old.isEmpty then a.head else head
    if n ≤ vals.length || a.tail then
      .go { e.fired with own := .red [] false, dirty := false, out := [redToken p vals h a.tail (a.poison || e.dirty)] }
    else .go { e.fired with own := .red vals h, dirty := a.poison || e.dirty }

/-- VSCN: inclusive scan along values (R202). -/
def fireVscn (env : FireEnv) (p : Pattern) (e : Elem) : Fire :=
  gate env p e .data fun a _ _ =>
    let w := fmtWidth (pFmt p)
    let s0 := match e.own with
      | .scn (some s) => s
      | _ => redIdentity p
    let (s1, rs) := (List.range (512 / w)).foldl (fun (acc : Nat × List Nat) i =>
      let s := if (i = 0 && a.head) || a.rmask.getLsbD (i * w / 32) then redIdentity p else acc.1
      let s := if a.ok w i then redOp p s (a.val w i) else s
      (s, acc.2 ++ [s])) (s0, [])
    let vs := tabulate (512 / w) fun i => if a.ok w i then rs.getD i 0 else 0
    let bad := a.poison || (e.dirty && !a.head)
    .go { e.fired with own := .scn (some s1), dirty := bad, out := [emitted a a.vmask (payloadOf w vs) bad] }

/-- VRNG: 16 bytes of SHAKE256 per valid counter, in two tokens (R82, R203). -/
def fireVrng (env : FireEnv) (p : Pattern) (e : Elem) : Fire :=
  gate env p e .data fun a b _ =>
    let key := leBytes 16 (b.payload.toNat % 2 ^ 128)
    let tail := leBytes 4 (b.val 32 4) ++ leBytes 4 (b.val 32 5)
    let one (j : Nat) := if a.ok 64 j then leNat (shake256 16 (key ++ leBytes 8 (a.val 64 j) ++ tail)) else 0
    let half (h : Nat) : Token :=
      { kind := .data, payload := payloadOf 128 (tabulate 4 fun j => one (4 * h + j)), head := a.head && h = 0,
        tail := a.tail && h = 1, vmask := mask16 fun i => a.ok 64 (4 * h + i / 4), rmask := a.rmask, sbx := 0,
        poison := badOf p e a b b }
    .go { e.fired with out := [half 0, half 1] }

/-- PASS forwards a; .RST forms RMASK from b (R204). -/
def firePass (env : FireEnv) (p : Pattern) (e : Elem) : Fire :=
  gate env p e .data fun a b _ =>
    let a := { a with poison := badOf p e a b b }
    .go { e.fired with out := [if pMode p = 1 then { a with rmask := mask16 fun i => b.val 32 i ≠ 0 } else a] }

/-- DUP emits a's token n times; the token stays in the latch until its last copy (R204). -/
def fireDup (env : FireEnv) (p : Pattern) (e : Elem) : Fire :=
  gate env p e .data fun a _ _ =>
    let left := match e.own with
      | .dup n => n
      | _ => pAux p + 1
    if 1 < left then
      .go { e.fired with own := .dup (left - 1), out := [a], hold := true }
    else .go { e.fired with own := .none, out := [a] }

/-- HOLD emits the held a payload for each token of b (R204). -/
def fireHold (env : FireEnv) (p : Pattern) (e : Elem) : Fire :=
  match offer env p e 1 .data with
  | .wrong => .region false
  | .none => .idle
  | .tok b =>
    let emit (h : Token) (takeA : Bool) : Fire :=
      .go { e.fired with takes := (takeA, streamSel (pSel p 1), false), own := .hold h,
                         out := [{ b with payload := h.payload, vmask := h.vmask &&& b.vmask, sbx := 0,
                                          poison := h.poison || b.poison }] }
    let fresh : Fire := match offer env p e 0 .data with
      | .tok a => emit a (streamSel (pSel p 0))
      | .wrong => .region false
      | .none => .idle
    match e.own with
    | .hold h => if pMode p = 0 && b.head then fresh else emit h false
    | _ => fresh

/-- Condition bits of FILT and LEAV (R205). -/
def condMask (b : Token) : BitVec 16 := mask16 fun i => b.val 32 i ≠ 0 && b.vmask.getLsbD i

/-- Keep only the values of valid lanes. -/
def Token.masked (t : Token) (vm : BitVec 16) : Token :=
  { t with vmask := vm, payload := payloadOf 32 (tabulate 16 fun i => if vm.getLsbD i then t.val 32 i else 0) }

/-- FILT sends the true lanes to one side and the false ones to the other (R205). -/
def fireFilt (env : FireEnv) (p : Pattern) (e : Elem) : Fire :=
  gate env p e .data fun a b _ =>
    let a := { a with poison := badOf p e a b b, sbx := 0 }
    .go { e.fired with out := [a.masked (a.vmask &&& condMask b)], alt := some (a.masked (a.vmask &&& ~~~(condMask b))) }

/-- JOIN merges lanes (.ORD) or whole records (.FAIR) (R206). -/
def fireJoin (env : FireEnv) (p : Pattern) (e : Elem) : Fire :=
  if pMode p = 0 then
    gate env p e .data fun a b _ =>
      if a.vmask &&& b.vmask ≠ 0 then .region false
      else
        let vs := tabulate 16 fun i => if a.vmask.getLsbD i then a.val 32 i else if b.vmask.getLsbD i then b.val 32 i else 0
        .go { e.fired with out := [emitted a (a.vmask ||| b.vmask) (payloadOf 32 vs) (badOf p e a b b)] }
  else
    let (ptr, inRec) := match e.own with
      | .fair q r => (q, r)
      | _ => (0, none)
    let has (i : Nat) := pSel p i ≠ 0 && (e.head i).any fun t => t.kind = .data
    let pick := match inRec with
      | some i => if has i then some i else none
      | none => [ptr % 3, (ptr + 1) % 3, (ptr + 2) % 3].find? has
    if (List.range 3).any fun i => pSel p i ≠ 0 && (e.head i).any fun t => t.kind = .scale || t.kind = .state then .region false
    else match pick with
      | none => .idle
      | some i =>
        match e.head i with
        | none => .idle
        | some t =>
          let stays := match inRec with
            | some _ => !t.tail
            | none => t.head && !t.tail
          .go { e.fired with takes := (i = 0, i = 1, i = 2),
                             own := .fair (if inRec.isSome then ptr else (i + 1) % 3) (if stays then some i else none),
                             out := [{ t with sbx := 0, poison := t.poison || e.dirty }] }

/-- RECI forwards a back-edge token first and admits entry tokens below its limit (R207; log 89). -/
def fireReci (env : FireEnv) (p : Pattern) (e : Elem) : Fire :=
  let occ := match e.own with
    | .reci n => n
    | _ => 0
  match offer env p e 1 .data with
  | .wrong => .region false
  | .tok b => .go { e.fired with takes := (false, true, false), out := [b] }
  | .none =>
    if pAux p % 16 + 1 ≤ occ then .idle
    else match offer env p e 0 .data with
      | .wrong => .region false
      | .none => .idle
      | .tok a => .go { e.fired with takes := (true, false, false), own := .reci (occ + 1), out := [a] }

/-- LEAV lets true lanes leave and sends the rest round again (R207); `hold` asks for a credit to RECI when none goes
round (log 89). -/
def fireLeav (env : FireEnv) (p : Pattern) (e : Elem) : Fire :=
  gate env p e .data fun a b _ =>
    let a := { a with poison := badOf p e a b b, sbx := 0 }
    let leave := a.vmask &&& condMask b
    let stay := a.vmask &&& ~~~(condMask b)
    .go { e.fired with out := if leave ≠ 0 then [a.masked leave] else [],
                       alt := if stay ≠ 0 then some (a.masked stay) else none, hold := stay = 0 }

/-- RATE attaches scale bytes (R208). -/
def fireRate (env : FireEnv) (p : Pattern) (e : Elem) : Fire :=
  match offer env p e 0 .data with
  | .wrong => .region false
  | .none => .idle
  | .tok a =>
    let (cur, pos) := match e.own with
      | .rate t n => (t, n)
      | _ => (none, 0)
    let tile := pMode p = 1
    let m := if tile then 1 else if pFmt p = 8 then 4 else 2
    let needs := !tile || a.head
    if !needs then .go { e.fired with takes := (true, false, false), out := [{ a with sbx := 0 }] }
    else
      let use (s : Token) (at_ : Nat) (takeB : Bool) : Fire :=
        let bytes := s.payload.toNat / 256 ^ at_ % 256 ^ m
        let done := 64 ≤ at_ + m || (!tile && a.tail)
        .go { e.fired with takes := (true, takeB, false), own := .rate (if done then none else some s) (if done then 0 else at_ + m),
                           out := [{ a with sbx := BitVec.ofNat 32 bytes, poison := a.poison || s.poison || e.dirty }] }
      match cur with
      | some s => use s pos false
      | none =>
        match e.b.latch with
        | none => .idle
        | some s => if s.kind = .scale then use s 0 true else .region false

/-- Tokens of a CTRN block (R209). -/
def ctrnTokens (p : Pattern) : Nat := fmtWidth (pFmt p) / 2

/-- The transposed tokens of a full block (R209). -/
def transpose (p : Pattern) (buf : List Token) : List Token :=
  let w := fmtWidth (pFmt p)
  let per := 512 / w
  let vals := buf.flatMap fun t => tabulate per fun v => t.val w v
  let bad := buf.any (·.poison)
  tabulate (ctrnTokens p) fun k =>
    let t := buf.getD k plainToken
    { t with payload := payloadOf w (tabulate per fun v =>
               let q := k * per + v
               vals.getD (16 * (q % 16) + q / 16) 0), sbx := 0, poison := bad }

/-- CTRN takes a block, then emits it (R209). -/
def fireCtrn (env : FireEnv) (p : Pattern) (e : Elem) : Fire :=
  gate env p e .data fun a _ _ =>
    let buf := match e.own with
      | .ctrn b => b
      | _ => []
    if a.vmask ≠ 0xFFFF then .region false
    else if buf.length + 1 < ctrnTokens p then .go { e.fired with own := .ctrn (buf ++ [a]) }
    else .go { e.fired with own := .ctrn [], out := transpose p (buf ++ [a]) }

/-- The window record whose last pixel stands at (y, x), if any, with the reset marks of the token that completes it (R189, R211). -/
def swinRecord (p : Pattern) (rmask : BitVec 16) (pix : List Nat) (width y x : Nat) (poison : Bool) : List Token :=
  let w := fmtWidth (pFmt p)
  let kh := pAux p % 8 + 1
  let st := bitsOf (pAux p) 4 3 + 1
  let d := bitsOf (pAux p) 6 5 + 1
  let span := (kh - 1) * d + 1
  if y + 1 < span ∨ x + 1 < span ∨ (y + 1 - span) % st ≠ 0 ∨ (x + 1 - span) % st ≠ 0 then []
  else
    let y0 := y + 1 - span
    let x0 := x + 1 - span
    let vals := (List.range kh).flatMap fun i => tabulate kh fun j => pix.getD ((y0 + i * d) * width + x0 + j * d) 0
    let per := 512 / w
    let n := ceilDiv (kh * kh) per
    tabulate n fun j =>
      let vs := (vals.drop (j * per)).take per
      { plainToken with payload := payloadOf w vs, head := j = 0, tail := j + 1 = n,
                        vmask := mask16 fun i => decide (32 * i / w < vs.length), rmask := rmask, poison := poison }

/-- SWIN takes pixels in row-major order; a row that becomes whole emits the windows that end in it (R211). -/
def fireSwin (env : FireEnv) (p : Pattern) (e : Elem) : Fire :=
  gate env p e .data fun a _ _ =>
    let w := fmtWidth (pFmt p)
    let width := pK p % 4096 + 1
    let old := match e.own with
      | .swin x => x
      | _ => []
    let new := (tabulate (512 / w) fun v => (a.val w v, a.ok w v)).filter (·.2) |>.map (·.1)
    let pix := old ++ new
    let bad := a.poison || e.dirty
    let rows := (List.range (pix.length / width)).filter fun y => old.length / width ≤ y
    .go { e.fired with own := .swin pix, dirty := bad,
                       out := rows.flatMap fun y => (List.range width).flatMap fun x => swinRecord p a.rmask pix width y x bad }

/-- SPAD: FIFO, reads or writes of a scratchpad window (R212). The payloads of the FIFO stand in the window, a token in 64 bytes, at
its pointers, and are read from there (R224; log 19, log 84); it emits when an entry is free, else it accepts. -/
def fireSpad (env : FireEnv) (p : Pattern) (e : Elem) : Fire :=
  let base := pK p / 65536 * Config.granule
  let size := (pAux p % 4 + 1) * Config.granule
  if pMode p = 0 then
    let (toks, tail) := match e.own with
      | .fifo ts n => (ts, n)
      | _ => ([], 0)
    match toks, env.room with
    | t :: ts, true =>
      let slot := base + (tail - toks.length) % (size / 64) * 64
      let word (i : Nat) : BitVec 32 × Bool := (env.read (slot + 4 * i)).getD (0, false)
      .go { e.fired with own := .fifo ts tail,
                         out := [{ t with payload := payloadOf 32 (tabulate 16 fun i => (word i).1.toNat),
                                          poison := (List.range 16).any fun i => (word i).2 }] }
    | _, _ =>
      if size / 64 ≤ toks.length then .idle
      else gate env p e .data fun a _ _ =>
        .go { e.fired with own := .fifo (toks ++ [a]) (tail + 1), hold := a.poison,
                           spad := tabulate 16 fun i => (base + tail % (size / 64) * 64 + 4 * i, BitVec.ofNat 32 (a.val 32 i)) }
  else if pMode p = 1 then
    gate env p e .data fun a _ _ =>
      let at_ (i : Nat) : Option (BitVec 32 × Bool) :=
        if a.ok 32 i && a.val 32 i % 4 = 0 && a.val 32 i + 4 ≤ size then env.read (base + a.val 32 i) else none
      let vs := tabulate 16 fun i => (at_ i).elim 0 fun x => x.1.toNat
      let bad := (List.range 16).any fun i => (at_ i).elim false (·.2)
      .go { e.fired with out := [emitted a a.vmask (payloadOf 32 vs) (bad || a.poison)],
                         disc := ((List.range 16).filter fun i => a.ok 32 i && (at_ i).isNone).length }
  else
    gate env p e .data fun a b _ =>
      let lanes := (List.range 16).filter fun i => a.ok 32 i && b.ok 32 i
      let good := lanes.filter fun i => a.val 32 i % 4 = 0 && a.val 32 i + 4 ≤ size
      .go { e.fired with spad := good.map fun i => (base + a.val 32 i, BitVec.ofNat 32 (b.val 32 i)),
                         disc := lanes.length - good.length, hold := badOf p e a b b }

/-- TXQ takes a request token; a misaligned address is an element fault (R213). -/
def fireTxq (env : FireEnv) (p : Pattern) (e : Elem) : Fire :=
  gate env p e .data fun a _ _ =>
    let size := 2 ^ (pAux p % 4)
    let reqs := match e.own with
      | .txq r => r
      | _ => []
    match (List.range 8).find? fun j => a.ok 64 j && a.val 64 j % size ≠ 0 with
    | some j =>
      .fault 3 (mask16 fun i => a.ok 64 (i / 2) && a.val 64 (i / 2) % size ≠ 0) (BitVec.ofNat 64 (a.val 64 j))
    | none => .go { e.fired with own := .txq (reqs ++ [(a, none)]) }

/-- SINK discards data (R215). -/
def fireSink (env : FireEnv) (p : Pattern) (e : Elem) : Fire := gate env p e .data fun _ _ _ => .go e.fired

/-- CNT forwards and counts (R216). -/
def fireCnt (env : FireEnv) (p : Pattern) (e : Elem) : Fire :=
  gate env p e .data fun a _ _ =>
    let (d, n) := match e.own with
      | .cnt x y => (x, y)
      | _ => (0, 0)
    .go { e.fired with own := .cnt (d + 1) n, out := [a] }

/-! ## Integrators (R217–R221, R252) -/

/-- Step count of an INCR token (R252): 0 stands for 8; none for 9 to 15. -/
def stepCount (t : Token) : Option Nat :=
  let n := t.sbx.toNat % 16
  if n = 0 then some 8 else if n ≤ 8 then some n else none

/-- The increment of step j for lane i, and whether it is a format fault (R218). -/
def incrAt (t : Token) (j i : Nat) : Int × Bool :=
  let v := t.val 4 (16 * j + i)
  (signedOf 4 v, v = 8)

/-- An integrator bank's lane. -/
def laneOf (bank : List Lane) (i : Nat) : Lane := bank.getD i { y := 0, rem := 0, dz := 0 }

/-- An INCR token from dz values, by step then lane. -/
def incrToken (a : Token) (steps : List (List Int)) (poison : Bool) : Token :=
  { emitted a 0xFFFF (payloadOf 4 (steps.flatMap fun s => s.map (wrapOf 4))) poison with
    sbx := BitVec.ofNat 32 steps.length }

/-- A STATE token: eight Y values, sign-extended (R184), with no HEAD, TAIL or RMASK (log 154). -/
def stateToken (ys : List Int) (upper poison : Bool) : Token :=
  { plainToken with kind := .state, payload := payloadOf 64 (ys.map (wrapOf 64)), sbx := if upper then 1 else 0,
                    poison := poison }

/-- The pair of STATE tokens of 16 Y values. -/
def statePair (ys : List Int) (poison : Bool) : List Token :=
  [stateToken (ys.take 8) false poison, stateToken ((ys.drop 8).take 8) true poison]

/-- DDAI (R77, R219, R220): load a due STATE pair, else run one step of the dx token. -/
def fireDdai (env : FireEnv) (p : Pattern) (e : Elem) : Fire :=
  let (step, count, dzs, loaded) := match e.own with
    | .ddai a b c d => (a, b, c, d)
    | _ => (0, 0, [], false)
  let l := pAux p
  let due := pSel p 2 ≠ 0 && step = 0 && !loaded && (count = 0 || (l ≠ 0 && count % l = 0))
  let load (t : Token) (upper : Bool) (take : Bool) : Fire :=
    let bank := tabulate 16 fun i =>
      let ln := laneOf e.bank i
      if (8 ≤ i) = upper then { ln with y := signedOf 48 (t.val 64 (i % 8)) } else ln
    .go { e.fired with takes := (false, false, take), bank := bank, own := .ddai step count dzs upper,
                       dirty := e.dirty || t.poison }
  match offer env p e 0 .data with
  | .wrong => .region false
  | .none => .idle
  | .tok a =>
    if due then
      if streamSel (pSel p 2) then
        match e.c.latch with
        | none => .idle
        | some t => if t.kind ≠ .state then .region false else load t (decide (t.sbx.toNat % 2 = 1)) true
      else match offer env p e 2 .state with
        | .tok t => match load t false false, load t true false with
          | .go lo, .go hi => .go { hi with bank := lo.bank.take 8 ++ hi.bank.drop 8 }
          | x, _ => x
        | _ => .idle
    else match offer env p e 1 .data with
      | .wrong => .region false
      | .none => .idle
      | .tok b =>
        match stepCount a, (if pSel p 1 = 0 then stepCount a else stepCount b) with
        | some n, some nb =>
          if n ≠ nb then .region false
          else
            let fmtBad := mask16 fun i => (incrAt a step i).2 || (pSel p 1 ≠ 0 && (incrAt b step i).2)
            if fmtBad ≠ 0 then .fault 7 fmtBad 0
            else
              let k := pK p
              let run (i : Nat) : Option (Int × Int × Int) :=
                let ln := laneOf e.bank i
                let dy := (if pSel p 1 ≠ 0 then (incrAt b step i).1 else 0) + (if bitAt (pMode p) 0 then ln.dz else 0)
                integrate (bitsOf k 13 8) (bitsOf k 21 16) (bitAt k (32 + i)) ln.y ln.rem (incrAt a step i).1 dy
              let ovf := mask16 fun i => (run i).isNone
              if ovf ≠ 0 then .fault 6 ovf 0
              else
                let bank := tabulate 16 fun i =>
                  match run i with
                  | some (dz, r, y) => { y := y, rem := r, dz := dz }
                  | none => laneOf e.bank i
                let dzs := dzs ++ [bank.map (·.dz)]
                let bad := e.dirty || a.poison || (pSel p 1 ≠ 0 && b.poison)
                if step + 1 < n then .go { e.fired with bank := bank, own := .ddai (step + 1) count dzs false, dirty := bad }
                else
                  .go { e.fired with takes := (true, streamSel (pSel p 1), false), bank := bank, dirty := bad,
                                     own := .ddai 0 (count + 1) [] false,
                                     out := if bitAt (pMode p) 1 then statePair (bank.map (·.y)) bad
                                       else [incrToken a dzs bad] }
        | _, _ => .region false

/-- Pairs of STATE tokens for every full 16 of collected Y values. -/
def ddalPairs (poison : Bool) : Nat → List Int → List Token × List Int
  | 0, ys => ([], ys)
  | n + 1, ys =>
    if ys.length < 16 then ([], ys)
    else
      let r := ddalPairs poison n (ys.drop 16)
      (statePair (ys.take 16) poison ++ r.1, r.2)

/-- DDAL (R79, R220): a NaN or infinity raises FMT. -/
def fireDdal (env : FireEnv) (p : Pattern) (e : Elem) : Fire :=
  gate env p e .data fun a _ _ =>
    let f := pFmt p
    let w := fmtWidth f
    let old := match e.own with
      | .ddal v => v
      | _ => []
    let ys := tabulate (512 / w) fun v => ddalY (pRm p) (pAux p % 64) (decodeNum f (a.val w v)) (decodeNum 1 (pK p % 2 ^ 32))
    let bad := mask16 fun i => (List.range (512 / w)).any fun v =>
      v * w ≤ 32 * i + 31 && 32 * i < v * w + w && (ys.getD v none).isNone
    if bad ≠ 0 then .fault 7 bad 0
    else
      let po := a.poison || e.dirty
      let r := ddalPairs po 3 (old ++ ys.map fun y => y.getD 0)
      .go { e.fired with own := .ddal r.2, out := r.1, dirty := !r.2.isEmpty && po }

/-- DDAO (R80, R220): a pair gives 16 values. -/
def fireDdao (env : FireEnv) (p : Pattern) (e : Elem) : Fire :=
  gate env p e .state fun a _ _ =>
    match e.own with
    | .ddao h =>
      let t := pFmt p
      let w := fmtWidth t
      let y (i : Nat) : Int := signedOf 48 ((if i < 8 then h else a).val 64 (i % 8))
      let zs := tabulate 16 fun i => ddaoZ t (pRm p) (pOvf p) (pAux p % 64) (y i) (decodeNum 1 (pK p % 2 ^ 32))
      let po := h.poison || a.poison || e.dirty
      let one (vs : List Nat) : Token := emitted a 0xFFFF (payloadOf w vs) po
      .go { e.fired with own := .none, out := if w = 64 then [one (zs.take 8), one (zs.drop 8)] else [one zs] }
    | _ => .go { e.fired with own := .ddao a }

/-- INCS (R221, R252): one step of combined increments. -/
def fireIncs (env : FireEnv) (p : Pattern) (e : Elem) : Fire :=
  let (q, step, outs) := match e.own with
    | .incs a b c => (a, b, c)
    | _ => ([], 0, [])
  match offer env p e 0 .data, offer env p e 1 .data with
  | .tok a, .tok b =>
    match stepCount a, (if pSel p 1 = 0 then stepCount a else stepCount b) with
    | some n, some nb =>
      if n ≠ nb then .region false
      else
        let src (i : Nat) := bitsOf (pK p) (4 * i + 3) (4 * i)
        let fmtBad := mask16 fun i => (incrAt a step i).2 || (pSel p 1 ≠ 0 && (incrAt b step i).2)
        if fmtBad ≠ 0 then .fault 7 fmtBad 0
        else
          let sgn (m : Nat) (x : Int) : Int := if bitAt (pMode p) m then -x else x
          let u (i : Nat) : Int := sgn 0 (incrAt a step (src i)).1 +
            (if pSel p 1 ≠ 0 then sgn 1 (incrAt b step i).1 else 0) + q.getD i 0
          let ovf := mask16 fun i => !bitAt (pMode p) 2 && (u i < -7 || 7 < u i)
          if ovf ≠ 0 then .fault 6 ovf 0
          else
            let o := tabulate 16 fun i => clampInt (-7) 7 (u i)
            let nq := tabulate 16 fun i => u i - clampInt (-7) 7 (u i)
            let bad := e.dirty || a.poison || (pSel p 1 ≠ 0 && b.poison)
            if step + 1 < n then .go { e.fired with own := .incs nq (step + 1) (outs ++ [o]), dirty := bad }
            else
              .go { e.fired with takes := (streamSel (pSel p 0), streamSel (pSel p 1), false), own := .incs nq 0 [],
                                 out := [incrToken a (outs ++ [o]) bad], dirty := bad }
    | _, _ => .region false
  | .wrong, _ => .region false
  | _, .wrong => .region false
  | _, _ => .idle

/-- LREC (R81, R222). -/
def fireLrec (env : FireEnv) (p : Pattern) (e : Elem) : Fire :=
  gate env p e .data fun a b c =>
    let h := match e.own with
      | .lrec v => v
      | _ => List.replicate 16 0
    let vm := maskOf p a b c
    let nh := tabulate 16 fun i =>
      if vm.getLsbD i then lrecStep (pRm p) (h.getD i 0) (a.val 32 i) (b.val 32 i) (c.val 32 i) (a.rmask.getLsbD i)
      else h.getD i 0
    let vs := tabulate 16 fun i => if vm.getLsbD i then nh.getD i 0 else 0
    .go { e.fired with own := .lrec nh, dirty := badOf p e a b c, out := [emitted a vm (payloadOf 32 vs) (badOf p e a b c)] }

/-- TSEL (R223): one quarter of the held TERN token against one b token. An invalid TERN value, which lies in lane 4f + k/16 of a,
raises no fault and counts as 0 (R185). -/
def fireTsel (env : FireEnv) (p : Pattern) (e : Elem) : Fire :=
  let f := match e.own with
    | .tsel n => n
    | _ => 0
  match offer env p e 0 .data, offer env p e 1 .data with
  | .tok a, .tok b =>
    let t (k : Nat) := if a.ok 2 (64 * f + k) then a.val 2 (64 * f + k) else 0
    let bad := mask16 fun i => (List.range 64).any fun k => t k = 2 && (64 * f + k) / 16 = i
    if bad ≠ 0 then .fault 7 bad 0
    else
      let sel (k : Nat) : Int := if t k = 1 then signedOf 8 (b.val 8 k) else if t k = 3 then -(signedOf 8 (b.val 8 k)) else 0
      let vm := a.vmask &&& b.vmask
      let vs := tabulate 16 fun i =>
        if vm.getLsbD i then wrapOf 32 (sel (4 * i) + sel (4 * i + 1) + sel (4 * i + 2) + sel (4 * i + 3)) else 0
      .go { e.fired with takes := (f = 3 && streamSel (pSel p 0), streamSel (pSel p 1), false), own := .tsel ((f + 1) % 4),
                         out := [emitted a vm (payloadOf 32 vs) (badOf p e a b b)] }
  | .wrong, _ => .region false
  | _, .wrong => .region false
  | _, _ => .idle

end Sys2Proof.Machine
end

