-- ==== Sys2Proof/Machine/Mem.lean ====
section
/-! DEFINITION. Loads, stores, prefetch, atomics and discards (R139–R149, R156, R162). -/

namespace Sys2Proof.Machine

/-- LD reads global memory through the segment's view as a fill, and marks the line (R141, R265, R272). -/
def execLd (t a : Reg) (e : Bool) (sz _h : BitVec 2) (o : BitVec 9) (s : State) : Out :=
  issue s (fun r => (r.dst t).then (r.src a e)) fun c =>
    let n := accessSize sz
    let va := (effAddr (c.task.regs.val a) o n).toNat
    c.access s (c.task.regs.bad a) va n .read fun s1 pg =>
      if s1.markWait c.team c.mem c.team.openSeq (pg.pa va) n then .next s1
      else
        let rd := s1.segRead c.tid c.mem c.team.openSeq pg va n
        .next (rd.1.modCur fun tk => (tk.pend t (.value (BitVec.ofNat 64 (leNat rd.2.1)) rd.2.2)).past)

/-- ST writes a speculative version of the bytes it names (R141, R271). -/
def execSt (t a : Reg) (e : Bool) (sz _h : BitVec 2) (o : BitVec 9) (s : State) : Out :=
  issue s (fun r => (r.src a e).then (r.src t e)) fun c =>
    let n := accessSize sz
    let va := (effAddr (c.task.regs.val a) o n).toNat
    c.access s (c.task.regs.bad a) va n .store fun s1 pg =>
      s1.storeVersion none c.tid c.mem c.team.openSeq va (pg.pa va) (leBytes n (c.task.regs.val t).toNat) (c.task.regs.bad t)
        fun s2 => .next (s2.modCur Task.past)

/-- The address checks of a scratchpad access (R139, R142, R273). -/
def Cur.spadAccess (c : Cur) (s : State) (bad : Bool) (off align n : Nat) (f : Out) : Out :=
  if bad then .next (c.consumeAddr s)
  else if off % align ≠ 0 then c.trapOffset s 3 0 (BitVec.ofNat 64 off) 0
  else if !c.team.carve.spadOk off n then c.trapOffset s 5 2 (BitVec.ofNat 64 off) 0
  else f

/-- LDP reads the scratchpad as a fill (R140, R142): bytes of an engine command stand for it once a wait covers the command (log 133). -/
def execLdp (t a : Reg) (e : Bool) (sz : BitVec 2) (o : BitVec 9) (s : State) : Out :=
  issue s (fun r => (r.dst t).then (r.src a e)) fun c =>
    let n := accessSize sz
    let off := (effAddr (c.task.regs.val a) o n).toNat
    c.spadAccess s (c.task.regs.bad a) off n n <|
      let rd := c.task.coreBytes c.team.carve off n
      .next (c.put s (c.task.pend t (.value (BitVec.ofNat 64 (leNat rd.1)) rd.2)).past)

/-- STP writes the scratchpad at once (R142). -/
def execStp (t a : Reg) (e : Bool) (sz : BitVec 2) (o : BitVec 9) (s : State) : Out :=
  issue s (fun r => (r.src a e).then (r.src t e)) fun c =>
    let n := accessSize sz
    let off := (effAddr (c.task.regs.val a) o n).toNat
    c.spadAccess s (c.task.regs.bad a) off n n <|
      .next (c.put s (c.task.spadPut c.team.carve (c.task.regs.bad t) off (leBytes n (c.task.regs.val t).toNat)).past)

/-- Bytes of one weight-store bank: 1 GiB per die in 32 banks (R7). -/
def weightBankBytes : Nat := 2 ^ 25

/-- Whether the bank that holds a weight-store offset refreshes now (R38, R260; log 104). -/
def State.refreshing (s : State) (d : PartDesc) (off : Nat) : Bool :=
  let banks := (d.wbanks.map (·.toNat)).foldl (fun l x => setInsert x l) []
  banks.length ≠ 0 && (banks.getD (off / 4096 % banks.length) 0) % 32 = s.clk.toNat % 65536 / 2048

/-- LDW reads the weight store as a fill, after any refresh window (R143; log 93, log 104). -/
def execLdw (t a : Reg) (e : Bool) (sz : BitVec 2) (o : BitVec 9) (s : State) : Out :=
  issue s (fun r => (r.dst t).then (r.src a e)) fun c =>
    let n := accessSize sz
    let off := (effAddr (c.task.regs.val a) o n).toNat
    if c.task.regs.bad a then .next (c.consumeAddr s)
    else if off % n ≠ 0 then c.trapOffset s 3 0 (BitVec.ofNat 64 off) 0
    else match s.part c.team.vf with
      | none => c.trapOffset s 5 2 (BitVec.ofNat 64 off) 0
      | some p =>
        if p.desc.wbanks.length * weightBankBytes < off + n then c.trapOffset s 5 2 (BitVec.ofNat 64 off) 0
        else if s.refreshing p.desc off then .next s
        else
          let bad := (List.range n).any fun i => p.poisonW.contains (off + i)
          .next (c.put s (c.task.pend t (.value (BitVec.ofNat 64 (memReadLE p.wstore off n)) bad)).past)

/-- PRF has no effect on any value; it may bring its page's translation into the cache and never traps: an address that cannot be
read does nothing (R144). -/
def execPrf (a : Reg) (e : Bool) (_h : BitVec 2) (o : BitVec 9) (s : State) : Out :=
  issue s (fun r => if r.src a e = .wait then .wait else .ok) fun c =>
    let va := (effAddr (c.task.regs.val a) o 1).toNat
    if c.task.regs.src a e ≠ .ok then .next (c.put s c.task.past)
    else if c.task.regs.bad a then .next (c.consumeAddr s)
    else
      let s1 := match s.lookup c.team.vf va c.task.via with
        | none => s.walked c.team.vf va c.task.via
        | some pg => s.cache c.team.vf pg c.task.via
      .next (s1.modCur Task.past)

/-- An atomic on the segment's view (R145): the old value as a fill, the new one as a version. The new value is computed by
`op` from the old one; none writes nothing. -/
def segAtomic (d a : Reg) (n : Nat) (bad : Regs → Bool) (op : Regs → Nat → Option Nat) (c : Cur) (s : State) : Out :=
  let r := c.task.regs
  let va := (r.val a).toNat
  c.access s (r.bad a) va n .write fun s1 pg =>
    let pa := pg.pa va
    if s1.markWait c.team c.mem c.team.openSeq pa n then .next s1
    else
      let rd := s1.segRead c.tid c.mem c.team.openSeq pg va n
      let old := leNat rd.2.1
      let go (s2 : State) : Out := .next (s2.modCur fun tk => (tk.pend d (.value (BitVec.ofNat 64 old) rd.2.2)).past)
      match op r old with
      | none => go rd.1
      | some v =>
        if rd.1.versionWait c.team c.team.openSeq pa then .next s1
        else rd.1.storeVersion none c.tid c.mem c.team.openSeq va pa (leBytes n v) (rd.2.2 || bad r) go

/-- AMO (R145). -/
def execAmo (d a b : Reg) (e f : Bool) (sz : BitVec 2) (o : BitVec 4) (s : State) : Out :=
  issue s (fun r => (r.dst d).then ((r.src a e).then (r.src b f))) <| fun c =>
    let n := atomicSize sz
    segAtomic d a n (fun r => r.bad b) (fun r old => some (atomicOp o.toNat n old ((r.val b).toNat % 2 ^ (8 * n)))) c s

/-- CAS compares with gd as read at issue (R94, R145); of a void gd, with the value that it holds (R132; log 88). -/
def execCas (d a b : Reg) (e f : Bool) (sz : BitVec 2) (s : State) : Out :=
  issue s (fun r => (r.dst d).then ((r.src a e).then (r.src b f))) <| fun c =>
    let n := atomicSize sz
    segAtomic d a n (fun r => r.bad b || r.bad d)
      (fun r old => if old = (r.val d).toNat % 2 ^ (8 * n) then some ((r.val b).toNat % 2 ^ (8 * n)) else none) c s

/-- The present timestamp of an ordered-atomic entry: its segment's (R146). -/
def State.amooTs (s : State) (x : Amoo) : Nat :=
  match mapGet x.team s.teams with
  | none => 0
  | some tm => tm.segTs x.seq

/-- Endpoint of the slice that holds an entry: its line's home in its own team's partition (R146, R292; log 97). -/
def State.amooHome (s : State) (x : Amoo) : Nat :=
  match mapGet x.team s.teams with
  | none => 0
  | some tm => s.homeSlice tm.vf x.addr

/-- Entries that wait in the ordered-atomic buffer of a slice (R146). -/
def State.heldAt (s : State) (home : Nat) : List Amoo := s.amoos.filter fun x => !x.applied && s.amooHome x == home

/-- Flag a segment for abort, with every later one of its team (R146, R265, R267), the frontier segment among them if it is one (R53;
log 134). -/
def State.flagAbort (s : State) (t : Nat) (seq : Word) : State := s.modTeam t fun tm => tm.abortFrom seq

/-- The entry with the greatest timestamp among those that are not at their launch's frontier, which is never refused; of
several the last to arrive (R53, R146; log 152). -/
def State.greatest (s : State) : List Amoo → Option Amoo
  | [] => none
  | x :: xs =>
    if s.atFrontier x.launch (s.amooTs x) then s.greatest xs
    else match s.greatest xs with
    | none => some x
    | some y => if s.amooTs y < s.amooTs x then some x else some y

/-- AMOO sends an entry with the segment's timestamp to the line's home slice; a full buffer refuses the greatest timestamp,
whose segment aborts; one place is always held for the frontier; in a DISJOINT launch it acts as AMO (R146). -/
def execAmoo (d a b : Reg) (e f : Bool) (sz : BitVec 2) (o : BitVec 4) (s : State) : Out :=
  issue s (fun r => (r.dst d).then ((r.src a e).then (r.src b f))) <| fun c =>
    let n := atomicSize sz
    let r := c.task.regs
    if s.disjoint c.team then
      segAtomic d a n (fun r => r.bad b) (fun r old => some (atomicOp o.toNat n old ((r.val b).toNat % 2 ^ (8 * n)))) c s
    else
      let va := (r.val a).toNat
      c.access s (r.bad a) va n .write fun s1 pg =>
        let pa := pg.pa va
        let x : Amoo := { team := c.tid, member := c.mem, seq := c.team.openSeq, launch := c.team.launch,
                          addr := pa, wide := n = 8, op := o.toNat, operand := r.val b, rd := d, applied := false }
        let enter (s2 : State) : Out :=
          let s3 := { s2 with amoos := s2.amoos ++ [x] }
          let s4 := s3.modTeam c.tid fun tm => tm.modSeg c.team.openSeq fun g => g.note va pa
          let s5 := if r.bad b then s4.modTeam c.tid fun tm => tm.modSeg c.team.openSeq fun g =>
              { g with poison := setUnion (tabulate n fun i => pa + i) g.poison } else s4
          .next (s5.modCur fun tk => (tk.pend d .amoo).past)
        if s1.atFrontier c.team.launch c.team.openTs then enter s1
        else
          let held := s1.heldAt (s1.homeSlice c.team.vf pa)
          if held.length + 1 < Config.amooEntries then enter s1
          else match s1.greatest (held ++ [x]) with
            | none => enter s1
            | some y =>
              if y.team = c.tid ∧ y.seq = c.team.openSeq then .next (s1.flagAbort c.tid c.team.openSeq)
              else enter ({ s1 with amoos := s1.amoos.filter fun z => z != y }.flagAbort y.team y.seq)

/-- AMOF is performed at once on committed memory; poison in its operand or location is consumed at the home slice
(R145, R387, R389); a log at 95 % holds it (R380). -/
def execAmof (d a b : Reg) (e f : Bool) (sz : BitVec 2) (o : BitVec 4) (s : State) : Out :=
  issue s (fun r => (r.dst d).then ((r.src a e).then (r.src b f))) <| fun c =>
    let n := atomicSize sz
    let r := c.task.regs
    let va := (r.val a).toNat
    c.access s (r.bad a) va n .write fun s1 pg =>
      let pa := pg.pa va
      if s1.stalled c.team.vf pa pg.tracked then .next s1
      else
        let (s2, fired) := s1.inject c.team.vf pa
        if r.bad b || fired || (List.range n).any fun i => s2.poisonMem.contains (pa + i) then
          .next (s2.consume (s2.homeSlice c.team.vf pa) 4 (pa / 64 * 64))
        else
          let old := s2.pageLE pg va n
          let v := atomicOp o.toNat n old ((r.val b).toNat % 2 ^ (8 * n))
          let s3 := s2.commitWrite c.team.vf pa pg.free (leBytes n v)
          .next (s3.modCur fun tk => (tk.pend d (.value (BitVec.ofNat 64 old) false)).past)

/-- AMOP is performed at once on the scratchpad (R145). -/
def execAmop (d a b : Reg) (e f : Bool) (sz : BitVec 2) (o : BitVec 4) (s : State) : Out :=
  issue s (fun r => (r.dst d).then ((r.src a e).then (r.src b f))) <| fun c =>
    let n := atomicSize sz
    let r := c.task.regs
    let off := (r.val a).toNat
    c.spadAccess s (r.bad a) off n n <|
      let rd := c.task.spadBytes c.team.carve off n
      let old := leNat rd.1
      let v := atomicOp o.toNat n old ((r.val b).toNat % 2 ^ (8 * n))
      let tk := c.task.spadPut c.team.carve (rd.2 || r.bad b) off (leBytes n v)
      .next (c.put s (tk.pend d (.value (BitVec.ofNat 64 old) rd.2)).past)

/-- Drop a line's dirty copies (R149): it keeps its last written value or returns to the one before, freely (log 16); a return is
logged as a change of the line (R379). -/
def State.discardLine (s : State) (vf : Nat) (x : Nat × Option (Nat × Nat)) : State :=
  match mapGet (x.1 / 64) s.prev with
  | none => s
  | some old =>
    let s1 := { s.tick with prev := mapErase (x.1 / 64) s.prev }
    if Config.freeChoice s.fresh % 2 = 1 then
      let s2 := s1.logLine vf x.1 x.2.isNone
      ({ s2 with mem := memWriteBytes s2.mem (x.1 / 64 * 64) (old.take 64) }.noteFree x.2).noteWrite (x.1 / 64)
    else s1

/-- Translate the lines of a range for DISC, in ascending order: their physical addresses, each with the page that it leaves untracked, or
the first trap (R139). -/
def State.discardLines (s : State) (vf : Nat) (via : List Nat) : Nat → Nat → Except (Nat × BitVec 16 × Nat) (List (Nat × Option (Nat × Nat)))
  | _, 0 => .ok []
  | va, k + 1 =>
    match s.xlate vf va .write via with
    | .bad cause detail => .error (cause, detail, va)
    | .ok pg =>
      match s.discardLines vf via (va + 64) k with
      | .error x => .error x
      | .ok ls => .ok ((pg.pa va, pg.free) :: ls)

/-- DISC declares a range dead (R149); a log at 95 % holds it (R380). -/
def execDisc (a b : Reg) (e f : Bool) (s : State) : Out :=
  issue s (fun r => (r.src a e).then (r.src b f)) fun c =>
    let r := c.task.regs
    let va := (r.val a).toNat
    let n := (r.val b).toNat
    if r.bad a || r.bad b then .next (c.consumeAddr s)
    else if va % 64 ≠ 0 ∨ n % 64 ≠ 0 then c.trap s 3 0 (BitVec.ofNat 64 va) 0
    else match s.discardLines c.team.vf c.task.via va (n / 64) with
      | .error (cause, detail, at_) => c.trap s cause detail (BitVec.ofNat 64 at_) 0
      | .ok ls => s.orStall ((ls.foldl (fun s x => s.discardLine c.team.vf x) s).modCur Task.past) c.team.vf

end Sys2Proof.Machine
end

