-- ==== Sys2Proof/Machine/Stream.lean ====
section
/-! DEFINITION. Engine accesses to memory, and the tokens of source and sink ports (R41, R169–R174, R183, R216, R262,
R263, R282, R368). -/

namespace Sys2Proof.Machine

/-! ## Engine accesses (R169, R173, R358) -/

/-- Outcome of an engine access: done with bytes and poison, must wait, or stalled with its fault record written. -/
inductive EngIo where
  | ok (s : State) (bytes : List Byte) (bad : Bool)
  | wait
  | stall (s : State)

/-- Whether a debug stop is asked for in a partition, or in force (R330). -/
def State.debugHeld (s : State) (vf : Nat) : Bool := (s.part vf).any fun p => p.dbg.stopReq

/-- A task of a state. -/
def State.task (s : State) (t m : Nat) : Option (Team × Task) :=
  match mapGet t s.teams with
  | none => none
  | some tm =>
    match tm.members[m]? with
    | none => none
    | some tk => some (tm, tk)

/-- A command of a task's context. -/
def Task.cmd (tk : Task) (tl : BitVec 4) (num : Nat) : Option Cmd := (tk.timeline tl).cmds.find? fun c => c.num = num

/-- Change a command of a task's context. -/
def Task.modCmd (tk : Task) (tl : BitVec 4) (num : Nat) (f : Cmd → Cmd) : Task :=
  tk.modTl tl fun x => { x with cmds := x.cmds.map fun c => if c.num = num then f c else c }

/-- Accesses of a partition that stand stalled, those whose record waits for room among them (R173, R357). -/
def Part.stalled (p : Part) : List Stall := p.stalls ++ p.waitingRecs.filterMap (·.stall)

/-- What a command keeps of its stall while its record waits for a number: no number is that high. -/
def unnumbered : Nat := 2 ^ 32

/-- Stall a command on a translation fault and write its record, which waits for room in a full queue (R173, R357). -/
def State.stall (s : State) (t m : Nat) (tl : BitVec 4) (num : Nat) (txq write : Bool) (va cause : Nat) (detail : BitVec 16) :
    EngIo :=
  match s.task t m with
  | none => .wait
  | some (tm, tk) =>
    match s.part tm.vf with
    | none => .wait
    | some p =>
      let r : FaultRec :=
        { wid := tm.wid, addr := BitVec.ofNat 64 va, core := coreEndpoint tk.core, kind := 0, cause := cause,
          detail := detail, src := tl.toNat + 16 * b2n txq + 32 * b2n write, seq := 0, lidx := s.lidxOf tm.launch }
      let x : Stall := { seq := if p.fqFull then unnumbered else p.faultSeq % 2 ^ 32, team := t, member := m, tl := tl.toNat, num := num,
                         txq := txq, cause := cause, detail := detail, addr := BitVec.ofNat 64 va }
      let s1 :=
        if p.fqFull then
          s.modPart tm.vf fun p => { p with waitingRecs := p.waitingRecs ++ [{ launch := tm.launch, entry := r, stall := some x }] }
        else (s.writeFault tm.vf r).modPart tm.vf fun p => { p with stalls := p.stalls ++ [x] }
      .stall (if txq then s1 else s1.modTask t m fun tk => tk.modCmd tl num fun c => { c with stall := some x.seq })

/-- Translate for an engine, stalling on a fault. -/
def State.engXlate (s : State) (t m : Nat) (tl : BitVec 4) (num : Nat) (va : Nat) (write : Bool)
    (k : State → TlbEntry → EngIo) : EngIo :=
  match s.task t m with
  | none => .wait
  | some (tm, tk) =>
    match s.xlate tm.vf va (if write then .write else .read) (tk.ctxVia tl) with
    | .bad cause detail => (s.walked tm.vf va (tk.ctxVia tl)).stall t m tl num false write va cause detail
    | .ok e => k (s.cache tm.vf e (tk.ctxVia tl)) e

/-- Translate the addresses of several reads of a command before the first of them is performed. -/
def engXlateAll (t m : Nat) (tl : BitVec 4) (num : Nat) (k : State → EngIo) : List Nat → State → EngIo
  | [], s => k s
  | a :: as, s => s.engXlate t m tl num a false fun s _ => engXlateAll t m tl num k as s

/-- Whether a completion word names a sync word, and where (R170). -/
def syncOff (w : Word) : Option Nat := if bitAt w.toNat 0 then none else some (bitsOf w.toNat 21 4 * 16)

/-- The memory counter that a completion word names (R170). -/
def counterOf (w : Word) : Option Nat := if bitsOf w.toNat 63 22 = 0 then none else some (bitsOf w.toNat 63 22 * 128)

/-- Whether a command is a STRM.IN, and a STRM.OUT. -/
def CmdKind.isIn : CmdKind → Bool
  | .strmInG | .strmInS | .strmInW => true
  | _ => false

/-- Whether a command is a STRM.OUT. -/
def CmdKind.isOut : CmdKind → Bool
  | .strmOutG | .strmOutS => true
  | _ => false

/-- Whether a command's word 3 is a completion word (R170). -/
def CmdKind.completes : CmdKind → Bool
  | .cpyG2g | .cpyG2s | .cpyS2g | .cpyS2s | .gtx | .gth | .pxst | .pxcp => true
  | _ => false

/-- What a command's writes are hidden under until a wait covers them (R142, R275; log 115). -/
def Cmd.writeTag (c : Cmd) (tl : BitVec 4) : CmdTag :=
  { tl := tl.toNat, num := c.num, sync := if c.kind.completes then syncOff c.w3 else none,
    ctr := if c.kind.completes then counterOf c.w3 else none, passed := false, added := false }

/-- An engine's read of bytes that lie in one line (R169, R265, R272). -/
def State.engRead (s : State) (t m : Nat) (tl : BitVec 4) (c : Cmd) (va n : Nat) : EngIo :=
  s.engXlate t m tl c.num va false fun s e =>
    match s.task t m with
    | none => .wait
    | some (tm, _) =>
      if s.markWait tm m c.seg (e.pa va) n then .wait
      else
        let r := s.segRead t m c.seg e va n
        .ok r.1 r.2.1 r.2.2

/-- An engine's write of bytes that lie in one line, as versions of its command's segment (R169, R271). -/
def State.engWrite (s : State) (t m : Nat) (tl : BitVec 4) (c : Cmd) (va : Nat) (bs : List Byte) (bad : Bool) : EngIo :=
  s.engXlate t m tl c.num va true fun s e =>
    match s.task t m with
    | none => .wait
    | some (tm, _) =>
      if s.versionWait tm c.seg (e.pa va) then .wait
      else match s.storeVersion (some { member := m, tag := c.writeTag tl, vals := [], out := false }) t m c.seg va (e.pa va) bs bad Host.Outcome.next with
        | .next s1 => .ok s1 [] false
        | _ => .wait

/-- Bytes of a range that lie in the line of its first byte. -/
def lineRun (va n : Nat) : Nat := min n (64 - va % 64)

/-- Read a range line by line. -/
def State.engReadAll (s : State) (t m : Nat) (tl : BitVec 4) (c : Cmd) : Nat → Nat → Nat → EngIo
  | 0, _, _ => .ok s [] false
  | fuel + 1, va, n =>
    if n = 0 then .ok s [] false
    else
      let k := lineRun va n
      match s.engRead t m tl c va k with
      | .ok s1 bs bad =>
        match s1.engReadAll t m tl c fuel (va + k) (n - k) with
        | .ok s2 cs bad2 => .ok s2 (bs ++ cs) (bad || bad2)
        | r => r
      | r => r

/-- Write a range line by line. -/
def State.engWriteAll (s : State) (t m : Nat) (tl : BitVec 4) (c : Cmd) (bad : Bool) : Nat → Nat → List Byte → EngIo
  | 0, _, _ => .ok s [] false
  | fuel + 1, va, bs =>
    if bs.isEmpty then .ok s [] false
    else
      let k := lineRun va bs.length
      match s.engWrite t m tl c va (bs.take k) bad with
      | .ok s1 _ _ => s1.engWriteAll t m tl c bad fuel (va + k) (bs.drop k)
      | r => r

/-! ## Units of pages (R261–R263) -/

/-- Virtual address of the data byte at offset d of a run that begins at va (R262, R263). -/
def dataAddr (e : TlbEntry) (va d : Nat) : Nat :=
  let cap := unitCount e * unitBytes e
  let o := va % 2 ^ e.size + d
  if cap = 0 then va + d else (va / 2 ^ e.size + o / cap) * 2 ^ e.size + o % cap

/-- Virtual address of the scale byte of the unit that holds data offset d (R262). -/
def scaleAddr (e : TlbEntry) (va d : Nat) : Nat :=
  let cap := unitCount e * unitBytes e
  let o := va % 2 ^ e.size + d
  if cap = 0 then va else (va / 2 ^ e.size + o / cap) * 2 ^ e.size + cap + o % cap / unitBytes e

/-- The runs of a page range: each within one line and one page's data area (R262, R263). -/
def pageRuns (e : TlbEntry) (va : Nat) : Nat → Nat → Nat → List (Nat × Nat)
  | 0, _, _ => []
  | fuel + 1, d, n =>
    if n = 0 then []
    else
      let a := dataAddr e va d
      let cap := unitCount e * unitBytes e
      let o := va % 2 ^ e.size + d
      let k := min (lineRun a n) (if cap = 0 then n else cap - o % cap)
      (a, k) :: pageRuns e va fuel (d + k) (n - k)

/-- Read runs in order. -/
def State.readRuns (s : State) (t m : Nat) (tl : BitVec 4) (c : Cmd) : List (Nat × Nat) → EngIo
  | [] => .ok s [] false
  | (a, n) :: rs =>
    match s.engRead t m tl c a n with
    | .ok s1 bs bad =>
      match s1.readRuns t m tl c rs with
      | .ok s2 cs bad2 => .ok s2 (bs ++ cs) (bad || bad2)
      | r => r
    | r => r

/-- Bytes dealt out over runs. -/
def dealRuns : List (Nat × Nat) → List Byte → List (Nat × List Byte)
  | [], _ => []
  | (a, n) :: rs, bs => (a, bs.take n) :: dealRuns rs (bs.drop n)

/-- Continue after an access that gives bytes. -/
def EngIo.bind (r : EngIo) (k : State → List Byte → Bool → EngIo) : EngIo :=
  match r with
  | .ok s bs bad => k s bs bad
  | .wait => .wait
  | .stall s => .stall s

/-- Act on the page that holds data offset d of a run that begins at va, and on the address at which a run from there would begin: a run
goes on with the first unit of the next page, by that page's attributes (R262, R263). -/
def runAt (t m : Nat) (tl : BitVec 4) (num : Nat) (write : Bool) (k : State → TlbEntry → Nat → EngIo) : Nat → State → Nat → Nat → EngIo
  | 0, _, _, _ => .wait
  | fuel + 1, s, va, d =>
    s.engXlate t m tl num va write fun s e =>
      let cap := unitCount e * unitBytes e
      let x := va % 2 ^ e.size + d
      if cap = 0 || decide (x < cap) then k s e (va / 2 ^ e.size * 2 ^ e.size + x)
      else runAt t m tl num write k fuel s ((va / 2 ^ e.size + 1) * 2 ^ e.size) (x - cap)

/-- Pages that a data offset may lie beyond, no page being smaller than 64 KiB. -/
def pageFuel (d : Nat) : Nat := d / 2 ^ 15 + 3

/-- Data bytes of a page from an address on. -/
def roomOf (e : TlbEntry) (va : Nat) : Nat := unitCount e * unitBytes e - va % 2 ^ e.size

/-- The address at which a run goes on after the page of an address. -/
def nextPage (e : TlbEntry) (va : Nat) : Nat := (va / 2 ^ e.size + 1) * 2 ^ e.size

/-- Translate all the pages of a run of n data bytes from va, and go on with them, each with its bytes of the run: a page that has no
translation stalls the command before it moves a byte (R173, R263; log 76). -/
def walkPages (t m : Nat) (tl : BitVec 4) (num : Nat) (write : Bool) :
    Nat → State → Nat → Nat → (State → List (TlbEntry × Nat) → EngIo) → EngIo
  | 0, _, _, _, _ => .wait
  | fuel + 1, s, va, n, k =>
    if n = 0 then k s []
    else s.engXlate t m tl num va write fun s e =>
      let j := min n (roomOf e va)
      walkPages t m tl num write fuel s (nextPage e va) (n - j) fun s ps => k s (if j = 0 then ps else (e, j) :: ps)

/-- The parts of a short run at data offset d of a command's range, each within one page: its page, its address and its bytes (R262, R263). -/
def runParts (t m : Nat) (tl : BitVec 4) (num : Nat) (write : Bool) :
    Nat → State → Nat → Nat → Nat → (State → List (TlbEntry × Nat × Nat) → EngIo) → EngIo
  | 0, _, _, _, _, _ => .wait
  | fuel + 1, s, va, d, n, k =>
    runAt t m tl num write (fun s e a =>
      let j := min n (max 1 (roomOf e a))
      if j = n then k s [(e, a, n)]
      else runParts t m tl num write fuel s va (d + j) (n - j) fun s ps => k s ((e, a, j) :: ps)) (pageFuel d) s va d

/-- The page and the address of the byte at an offset of a run's parts. -/
def partAt : List (TlbEntry × Nat × Nat) → Nat → Option (TlbEntry × Nat)
  | [], _ => none
  | (e, a, n) :: ps, o => if o < n then some (e, a + o) else partAt ps (o - n)

/-- Bytes that a range must be a whole multiple of (R172, R263; log 76). -/
def wholeBytes (e : TlbEntry) : Nat :=
  if e.geo ≠ 0 then unitBytes e else max 1 (fmtWidth e.fmt / 8)

/-- Data bytes of one token from a page (R70): 48 for 6-bit elements, else 64. -/
def tokenBytes (e : TlbEntry) : Nat := if fmtWidth e.fmt = 6 then 48 else 64

/-! ## Source ports -/

/-- Port of a stream command (R171). -/
def Cmd.port (c : Cmd) : Nat := c.w2.toNat % 16

/-- The stream command that a port now runs: the first queued on it (R169). -/
def Task.portCmd (tk : Task) (out : Bool) (n : Nat) : Option Cmd :=
  (tk.timeline 14).cmds.find? fun c => c.port = n && (if out then c.kind.isOut else c.kind.isIn)

/-- The MMA or MMAT at the head of tl8 that reads fo n (R240). -/
def Task.mmaOn (tk : Task) (n : Nat) : Option Cmd :=
  match (tk.timeline 8).cmds with
  | [] => none
  | c :: _ => if (c.kind = .mma || c.kind = .mmat) && bitAt c.w0.toNat 63 && c.w0.toNat % 16 = n then some c else none

/-- Source port n. -/
def Task.src (tk : Task) (n : BitVec 4) : SrcPort := tk.fi.get n.toFin
/-- Change source port n. -/
def Task.modSrc (tk : Task) (n : BitVec 4) (f : SrcPort → SrcPort) : Task :=
  { tk with fi := tk.fi.set n.toFin (f (tk.src n)) n.toFin.isLt }
/-- Sink port n. -/
def Task.snk (tk : Task) (n : BitVec 4) : SnkPort := tk.fo.get n.toFin
/-- Change sink port n. -/
def Task.modSnk (tk : Task) (n : BitVec 4) (f : SnkPort → SnkPort) : Task :=
  { tk with fo := tk.fo.set n.toFin (f (tk.snk n)) n.toFin.isLt }
/-- Thicket t. -/
def Task.th (tk : Task) (t : BitVec 2) : Thicket := tk.thickets.get t.toFin
/-- Change thicket t. -/
def Task.modTh (tk : Task) (t : BitVec 2) (f : Thicket → Thicket) : Task :=
  { tk with thickets := tk.thickets.set t.toFin (f (tk.th t)) t.toFin.isLt }

/-- A sink port accepts a token, or drops one that was taken before its thicket was restored (log 63). -/
def SnkPort.accept (p : SnkPort) (tok : Token) : SnkPort :=
  if p.skip = 0 then { p with fifo := p.fifo ++ [tok] } else { p with skip := p.skip - 1 }

/-- STK or MMA takes tokens, and leaves these. -/
def SnkPort.leave (p : SnkPort) (rest : List Token) : SnkPort :=
  { p with fifo := rest, cursor := 0, taken := p.taken + (p.fifo.length - rest.length) }

/-- Whether a thicket state holds its elements for a program: any but IDLE. -/
def ThState.live (s : ThState) : Bool := s ≠ .idle

/-- Elements of a thicket. -/
def Thicket.elem (x : Thicket) (k : Nat) : Option Elem := mapGet k x.elems

/-- Change an element of a thicket; a change ends the region controller's count (R287). -/
def Thicket.modElem (x : Thicket) (k : Nat) (f : Elem → Elem) : Thicket :=
  match mapGet k x.elems with
  | none => x
  | some e => { x with elems := mapSet k (f e) x.elems, calm := if x.calm.isSome && decide (f e = e) then x.calm else none }

/-- Number under which an input waits for a port's token. -/
def inputKey (t k i : Nat) : Nat := (t * 128 + k) * 4 + i

/-- Whether an input is held (R187, R204): b under FIRE 1 or 2, and HOLD's a. -/
def heldInput (p : Pattern) (i : Nat) : Bool := (pFire p ≠ 0 && i = 1) || (pOpc p = 0x26 && i = 0)

/-- What a source port keeps for thicket t. -/
def SrcPort.phase (p : SrcPort) (t : Nat) : PortPhase := (mapGet t p.phases).getD (PortPhase.begin_ p.base 0 0)

/-- Change what a source port keeps for thicket t. -/
def SrcPort.modPhase (p : SrcPort) (t : Nat) (f : PortPhase → PortPhase) : SrcPort :=
  { p with phases := mapSet t (f (p.phase t)) p.phases }

/-- Inputs of the thickets in a state whose active patterns read fi n. -/
def Task.inputsOf (tk : Task) (st : ThState) (n : Nat) : List Nat :=
  (List.range 4).flatMap fun t =>
    let x := tk.th (BitVec.ofNat 2 t)
    if x.st ≠ st then []
    else x.elems.flatMap fun e =>
      (List.range 3).filterMap fun i => if pSel e.2.pat i = 32 + n then some (inputKey t e.1 i) else none

/-- Inputs that a source port serves: those of thickets in a state that have not had its end-of-stream. -/
def Task.serves (tk : Task) (st : ThState) (n : Nat) : List Nat :=
  (tk.inputsOf st n).filter fun k => !((tk.src (BitVec.ofNat 4 n)).phase (k / 512)).eos

/-- Inputs of running thickets that a source port serves (log 111). -/
def Task.readers (tk : Task) (n : Nat) : List Nat := tk.serves .running n

/-- Thickets of a list of inputs. -/
def inputThickets (keys : List Nat) : List Nat := keys.foldl (fun l k => setInsert (k / 512) l) []

/-- The marker interval of a thicket's CNTs, which is one on all of its planes (R216). -/
def Thicket.interval (x : Thicket) : Option Nat :=
  ((x.elems.flatMap fun e => e.2.pats.map (·.2)).find? fun p => pOpc p = 0x2D).map cntInterval

/-- Whether a port of a thicket has a BAL to inject: it has delivered an interval's data tokens since the last (R216). -/
def Thicket.balDue (x : Thicket) (h : PortPhase) : Bool := x.interval.any fun i => decide (i ≤ h.since)

/-- Whether an edge element of a running thicket reads fo n (R210). -/
def Task.edgeReads (tk : Task) (n : Nat) : Bool :=
  (List.range 4).any fun t =>
    let x := tk.th (BitVec.ofNat 2 t)
    x.st.live && x.st ≠ .complete && x.elems.any fun e => (readsFo e.2.pat).contains n

/-- Whether an edge element of a running thicket delivers into fi n (R210; log 86). -/
def Task.edgeFed (tk : Task) (n : Nat) : Bool :=
  (List.range 4).any fun t =>
    let x := tk.th (BitVec.ofNat 2 t)
    x.st.live && x.st ≠ .complete && x.elems.any fun e => keyClass e.1 ≠ 0 && pSnk e.2.pat && pSsel e.2.pat = n

/-- The address of a page (R263). -/
def TlbEntry.base (e : TlbEntry) : Nat := e.page * 2 ^ e.size

/-- An engine command that raises FMT completes, and the core has the cause pending with the page's address (R263, R358; log 76). -/
def State.engFmt (s : State) (t m : Nat) (tl : BitVec 4) (num va : Nat) : State :=
  s.modTask t m fun tk => (tk.complete tl num).addCause (fmtCause tl (BitVec.ofNat 64 va) num)

/-- The bytes of a stream command (R171). -/
def Cmd.bytes (c : Cmd) : Nat := c.w1.toNat

/-- The scale bytes of a token of a page e by its parts: of each of its blocks, from the page where the block lies, or of its tile
(R184, R262, R263; log 76). -/
def tokenScales (e : TlbEntry) (ps : List (TlbEntry × Nat × Nat)) : List (Nat × Nat) :=
  if e.geo = 1 then
    (List.range (tokenBytes e / unitBytes e)).filterMap fun i =>
      (partAt ps (i * unitBytes e)).bind fun x => if x.1.geo = 1 then some (scaleAddr x.1 x.2 0, 1) else none
  else (partAt ps 0).toList.map fun x => (scaleAddr x.1 x.2 0, 1)

/-- The data runs of a token by its parts. -/
def tokenRuns (ps : List (TlbEntry × Nat × Nat)) : List (Nat × Nat) := ps.flatMap fun x => pageRuns x.1 x.2.1 x.2.2 0 x.2.2

/-- The first page of a run that does not hold whole units of it (R263; log 76). -/
def unitFault (pages : List (TlbEntry × Nat)) : Option TlbEntry := (pages.find? fun x => x.2 % wholeBytes x.1 ≠ 0).map (·.1)

/-- A stream command that has moved nothing yet translates all its pages, and goes on when each holds whole units of its range; one that
does not ends the command with FMT (R263; log 76). -/
def State.streamPages (s : State) (t m : Nat) (c : Cmd) (write : Bool) (k : State → EngIo) : EngIo :=
  if c.pos ≠ 0 then k s
  else walkPages t m 14 c.num write (pageFuel c.bytes) s c.w0.toNat c.bytes fun s ps =>
    match unitFault ps with
    | some e => .stall (s.engFmt t m 14 c.num e.base)
    | none => k s

/-- The data token at the position of a STRM.IN command, its bytes of the source, and whether it is the last. A token is decoded by the
attributes of the page that its first byte lies in; a range that is no whole number of units faults as the command translates its pages
(R172, R183, R184, R263; log 76). -/
def State.streamToken (s : State) (t m : Nat) (c : Cmd) (k : State → Token → Nat → Bool → EngIo) : EngIo :=
  match s.task t m with
  | none => .wait
  | some (tm, tk) =>
    let a := c.w0.toNat
    let n := c.bytes
    let plain (s : State) (bs : List Byte) (bad : Bool) : EngIo :=
      let last := n ≤ c.pos + 64
      k s { plainToken with payload := BitVec.ofNat 512 (leNat bs), head := c.pos = 0, tail := last, poison := bad } 64 last
    match c.kind with
    | .strmInS =>
      let r := tk.spadBytes tm.carve (a + c.pos) 64
      plain s r.1 r.2
    | .strmInW =>
      match s.part tm.vf with
      | none => .wait
      | some p =>
        let o := a + c.pos
        if s.refreshing p.desc o || s.refreshing p.desc (o + 63) then .wait
        else plain s (memReadBytes p.wstore o 64) ((List.range 64).any fun i => p.poisonW.contains (o + i))
    | _ =>
      s.streamPages t m c false fun s => runAt t m 14 c.num false (fun s e va =>
        let tb := tokenBytes e
        let last := n ≤ c.pos + tb
        runParts t m 14 c.num false tb s a c.pos tb fun s ps =>
          (s.readRuns t m 14 c (tokenRuns ps)).bind fun s1 bs bad =>
            let tile := e.geo = 2 || e.geo = 3
            let ub := unitBytes e
            let inTile := va % 2 ^ e.size % ub
            let head := if tile then inTile = 0 else c.pos = 0
            let tail := if tile then inTile + tb = ub else last
            let base := { plainToken with payload := BitVec.ofNat 512 (leNat bs), head := head, tail := tail, poison := bad,
                                          kind := if e.fmt = 9 then Kind.scale else Kind.data }
            if hasScale e && (!tile || head) then
              (s1.readRuns t m 14 c (tokenScales e ps)).bind fun s2 sc bad2 =>
                k s2 { base with sbx := BitVec.ofNat 32 (leNat sc), poison := bad || bad2 } tb last
            else k s1 base tb last) (pageFuel c.pos) s a c.pos

/-- Number of the next token that a port delivers for the first time. -/
def SrcPort.position (p : SrcPort) : Nat := p.base + p.replay.length

/-- Number of the next token that a port delivers to thicket t. -/
def SrcPort.positionOf (p : SrcPort) (t : Nat) : Nat := p.position - (p.phase t).back

/-- A token reaches the readers of a phase, the first after `seq` BALs (R183, R216, R282). -/
def PortPhase.deliver (h : PortPhase) (tok : Token) (seq : Nat) : PortPhase :=
  if tok.kind.dataClass then { h with since := h.since + 1, tail := tok.tail, fromSeq := h.fromSeq.or (some seq) }
  else if tok.kind = .eos then { h with eos := true }
  else if tok.kind = .round then { h with rounds := h.rounds + 1 }
  else h

/-- The number that marks the ROUNDs of a thicket's phase in a replay buffer. -/
def Task.phaseTag (tk : Task) (t : Nat) : Nat := 1 + t + 4 * (tk.th (BitVec.ofNat 2 t)).num

/-- A token enters a port's replay buffer (R41, R360). -/
def SrcPort.keep (p : SrcPort) (tag : Nat) (tok : Token) : SrcPort :=
  let r := p.replay ++ [(tag, tok)]
  { p with replay := r.drop (r.length - Config.replayTokens), base := p.base + (r.length - Config.replayTokens) }

/-- A ROUND enters a port's replay buffer at the place that thicket t has reached, behind what it has delivered and ahead of what a rewind
has it deliver once more (R41, R282, R366). -/
def SrcPort.keepRound (p : SrcPort) (t tag : Nat) (tok : Token) : SrcPort :=
  let back := (p.phase t).back
  let at_ := p.replay.length - back
  let r := p.replay.take at_ ++ (tag, tok) :: p.replay.drop at_
  let num := p.base + at_
  let later (h : PortPhase) : PortPhase :=
    { h with back := if back < h.back then h.back + 1 else h.back, start := if num < h.start then h.start + 1 else h.start,
             posAt := h.posAt.map fun q => (q.1, if num < q.2 then q.2 + 1 else q.2) }
  { p with replay := r.drop (r.length - Config.replayTokens), base := p.base + (r.length - Config.replayTokens),
           phases := p.phases.map fun h => (h.1, later h.2) }

/-- The inputs that a marker of thicket t goes to: those of t; a ROUND only at elements with a round to come (log 21). -/
def Task.markReaders (tk : Task) (n t : Nat) (k : Kind) : List Nat :=
  (tk.inputsOf .running n).filter fun key =>
    key / 512 = t && (k ≠ .round ||
      ((tk.th (BitVec.ofNat 2 t)).elem (key / 4 % 128)).any fun e => e.rounds < (tk.th (BitVec.ofNat 2 t)).roundPlanes.length)

/-- BALs that the element of an input has passed. -/
def Task.balsAt (tk : Task) (key : Nat) : Nat :=
  (((tk.th (BitVec.ofNat 2 (key / 512))).elem (key / 4 % 128)).map (·.balSeq)).getD 0

/-- Put a token at the head of a port for these inputs; their thickets' phases count it (log 86). -/
def Task.offerToken (tk : Task) (n : BitVec 4) (tok : Token) (keys : List Nat) : Task :=
  let count (p : SrcPort) (t : Nat) : SrcPort :=
    p.modPhase t fun h => h.deliver tok (((keys.find? fun k => k / 512 = t).map tk.balsAt).getD 0)
  tk.modSrc n fun p => { (inputThickets keys).foldl count p with cur := some (tok, keys) }

/-- A token that reaches COMPLETE thickets is discarded there and counted (R214; log 111). -/
def Task.discardAt (tk : Task) (n : BitVec 4) (tok : Token) (keys : List Nat) : Task :=
  let tk1 := (inputThickets keys).foldl (fun tk t => tk.modSrc n fun p => p.modPhase t fun h => h.deliver tok 0) tk
  keys.foldl (fun tk k => tk.modTh (BitVec.ofNat 2 (k / 512)) fun x => { x with disc := x.disc + b2n tok.kind.dataClass }) tk1

/-- The token at the head of a port with the inputs that have still to take it. -/
def Task.portHead (tk : Task) (n : BitVec 4) : Option (Token × List Nat) :=
  match (tk.src n).cur with
  | none => none
  | some (x, ks) =>
    match ks.filter fun k => (tk.th (BitVec.ofNat 2 (k / 512))).st = .running with
    | [] => none
    | ks => some (x, ks)

/-- Whether a thicket that reads a port holds its markers or is saved, so that the port serves nothing (R368). -/
def Task.portMarked (tk : Task) (n : Nat) : Bool :=
  (List.range 4).any fun i =>
    let x := tk.th (BitVec.ofNat 2 i)
    (x.marking || x.st = .saved) && x.elems.any fun e => (readsFi e.2.pat).contains n

/-- ROUNDs of a phase among the tokens that a port delivers once more. -/
def Task.roundsBack (tk : Task) (n : BitVec 4) (t : Nat) : Nat :=
  let p := tk.src n
  ((p.replay.drop (p.replay.length - (p.phase t).back)).filter fun x => x.1 = tk.phaseTag t).length

/-- ROUNDs that wait at an input. -/
def Input.rounds (i : Input) : Nat := ((i.latch.toList ++ i.chan).filter fun t => t.kind = .round).length

/-- Whether a port has a ROUND to inject for thicket t: an element that takes its stream has fewer ROUNDs before it than the phase has
filled planes for (R282; log 112). -/
def Task.roundDue (tk : Task) (n : BitVec 4) (t : Nat) : Bool :=
  let x := tk.th (BitVec.ofNat 2 t)
  let taken (e : Elem) : List Input :=
    [(0, e.a), (1, e.b), (2, e.c)].filterMap fun i =>
      if pSel e.pat i.1 = 32 + n.toNat && !heldInput e.pat i.1 && !(pOpc e.pat = 0x24 && i.1 = 1) then some i.2 else none
  let marks := x.elems.flatMap fun e => (taken e.2).map fun i => e.2.rounds + i.rounds
  let least := (minOf marks).getD ((tk.src n).phase t).rounds
  least + (if marks.isEmpty then 0 else tk.roundsBack n t) < x.roundPlanes.length

/-- Whether a port holds its stream back for a marker of thicket t: a ROUND behind a record's end, or a BAL (R216, R282). -/
def Task.markerDue (tk : Task) (n : BitVec 4) (t : Nat) : Bool :=
  let h := (tk.src n).phase t
  (tk.roundDue n t && h.tail) || (tk.th (BitVec.ofNat 2 t)).balDue h

/-- Whether a debug stop holds a port at a record's end (R330). -/
def State.portHeld (s : State) (tm : Team) (tk : Task) (n : BitVec 4) : Bool :=
  (inputThickets (tk.readers n.toNat)).all (fun t => ((tk.src n).phase t).tail) && s.debugHeld tm.vf

/-- The next token that a port delivers once more to thicket t, with the tokens left after it; ROUNDs of an earlier phase are
skipped. -/
def nextBack (replay : List (Nat × Token)) (tag : Nat) : Nat → Option (Token × Nat)
  | 0 => none
  | n + 1 =>
    match replay[replay.length - (n + 1)]? with
    | none => none
    | some (g, x) => if x.kind = .round && g ≠ tag then nextBack replay tag n else some (x, n)

/-- Draw the next token to the head of a source port (R183, R216, R282, R366, R368): injected markers first; then tokens that a
rewind delivers once more or stream tokens, unless a ROUND or a BAL is due first. A port that an edge element feeds passes on what
that element delivers (R210; log 86). What comes to COMPLETE thickets is discarded (R214). -/
def State.drawSource (s : State) (t m : Nat) (n : BitVec 4) : EngIo :=
  match s.task t m with
  | none => .wait
  | some (tm, tk) =>
    let p := tk.src n
    let keys := tk.readers n.toNat
    let gone := tk.serves .complete n.toNat
    let ts := inputThickets keys
    let shown (s : State) : State := (inputThickets gone).foldl (fun s i => match s.task t m with
      | none => s
      | some (tm, tk) => s.regionDisc tm tk.core i (tk.th (BitVec.ofNat 2 i))) s
    let ok (f : Task → Task) : EngIo := .ok (shown (s.modTask t m f)) [] false
    if (tk.portHead n).isSome then .wait
    else if tk.edgeFed n.toNat then
      match p.edge with
      | x :: xs => ok fun tk => tk.modSrc n fun p => { p with edge := xs, cur := some (x, tk.inputsOf .running n.toNat) }
      | [] => .wait
    else match p.inject with
    | (g, x) :: xs =>
      let tag := if x.kind = .round then tk.phaseTag g else 0
      ok fun tk => (tk.modSrc n fun p =>
        if x.kind = .round then { p with inject := xs }.keepRound g tag x else { p with inject := xs }).offerToken n x
          (tk.markReaders n.toNat g x.kind)
    | [] =>
      if (keys.isEmpty && gone.isEmpty) || tk.portMarked n.toNat || s.portHeld tm tk n || ts.any (tk.markerDue n) then .wait
      else match (inputThickets (keys ++ gone)).find? fun g => (nextBack p.replay (tk.phaseTag g) (p.phase g).back).isSome with
        | some g =>
          match nextBack p.replay (tk.phaseTag g) (p.phase g).back with
          | none => .wait
          | some (x, left) =>
            ok fun tk =>
              let tk1 := tk.modSrc n fun p => p.modPhase g fun h => { h with back := left }
              let mine := keys.filter fun k => k / 512 = g
              if mine.isEmpty then tk1.discardAt n x (gone.filter fun k => k / 512 = g) else tk1.offerToken n x mine
        | none =>
          match tk.portCmd false n.toNat with
          | none => .wait
          | some c =>
            let pass (tok : Token) (f : Cmd → Cmd) (tk : Task) : Task :=
              (((tk.modSrc n fun p => p.keep 0 tok).offerToken n tok keys).discardAt n tok gone).modCmd 14 c.num f
            if c.stall.isSome || c.acked ≠ 0 || c.cancelled || c.bytes = 0 then .wait
            else if c.started then ok (pass (controlToken .eos 0) fun c => { c with acked := 1 })
            else s.streamToken t m c fun s1 tok n last =>
              .ok (shown (s1.modTask t m (pass tok fun c => { c with pos := c.pos + n, started := last }))) [] false

/-! ## Sink ports -/

/-- Bytes that a STRM.OUT writes for a token at an address of a page by its parts, with the address of each run (R263, R172). -/
def outRuns (e : TlbEntry) (va : Nat) (ps : List (TlbEntry × Nat × Nat)) (tok : Token) : List (Nat × List Byte) :=
  let tile := e.geo = 2 || e.geo = 3
  let data := dealRuns (tokenRuns ps) (leBytes (tokenBytes e) tok.payload.toNat)
  if hasScale e && (!tile || va % 2 ^ e.size % unitBytes e = 0) then
    data ++ dealRuns (tokenScales e ps) (leBytes (tokenScales e ps).length tok.sbx.toNat)
  else data

/-- Write runs of bytes in order. -/
def State.writeRuns (s : State) (t m : Nat) (tl : BitVec 4) (c : Cmd) (bad : Bool) : List (Nat × List Byte) → EngIo
  | [] => .ok s [] false
  | (a, bs) :: rs =>
    match s.engWriteAll t m tl c bad 16 a bs with
    | .ok s1 _ _ => s1.writeRuns t m tl c bad rs
    | r => r

/-- Whether an element's active pattern delivers to fo n. -/
def deliversTo (n : Nat) (e : Nat × Elem) : Bool := keyClass e.1 = 0 && pSnk e.2.pat && pSsel e.2.pat = n

/-- The thicket with an element that delivers to fo n: one that runs before any other. -/
def Task.feeder (tk : Task) (n : Nat) : Option (BitVec 2) :=
  let has (f : ThState → Bool) (t : Nat) : Bool :=
    let x := tk.th (BitVec.ofNat 2 t)
    f x.st && x.elems.any (deliversTo n)
  (((List.range 4).find? (has (· == .running))).or ((List.range 4).find? (has fun _ => true))).map (BitVec.ofNat 2 ·)

/-- Count a token discarded at fo n in the region log of the thicket that delivers there. -/
def Task.discardFo (tk : Task) (n : Nat) : Task :=
  match tk.feeder n with
  | none => tk
  | some t => tk.modTh t fun x => { x with disc := x.disc + 1 }

/-- One token of a STRM.OUT (R172): written at its position, or discarded and counted beyond the byte count; `acked` marks
that end-of-stream came. -/
def State.outToken (s : State) (t m : Nat) (c : Cmd) (tok : Token) : EngIo :=
  match s.task t m with
  | none => .wait
  | some (tm, _) =>
    let bump (s : State) (n : Nat) : EngIo :=
      .ok (s.modTask t m fun tk => tk.modCmd 14 c.num fun c => { c with pos := c.pos + n }) [] false
    if tok.kind = .eos then .ok (s.modTask t m fun tk => tk.modCmd 14 c.num fun c => { c with acked := 1 }) [] false
    else if !tok.kind.dataClass then .ok s [] false
    else if c.bytes ≤ c.pos then .ok (s.modTask t m fun tk => tk.discardFo c.port) [] false
    else if c.kind = .strmOutS then
      bump (s.modTask t m fun tk => tk.engPut tm.carve (c.writeTag 14) tok.poison (c.w0.toNat + c.pos) (leBytes 64 tok.payload.toNat)) 64
    else
      s.streamPages t m c true fun s => runAt t m 14 c.num true (fun s e va =>
        runParts t m 14 c.num true (tokenBytes e) s c.w0.toNat c.pos (tokenBytes e) fun s ps =>
          (s.writeRuns t m 14 c tok.poison (outRuns e va ps tok)).bind fun s1 _ _ => bump s1 (tokenBytes e)) (pageFuel c.pos) s c.w0.toNat c.pos

/-- A stream command on global pages that has moved nothing stalls at a page without a translation, or faults at one that does not hold
whole units of its range, whether a token waits or not (R173, R263; log 76); a debug stop keeps one that has not begun in its chain
(R330). -/
def State.streamCheck (s : State) (t m : Nat) (c : Cmd) (write : Bool) : Option State :=
  if (c.kind ≠ .strmInG && c.kind ≠ .strmOutG) || c.pos ≠ 0 || c.stall.isSome || c.cancelled || c.bytes = 0 then none
  else if (s.task t m).all fun x => s.debugHeld x.1.vf then none
  else match s.streamPages t m c write fun _ => .wait with
    | .stall s1 => some s1
    | _ => none

/-- Let the current STRM.OUT of a sink port take the tokens that stand in it; under a debug stop one that has written nothing yet stays
in its chain (R330). It takes a token whole, of which STK has taken some parts or none (R174; log 151). -/
def State.drainFo (s : State) (t m : Nat) (n : BitVec 4) : Nat → State
  | 0 => s
  | fuel + 1 =>
    match s.task t m with
    | none => s
    | some (tm, tk) =>
      match (tk.snk n).fifo, tk.portCmd true n.toNat with
      | x :: _, some c =>
        if (s.debugHeld tm.vf && c.pos = 0) || c.stall.isSome || c.acked ≠ 0 || c.cancelled || c.bytes = 0 || tk.edgeReads n.toNat ||
            (tk.mmaOn n.toNat).isSome then s
        else match s.outToken t m c x with
          | .ok s1 _ _ =>
            (s1.modTask t m fun tk => tk.modSnk n fun p => { p with fifo := p.fifo.drop 1, cursor := 0 }).drainFo t m n fuel
          | .stall s1 => s1
          | .wait => s
      | _, _ => s

end Sys2Proof.Machine
end

