-- ==== Sys2Proof/Machine/Fabric.lean ====
section
/-! DEFINITION. How thickets move: links, alignment, firing, rounds, balance points, markers and containment (R186–R194,
R214, R216, R279–R287, R359–R369). -/

namespace Sys2Proof.Machine

/-! ## Inputs and outputs of an element -/

/-- Selector of input i of an element's active pattern. -/
def Elem.sel (e : Elem) (i : Nat) : Nat := pSel e.pat i

/-- The stream inputs of a pattern (R186). -/
def streams (p : Pattern) : List Nat := [0, 1, 2].filter fun i => streamSel (pSel p i)

/-- The stream inputs that take part in the alignment of EOS, ROUND and BAL (R187, R190, R204, R207): RECI aligns its entry
alone. -/
def alignedInputs (p : Pattern) : List Nat :=
  (streams p).filter fun i => !heldInput p i && !(pOpc p = 0x24 && i = 1)

/-- An input by its number. -/
def Elem.input (e : Elem) (i : Nat) : Input := if i = 0 then e.a else if i = 1 then e.b else e.c

/-- Change an input by its number. -/
def Elem.modInput (e : Elem) (i : Nat) (f : Input → Input) : Elem :=
  if i = 0 then { e with a := f e.a } else if i = 1 then { e with b := f e.b } else { e with c := f e.c }

/-- Whether an input has brought its CKPT (R369). -/
def Input.ckpt (i : Input) : Bool :=
  i.latch.any (fun t => t.kind = .ckpt) || i.chan.getLast?.any fun t => t.kind = .ckpt

/-- Whether an element has its first CKPT, or is stopped by a fault while markers travel: it fires no more and records what
arrives (R225, R369). A saved RECI still records its back edge (R207). -/
def Elem.recording (e : Elem) (marking : Bool) : Bool :=
  marking && (e.fault.isSome || (e.saved && pOpc e.pat = 0x24) || (streams e.pat).any fun i => (e.input i).ckpt)

/-- Entries of one side of an element's output buffer (R205, R283, R284). -/
def entryRoom (k : Nat) (p : Pattern) : Nat := if keyClass k = 0 then pDepth p + 1 else 4

/-- The pending-consumer mask of the main side (R105, R284). -/
def mainMask (p : Pattern) : BitVec 5 := BitVec.ofNat 5 (2 * pNmask p + b2n (pSnk p))

/-- The pending-consumer mask of the second side (R205, R207). -/
def altMask (p : Pattern) : BitVec 5 := BitVec.ofNat 5 (2 * (pAux p % 16))

/-- Whether the sides of a pattern's buffer have DEPTH + 1 entries each (R205, R284). -/
def twoBuffers (p : Pattern) : Bool := pOpc p = 0x22

/-- Whether one side of an element's buffer has a free entry (R205, R283, R284). -/
def Elem.free (e : Elem) (k : Nat) (alt : Bool) : Bool :=
  (if twoBuffers e.pat then e.out.filter fun x => x.alt == alt else e.out).length < entryRoom k e.pat

/-- Whether an output entry is free on every side (R186). -/
def Elem.room (e : Elem) (k : Nat) : Bool := e.free k false && (!twoBuffers e.pat || e.free k true)

/-- The entry of a token on one side of a pattern's buffer. -/
def entryOf (p : Pattern) (alt : Bool) (t : Token) : Entry :=
  { tok := t, mask := if alt then altMask p else mainMask p, alt := alt, pat := p }

/-- Tokens leave a firing for the main side, and one for the second side; an entry that no consumer waits for is free at once. -/
def Elem.emit (e : Elem) (ts : List Token) (alt : Option Token) : Elem :=
  { e with pend := e.pend ++ ((ts.map (entryOf e.pat false)) ++ (alt.toList.map (entryOf e.pat true))).filter fun x => x.mask ≠ 0 }

/-- Move waiting tokens into free entries; a saved element's go no further than its CKPT (R224, R369). -/
def Elem.place (e : Elem) (k : Nat) : Nat → Elem
  | 0 => e
  | n + 1 =>
    match e.pend with
    | [] => e
    | x :: xs =>
      if e.saved && !(x :: xs).any fun y => y.tok.kind = .ckpt then e
      else if e.free k x.alt then { e with out := e.out ++ [x], pend := xs }.place k n else e

/-- The oldest entry for one consumer, and the buffer after the consumer accepts it (R284, R285). -/
def takeEntry (bit : Nat) (mine : Entry → Bool) : List Entry → Option (Entry × List Entry)
  | [] => none
  | x :: xs =>
    if x.mask.getLsbD bit && mine x then
      let m := setBit x.mask bit false
      some (x, if m = 0 then xs else { x with mask := m } :: xs)
    else match takeEntry bit mine xs with
      | none => none
      | some (t, ys) => some (t, x :: ys)

/-- A producer's oldest token for one neighbour. -/
def Elem.give (e : Elem) (bit : Nat) : Option (Token × Elem) :=
  (takeEntry bit (fun _ => true) e.out).map fun r => (r.1.tok, { e with out := r.2 })

/-- A producer's oldest token for a port or an accumulator. -/
def Elem.giveSink (e : Elem) (n : Nat) : Option (Entry × List Entry) := takeEntry 0 (fun x => pSsel x.pat = n) e.out

/-- The ports and accumulators that an element delivers to: those of its entries, oldest first, then the one of its active plane (R283). -/
def Elem.sinks (e : Elem) : List Nat :=
  ((e.out.filter fun x => x.mask.getLsbD 0).map fun x => pSsel x.pat) ++ (if pSnk e.pat then [pSsel e.pat] else [])

/-- An input that holds nothing. -/
def Input.empty : Input := { latch := none, req := false, chan := [] }

/-- An element without its tokens and requests. -/
def Elem.cleared (e : Elem) : Elem :=
  { e with a := Input.empty, b := Input.empty, c := Input.empty, out := [], pend := [], snkReq := [] }

/-! ## Thickets -/

/-- Whether a thicket's elements may move. -/
def Thicket.moves (x : Thicket) : Bool := x.st = .running && !x.stopped && x.err.isNone

/-- Source ports that a thicket's filled planes read. -/
def Thicket.planePorts (x : Thicket) : List Nat :=
  distinct (x.elems.flatMap fun e => e.2.pats.flatMap fun p => readsFi p.2)

/-- Source ports that the active patterns read. -/
def Thicket.activePorts (x : Thicket) : List Nat := distinct (x.elems.flatMap fun e => readsFi e.2.pat)

/-- Whether an edge element of a thicket delivers into fi n. -/
def Thicket.feeds (x : Thicket) (n : Nat) : Bool :=
  x.elems.any fun e => keyClass e.1 ≠ 0 && pSnk e.2.pat && pSsel e.2.pat = n

/-- The source ports of a thicket's filled planes that serve streams, into which markers go (R178, R210). -/
def Thicket.markPorts (x : Thicket) : List Nat := x.planePorts.filter fun n => !x.feeds n

/-- The source ports of a thicket that serve streams: those that no edge element of it feeds (R210). -/
def Thicket.sources (x : Thicket) : List Nat := x.activePorts.filter fun n => !x.feeds n

/-- Whether an element's delivery to its port is a sink point (R210, R214; log 75). -/
def Thicket.sinkDelivery (x : Thicket) (k : Nat) (p : Pattern) : Bool :=
  keyClass k = 0 && pSnk p && !(pSsel p < 16 && x.elems.any fun e => (readsFo e.2.pat).contains (pSsel p))

/-- EOS tokens that a terminal element has counted. -/
def Elem.eosCount (e : Elem) : Nat :=
  match e.own with
  | .eos n => n
  | _ => 0

/-- Sink points of an element that have not counted their EOS (R214; log 75). -/
def Thicket.openSinks (x : Thicket) (k : Nat) (e : Elem) : Nat :=
  b2n (x.sinkDelivery k e.pat && !e.snkEos) +
  b2n (pOpc e.pat = 0x2C && e.eosCount < pK e.pat % 65536) +
  b2n (pOpc e.pat = 0x2A && pMode e.pat = 2 && e.eosCount = 0)

/-- Incomplete sink points of a thicket. -/
def Thicket.incomplete (x : Thicket) : Nat := (x.elems.map fun e => x.openSinks e.1 e.2).sum

/-- Whether an element takes part in alignment at all. -/
def Elem.alive (e : Elem) : Bool := pOpc e.pat ≠ 0 && !(alignedInputs e.pat).isEmpty

/-- The last balance point that every element and sink point has passed (R359). -/
def Thicket.checkedPoint (x : Thicket) : Nat :=
  (minOf ((x.elems.filter fun e => e.2.alive).map fun e =>
    match e.2.bals.find? fun b => b.sink && b.snk.isNone with
    | some b => min e.2.balSeq (b.seq - 1)
    | none => e.2.balSeq)).getD x.checked

/-- Let the checked point rise, and drop latches older than it. -/
def Thicket.settle (x : Thicket) : Thicket :=
  let c := max x.checked x.checkedPoint
  { x with checked := c, elems := x.elems.map fun e => (e.1, { e.2 with bals := e.2.bals.filter fun b => c ≤ b.seq }) }

/-- ROUNDs of an element that its sink point has still to accept: those of entries whose own delivery is one (R214, R282). -/
def Thicket.roundsLeft (x : Thicket) (k : Nat) (e : Elem) : Nat :=
  ((e.out ++ e.pend).filter fun y => y.tok.kind = .round && y.mask.getLsbD 0 && x.sinkDelivery k y.pat).length

/-- Rounds that have reached every sink point: its element has passed the ROUND, and what an entry of the plane it left owes its
sink point is delivered (R282, R283). -/
def Thicket.roundsDone (x : Thicket) : Nat :=
  (minOf (x.elems.filterMap fun e =>
    let left := x.roundsLeft e.1 e.2
    if (e.2.alive && (x.sinkDelivery e.1 e.2.pat || terminal e.2.pat)) || left ≠ 0 then some (e.2.rounds - left) else none)).getD x.rounds

/-- Count completed rounds, and make their plane the active one (R177, R282). -/
def Thicket.settleRounds (x : Thicket) : Thicket :=
  let n := max x.rounds x.roundsDone
  if n = x.rounds then x else { x with rounds := n, active := x.roundPlanes.getD (n - 1) x.active }

/-- DETAIL of an element's report (R192): thicket, absolute row, absolute column or edge element number, and the edge bit. -/
def Thicket.site (x : Thicket) (t : BitVec 2) (k : Nat) : BitVec 16 :=
  BitVec.ofNat 16 (t.toNat * 2 ^ 14 +
    if keyClass k = 0 then (x.y0 + k / 8) * 2 ^ 11 + (x.x0 + k % 8) * 2 ^ 8 else k % 8 * 2 ^ 8 + 2 ^ 7)

/-- Set an event bit of the region log (R331). -/
def Thicket.event (x : Thicket) (n : Nat) : Thicket := { x with events := setBit x.events n true }

/-- A region error arises at an element (R360). -/
def Thicket.regionError (x : Thicket) (k : Nat) (imbalance : Bool) : Thicket :=
  { x with err := some (k, imbalance) }.event 1

/-! ## Switching planes (R190, R217) -/

/-- Whether a pattern is an integrator's (R217). -/
def integratorPattern (p : Pattern) : Bool := 0x30 ≤ pOpc p && pOpc p ≤ 0x33

/-- A bank of zeros. -/
def zeroBank : List Lane := List.replicate 16 { y := 0, rem := 0, dz := 0 }

/-- An element makes plane n active; an integrator bank goes when the new pattern is no integrator's, and the own state of an opcode
waits for that opcode's return (R190). -/
def Elem.switch (e : Elem) (n : BitVec 2) : Elem :=
  if e.active = n then e
  else
    let e1 := { e with active := n }
    let e2 := if pOpc e.pat = pOpc e1.pat then e1
      else { e1 with own := (mapGet (pOpc e1.pat) e.kept).getD .none, kept := mapSet (pOpc e.pat) e.own e.kept }
    if integratorPattern e.pat && !integratorPattern e1.pat then { e2 with bank := zeroBank } else e2

/-! ## Balance latches (R359) -/

/-- The latch of an element's own state at a balance point. -/
def Elem.latch (e : Elem) (seq : Nat) (sink : Bool) : BalLatch :=
  { seq := seq, active := e.active, rounds := e.rounds, own := e.own, kept := e.kept, bank := e.bank, held := e.held,
    dirty := e.dirty, sink := sink, snk := none }

/-- What an element's sink point at port or accumulator n latches. -/
def Task.sinkLatch (tk : Task) (e : Elem) (n : Nat) : SinkLatch :=
  let q := tk.snk (BitVec.ofNat 4 n)
  if n < 16 then
    { acc := [], sat := false, bad := false, pos := ((tk.portCmd true n).map (·.pos)).getD 0,
      fifo := q.fifo, taken := q.taken - q.skip, eos := e.snkEos }
  else
    let f := tk.fa.get (BitVec.ofNat 4 (n - 16)).toFin
    { acc := f.lanes, sat := f.sat, bad := f.poison, pos := 0, fifo := [], taken := 0, eos := e.snkEos }

/-- The sink point of an element consumes a BAL: its first latch without a sink part takes one. -/
def latchSink (x : SinkLatch) : List BalLatch → List BalLatch
  | [] => []
  | b :: bs => if b.sink && b.snk.isNone then { b with snk := some x } :: bs else b :: latchSink x bs

/-! ## Non-data alignment (R190, R199, R201, R205–R220) -/

/-- Tokens that an element releases before an EOS, with its own state after them. -/
def flush (p : Pattern) (e : Elem) : List Token × Own :=
  match e.own with
  | .red vals head => if vals.isEmpty then ([], e.own) else ([redToken p vals head false e.dirty], .red [] false)
  | .vals xs head =>
    let r := mxTokens p 0 head false true e.dirty 8 xs
    (r.1, .vals r.2 false)
  | .ddal vals =>
    if vals.isEmpty then ([], e.own)
    else (statePair (tabulate 16 fun i => vals.getD i 0) e.dirty, .ddal [])
  | .ctrn buf =>
    if buf.isEmpty then ([], e.own)
    else (transpose p (buf ++ List.replicate (ctrnTokens p - buf.length) plainToken), .ctrn [])
  | .rate _ _ => ([], .rate none 0)
  | .swin _ => ([], .swin [])
  | own => ([], own)

/-- Pixels of an incomplete last row (R211). -/
def rowRest (p : Pattern) (e : Elem) : Nat :=
  match e.own with
  | .swin pix => if pix.length % (pK p % 4096 + 1) = 0 then 0 else 1
  | _ => 0

/-- Whether CNT finds an imbalance at a BAL or an EOS (R216). -/
def cntFails (p : Pattern) (e : Elem) (t : Token) : Bool :=
  pOpc p = 0x2D &&
    let c := match e.own with
      | .cnt d _ => d
      | _ => 0
    let x := pK p % 2 ^ 32
    if t.kind = .bal then c ≠ x else t.kind = .eos && c ≠ t.sbx.toNat * x / cntInterval p

/-- Counting of EOS and BAL by SINK, SPAD .WR and CNT. -/
def countMark (p : Pattern) (own : Own) (k : Kind) : Own :=
  if terminal p then (if k = .eos then match own with
    | .eos n => .eos (n + 1)
    | _ => .eos 1 else own)
  else if pOpc p = 0x2D then
    let (d, n) := match own with
      | .cnt a b => (a, b)
      | _ => (0, 0)
    if k = .bal then .cnt 0 n else if k = .eos then .cnt d (n + 1) else own
  else own

/-- Whether something of an element's own state still holds a non-data token back: TXQ's replies (R213), RECI's occupancy
(R207), and the tokens of a FIFO that stand before it (R212). -/
def holdsBack (p : Pattern) (e : Elem) : Bool :=
  match e.own with
  | .txq reqs => !reqs.isEmpty
  | .reci n => pOpc p = 0x24 && n ≠ 0
  | .fifo toks _ => !toks.isEmpty
  | _ => false

/-- An element consumes aligned non-data tokens of one kind and emits one, to both sides of FILT (R190, R205; log 89); `sink` tells
whether its delivery is a sink point. -/
def Elem.passMark (e : Elem) (p : Pattern) (t : Token) (plane : Option (BitVec 2)) (sink : Bool) : Elem :=
  let (toks, own) := if t.kind = .eos then flush p e else ([], e.own)
  let e1 := (alignedInputs p).foldl (fun e i => e.modInput i fun x => { x with latch := none }) e
  let e2 := { e1 with own := countMark p own t.kind, dirty := e.dirty && toks.isEmpty }
  let mark := controlToken t.kind t.sbx.toNat
  let e3 := if terminal p then e2 else e2.emit (toks ++ [mark]) (if pOpc p = 0x22 then some mark else none)
  if t.kind = .bal then { e3 with balSeq := e3.balSeq + 1, bals := e3.bals ++ [e3.latch (e3.balSeq + 1) sink] }
  else if t.kind = .round then { e3 with rounds := e3.rounds + 1, pendPlane := plane }
  else e3

/-- Move waiting tokens into free entries; a plane switch follows the ROUND that stands among them. -/
def Elem.drain (e : Elem) (k : Nat) (fuel : Nat) : Elem :=
  let e1 := e.place k fuel
  match e1.pend, e1.pendPlane, e1.fault with
  | [], some q, none => { e1 with pendPlane := none }.switch q
  | _, _, _ => e1

/-- Heads of the aligned inputs, when all hold a token (log 89). -/
def Elem.marks (e : Elem) (p : Pattern) : Option (List Token) :=
  (alignedInputs p).foldr (fun i acc => match acc, (e.input i).latch with
    | some l, some t => some (t :: l)
    | _, _ => none) (some [])

/-- A data-class token at one input that no firing can consume, or a non-data token where a firing must consume (R188). -/
def pacedError (p : Pattern) (e : Elem) : Bool :=
  let non (i : Nat) := (e.input i).latch.any fun t => !t.kind.dataClass && t.kind ≠ .ckpt
  let data (i : Nat) := (e.input i).latch.any fun t => t.kind.dataClass
  let others (i : Nat) := (streams p).filter (· ≠ i)
  let paced (i : Nat) := !(others i).isEmpty && (others i).all non && data i
  match pOpc p with
  | 0x30 => pSel p 2 ≠ 0 && streamSel (pSel p 2) && paced 2
  | 0x27 => paced 1
  | 0x39 => paced 0 || (non 0 && data 1)
  | 0x15 => paced 1 || (match e.own with
      | .lut tab => tab.length < 256
      | _ => true) && non 1 && data 0
  | _ => false

/-- The data-class kind that an input expects (R186). -/
def expected (p : Pattern) (i : Nat) : Kind :=
  if (pOpc p = 0x32 && i = 0) || (pOpc p = 0x30 && i = 2) then .state else if pOpc p = 0x27 && i = 1 then .scale else .data

/-- Whether a stream input holds a token of another data-class kind than it expects (R186). -/
def wrongKind (p : Pattern) (e : Elem) : Bool :=
  (streams p).any fun i => (e.input i).latch.any fun t => t.kind.dataClass && t.kind ≠ expected p i

/-- One alignment at an element of a moving thicket: a non-data token at a held input is discarded, tokens of one kind pass, and
tokens of different kinds raise a region error. CKPT is left to the marker events. -/
def Thicket.align (x : Thicket) (k : Nat) : Thicket :=
  match x.elem k with
  | none => x
  | some e =>
    let p := e.pat
    if !x.moves || e.fault.isSome || !e.pend.isEmpty || e.pendPlane.isSome || e.recording x.marking || e.saved || pOpc p = 0 then x
    else if wrongKind p e then x.regionError k false
    else match (streams p).find? fun i => heldInput p i && (e.input i).latch.any fun t => !t.kind.dataClass with
      | some i => x.modElem k fun e => e.modInput i fun n => { n with latch := none }
      | none =>
        match e.marks p with
        | none => if pacedError p e then x.regionError k false else x
        | some [] => x
        | some (t :: ts) =>
          if (t :: ts).any (fun u => u.kind.dataClass) then (if pacedError p e then x.regionError k false else x)
          else if (t :: ts).any (fun u => u.kind = .ckpt) || holdsBack p e || !(terminal p || e.room k) then x
          else if ts.any fun u => u.kind ≠ t.kind then x.regionError k false
          else if cntFails p e t then x.regionError k true
          else
            let plane := if t.kind = .round then x.roundPlanes[e.rounds]? else none
            let x1 := if t.kind = .eos then { x with disc := x.disc + rowRest p e } else x
            ((x1.modElem k fun e => (e.passMark p t plane (x.sinkDelivery k p)).drain k 64).settle).settleRounds

/-! ## Links (R284–R286) -/

/-- Whether a sink port has a consumer queued: a STRM.OUT, an STK, an MMA that reads it, or an edge element (R210, R286; log 75). -/
def Task.fetches (tk : Task) (n : Nat) : Bool :=
  if tk.edgeReads n then (tk.snk (BitVec.ofNat 4 n)).fifo.isEmpty
  else ((tk.portCmd true n).any fun c => c.bytes ≠ 0 && c.acked = 0) ||
  (tk.fills.any fun f => f.src == .stk (BitVec.ofNat 4 n)) || (tk.mmaOn n).isSome

/-- An element sends a request over an input's link, or over its delivery (3) (R285, R286, R369). -/
def Task.request (tk : Task) (t : BitVec 2) (k i : Nat) : Task :=
  let x := tk.th t
  match x.elem k with
  | none => tk
  | some e =>
    if !x.moves || (pOpc e.pat = 0 && i ≠ 3) then tk
    else if i = 3 then
      let open_ (n : Nat) := if keyClass k ≠ 0 then (tk.src (BitVec.ofNat 4 n)).edge.isEmpty else 16 ≤ n || tk.fetches n
      match e.sinks.find? fun n => !e.snkReq.contains n && open_ n with
      | some n => tk.modTh t fun x => x.modElem k fun e => { e with snkReq := e.snkReq ++ [n] }
      | none => tk
    else
      let n := e.input i
      let wants := if e.recording x.marking then !n.ckpt && !(e.saved && i ≠ 1) else n.latch.isNone && n.chan.isEmpty && !e.saved
      if streamSel (e.sel i) && !n.req && wants then
        tk.modTh t fun x => x.modElem k fun e => e.modInput i fun n => { n with req := true }
      else tk

/-- A token that answers a request, with the state after it leaves its producer. -/
inductive Supply where
  | got (s : State) (t : Token)
  | other (s : State)
  | none

/-- What the producer of an input's link gives to it: a neighbour's oldest entry, a source port's head, or a sink port's
token (R183, R210, R284). -/
def State.supply (s : State) (t m : Nat) (th : BitVec 2) (k i : Nat) : Supply :=
  match s.task t m with
  | none => .none
  | some (_, tk) =>
    let x := tk.th th
    match x.elem k with
    | none => .none
    | some e =>
      let sel := e.sel i
      if 1 ≤ sel ∧ sel ≤ 4 then
        match neighbour x.w x.h k (selDir sel) with
        | none => .none
        | some q =>
          match (x.elem q).bind fun pe => pe.give ((selDir sel + 2) % 4 + 1) with
          | none => .none
          | some (tok, pe) => .got (s.modTask t m fun tk => tk.modTh th fun x => x.modElem q fun _ => pe) tok
      else if 32 ≤ sel ∧ sel ≤ 47 then
        let n : BitVec 4 := BitVec.ofNat 4 sel
        let give (s : State) : Supply :=
          match s.task t m with
          | none => .none
          | some (_, tk) =>
            match tk.portHead n with
            | none => .other s
            | some (tok, ks) =>
              if ks.contains (inputKey th.toNat k i) then
                .got (s.modTask t m fun tk => tk.modSrc n fun p =>
                  { p with cur := some (tok, ks.filter (· ≠ inputKey th.toNat k i)) })
                  (if tok.kind = .eos && !tk.edgeFed n.toNat then
                    { tok with sbx := BitVec.ofNat 32 ((tk.src n).phase th.toNat).since } else tok)
              else .other s
        if (tk.portHead n).isSome then give s
        else match s.drawSource t m n with
          | .ok s1 _ _ => give s1
          | .stall s1 => .other s1
          | .wait => .none
      else if 16 ≤ sel ∧ sel ≤ 31 then
        let n : BitVec 4 := BitVec.ofNat 4 sel
        match (tk.snk n).fifo with
        | [] => .none
        | tok :: rest => .got (s.modTask t m fun tk => tk.modSnk n fun p => { p with fifo := rest }) tok
      else .none

/-- One lane of an accumulator delivery (R214): the sum and whether an INT32 clamp changed it. -/
def accLane (f : Nat) (x v : Nat) : BitVec 32 × Bool :=
  if f = 10 then
    let u := signedOf 32 x + signedOf 32 v
    (BitVec.ofNat 32 (wrapOf 32 (satSigned 32 u)), satSigned 32 u ≠ u)
  else (BitVec.ofNat 32 (roundNum 1 0 false (numAdd false (decodeNum 1 x) (decodeNum 1 v))), false)

/-- Delivery of a token to an accumulator (R214). -/
def Acc.deliver (x : Acc) (f : Nat) (t : Token) : Acc :=
  let rs := tabulate 16 fun i => if t.vmask.getLsbD i then accLane f (x.lanes.getD i 0).toNat (t.val 32 i) else (x.lanes.getD i 0, false)
  { x with lanes := rs.map (·.1), sat := x.sat || rs.any (·.2), poison := x.poison || t.poison }

/-- Change accumulator n. -/
def Task.modAcc (tk : Task) (n : BitVec 4) (f : Acc → Acc) : Task :=
  { tk with fa := tk.fa.set n.toFin (f (tk.fa.get n.toFin)) n.toFin.isLt }

/-- An entry reaches its port or accumulator (R210, R214, R282, R359, R368). -/
def State.deliver (s : State) (t m : Nat) (th : BitVec 2) (k : Nat) (ent : Entry) : State :=
  match s.task t m with
  | none => s
  | some (_, tk) =>
    let p := ent.pat
    let tok := ent.tok
    let n : BitVec 4 := BitVec.ofNat 4 (pSsel p)
    if keyClass k ≠ 0 then s.modTask t m fun tk => tk.modSrc n fun q => { q with edge := q.edge ++ [tok] }
    else if pSsel p < 16 && tk.edgeReads n.toNat then
      s.modTask t m fun tk => tk.modSnk n fun q => { q with fifo := q.fifo ++ [tok] }
    else
      let mark (tk : Task) : Task := tk.modTh th fun x =>
        { x.modElem k (fun e =>
            if tok.kind = .eos then { e with snkEos := 16 ≤ pSsel p || (tk.mmaOn n.toNat).isNone }
            else if tok.kind = .bal then { e with bals := latchSink (tk.sinkLatch e (pSsel p)) e.bals }
            else e) with firstOut := if tok.kind.dataClass && x.firstOut.isNone then some s.clk else x.firstOut }
      let take (tk : Task) : Task :=
        if 16 ≤ pSsel p then
          if tok.kind = .data then tk.modAcc n fun f => f.deliver (pFmt p) tok else tk
        else if tok.kind.dataClass || tok.kind = .eos then
          let tk1 := tk.modSnk n fun q => q.accept tok
          match tk.mmaOn n.toNat with
          | none => tk1
          | some c => tk1.modCmd 8 c.num fun c => { c with started := true }
        else tk
      let s1 := s.modTask t m fun tk => (mark (take tk)).modTh th fun x => x.settle.settleRounds
      if pSsel p < 16 then s1.drainFo t m n ((tk.snk n).fifo.length + 2) else s1

/-- A token crosses a link (R285): into the latch of an input, or out of an element's buffer to its port (3). Tokens recorded at a
save are delivered first (R369); a COMPLETE thicket lets what comes go (R214). -/
def State.transfer (s : State) (t m : Nat) (th : BitVec 2) (k i : Nat) : State :=
  match s.task t m with
  | none => s
  | some (_, tk) =>
    let x := tk.th th
    match x.elem k with
    | none => s
    | some e =>
      if x.st = .complete then
        if i < 3 && 32 ≤ e.sel i && e.sel i < 48 then
          match s.drawSource t m (BitVec.ofNat 4 (e.sel i)) with
          | .ok s1 _ _ => s1
          | .stall s1 => s1
          | .wait => s
        else s
      else if !x.moves then s
      else if i = 3 then
        match e.snkReq.find? fun n => (e.giveSink n).isSome with
        | none => s
        | some n =>
          match e.giveSink n with
          | none => s
          | some (ent, out) =>
            (s.modTask t m fun tk => tk.modTh th fun x => x.modElem k fun e =>
              { e with out := out, snkReq := e.snkReq.filter (· ≠ n) }).deliver t m th k ent
      else if e.recording x.marking || e.saved || (e.input i).latch.isSome then s
      else match (e.input i).chan with
        | tok :: rest =>
          s.modTask t m fun tk => tk.modTh th fun x => x.modElem k fun e =>
            e.modInput i fun n => { n with latch := some tok, chan := rest }
        | [] =>
          if !(e.input i).req then s
          else match s.supply t m th k i with
            | .none => s
            | .other s1 => s1
            | .got s1 tok =>
              s1.modTask t m fun tk => tk.modTh th fun x => { x.modElem k (fun e =>
                e.modInput i fun n => { n with latch := some tok, req := false }) with
                  lastIn := if 32 ≤ e.sel i && tok.kind.dataClass then s1.clk else x.lastIn }

/-- A token that arrives at a recording element becomes channel state; a CKPT goes to an empty latch (R369). -/
def State.record (s : State) (t m : Nat) (th : BitVec 2) (k i : Nat) : State :=
  match s.task t m with
  | none => s
  | some (_, tk) =>
    let x := tk.th th
    match x.elem k with
    | none => s
    | some e =>
      let n := e.input i
      if !x.moves || !e.recording x.marking || n.ckpt || !n.req || !streamSel (e.sel i) then s
      else match s.supply t m th k i with
        | .none => s
        | .other s1 => s1
        | .got s1 tok =>
          s1.modTask t m fun tk => tk.modTh th fun x => { x.modElem k (fun e => e.modInput i fun n =>
            if tok.kind = .ckpt && n.latch.isNone && n.chan.isEmpty then { n with latch := some tok, req := false }
            else { n with chan := n.chan ++ [tok], req := false }) with
              lastIn := if 32 ≤ e.sel i && tok.kind.dataClass then s1.clk else x.lastIn }

/-! ## Firing (R186, R192) -/

/-- What a firing sees of its core. -/
def Task.fireEnv (tk : Task) (carve : Carve) (k : Nat) (e : Elem) (fresh : Nat) : FireEnv :=
  { room := e.room k,
    acc := fun n =>
      let f := tk.fa.get (BitVec.ofNat 4 n).toFin
      { plainToken with payload := payloadOf 32 (f.lanes.map (·.toNat)), poison := f.poison },
    read := fun off =>
      let r := tk.spadBytes carve off 4
      some (BitVec.ofNat 32 (leNat r.1), r.2),
    fresh := fresh }

/-- Write the words of a firing into the scratchpad (R212). -/
def Task.fireWrites (tk : Task) (carve : Carve) (bad : Bool) : List (Nat × BitVec 32) → Task
  | [] => tk
  | (off, w) :: ws => (tk.spadPut carve bad off (leBytes 4 w.toNat)).fireWrites carve bad ws

/-- The element after a firing: inputs consumed, tokens produced, state and poison kept. -/
def Elem.apply (e : Elem) (k : Nat) (clk : Word) (x : Fired) : Elem :=
  let opc := pOpc e.pat
  let take (b : Bool) (i : Input) : Input := if b then { i with latch := none } else i
  let keepA := opc = 0x21 && x.hold
  let e1 := { e with a := take (x.takes.1 && !keepA) e.a, b := take x.takes.2.1 e.b, c := take x.takes.2.2 e.c, own := x.own,
                     bank := x.bank, held := x.held, dirty := x.dirty, since := some clk }
  (e1.emit x.out x.alt).place k 2

/-- LEAV's credit lowers RECI's occupancy (R207). -/
def Elem.credit (e : Elem) : Elem :=
  match e.own with
  | .reci n => { e with own := .reci (n - 1) }
  | _ => e

/-- The changes that a firing makes to its task; what a terminal element takes has reached a sink (R214, R331). -/
def Task.fired (tk : Task) (carve : Carve) (th : BitVec 2) (k : Nat) (clk : Word) (p : Pattern) (x : Fired) : Task :=
  let tk1 := tk.modTh th fun y => { y.modElem k (fun e => e.apply k clk x) with
    disc := y.disc + x.disc, firstOut := if terminal p && y.firstOut.isNone then some clk else y.firstOut }
  let tk2 := tk1.fireWrites carve (pOpc p = 0x2A && x.hold) x.spad
  if pOpc p = 0x25 && x.hold then tk2.modTh th fun y => y.modElem (pK p % 64) Elem.credit else tk2

/-- A firing of an element is drawn for sampling, and marked; it entered its Input wait as the one before it was done (R328; log 42). -/
def Cur.glintFire (c : Cur) (s : State) (th : BitVec 2) (k opc : Nat) : State :=
  if c.task.regs.glintK = 0 || !s.inWindow c.team then s
  else
    let (s1, marked) := s.drawGlint c.task.regs.glintK
    if marked then
      let x := c.task.th th
      s1.addGlint c.team c.task.core 1 0 (((x.elem k).bind (·.since)).getD x.loadEnd) c.task.regs.seq ((x.site th k).toNat / 256 * 256) opc
    else s1

/-- One firing of the element at a place of the focused task's thicket, by its function (R186, R188, R192, R369). A token that
awaits an output entry goes first. -/
def fireElem (s : State) (th : BitVec 2) (pl : Place) (opc : Nat) (f : FireEnv → Pattern → Elem → Fire) : Out :=
  withCur s fun c =>
    let k := placeKey pl
    let x := c.task.th th
    match x.elem k with
    | none => .next s
    | some e =>
      let p := e.pat
      if !x.moves || pOpc p ≠ opc || e.fault.isSome then .next s
      else if !e.pend.isEmpty || e.pendPlane.isSome then
        .next (c.put s (c.task.modTh th fun x => x.modElem k fun e => e.drain k 1))
      else if e.saved || e.recording x.marking then .next s
      else if wrongKind p e || pacedError p e then .next (c.put s (c.task.modTh th fun x => x.regionError k false))
      else if !(e.room k || terminal p || (opc = 0x2A && pMode p = 0)) then .next s
      else match f (c.task.fireEnv c.team.carve k e s.fresh) p e with
        | .idle => .next s
        | .region imb => .next (c.put s (c.task.modTh th fun x => x.regionError k imb))
        | .fault cause lanes addr =>
          let tk := c.task.modTh th fun x => x.modElem k fun e =>
            { e with fault := some { cause := cause, lanes := lanes, addr := addr, delivered := false } }
          .next (c.put s (tk.addCause { cause := cause, detail := x.site th k, taddr := addr, tval := lanes.setWidth 64 }))
        | .go y =>
          let s1 := if (opc = 0x0A || opc = 0x0B || opc = 0x0C) && y.hold then s.tick else s
          .next (c.put (c.glintFire s1 th k opc) (c.task.fired c.team.carve th k s.clk p y))

/-! ## Rewinding and containment (R360, R361, R365, R366) -/

/-- Inputs of thicket t leave the token at a port's head. -/
def SrcPort.leaveHead (p : SrcPort) (t : Nat) : SrcPort :=
  { p with cur := p.cur.map fun x => (x.1, x.2.filter fun k => k / 512 ≠ t), inject := p.inject.filter fun x => x.1 ≠ t }

/-- Whether a source port serves the phase that a thicket now has, or has served it (log 112). -/
def Task.inPhase (tk : Task) (t : BitVec 2) (n : Nat) : Bool :=
  (tk.src (BitVec.ofNat 4 n)).phases.any fun h => h.1 = t.toNat && h.2.num = (tk.th t).num

/-- The source ports that serve streams to a thicket's phase, now or since a balance point (R360, R366; log 112). -/
def Task.phasePorts (tk : Task) (t : BitVec 2) : List Nat :=
  (List.range 16).filter fun n => tk.inPhase t n && !(tk.th t).feeds n

/-- The ports between a thicket's PEs and its edge elements lose their tokens (R210, R360). -/
def Task.dropEdges (tk : Task) (t : BitVec 2) : Task :=
  let q := (tk.th t).edgePorts
  q.2.foldl (fun tk n => tk.modSnk (BitVec.ofNat 4 n) fun p => { p with fifo := [] })
    (q.1.foldl (fun tk n => tk.modSrc (BitVec.ofNat 4 n) fun p => { p.leaveHead t.toNat with edge := [] }) tk)

/-- Position of a port at a balance point of a phase (R359): as noted; its start when it delivered its first token later; else, when it
serves the phase no more, where it stands (log 112). -/
def PortPhase.at_ (h : PortPhase) (now c : Nat) : Nat :=
  match mapGet c h.posAt with
  | some q => q
  | none => match h.fromSeq with
    | none => h.start
    | some f => if c ≤ f then h.start else now

/-- A source port goes back to a token number for thicket t: what it still holds from there on is delivered once more (R360, R366).
`seq` is the balance point restored. -/
def SrcPort.rewind (p : SrcPort) (t tag n seq : Nat) : SrcPort :=
  let k := max n p.base - p.base
  let again := p.replay.drop k
  let before := (p.replay.take k).getLast?
  (p.leaveHead t).modPhase t fun h =>
    { h with back := again.length, since := 0, balSeq := seq, eos := false,
             rounds := h.rounds - (again.filter fun x => x.1 = tag).length,
             tail := n = h.start || before.all fun x => x.2.tail || !x.2.kind.dataClass,
             fromSeq := if n = h.start then none else h.fromSeq, posAt := h.posAt.filter fun q => q.1 ≤ seq }

/-- Rewind the source ports of a killed phase to its first token (R366): the task, and the tokens not replayed. -/
def Task.rewindKilled (tk : Task) (t : BitVec 2) : Task × Nat :=
  (tk.phasePorts t).foldl (fun (acc : Task × Nat) n =>
    let v : BitVec 4 := BitVec.ofNat 4 n
    let p := acc.1.src v
    let start := (p.phase t.toNat).start
    (acc.1.modSrc v fun p => p.rewind t.toNat (tk.phaseTag t.toNat) start 0, acc.2 + (p.base - start))) (tk, 0)

/-- Whether every source port still holds all tokens since the checked balance point (R360). -/
def Task.holdsSince (tk : Task) (t : BitVec 2) : Bool :=
  (tk.phasePorts t).all fun n =>
    let p := tk.src (BitVec.ofNat 4 n)
    p.base ≤ (p.phase t.toNat).at_ (p.positionOf t.toNat) (tk.th t).checked

/-- An element restored from its latch of a balance point (log 92). -/
def Elem.restore (e : Elem) (seq : Nat) : Elem :=
  match e.bals.find? fun b => b.seq = seq with
  | none => { e.cleared with fault := none, pendPlane := none, saved := false }
  | some b =>
    { e.cleared with active := b.active, rounds := b.rounds, own := b.own, kept := b.kept, bank := b.bank, held := b.held,
                     dirty := b.dirty, fault := none, pendPlane := none, saved := false, balSeq := seq,
                     snkEos := (b.snk.map (·.eos)).getD e.snkEos,
                     bals := e.bals.filter fun c => c.seq ≤ seq }

/-- The sink side of a restored element: accumulator lanes, or the byte position of the STRM.OUT with its waiting tokens. What
STK and MMA have taken since stays taken, and those tokens are dropped as they come again (log 63). -/
def Task.restoreSink (tk : Task) (x : Thicket) (e : Elem) : Task :=
  match e.bals.find? fun b => b.seq = x.checked with
  | none => tk
  | some b =>
    match b.snk with
    | none => tk
    | some l =>
      let n := pSsel ({ e with active := b.active }).pat
      let v : BitVec 4 := BitVec.ofNat 4 n
      if 16 ≤ n then tk.modAcc v fun f => { f with lanes := l.acc, sat := l.sat, poison := l.bad }
      else
        let tk1 := tk.modSnk v fun q =>
          { q with fifo := l.fifo.drop (q.taken - l.taken), skip := q.taken - l.taken - l.fifo.length }
        match tk1.portCmd true n with
        | none => tk1
        | some c => tk1.modCmd 14 c.num fun c => { c with pos := l.pos, acked := 0 }

/-- Restore the checked balance point of a thicket (R360): tokens discarded and counted, latched states restored, ports rewound;
`inject` stands first at every port (log 92). -/
def Task.restorePoint (tk : Task) (t : BitVec 2) (inject : List Token) : Task :=
  let x := tk.th t
  let tk1 := x.elems.foldl (fun tk e => tk.restoreSink x e.2) tk
  let tk2 := (tk.phasePorts t).foldl (fun tk n => tk.modSrc (BitVec.ofNat 4 n) fun p =>
    let at_ := (p.phase t.toNat).at_ (p.positionOf t.toNat) x.checked
    let q := p.rewind t.toNat (tk.phaseTag t.toNat) at_ x.checked
    { q with inject := q.inject ++ inject.map fun y => (t.toNat, y) }) tk1
  let tk3 := tk2.dropEdges t
  let gone (c : Cause) : Bool := x.elems.any fun (e : Nat × Elem) => e.2.fault.any fun (f : ElemFault) =>
    !f.delivered && f.cause = c.cause && x.site t e.1 = c.detail
  let tk4 : Task := { tk3 with causes := tk3.causes.filter fun c => !gone c }
  tk4.modTh t fun x =>
    { x with elems := x.elems.map (fun e => (e.1, e.2.restore x.checked)), disc := x.disc + tk.inThicket x, err := none }

/-- The sequence number of the failing BAL, or the element's row and column (R362; log 20). -/
def Thicket.errVal (x : Thicket) (k : Nat) (imbalance : Bool) : Nat :=
  if imbalance then ((x.elem k).map (·.balSeq + 1)).getD 0
  else if keyClass k = 0 then (x.y0 + k / 8) * 8 + (x.x0 + k % 8) else k % 8

/-- The REGION cause of a thicket (R362). -/
def regionCause (t : BitVec 2) (sub : Nat) (tval : Nat) : Cause :=
  { cause := 10, detail := BitVec.ofNat 16 (t.toNat * 2 ^ 14 + sub), taddr := 0, tval := BitVec.ofNat 64 tval }

/-- REGION_CONTAINMENT answers a region error: flush and replay from the checked balance point, or escalation to the REGION
trap (R360, R361). -/
def execRegionContainment (t : BitVec 2) (s : State) : Out :=
  withCur s fun c =>
    let x := c.task.th t
    match x.err with
    | none => .next s
    | some (k, imb) =>
      if x.st ≠ .running || x.stopped then .next s
      else if x.lastFix ≠ some x.checked && c.task.holdsSince t then
        let inject := if x.marking then [controlToken .ckpt 0] else []
        let tk := (c.task.restorePoint t inject).modTh t fun x => { (x.event 2) with lastFix := some x.checked }
        .next ((c.put s tk).modLaunch c.team.launch fun l => { l with corrected := true })
      else
        let sub := if x.lastFix = some x.checked then 4 else if imb then 2 else 3
        let tk := (c.task.modTh t fun x => { x with stopped := true }).addCause (regionCause t sub (x.errVal k imb))
        .next ((c.put s tk).modLaunch c.team.launch fun l => { l with tainted := true })

end Sys2Proof.Machine
end

