-- ==== Sys2Proof/Machine/Elements.lean ====
section
/-! DEFINITION. The 45 element operations that fire (R195–R223); NONE does nothing (R215). -/

namespace Sys2Proof.Machine

/-- A VADD element fires (R195). -/
def execVadd (t : BitVec 2) (p : Place) (s : State) : Out := fireElem s t p 0x01 fireVadd
/-- A VSUB element fires (R195). -/
def execVsub (t : BitVec 2) (p : Place) (s : State) : Out := fireElem s t p 0x02 fireVsub
/-- A VMUL element fires (R195). -/
def execVmul (t : BitVec 2) (p : Place) (s : State) : Out := fireElem s t p 0x03 fireVmul
/-- A VFMA element fires (R195). -/
def execVfma (t : BitVec 2) (p : Place) (s : State) : Out := fireElem s t p 0x04 fireVfma
/-- A VFMS element fires (R195). -/
def execVfms (t : BitVec 2) (p : Place) (s : State) : Out := fireElem s t p 0x05 fireVfms
/-- A VMIN element fires (R195). -/
def execVmin (t : BitVec 2) (p : Place) (s : State) : Out := fireElem s t p 0x06 fireVmin
/-- A VMAX element fires (R195). -/
def execVmax (t : BitVec 2) (p : Place) (s : State) : Out := fireElem s t p 0x07 fireVmax
/-- A VABS element fires (R195). -/
def execVabs (t : BitVec 2) (p : Place) (s : State) : Out := fireElem s t p 0x08 fireVabs
/-- A VNEG element fires (R195). -/
def execVneg (t : BitVec 2) (p : Place) (s : State) : Out := fireElem s t p 0x09 fireVneg
/-- A VCVT element fires (R198). -/
def execVcvt (t : BitVec 2) (p : Place) (s : State) : Out := fireElem s t p 0x0A fireVcvt
/-- A VQNT element fires (R199). -/
def execVqnt (t : BitVec 2) (p : Place) (s : State) : Out := fireElem s t p 0x0B fireVqnt
/-- A VDQN element fires (R199). -/
def execVdqn (t : BitVec 2) (p : Place) (s : State) : Out := fireElem s t p 0x0C fireVdqn
/-- A VAND element fires (R196). -/
def execVand (t : BitVec 2) (p : Place) (s : State) : Out := fireElem s t p 0x0D fireVand
/-- A VOR element fires (R196). -/
def execVor (t : BitVec 2) (p : Place) (s : State) : Out := fireElem s t p 0x0E fireVor
/-- A VXOR element fires (R196). -/
def execVxor (t : BitVec 2) (p : Place) (s : State) : Out := fireElem s t p 0x0F fireVxor
/-- A VSHL element fires (R196). -/
def execVshl (t : BitVec 2) (p : Place) (s : State) : Out := fireElem s t p 0x10 fireVshl
/-- A VSHR element fires (R196). -/
def execVshr (t : BitVec 2) (p : Place) (s : State) : Out := fireElem s t p 0x11 fireVshr
/-- A VSAR element fires (R196). -/
def execVsar (t : BitVec 2) (p : Place) (s : State) : Out := fireElem s t p 0x12 fireVsar
/-- A VCMP element fires (R197). -/
def execVcmp (t : BitVec 2) (p : Place) (s : State) : Out := fireElem s t p 0x13 fireVcmp
/-- A VSEL element fires (R197). -/
def execVsel (t : BitVec 2) (p : Place) (s : State) : Out := fireElem s t p 0x14 fireVsel
/-- A VCLP element fires (R197). -/
def execVclp (t : BitVec 2) (p : Place) (s : State) : Out := fireElem s t p 0x19 fireVclp
/-- A VLUT element fires (R200). -/
def execVlut (t : BitVec 2) (p : Place) (s : State) : Out := fireElem s t p 0x15 fireVlut
/-- A VRED element fires (R201). -/
def execVred (t : BitVec 2) (p : Place) (s : State) : Out := fireElem s t p 0x16 fireVred
/-- A VSCN element fires (R202). -/
def execVscn (t : BitVec 2) (p : Place) (s : State) : Out := fireElem s t p 0x17 fireVscn
/-- A VRNG element fires (R203). -/
def execVrng (t : BitVec 2) (p : Place) (s : State) : Out := fireElem s t p 0x18 fireVrng
/-- A PASS element fires (R204). -/
def execPass (t : BitVec 2) (p : Place) (s : State) : Out := fireElem s t p 0x20 firePass
/-- A DUP element fires (R204). -/
def execDup (t : BitVec 2) (p : Place) (s : State) : Out := fireElem s t p 0x21 fireDup
/-- A HOLD element fires (R204). -/
def execHold (t : BitVec 2) (p : Place) (s : State) : Out := fireElem s t p 0x26 fireHold
/-- A FILT element fires (R205). -/
def execFilt (t : BitVec 2) (p : Place) (s : State) : Out := fireElem s t p 0x22 fireFilt
/-- A JOIN element fires (R206). -/
def execJoin (t : BitVec 2) (p : Place) (s : State) : Out := fireElem s t p 0x23 fireJoin
/-- A RECI element fires (R207). -/
def execReci (t : BitVec 2) (p : Place) (s : State) : Out := fireElem s t p 0x24 fireReci
/-- A LEAV element fires (R207). -/
def execLeav (t : BitVec 2) (p : Place) (s : State) : Out := fireElem s t p 0x25 fireLeav
/-- A RATE element fires (R208). -/
def execRate (t : BitVec 2) (p : Place) (s : State) : Out := fireElem s t p 0x27 fireRate
/-- A CTRN element fires (R209). -/
def execCtrn (t : BitVec 2) (p : Place) (s : State) : Out := fireElem s t p 0x28 fireCtrn
/-- A SWIN element fires (R211). -/
def execSwin (t : BitVec 2) (p : Place) (s : State) : Out := fireElem s t p 0x29 fireSwin
/-- A SPAD element fires (R212). -/
def execSpad (t : BitVec 2) (p : Place) (s : State) : Out := fireElem s t p 0x2A fireSpad
/-- A TXQ element fires (R213). -/
def execTxq (t : BitVec 2) (p : Place) (s : State) : Out := fireElem s t p 0x2B fireTxq
/-- A SINK element fires (R215). -/
def execSink (t : BitVec 2) (p : Place) (s : State) : Out := fireElem s t p 0x2C fireSink
/-- A CNT element fires (R216). -/
def execCnt (t : BitVec 2) (p : Place) (s : State) : Out := fireElem s t p 0x2D fireCnt
/-- A DDAI element fires (R219, R220). -/
def execDdai (t : BitVec 2) (p : Place) (s : State) : Out := fireElem s t p 0x30 fireDdai
/-- A DDAL element fires (R220). -/
def execDdal (t : BitVec 2) (p : Place) (s : State) : Out := fireElem s t p 0x31 fireDdal
/-- A DDAO element fires (R220). -/
def execDdao (t : BitVec 2) (p : Place) (s : State) : Out := fireElem s t p 0x32 fireDdao
/-- A INCS element fires (R221). -/
def execIncs (t : BitVec 2) (p : Place) (s : State) : Out := fireElem s t p 0x33 fireIncs
/-- A LREC element fires (R222). -/
def execLrec (t : BitVec 2) (p : Place) (s : State) : Out := fireElem s t p 0x38 fireLrec
/-- A TSEL element fires (R223). -/
def execTsel (t : BitVec 2) (p : Place) (s : State) : Out := fireElem s t p 0x39 fireTsel

/-- The firing function of an opcode. -/
def fireBy (opc : Nat) : FireEnv → Pattern → Elem → Fire :=
  match opc with
  | 0x01 => fireVadd
  | 0x02 => fireVsub
  | 0x03 => fireVmul
  | 0x04 => fireVfma
  | 0x05 => fireVfms
  | 0x06 => fireVmin
  | 0x07 => fireVmax
  | 0x08 => fireVabs
  | 0x09 => fireVneg
  | 0x0A => fireVcvt
  | 0x0B => fireVqnt
  | 0x0C => fireVdqn
  | 0x0D => fireVand
  | 0x0E => fireVor
  | 0x0F => fireVxor
  | 0x10 => fireVshl
  | 0x11 => fireVshr
  | 0x12 => fireVsar
  | 0x13 => fireVcmp
  | 0x14 => fireVsel
  | 0x19 => fireVclp
  | 0x15 => fireVlut
  | 0x16 => fireVred
  | 0x17 => fireVscn
  | 0x18 => fireVrng
  | 0x20 => firePass
  | 0x21 => fireDup
  | 0x26 => fireHold
  | 0x22 => fireFilt
  | 0x23 => fireJoin
  | 0x24 => fireReci
  | 0x25 => fireLeav
  | 0x27 => fireRate
  | 0x28 => fireCtrn
  | 0x29 => fireSwin
  | 0x2A => fireSpad
  | 0x2B => fireTxq
  | 0x2C => fireSink
  | 0x2D => fireCnt
  | 0x30 => fireDdai
  | 0x31 => fireDdal
  | 0x32 => fireDdao
  | 0x33 => fireIncs
  | 0x38 => fireLrec
  | 0x39 => fireTsel
  | _ => fun _ _ _ => .idle

end Sys2Proof.Machine
end

