-- ==== Sys2Proof/Machine/Flow.lean ====
section
/-! DEFINITION. Control flow and system instructions (R125–R131, R148, R181), and the words that no instruction has. -/

namespace Sys2Proof.Machine

/-- Size of a task's program region (R126). -/
def Cur.regionSize (c : Cur) : Nat := c.team.carve.prog * Config.granule

/-- A transfer of control to t, checked by R126: a target outside the region traps ILL 0x0003 with the branch's word. -/
def Cur.transfer (c : Cur) (s : State) (t : Int) (w : BitVec 32) (go : Nat → Regs) : Out :=
  if 0 ≤ t ∧ t < c.regionSize then .next (c.putRegs s (go t.toNat)) else c.ill s 3 w

/-- BR: taken if p[n] XOR neg; a poisoned predicate is consumed (R125, R129, R387). -/
def execBr (p : Pred) (n : Bool) (d : BitVec 22) (s : State) : Out :=
  issue s (fun _ => .ok) fun c =>
    let r := c.task.regs
    if r.badPred p then .next (c.consumeAddr s)
    else if r.pred p ^^ n then
      c.transfer s (branchTarget r.pc d.toInt) (wordOf (.br p n d)) fun t => r.jump t true
    else .next (c.putRegs s (r.advance 4))

/-- JMP (R125, R129). -/
def execJmp (d : BitVec 22) (s : State) : Out :=
  issue s (fun _ => .ok) fun c =>
    let r := c.task.regs
    c.transfer s (branchTarget r.pc d.toInt) (wordOf (.jmp d)) fun t => r.jump t true

/-- JAL writes its link and never pops a loop (R125, R129). It waits for its destination before its target is checked (log 141). -/
def execJal (rd : Reg) (d : BitVec 20) (s : State) : Out :=
  issue s (fun r => r.dst rd) fun c =>
    let r := c.task.regs
    c.transfer s (branchTarget r.pc d.toInt) (wordOf (.jal rd d)) fun t =>
      (r.write rd (BitVec.ofNat 64 (r.pc + 4)) false).jump t false

/-- A transfer to a register's value: poison is consumed, a misaligned target traps ALIGN with the target in %tval
(R126, R387). -/
def Cur.transferReg (c : Cur) (s : State) (a : Reg) (w : BitVec 32) (pops : Bool) : Out :=
  let r := c.task.regs
  let t := r.val a
  if r.bad a then .next (c.consumeAddr s)
  else if t.toNat % 4 ≠ 0 then c.trapOffset s 3 0 (BitVec.ofNat 64 r.pc) t
  else c.transfer s t.toNat w fun t => r.jump t pops

/-- JR (R125, R126, R129). -/
def execJr (a : Reg) (e : Bool) (s : State) : Out :=
  issue s (fun r => r.src a e) fun c => c.transferReg s a (wordOf (.jr a e)) true

/-- RET transfers to g57 and never pops a loop (R125, R129). -/
def execRet (s : State) : Out :=
  issue s (fun r => r.src 57 false) fun c => c.transferReg s 57 (wordOf .ret) false

/-- LOOP (R127, R130): the count is latched; a count of 0 skips the body as a sequential advance. A LOOP in a handler is a word that
traps ILL, which waits for no operand (R100; log 129). -/
def execLoop (a : Reg) (e : Bool) (l : BitVec 13) (s : State) : Out :=
  issue s (fun r => if r.handler then .ok else r.src a e) fun c =>
    let r := c.task.regs
    let n := (r.val a).toNat % 2 ^ 32
    let stop := r.pc + 4 + 4 * l.toNat
    if r.handler then c.ill s 2 (wordOf (.loop a e l))
    else if r.bad a then .next (c.consumeAddr s)
    else if n = 0 then .next (c.putRegs s (r.seqTo stop))
    else if 4 ≤ r.loops.length then c.ill s 2 (wordOf (.loop a e l))
    else .next (c.putRegs s { r with loops := { start := r.pc + 4, stop := stop, left := n } :: r.loops, pc := r.pc + 4 })

/-- NOP (R135). -/
def execNop (s : State) : Out := issue s (fun _ => .ok) fun c => .next (c.putRegs s (c.task.regs.advance 4))

/-- TRAP n takes the software cause (R181, R353; log 80). -/
def execTrap (n : BitVec 6) (s : State) : Out :=
  issue s (fun _ => .ok) fun c => c.trapAt s 14 (c.task.regs.pc + 4) 0 0 (n.setWidth 64)

/-- A partition comes to a debug stop (R330) and raises vector 5 (R408; log 106). -/
def State.debugStop (s : State) (vf : Nat) : State :=
  (s.modPart vf fun p => { p with dbg := { p.dbg with stopReq := true } }).raise vf 5

/-- What a partition's snapshot registers would latch now (R332; log 116). -/
def State.capture (s : State) (vf : Nat) (p : Part) : Snapshot :=
  let mine (t : Nat) : Bool := (mapGet t s.teams).any fun tm => tm.vf = vf
  { clk := s.clk, teams := s.teams.filter fun t => t.2.vf = vf, launches := s.launches.filter fun l => l.2.vf = vf, regs := p.regs,
    queues := p.queues, heaps := p.heaps, amoos := s.amoos.filter (fun x => mine x.team), egress := p.egress, log := p.log, tlb := p.tlb,
    stalls := p.stalls, waitingRecs := p.waitingRecs, recs := p.recs, stencils := p.stencils, poisonW := p.poisonW, desc := p.desc,
    wstore := p.wstore, faultSeq := p.faultSeq, occs := p.occs, dbg := p.dbg.toDebugRegs, irqs := p.irqs, awaitAck := p.awaitAck,
    rollbacks := p.rollbacks, swaps := p.swaps, waits := s.waits, swapAt := s.swapAt, swapTicks := s.swapTicks, mem := s.mem,
    poisonMem := s.poisonMem, prev := s.prev, loose := s.loose,
    pemaps := p.desc.sprigs.flatMap fun x => tabulate 4 fun i => (4 * x.toNat + i, s.peMap (4 * x.toNat + i)) }

/-- A partition's snapshot trigger fires: its registers latch what stands, and hold it until the trigger is armed again (R332). -/
def State.snapshot (s : State) (vf : Nat) : State :=
  (s.modPart vf fun p => { p with dbg := { p.dbg with latched := p.dbg.latched.or (some (s.capture vf p)), snapBrk := false,
                                                      snapRegion := false } }).raise vf 5

/-- BRK n takes the BRK cause; with the partition's debug stop armed the core stops at the boundary after it instead (R181,
R330); with a snapshot armed the trigger fires (R332; log 80). -/
def execBrk (n : BitVec 6) (s : State) : Out :=
  issue s (fun _ => .ok) fun c =>
    match s.part c.team.vf with
    | none => c.trapAt s 12 (c.task.regs.pc + 4) 0 0 (n.setWidth 64)
    | some p =>
      let s := if p.dbg.snapBrk then s.snapshot c.team.vf else s
      if p.dbg.armed then
        .next ((c.putRegs s (c.task.regs.advance 4)).debugStop c.team.vf)
      else c.trapAt s 12 (c.task.regs.pc + 4) 0 0 (n.setWidth 64)

/-- The value of a special register (R35–R40). -/
def Cur.special (c : Cur) (s : State) (n : Nat) : Word :=
  let r := c.task.regs
  match n with
  | 0 => c.team.wid
  | 1 => r.ts
  | 2 => r.seq
  | 3 => c.task.retry
  | 4 => c.team.size.setWidth 64
  | 5 => BitVec.ofNat 64 c.mem
  | 6 => BitVec.ofNat 64 c.task.core
  | 7 => BitVec.ofNat 64 c.team.vf
  | 8 => BitVec.ofNat 64 (s.rin % 2 ^ 48)
  | 9 => s.clk
  | 10 => BitVec.ofNat 64 (s.clk.toNat % 65536 + 65536 * (s.clk.toNat % 65536 / 2048))
  | 11 => r.dgs
  | 12 => r.tcause
  | 13 => r.taddr
  | 14 => r.tval
  | 15 => r.epc
  | 16 => r.tvec
  | _ => 0

/-- Whether a special register holds poison (R387). -/
def Regs.specialBad (r : Regs) (n : Nat) : Bool := r.poisonSr.getLsbD n

/-- MFS reads any special register at issue (R35). -/
def execMfs (d : Reg) (n : BitVec 6) (s : State) : Out :=
  issue s (fun r => r.dst d) fun c =>
    if 16 < n.toNat then c.ill s 2 (wordOf (.mfs d n))
    else
      .next (c.putRegs s ((c.task.regs.write d (c.special s n.toNat) (c.task.regs.specialBad n.toNat)).advance 4))

/-- MTS writes %epc bits [21:2] or %tvec bits [21:6]; any other number traps ILL (R35, R39). -/
def execMts (a : Reg) (e : Bool) (n : BitVec 6) (s : State) : Out :=
  issue s (fun r => if n.toNat = 15 ∨ n.toNat = 16 then r.src a e else .ok) fun c =>
    let r := c.task.regs
    let v := (r.val a).toNat
    if n.toNat = 15 then
      .next (c.putRegs s ({ r with epc := BitVec.ofNat 64 (v % 2 ^ 22 / 4 * 4), poisonSr := setBit r.poisonSr 15 (r.bad a) }.advance 4))
    else if n.toNat = 16 then
      .next (c.putRegs s ({ r with tvec := BitVec.ofNat 64 (v % 2 ^ 22 / 64 * 64), poisonSr := setBit r.poisonSr 16 (r.bad a) }.advance 4))
    else if 16 < n.toNat then c.ill s 2 (wordOf (.mts a e n))
    else c.ill s 4 (wordOf (.mts a e n))

/-- GLNT sets glint sampling (R181): k from 8 to 20, any other value turns it off (0). -/
def execGlnt (a : Reg) (e : Bool) (s : State) : Out :=
  issue s (fun r => r.src a e) fun c =>
    let r := c.task.regs
    let k := (r.val a).toNat % 32
    .next (c.putRegs s ({ r with glintK := if 8 ≤ k ∧ k ≤ 20 then k else 0, glintMark := bitAt (r.val a).toNat 8 }.advance 4))

/-- DGST adds the digest word of g[a]; reads its destination (R181). -/
def execDgst (d a : Reg) (e : Bool) (s : State) : Out :=
  issueWrite s 4 d (fun r => (r.dstRead d).then (r.src a e))
    (fun r => r.val d + shakeWord (leBytes 8 (r.val a).toNat)) fun r => r.bad d || r.bad a

/-- Exchange commands that a FENCE waits for (R148). -/
def Task.exchangePending (t : Task) : Bool :=
  (t.timeline 9).cmds.any (fun c => c.kind == .pxst) || t.appends.any fun a => a.cmd.kind == .pxst

/-- Whether an XWR of a core stands in a hold queue, not yet performed at SYSTEM scope (R148, R156). -/
def Cur.held (c : Cur) (s : State) : Bool := (s.part c.team.vf).any fun p => p.egress.any fun x => x.core = c.task.core

/-- FENCE waits in place until the core's earlier free accesses are performed at the scope (R148). They are performed as they issue, but
an exchange still under way, and at SYSTEM scope an XWR in its hold queue (log 8). -/
def fence (s : State) (system : Bool) : Out :=
  issue s (fun _ => .ok) fun c =>
    if c.task.exchangePending || (system && c.held s) then .next s else .next (c.putRegs s (c.task.regs.advance 4))

/-- FENCE.CORE (R148). -/
def execFenceCore (s : State) : Out := fence s false
/-- FENCE.TEAM (R148). -/
def execFenceTeam (s : State) : Out := fence s false
/-- FENCE.DEVICE (R148). -/
def execFenceDevice (s : State) : Out := fence s false
/-- FENCE.SYSTEM (R148). -/
def execFenceSystem (s : State) : Out := fence s true

/-- A word that no instruction has traps ILL with the detail that decoding found (R88, R100, R101; log 80). -/
def execUnassignedWord (w : BitVec 32) (detail : BitVec 16) (s : State) : Out :=
  issue s (fun _ => .ok) fun c => c.ill s detail w

/-- A fetch at or past the end of the program region traps ILL 0x0003 (R102); there is no word to put into %tval, so it is
a free value (log 14). -/
def fetchPastEnd (s : State) : Out :=
  withCur s fun c => c.trap s.tick 1 3 (BitVec.ofNat 64 c.task.regs.pc) (Config.freeWord s.fresh)

end Sys2Proof.Machine
end

