-- ==== Sys2Proof/Machine/Segment.lean ====
section
/-! DEFINITION. Timestamps, aborts and status of segments, seals, irrevocable writes, sync words and waits in place
(R150–R162). -/

namespace Sys2Proof.Machine

/-- TSET sets the member's %ts (R150). -/
def execTset (a : Reg) (e : Bool) (s : State) : Out :=
  issue s (fun r => r.src a e) fun c =>
    let r := c.task.regs
    .next (c.putRegs s ({ r with ts := r.val a, poisonSr := setBit r.poisonSr 1 (r.bad a) }.advance 4))

/-- ABRT aborts the team's open segment; the members then return to its snapshot (R153, R267). -/
def execAbrt (s : State) : Out :=
  issue s (fun _ => .ok) fun c => .next (s.flagAbort c.tid c.team.openSeq)

/-- The value that a TSRD selector reads (R154, R396). -/
def Cur.tsrd (c : Cur) (s : State) (v : Nat) : Word :=
  if v = 0 then
    match s.frontier c.team.launch with
    | none => BitVec.allOnes 64
    | some t => BitVec.ofNat 64 t
  else if v = 1 then BitVec.ofNat 64 c.team.segs.length
  else if v = 2 then BitVec.ofNat 64 c.team.committed
  else if v = 3 then
    BitVec.ofNat 64 (b2n c.team.lastLate +
      2 * b2n (s.amoos.any fun x => x.team == c.tid && x.seq == c.team.openSeq && !x.applied))
  else BitVec.allOnes 64

/-- TSRD reads segment status as a fill (R154). -/
def execTsrd (d a : Reg) (e : Bool) (s : State) : Out :=
  issue s (fun r => (r.dst d).then (r.src a e)) fun c =>
    let r := c.task.regs
    .next (c.put s (c.task.pend d (.value (c.tsrd s (r.val a).toNat) (r.bad a))).past)

/-- SEAL requests a seal of the open interval and writes its number at issue (R155). -/
def execSeal (d : Reg) (s : State) : Out :=
  issue s (fun r => r.dst d) fun c =>
    .next ((c.putRegs s ((c.task.regs.write d (BitVec.ofNat 64 s.rin) false).advance 4)).requestSeal)

/-- SEALW waits until every interval up to its target is sealed; a waiting member notes its target (R155, R384, R386). -/
def execSealw (a : Reg) (e : Bool) (s : State) : Out :=
  issue s (fun r => r.src a e) fun c =>
    let t := (c.task.regs.val a).toNat % 2 ^ 48
    if t ≤ s.sealed then .next (c.put s { c.task with arrived := none }.past)
    else .next (c.put s { c.task with arrived := some (.sealw t) })

/-- XWR puts a translated write into the egress hold queue with the open interval's number; poisoned data is consumed at
issue; a full queue holds it (R156, R387, R395). -/
def execXwr (t a : Reg) (e : Bool) (sz : BitVec 1) (o : BitVec 9) (s : State) : Out :=
  issue s (fun r => (r.src a e).then (r.src t e)) fun c =>
    let n := if sz = 0 then 4 else 8
    let va := (effAddr (c.task.regs.val a) o n).toNat
    c.access s (c.task.regs.bad a) va n .aperture fun s1 pg =>
      if c.task.regs.bad t then .next (s1.consume (coreEndpoint c.task.core) 1 0)
      else match s1.part c.team.vf with
        | none => .next s1
        | some p =>
          if Config.egressSize ≤ p.egress.length then .next s1
          else
            let x : Xwr := { peer := if pg.kind = 2 then some (bitsOf pg.leaf.toNat 63 56) else none, addr := pg.pa va,
                             wide := n = 8, data := BitVec.ofNat 64 ((c.task.regs.val t).toNat % 2 ^ (8 * n)), rin := s1.rin,
                             core := c.task.core }
            .next ((s1.modPart c.team.vf fun p => { p with egress := p.egress ++ [x] }).modCur Task.past)

/-- SYARM sets the target, clears count and flag, and leaves the generation (R159). -/
def execSyarm (a b : Reg) (e f : Bool) (s : State) : Out :=
  issue s (fun r => (r.src a e).then (r.src b f)) fun c =>
    let r := c.task.regs
    let off := (r.val a).toNat
    c.spadAccess s (r.bad a) off 16 16 <|
      .next (s.modTeam c.tid fun tm => (tm.noteSync c.mem off).modMember c.mem fun tk =>
        (((tk.spadPut tm.carve (r.bad b) off (leBytes 4 (r.val b).toNat)).spadPut tm.carve false (off + 4) (leBytes 4 0)).spadPut
          tm.carve false (off + 12) (leBytes 4 0)).past)

/-- The focused task's wait ends: it acquires the writes of the commands that the wait covers, and goes on (R160–R162, R275). -/
def Cur.acquired (c : Cur) (s : State) (covers : CmdTag → Bool) : Out :=
  .next ((s.modTeam c.tid fun tm => tm.acquire c.mem covers).modCur Task.past)

/-- A wait on a sync word until its generation differs from a value; it covers the bytes that the word has counted in a generation that has
passed (R160; log 115). -/
def syncWait (c : Cur) (s : State) (a : Reg) (gen : Nat) : Out :=
  let off := (c.task.regs.val a).toNat
  c.spadAccess s (c.task.regs.bad a) off 16 16 <|
    if c.task.spadLE c.team.carve (off + 8) 4 = gen then .next s else c.acquired s fun x => x.passed && x.sync == some off

/-- SYWAIT, register form (R160). -/
def execSywait (a b : Reg) (e f : Bool) (s : State) : Out :=
  issue s (fun r => (r.src a e).then (r.src b f)) fun c => syncWait c s a ((c.task.regs.val b).toNat % 2 ^ 32)

/-- SYWAIT, immediate form (R95, R160): the 13-bit generation is zero-extended. -/
def execSywaitImm (a : Reg) (e : Bool) (g : BitVec 13) (s : State) : Out :=
  issue s (fun r => r.src a e) fun c => syncWait c s a g.toNat

/-- TLWAIT waits until the counter reaches the target, and covers the commands up to it (R161). -/
def execTlwait (n : BitVec 4) (a : Reg) (e : Bool) (s : State) : Out :=
  issue s (fun r => r.src a e) fun c =>
    let target := c.task.regs.val a
    if (c.task.timeline n).count.ult target then .next s
    else c.acquired s fun x => x.tl == n.toNat && decide (x.num ≤ target.toNat)

/-- MWAIT waits until a committed uint64 is at least g[b], tested at its issue and at every write to the line; it covers the commands that
have added to the counter (R162; log 115). -/
def execMwait (a b : Reg) (e f : Bool) (s : State) : Out :=
  issue s (fun r => (r.src a e).then (r.src b f)) fun c =>
    let va := (c.task.regs.val a).toNat
    let target := (c.task.regs.val b).toNat
    c.access s (c.task.regs.bad a) va 8 .read fun s1 pg =>
      let s2 := (s1.inject c.team.vf (pg.pa va)).1
      if target ≤ s2.pageLE pg va 8 || s2.waitMet (.task c.tid c.mem) then
        c.acquired (s2.leaveWait c.tid c.mem) fun x => x.added && x.ctr == some va
      else .next (s2.enterWait (.task c.tid c.mem) (pg.pa va) target)

end Sys2Proof.Machine
end

