-- ==== Sys2Proof/Machine/FabricCtl.lean ====
section
/-! DEFINITION. Fabric control instructions and the events of a thicket's region controller (R174–R179, R193, R214, R216,
R279–R288, R355, R364–R369). -/

namespace Sys2Proof.Machine

/-! ## Configuration (R111, R175, R176, R279) -/

/-- Whether a thicket holds the element with an absolute key: PEs by 8·row + column of the core, edge elements after them, with those
of a plane that an accepted CFSW is still filling. -/
def Thicket.holds (x : Thicket) (k : Nat) : Bool :=
  x.st ≠ .idle &&
    if k < 64 then x.x0 ≤ k % 8 && k % 8 < x.x0 + x.w && x.y0 ≤ k / 8 && k / 8 < x.y0 + x.h
    else x.elems.any (fun e => e.1 = k) || x.loading.any fun l => l.2.1.any fun q => q.1 = k

/-- Source ports of a thicket's planes, with the one that an accepted CFSW is still filling (R41). -/
def Thicket.claimedPorts (x : Thicket) : List Nat :=
  distinct (x.planePorts ++ x.loading.toList.flatMap fun l => l.2.1.flatMap fun q => readsFi q.2)

/-- Absolute keys that a block at an origin covers: its PEs and the edge elements that it claims. -/
def Block.cells (b : Block) : List Nat :=
  ((List.range b.h).flatMap fun j => tabulate b.w fun i => 8 * (b.y0 + j) + b.x0 + i) ++
  ((List.range 2).filter fun n => bitAt b.edge n).map (64 + ·) ++
  ((List.range 2).filter fun n => bitAt b.edge (2 + n)).map (72 + ·) ++
  ((List.range 4).filter fun n => bitAt b.edge (4 + n)).map (80 + ·)

/-- The thickets of a core other than t. -/
def Task.otherThickets (tk : Task) (t : BitVec 2) : List (BitVec 2 × Thicket) :=
  ((List.range 4).map fun i => (BitVec.ofNat 2 i, tk.th (BitVec.ofNat 2 i))).filter fun x => x.1 ≠ t

/-- The thickets that a CFG takes over (R279): COMPLETE ones that lose an element. -/
def Task.takenOver (tk : Task) (t : BitVec 2) (cells : List Nat) : List (BitVec 2) :=
  ((tk.otherThickets t).filter fun x => x.2.st = .complete && cells.any x.2.holds).map (·.1)

/-- What validation knows of the core (R111): `gone` names the thickets taken over, `base` placements that stay. -/
def Cur.cfgEnv (c : Cur) (s : State) (t : BitVec 2) (cfsw : Option Nat) (x0 y0 : Nat) (gone : List (BitVec 2))
    (base : List Placed) : CfgEnv :=
  let others := (c.task.otherThickets t).filter fun x => x.2.st ≠ .idle && !gone.contains x.1
  let map := s.peMap c.task.core
  { cfsw := cfsw, x0 := x0, y0 := y0,
    held := fun k => others.any (fun x => x.2.holds k) || (k < 64 && !map.getLsbD k),
    ports := distinct (base.flatMap (fun q => readsFi q.pat) ++ others.flatMap fun x => x.2.claimedPorts),
    replay := c.team.carve.replay, spadLimit := c.team.carve.spad, base := base }

/-- Whether a pattern sets SIG.FAIR (R186, R246). -/
def fairPattern (p : Pattern) : Bool :=
  (pOpc p = 0x23 && pMode p = 1) || pOpc p = 0x24 || [0, 1, 2].any fun i => 48 ≤ pSel p i

/-- Set SIG.FAIR when one of the patterns asks for it. -/
def Task.markFair (tk : Task) (ps : List Pattern) : Task :=
  if ps.any fairPattern then { tk with mxe := { tk.mxe with sig := setBit tk.mxe.sig 58 true } } else tk

/-- An element as CFG loads it: its patterns by plane. -/
def Elem.load (pats : List (Nat × Pattern)) (active : BitVec 2) : Elem :=
  { pats := pats, active := active, a := Input.empty, b := Input.empty, c := Input.empty, out := [], pend := [],
    snkReq := [], snkEos := false, held := none, dirty := false, bank := zeroBank, own := .none, kept := [], fault := none,
    pendPlane := none, rounds := 0, saved := false, balSeq := 0, bals := [], since := none }

/-- The planes that a block fills. -/
def Block.planeList (b : Block) : List Nat := (List.range 4).filter fun n => bitAt b.planes n

/-- The elements of a block: every PE and claimed edge element, with NONE where no rectangle covers it (R109). -/
def Block.elems (b : Block) (ps : List Placed) : List (Nat × Elem) :=
  let keys := (b.cells.map fun k => if k < 64 then 8 * (k / 8 - b.y0) + k % 8 - b.x0 else k)
  let active := BitVec.ofNat 2 (b.planeList.headD 0)
  keys.foldl (fun m k => mapSet k (Elem.load (b.planeList.map fun n =>
    (n, ((ps.find? fun q => q.key = k && q.plane = n).map (·.pat)).getD nonePattern)) active) m) []

/-- A source port starts to serve phase `num` of thicket t. What a killed phase has it deliver once more goes to this one (R366); `live`
names the other thickets that it serves. -/
def SrcPort.startPhase (p : SrcPort) (t num : Nat) (live : List Nat) : SrcPort :=
  let q := p.leaveHead t
  let (stay, dead) := q.phases.partition fun h => h.1 ≠ t && live.contains h.1
  let back := (dead.map fun h => h.2.back).foldl max 0
  { q with edge := if live.isEmpty then [] else q.edge,
           phases := mapSet t (PortPhase.begin_ (p.position - back) back num) stay }

/-- Source port n of a task starts to serve a phase of thicket t. -/
def Task.startPort (tk : Task) (t : BitVec 2) (n : Nat) : Task :=
  let live := ((tk.otherThickets t).filter fun x => x.2.st ≠ .idle && x.2.planePorts.contains n).map fun x => x.1.toNat
  tk.modSrc (BitVec.ofNat 4 n) fun p => p.startPhase t.toNat (tk.th t).num live

/-- Thicket t goes (R175): its tokens are counted, its number passes, its ports rewind (R366), and its log entry is written. -/
def State.killThicket (s : State) (c : Cur) (t : BitVec 2) : State :=
  match s.task c.tid c.mem with
  | none => s
  | some (tm, tk) =>
    let x := tk.th t
    if x.st = .idle then s
    else
      let (tk1, lost) := tk.rewindKilled t
      let y := { (x.event 3) with disc := x.disc + tk.inThicket x + lost }
      let tk2 := (if x.st = .complete then tk1 else tk1.complete (10 + t.setWidth 4) x.num).dropEdges t
      let ports := distinct ((x.elems.filter fun e => keyClass e.1 = 0 && pSnk e.2.pat && pSsel e.2.pat < 16).map fun e => pSsel e.2.pat)
      let tk3 := ports.foldl (fun (tk : Task) n => tk.modSnk (BitVec.ofNat 4 n) fun p => { p with skip := 0 }) tk2
      let s1 := (s.modTask c.tid c.mem fun _ => tk3.modTh t fun _ => Thicket.start)
      let s2 := s1.modPart tm.vf fun p => p.dropStalls fun z => z.txq && z.team = c.tid && z.member = c.mem && z.num / 4 = t.toNat
      if x.st = .complete then s2 else s2.regionLog tm tk.core t.toNat y

/-- Load a validated block into thicket t (R98, R175, R279, R280): the thicket takes the next number, which gd receives. -/
def Task.loadThicket (tk : Task) (t : BitVec 2) (d : Reg) (b : Block) (ps : List Placed) (gone : List (BitVec 2)) (clk : Word) :
    Task :=
  let tk0 := gone.foldl (fun tk u => tk.modTh u fun _ => Thicket.start) tk
  let tl := 10 + t.setWidth 4
  let num := (tk0.timeline tl).issued + 1
  let tk1 := tk0.modTl tl fun x => { x with issued := num }
  let x : Thicket :=
    { Thicket.start with st := .loading, x0 := b.x0, y0 := b.y0, w := b.w, h := b.h,
                         active := BitVec.ofNat 2 (b.planeList.headD 0), elems := b.elems ps, num := num.toNat, cfgClk := clk,
                         load := 8 + ceilDiv b.len 128 + b.npat }
  let tk2 := (tk1.modTh t fun _ => x).markFair (ps.map (·.pat))
  let tk3 := x.planePorts.foldl (fun tk n => tk.startPort t n) tk2
  { tk3 with regs := (tk3.regs.write d num false).advance 4 }

/-- CFG and CFG.KILL (R111, R175); a poisoned byte of the block is consumed (R387; log 79). A block whose rectangles pass faults too when a PE
of its area that none covers is held or mapped out, or an edge element that it claims and none covers is held; %tval is then a free value
(log 22). -/
def cfgThicket (d a : Reg) (e : Bool) (t : BitVec 2) (kill : Bool) (s : State) : Out :=
  issue s (fun r => (r.dst d).then (r.src a e)) fun c =>
    let off := (c.task.regs.val a).toNat
    let pc := BitVec.ofNat 64 c.task.regs.pc
    let fault (s : State) (detail : Nat) (tval : Word) : Out := c.trap s 1 (BitVec.ofNat 16 detail) pc tval
    let x := c.task.th t
    if c.task.regs.bad a then .next (c.consumeAddr s)
    else if off % 16 ≠ 0 then fault s 0x15 0
    else if !kill && (x.st = .loading || x.st = .running || x.st = .saved) then fault s 0x14 0
    else
      let b := readBlock c.task.prog off
      let gone := c.task.takenOver t b.cells
      let env := c.cfgEnv s t none b.x0 b.y0 gone []
      if c.task.progBad off (max 16 b.len) then .next (c.consumeAddr s)
      else match validate b env off c.regionSize with
      | .error (detail, at_) => fault s detail (BitVec.ofNat 64 at_)
      | .ok ps =>
        if b.cells.any env.held then fault s.tick 0x14 (Config.freeWord s.fresh)
        else
          let s1 := if kill then s.killThicket c t else s
          .next (s1.modCur fun tk => tk.loadThicket t d b ps gone s.clk)

/-- CFG (R175; log 79). -/
def execCfg (d a : Reg) (e : Bool) (t : BitVec 2) (s : State) : Out := cfgThicket d a e t false s
/-- CFG.KILL (R175, R366): a block that fails validation discards nothing (log 23). -/
def execCfgKill (d a : Reg) (e : Bool) (t : BitVec 2) (s : State) : Out := cfgThicket d a e t true s

/-- The placements of a thicket in planes other than n. -/
def Thicket.placed (x : Thicket) (n : Nat) : List Placed :=
  x.elems.flatMap fun e => (e.2.pats.filter fun p => p.1 ≠ n).map fun p => { key := e.1, plane := p.1, pat := p.2, rect := 0 }

/-- CFSW validates a block, whose poison it consumes (R387; log 79), and starts to fill plane n (R111, R176, R193); it waits while another
plane of the thicket is being filled (log 24, log 128). The elements that switch at ERET are those stopped as it issues (log 156). -/
def execCfsw (a : Reg) (e : Bool) (n t : BitVec 2) (s : State) : Out :=
  issue s (fun r => r.src a e) fun c =>
    let off := (c.task.regs.val a).toNat
    let fault (detail : Nat) (tval : Nat) : Out :=
      c.trap s 1 (BitVec.ofNat 16 detail) (BitVec.ofNat 64 c.task.regs.pc) (BitVec.ofNat 64 tval)
    let x := c.task.th t
    if c.task.regs.bad a then .next (c.consumeAddr s)
    else if x.st = .idle || x.st = .saved || n = x.active then fault 0x17 0
    else if x.loading.isSome then .next s
    else
      let b := readBlock c.task.prog off
      if off % 16 ≠ 0 then fault 0x15 0
      else if b.w ≠ x.w then fault 0x16 2
      else if b.h ≠ x.h then fault 0x16 3
      else if c.task.progBad off (max 16 b.len) then .next (c.consumeAddr s)
      else
        match validate b (c.cfgEnv s t (some n.toNat) x.x0 x.y0 [] (x.placed n.toNat)) off c.regionSize with
        | .error (detail, at_) => fault detail at_
        | .ok ps =>
          let stopped := x.elems.any fun e => e.2.fault.isSome
          let tk := c.task.modTh t fun x =>
            { x with loading := some (n, ps.map fun q => (q.key, q.pat), stopped),
                     elems := x.elems.map fun e => (e.1, if e.2.fault.isSome then { e.2 with pendPlane := some n } else e.2) }
          .next (c.put s ((tk.markFair (ps.map (·.pat))).past))

/-- CFSW_PLANE_FILLED: plane n is written where it is inactive, and ports that it alone reads start to serve the phase; in a RUNNING
thicket whose ports have all still to deliver EOS each source port then has a ROUND to inject (R176, R193, R282; log 127). -/
def execCfswPlaneFilled (t : BitVec 2) (s : State) : Out :=
  withCur s fun c =>
    let x := c.task.th t
    match x.loading with
    | none => .next s
    | some (n, pats, noRound) =>
      if x.st = .loading || x.st = .saved then .next s
      else
        let fill (k : Nat) (e : Elem) : Elem :=
          if e.active = n then e else { e with pats := mapSet n.toNat ((mapGet k pats).getD nonePattern) e.pats }
        let more := pats.filter fun q => (x.elem q.1).isNone
        let elems := more.foldl (fun m q => mapSet q.1 (Elem.load [(n.toNat, q.2)] x.active) m)
          (x.elems.map fun e => (e.1, fill e.1 e.2))
        let round := x.st = .running && !noRound && x.sources.all fun p => !((c.task.src (BitVec.ofNat 4 p)).phase t.toNat).eos
        let tk := c.task.modTh t fun x =>
          { x with elems := elems, filled := setBit x.filled n.toNat true, loading := none,
                   roundPlanes := if round then x.roundPlanes ++ [n] else x.roundPlanes }
        let due := x.roundPlanes.length + b2n round
        let fresh := (tk.th t).planePorts.filter fun p => !c.task.inPhase t p
        .next (c.put s (fresh.foldl (fun tk p => (tk.startPort t p).modSrc (BitVec.ofNat 4 p) fun q =>
          q.modPhase t.toNat fun h => { h with rounds := due }) tk))

/-! ## Status and accumulators (R174, R177–R179) -/

/-- Code of a thicket state (R177). -/
def ThState.code : ThState → Nat
  | .idle => 0 | .loading => 1 | .running => 2 | .complete => 3 | .saved => 4

/-- The value that THST writes (R177). -/
def Task.thst (tk : Task) (t : BitVec 2) : Word :=
  let x := tk.th t
  let sat := packVals 1 (tabulate 16 fun i => b2n (tk.fa.get (BitVec.ofNat 4 i).toFin).sat)
  BitVec.ofNat 64 (sat * 2 ^ 32 + x.rounds % 65536 * 2 ^ 16 + x.filled.toNat * 2 ^ 8 + x.active.toNat * 2 ^ 6 + x.st.code)

/-- THST writes a thicket's status at issue (R177). -/
def execThst (d : Reg) (t : BitVec 2) (s : State) : Out :=
  issue s (fun r => r.dst d) fun c => .next (c.putRegs s ((c.task.regs.write d (c.task.thst t) false).advance 4))

/-- THWT waits until a thicket is IDLE, COMPLETE or SAVED (R178). -/
def execThwt (t : BitVec 2) (s : State) : Out :=
  issue s (fun _ => .ok) fun c =>
    let st := (c.task.th t).st
    if st = .loading || st = .running then .next s else .next (c.put s c.task.past)

/-- ACZ clears an accumulator's lanes, flag and cursor (R179). -/
def execAcz (n : BitVec 4) (s : State) : Out :=
  issue s (fun _ => .ok) fun c => .next (c.put s (c.task.modAcc n fun _ => Acc.start).past)

/-- ACRD returns two lanes as a fill and advances the cursor (R179). -/
def execAcrd (d : Reg) (n : BitVec 4) (s : State) : Out :=
  issue s (fun r => r.dst d) fun c =>
    let f := c.task.fa.get n.toFin
    let lane (i : Nat) := (f.lanes.getD i 0).toNat
    let v := BitVec.ofNat 64 (lane (2 * f.cursor + 1) * 2 ^ 32 + lane (2 * f.cursor))
    .next (c.put s (((c.task.modAcc n fun f => { f with cursor := (f.cursor + 1) % 8 }).pend d (.value v f.poison)).past))

/-- STK asks an fo port for 64 bits as a fill; the port gives them up even when the destination is g0 (R31, R174). -/
def execStk (d : Reg) (n : BitVec 4) (s : State) : Out :=
  issue s (fun r => r.dst d) fun c =>
    let tk : Task := { c.task with regs := c.task.regs.mark d .pending, fills := c.task.fills ++ [{ rd := d, src := .stk n }] }
    .next (c.put s tk.past)

/-- When the marker deadline began to run (R364): as it did if it runs for this save already, else now. -/
def Task.markSince (tk : Task) (clk : Word) (more : Bool) : Word :=
  match tk.markClk with
  | none => clk
  | some c => if more || (tk.thickets.toList.any fun x => x.marking) then c else clk

/-- Markers enter every source of a running thicket, those that only an inactive plane reads among them, once (R178, R363, R364, R368);
`more` tells that its core's save goes on. -/
def Task.mark (tk : Task) (clk : Word) (more : Bool) (t : BitVec 2) : Task :=
  let x := tk.th t
  if x.st ≠ .running || x.marking then tk
  else
    let tk := { tk with markClk := some (tk.markSince clk more) }
    x.markPorts.foldl (fun tk n => tk.modSrc (BitVec.ofNat 4 n) fun p => { p with inject := p.inject ++ [(t.toNat, controlToken .ckpt 0)] })
      (tk.modTh t fun x => { (x.event 4) with marking := true })

/-- The markers of a thicket that its save leaves at ports go (R369). -/
def Task.dropMarks (tk : Task) (t : BitVec 2) : Task :=
  { tk with fi := tk.fi.map fun p => { p with inject := p.inject.filter fun x => !(x.1 = t.toNat && x.2.kind = .ckpt) } }

/-- Markers enter the running thickets that have none of a task whose context is being saved (R363). -/
def Task.markAll (tk : Task) (clk : Word) : Task :=
  [0, 1, 2, 3].foldl (fun (tk : Task) i => tk.mark clk true (BitVec.ofNat 2 i)) tk

/-- A save of a task begins: its marker deadline runs from now, unless markers travel already (R364, R374). -/
def Task.beginMarks (tk : Task) (clk : Word) : Task :=
  (if tk.thickets.toList.any fun x => x.marking then tk else { tk with markClk := none }).markAll clk

/-- MRK (R178). -/
def execMrk (t : BitVec 2) (s : State) : Out := issue s (fun _ => .ok) fun c => .next (c.put s (c.task.mark s.clk false t).past)

/-! ## Return from a handler (R181, R192, R193, R355) -/

/-- Elements whose fault was delivered refire; stopped elements switch to the plane that a CFSW named. -/
def Elem.resume (e : Elem) : Elem :=
  match e.fault with
  | none => e
  | some f =>
    let e1 := match e.pendPlane with
      | none => e
      | some n => { e with pendPlane := none }.switch n
    if f.delivered then { e1 with fault := none } else e1

/-- Whether a stopped element waits for its plane to be filled (R193). -/
def Thicket.planeAwaited (x : Thicket) : Bool :=
  x.loading.isSome && x.elems.any fun e => e.2.fault.isSome && e.2.pendPlane.isSome

/-- ERET leaves the handler; outside one it traps ILL 0x0002; a poisoned %epc is consumed as an address (R181, R193, R355,
R387). A pc past the region traps at its fetch (R102). -/
def execEret (s : State) : Out :=
  issue s (fun _ => .ok) fun c =>
    let r := c.task.regs
    if !r.handler then c.ill s 2 (wordOf .eret)
    else if r.poisonSr.getLsbD 15 then .next (c.consumeAddr s)
    else if [0, 1, 2, 3].any fun t => (c.task.th (BitVec.ofNat 2 t)).planeAwaited then .next s
    else
      let tk := [0, 1, 2, 3].foldl (fun (tk : Task) t => tk.modTh (BitVec.ofNat 2 t) fun x =>
        { x with elems := x.elems.map fun e => (e.1, e.2.resume) }) c.task
      .next (c.put s { tk with regs := r.leave })

/-! ## Events of the region controller -/

/-- The planes that a thicket's elements hold. -/
def Thicket.planeMask (x : Thicket) : BitVec 4 :=
  x.elems.foldl (fun m e => e.2.pats.foldl (fun m p => setBit m p.1 true) m) 0

/-- THICKET_LOAD_COMPLETE: the planes are written and the thicket runs (R279); its phase start is balance point 0 (R359). -/
def execThicketLoadComplete (t : BitVec 2) (s : State) : Out :=
  withCur s fun c =>
    let x := c.task.th t
    if x.st ≠ .loading then .next s
    else
      let start (k : Nat) (e : Elem) : Elem :=
        let sink := x.sinkDelivery k e.pat
        { e with bals := [{ e.latch 0 sink with snk := if sink then some (c.task.sinkLatch e (pSsel e.pat)) else none }] }
      let tk := (c.task.phasePorts t).foldl (fun tk n => tk.modSrc (BitVec.ofNat 4 n) fun p =>
        p.modPhase t.toNat fun h => { h with start := p.position - h.back }) c.task
      .next (c.put s (tk.modTh t fun x =>
        { x with st := .running, filled := x.planeMask, loadEnd := s.clk, lastIn := s.clk,
                 elems := x.elems.map fun e => (e.1, start e.1 e.2) }))

/-- The MMA at the head of tl8 that a completing thicket feeds, once a value has come for it, gets no more (R240; log 68). -/
def Task.fedMma (tk : Task) (x : Thicket) : Task :=
  match (List.range 16).findSome? fun n => if x.elems.any (deliversTo n) then (tk.mmaOn n).map fun c => (n, c) else none with
  | none => tk
  | some (n, c) =>
    if c.started || (tk.snk (BitVec.ofNat 4 n)).fifo.any (fun y => y.kind = .data) then
      tk.modCmd 8 c.num fun y => { y with short := true }
    else tk

/-- THICKET_PHASE_COMPLETE: every sink point has counted its EOS (R214, R281); what the thicket still holds is discarded and
counted (log 25). -/
def execThicketPhaseComplete (t : BitVec 2) (s : State) : Out :=
  withCur s fun c =>
    let x := c.task.th t
    if !x.moves || x.incomplete ≠ 0 then .next s
    else
      let y := { x with st := .complete, disc := x.disc + c.task.inThicket x, marking := false,
                        elems := x.elems.map fun e => (e.1, e.2.cleared) }
      .next ((c.put s ((((c.task.fedMma x).dropEdges t).modTh t fun _ => y).complete (10 + t.setWidth 4) x.num)).regionLog c.team c.task.core t.toNat y)

/-- Whether a source port of a thicket may inject a marker now: it serves the phase's stream, has nothing at its head or to inject, and no
debug stop holds it (R282, R330). -/
def Cur.mayInject (c : Cur) (s : State) (t : BitVec 2) (n : BitVec 4) : Bool :=
  let x := c.task.th t
  let p := c.task.src n
  x.moves && x.sources.contains n.toNat && !(p.phase t.toNat).eos && (c.task.portHead n).isNone && p.inject.isEmpty &&
    !s.portHeld c.team c.task n

/-- ROUND_INJECT: a port injects a ROUND behind a record's end, of a stream that it delivers once more too (R282, R366). -/
def execRoundInject (t : BitVec 2) (n : BitVec 4) (s : State) : Out :=
  withCur s fun c =>
    let h := (c.task.src n).phase t.toNat
    if !c.mayInject s t n || !c.task.roundDue n t.toNat || !h.tail then .next s
    else .next (c.put s (c.task.modSrc n fun p => { p with inject := [(t.toNat, controlToken .round 0)] }))

/-- BALs that the elements taking a port's stream have passed; as the port counts when no aligned input takes it (log 112). -/
def Task.balsPassed (tk : Task) (n : BitVec 4) (t : Nat) : Nat :=
  let x := tk.th (BitVec.ofNat 2 t)
  (minOf (x.elems.filterMap fun e =>
    if (alignedInputs e.2.pat).any (fun i => pSel e.2.pat i = 32 + n.toNat) then some e.2.balSeq else none)).getD
    ((tk.src n).phase t).balSeq

/-- BAL_INJECT: a port injects a BAL after every I of its data tokens, and notes its position (R216, R359). -/
def execBalInject (t : BitVec 2) (n : BitVec 4) (s : State) : Out :=
  withCur s fun c =>
    if !c.mayInject s t n || !(c.task.th t).balDue ((c.task.src n).phase t.toNat) then .next s
    else
      let seq := c.task.balsPassed n t.toNat + 1
      .next (c.put s (c.task.modSrc n fun p =>
        { p.modPhase t.toNat (fun h =>
            { h with since := 0, balSeq := seq, posAt := mapSet seq (p.positionOf t.toNat) h.posAt }) with
          inject := [(t.toNat, controlToken .bal 0)] }))

/-- LINK_REQUEST (R285, R286). Input 3 is the element's delivery to its port or accumulator. -/
def execLinkRequest (t : BitVec 2) (p : Place) (i : BitVec 2) (s : State) : Out :=
  withCur s fun c => .next (c.put s (c.task.request t (placeKey p) i.toNat))

/-- LINK_TOKEN_TRANSFER (R284, R285). -/
def execLinkTokenTransfer (t : BitVec 2) (p : Place) (i : BitVec 2) (s : State) : Out :=
  withCur s fun c => .next (s.transfer c.tid c.mem t (placeKey p) i.toNat)

/-- NON_DATA_ALIGN (R188, R190). -/
def execNonDataAlign (t : BitVec 2) (p : Place) (s : State) : Out :=
  withCur s fun c => .next (c.put s (c.task.modTh t fun x => x.align (placeKey p)))

/-- ELEMENT_CKPT_RECORD (R190, R369). -/
def execElementCkptRecord (t : BitVec 2) (p : Place) (i : BitVec 2) (s : State) : Out :=
  withCur s fun c => .next (s.record c.tid c.mem t (placeKey p) i.toNat)

/-- Whether an element has its CKPT on every input that it waits for; RECI saves on its entry's (R207, R369). -/
def Elem.ckptReady (e : Elem) : Bool :=
  (streams e.pat).all fun i => (e.input i).ckpt || (pOpc e.pat = 0x24 && i = 1)

/-- Whether an element's part of the save is done. -/
def Elem.ckptDone (e : Elem) : Bool :=
  pOpc e.pat = 0 || (e.saved && (pOpc e.pat ≠ 0x24 || !streamSel (pSel e.pat 1) || e.b.ckpt))

/-- An input without its CKPT. -/
def Input.strip (i : Input) : Input :=
  { latch := if i.latch.any fun t => t.kind = .ckpt then none else i.latch, req := false,
    chan := i.chan.filter fun t => t.kind ≠ .ckpt }

/-- Whether a port or accumulator has still to accept an entry up to an element's CKPT (R369). An fo port with no consumer queued takes
none: the entries for it are saved (R224, R286; log 89). -/
def Task.ckptOwed (tk : Task) (k : Nat) (e : Elem) : Bool :=
  let takes (n : Nat) : Bool := keyClass k ≠ 0 || 16 ≤ n || tk.edgeReads n || tk.fetches n
  e.saved && (e.out ++ e.pend).any fun x => x.tok.kind = .ckpt && x.mask.getLsbD 0 && takes (pSsel x.pat)

/-- Entries without the CKPTs. -/
def dropCkpts (l : List Entry) : List Entry := l.filter fun x => x.tok.kind ≠ .ckpt

/-- An element of a SAVED thicket: markers and requests are gone (log 89). -/
def Elem.strip (e : Elem) : Elem :=
  { e with a := e.a.strip, b := e.b.strip, c := e.c.strip, snkReq := [], out := dropCkpts e.out, pend := dropCkpts e.pend }

/-- When every element has saved and no port or accumulator has a CKPT to take, the thicket is SAVED (R178, R369; log 89). -/
def Task.trySaved (tk : Task) (t : BitVec 2) : Task :=
  if (tk.th t).marking && (tk.th t).elems.all fun e => e.2.ckptDone && !tk.ckptOwed e.1 e.2 then
    (tk.modTh t fun x => { x with st := .saved, marking := false, elems := x.elems.map fun e => (e.1, e.2.strip) }).dropMarks t
  else tk

/-- An element's CKPT follows the entries of its output buffer: also the rest of its last firing, but not what CTRN has still to emit and
what TXQ has still to deliver, which are own state (R224, R369; log 89). -/
def Elem.emitCkpt (e : Elem) : Elem :=
  let m := controlToken .ckpt 0
  let marks := (({ e with pend := [] } : Elem).emit [m] (if pOpc e.pat = 0x22 || pOpc e.pat = 0x25 then some m else none)).pend
  match e.own with
  | .ctrn _ | .txq _ => { e with pend := marks ++ e.pend }
  | _ => { e with pend := e.pend ++ marks }

/-- An element saves and places one CKPT behind its entries, as soon as one is free (R224, R225, R369). -/
def Task.ckptSave (tk : Task) (t : BitVec 2) (k : Nat) : Task :=
  let x := tk.th t
  match x.elem k with
  | none => tk
  | some e =>
    if !x.moves || !x.marking || (!e.saved && !e.ckptReady) then tk
    else
      let save (e : Elem) : Elem :=
        if e.saved then e
        else
          let keepB := pOpc e.pat = 0x24
          let e1 := { e with a := e.a.strip, b := if keepB then e.b else e.b.strip, c := e.c.strip, saved := true }
          if terminal e.pat then e1 else e1.emitCkpt
      (tk.modTh t fun x => x.modElem k fun e => (save e).drain k 64).trySaved t

/-- ELEMENT_CKPT_SAVE: with the last element to save the thicket is SAVED (R178, R224, R369). -/
def execElementCkptSave (t : BitVec 2) (p : Place) (s : State) : Out :=
  withCur s fun c =>
    let tk := c.task.ckptSave t (placeKey p)
    let s1 := c.put s tk
    .next (if (tk.th t).st = .saved && (c.task.th t).st ≠ .saved then s1.regionLog c.team tk.core t.toNat (tk.th t) else s1)

/-! ## QUIESCE (R287) -/

/-- Whether an element of a thicket can still move by itself. -/
def State.elemMoves (s : State) (c : Cur) (t : BitVec 2) (k : Nat) (e : Elem) : Bool :=
  [0, 1, 2, 3].any (fun i => decide (s.transfer c.tid c.mem t k i ≠ s) || decide (c.task.request t k i ≠ c.task) ||
    decide (s.record c.tid c.mem t k i ≠ s)) ||
  decide (c.task.ckptSave t k ≠ c.task) || decide ((c.task.th t).align k ≠ c.task.th t) || wrongKind e.pat e || decide (e.drain k 1 ≠ e) ||
  (e.fault.isNone && e.pend.isEmpty && e.pendPlane.isNone && (e.room k || terminal e.pat || (pOpc e.pat = 0x2A && pMode e.pat = 0)) &&
    match fireBy (pOpc e.pat) (c.task.fireEnv c.team.carve k e s.fresh) e.pat e with
    | .idle => false
    | _ => true)

/-- Whether a source port of a thicket has a marker to inject (R216, R282). -/
def Cur.injects (c : Cur) (s : State) (t : BitVec 2) : Bool :=
  (c.task.th t).sources.any fun n =>
    let v : BitVec 4 := BitVec.ofNat 4 n
    c.mayInject s t v && c.task.markerDue v t.toNat

/-- Whether one of R287's conditions holds the count back: a source port with no command and no EOS, a sink port with no
consumer, a TXQ reply, a translation, a stopped element, or a ROUND that waits for its plane (log 90). -/
def Task.countHeld (tk : Task) (t : BitVec 2) (x : Thicket) : Bool :=
  x.loading.isSome ||
  (x.sources.any fun n => ((tk.portCmd false n).all fun c => c.stall.isSome) && !((tk.src (BitVec.ofNat 4 n)).phase t.toNat).eos) ||
  x.elems.any fun e =>
    (x.sinkDelivery e.1 e.2.pat && !e.2.snkEos && pSsel e.2.pat < 16 &&
      (!tk.fetches (pSsel e.2.pat) || (tk.portCmd true (pSsel e.2.pat)).any fun c => c.stall.isSome)) || e.2.fault.isSome ||
    match e.2.own with
    | .txq reqs => !reqs.isEmpty
    | _ => false

/-- Whether the region controller of a thicket counts (R287): it is RUNNING with a sink point incomplete, nothing moves, and no
condition holds the count back. A region error, a debug stop, and a QUIESCE that its handler has not answered hold it as well (log 90). -/
def Cur.counts (c : Cur) (s : State) (t : BitVec 2) : Bool :=
  let x := c.task.th t
  let pending := c.task.causes.any fun z => z.cause == 10 && z.detail.toNat / 2 ^ 14 == t.toNat
  x.st = .running && x.err.isNone && x.incomplete ≠ 0 && !(x.stopped && c.task.regs.handler) && !pending && !s.debugHeld c.team.vf &&
    !c.task.countHeld t x && (x.stopped || !(c.injects s t || x.elems.any fun e => s.elemMoves c t e.1 e.2))

/-- QUIESCE: the count starts with the cycle in which nothing moves any more and ends at a movement or a condition that holds it back; at
65,536 cycles the thicket stops and the core has REGION pending, and after the handler's return the count starts again (R287, R362; log 90). -/
def execQuiesce (t : BitVec 2) (s : State) : Out :=
  withCur s fun c =>
    let set (v : Option Word) : State := c.put s (c.task.modTh t fun x => { x with calm := v })
    match c.counts s t, (c.task.th t).calm with
    | false, none => .next s
    | false, some _ => .next (set none)
    | true, none => .next (set (some s.clk))
    | true, some k =>
      if (s.clk - k).toNat < Config.quiesceCycles then .next s
      else
        .next (c.put s ((c.task.modTh t fun x => { (x.event 0) with stopped := true, calm := none }).addCause
          (regionCause t 1 (c.task.th t).incomplete)))

/-- Whether the marker deadline of the focused core is over (R364): PRT_MKDL cycles since the markers entered (log 90). -/
def Cur.markerOver (c : Cur) (s : State) : Bool :=
  match c.task.markClk, s.part c.team.vf with
  | some since, some p => p.regs.mkdl ≤ s.clk.toNat - since.toNat
  | _, _ => false

/-- MARKER_DEADLINE_EXPIRE: at the deadline a thicket that is not SAVED is saved as its checked balance point, or empty with TIMEOUT:
at once for an MRK of the program, else at resumption, for which `marking` stays set (R364, R365; log 90). A region error that is not
answered yet is contained first (R367). -/
def execMarkerDeadlineExpire (t : BitVec 2) (s : State) : Out :=
  withCur s fun c =>
    let x := c.task.th t
    if x.st ≠ .running || !x.marking || !c.markerOver s || (x.err.isSome && !x.stopped) then .next s
    else
      let own := c.team.st = .running
      let keep := c.task.holdsSince t
      let gone := c.task.inThicket x
      let tk0 := if keep then
          (c.task.restorePoint t []).modTh t fun y =>
            { (y.event 3) with st := .saved, marking := false, err := if x.stopped then x.err else none }
        else
          (c.task.dropEdges t).modTh t fun x =>
            { (x.event 3) with st := .saved, marking := !own, emptied := some gone, disc := x.disc + gone, err := none,
                               stopped := false, elems := x.elems.map fun e => (e.1, e.2.cleared) }
      let tk := tk0.dropMarks t
      let cause : Cause :=
        { cause := 13, detail := BitVec.ofNat 16 (t.toNat * 2 ^ 14 + 1), taddr := 0, tval := BitVec.ofNat 64 gone }
      .next ((c.put s (if own && !keep then tk.addCause cause else tk)).regionLog c.team c.task.core t.toNat (tk.th t))

end Sys2Proof.Machine
end

