-- ==== Sys2Proof/Machine/Launch.lean ====
section
/-! DEFINITION. Launch headers and their acceptance (R45, R46, R298–R301, R323). -/

namespace Sys2Proof.Machine

/-- Whether a carve-out is valid (R20): at most 64 granules. -/
def Carve.ok (c : Carve) : Bool := c.prog + c.spad + c.replay + c.dcache ≤ 64

/-- Whether a carve-out's scratchpad covers every .sync offset of a kernel (R20). -/
def Carve.covers (c : Carve) (syncs : List (Nat × Nat)) : Bool := syncs.all fun x => x.1 < c.spad * Config.granule

/-- The .sync words of a kernel's image, by offset and target (R21), as its partition was given them with its images; an image without any
has none (log 43). -/
def State.kernelSyncs (s : State) (vf : Nat) (kptr : Word) (entry : Nat) : List (Nat × Nat) :=
  match s.part vf with
  | none => []
  | some p => ((p.desc.kernels.find? fun k => k.kptr = kptr && k.entry = entry).map (·.syncs)).getD []

/-- A carve-out from its packed counts (R163, R298). -/
def carveOf (v : Nat) : Carve :=
  { prog := bitsOf v 7 0, spad := bitsOf v 15 8, replay := bitsOf v 23 16, dcache := bitsOf v 31 24 }

/-- A little-endian field of a byte list. -/
def fieldLE (bs : List Byte) (off n : Nat) : Nat := leNat ((bs.drop off).take n)

/-- The key of a launch's header bytes (R323): without its TEAM and PRIO, and with DMODE and TRACE cleared in its flags. -/
def headerKey (bs : List Byte) : Word :=
  let flags := fieldLE bs 24 4
  shakeWord (bs.take 22 ++ [0, 0] ++ leBytes 4 (flags - bitsOf flags 2 1 * 2 - bitsOf flags 10 6 * 64) ++ (bs.drop 28).take 84)

/-- The header fields of 128 bytes, when they pass the limits of R298, R20, R45 and R46 (R299); `syncs` gives the .sync words of a
program image. -/
def parseHeader (bs : List Byte) (d : PartDesc) (syncs : Word → Nat → List (Nat × Nat)) : Option Header :=
  let kptr := fieldLE bs 0 8
  let entry := fieldLE bs 8 4
  let carve := carveOf (fieldLE bs 12 4)
  let raw := tabulate 6 fun i => fieldLE bs (16 + i) 1
  let widths := raw.takeWhile (· ≠ 0)
  let k := widths.length
  let team := fieldLE bs 22 1
  let prio := fieldLE bs 23 1
  let flags := fieldLE bs 24 4
  let stored := tabulate 6 fun i => fieldLE bs (32 + 8 * i) 8
  let wide := k = 1 && widths.headD 0 = 64
  let exts := (stored.take k).map fun e => if wide && e = 0 then 2 ^ 64 else e
  let depc := fieldLE bs 112 8
  let done := fieldLE bs 120 8
  if kptr % 65536 = 0 ∧ entry % 4 = 0 ∧ entry < carve.prog * Config.granule ∧ carve.ok ∧
      carve.covers (syncs (BitVec.ofNat 64 kptr) entry) ∧ k ≠ 0 ∧
      (raw.drop k).all (· = 0) ∧ widths.sum ≤ 64 ∧ team < 4 ∧ prio < 8 ∧ flags < 2 ^ 12 ∧
      bitsOf flags 4 3 < 2 ∧ bitsOf flags 2 1 < 3 ∧ (stored.drop k).all (· = 0) ∧
      (exts.zip widths).all (fun p => p.1 ≤ 2 ^ p.2) ∧ depc % 8 = 0 ∧ done % 8 = 0 ∧
      4 ^ team ≤ 4 * d.sprigs.length then
    some { kptr := BitVec.ofNat 64 kptr, entry := entry, carve := carve, widths := widths, team := BitVec.ofNat 2 team,
           prio := prio, sumchk := bitAt flags 11, trace := bitsOf flags 10 6, resident := bitAt flags 5,
           rpol := bitsOf flags 4 3, dmode := bitsOf flags 2 1, disjoint := bitAt flags 0, depv := fieldLE bs 28 4,
           exts := exts, args := tabulate 4 fun i => BitVec.ofNat 64 (fieldLE bs (80 + 8 * i) 8),
           depc := BitVec.ofNat 64 depc, done := BitVec.ofNat 64 done,
           key := headerKey bs }
  else none

/-- Number of work identifiers of a launch (R45). -/
def Header.work (h : Header) : Nat := h.exts.foldl (· * ·) 1

/-- Bytes that a record entry of T pairs and traces needs (R323). -/
def recNeed (t : Nat) : Nat := 64 + 32 * t + 8 * ceilDiv t 64

/-- Bytes that a record entry holds in its set (R324). -/
def RecEntry.size (r : RecEntry) : Nat := 64 + 16 * r.pairs.length + 8 * ceilDiv r.pairs.length 64 + 16 * r.trace.length

/-- The failure bitmap of a record entry: bit i of its words is set when the team of pair i failed (R324). -/
def failBits (pairs : List (Nat × (Word × Bool))) : List Byte :=
  leBytes (8 * ceilDiv pairs.length 64) (packVals 1 (pairs.map fun x => b2n x.2.2))

/-- The bytes of a record entry, with its pairs, failure bitmap and trace (R324). -/
def RecEntry.bytes (r : RecEntry) : List Byte :=
  leBytes 8 r.key.toNat ++ leBytes 4 r.occ ++ leBytes 1 r.team.toNat ++ leBytes 1 (b2n r.trunc + 2 * b2n r.sumchk) ++ leBytes 2 0 ++
  r.digest ++ leBytes 8 r.sig.toNat ++ leBytes 8 r.pairs.length ++ leBytes 8 r.msum.toNat ++ leBytes 4 r.trace.length ++ leBytes 4 0 ++
  (r.pairs.flatMap fun x => leBytes 8 x.1 ++ leBytes 8 x.2.1.toNat) ++ failBits r.pairs ++ r.trace.flatMap fun e => leBytes 16 e.toNat

/-- Entries of a record set (R323). -/
def Part.recSet (p : Part) (n : Nat) : List RecEntry := (mapGet n p.recs).getD []

/-- The content of a record set in the determinism area: its entries one after another (R324; log 17). -/
def Part.recArea (p : Part) (n : Nat) : List Byte := (p.recSet n).flatMap RecEntry.bytes

/-- Bytes of its set that a record-mode launch holds until it completes: what was reserved at acceptance, and the trace entries beyond
T (R323, R324). -/
def Launch.recHeld (l : Launch) : Nat := recNeed l.hdr.work + 16 * (l.trace.length - l.hdr.work)

/-- Free bytes of a record set: the determinism area is shared out evenly over its 32 sets (log 17), and launches accepted
and not complete hold theirs. -/
def State.recFree (s : State) (vf : Nat) (p : Part) (n : Nat) : Nat :=
  p.desc.detBytes / 32 - ((p.recSet n).map (·.size)).sum -
    ((s.launches.filter fun l => l.2.vf == vf && l.2.mode == 1 && l.2.hdr.trace == n && l.2.stage != .complete).map
      fun l => l.2.recHeld).sum

/-- The matching entry of a launch's key and occurrence (R323, R325). -/
def Part.recFind (p : Part) (n : Nat) (key : Word) (occ : Nat) : Option RecEntry :=
  (p.recSet n).find? fun r => r.key = key && r.occ = occ

/-- Result of a submission (R166): accepted with its new launch, the pool full, or rejected. -/
inductive Submit where
  | accepted (s : State) (l : Nat)
  | full
  | rejected
  deriving DecidableEq, Repr

/-- Where a submission comes from: the parent's closing segment or a host packet (R166, R405). -/
structure Origin where
  parent : Option (Nat × Word)
  queue : BitVec 3
  pseq : Nat
  record : Word
  host : Bool
  window : Bool
  deriving DecidableEq, Repr

/-- Where a launch's occurrence number is counted (R323): recorded and bound launches of a key in a set apart, so that the n-th bound
one meets the entry of the n-th recorded one (log 117). -/
def Header.occSlot (h : Header) : Nat := (h.key.toNat * 32 + h.trace) * 4 + h.dmode

/-- Submit a header of 128 bytes to a partition's pool (R166, R299, R301, R323); its .sync words are read with it (R21; log 101). A header that
breaks a rule is rejected, be the pool full or not (log 144). -/
def State.submit (s : State) (vf : Nat) (bs : List Byte) (o : Origin) : Submit :=
  match s.part vf with
  | none => .rejected
  | some p =>
    match parseHeader bs p.desc (s.kernelSyncs vf) with
    | none => .rejected
    | some h =>
      if h.dmode ≠ 0 ∧ s.recFree vf p h.trace < recNeed h.work then .rejected
      else if Config.poolSize ≤ (s.launches.filter fun l => l.2.vf == vf && l.2.stage == .pooled).length then .full
      else
        let occ := if h.dmode = 0 then 0 else (mapGet h.occSlot p.occs).getD 0
        let bound := h.dmode = 2 && (p.recFind h.trace h.key occ).isSome
        let l : Launch :=
          { vf := vf, hdr := h, stage := .pooled, lidx := 0, parent := o.parent, retired := [], sig := 0, tainted := false,
            corrected := false, digestTrap := false, maxTs := none, lines := [], queue := o.queue, pseq := o.pseq,
            record := o.record, host := o.host, occ := occ,
            mode := if h.dmode = 2 && !bound then 1 else h.dmode, unrecorded := h.dmode = 2 && !bound, reexec := false,
            window := o.window, trace := [], traceAt := [], dropped := false, syncs := s.kernelSyncs vf h.kptr h.entry, verdict := 0,
            status := 0, rinDone := 0, posted := false }
        let s1 := if h.dmode = 0 then s else s.modPart vf fun p => { p with occs := mapSet h.occSlot (occ + 1) p.occs }
        .accepted { s1 with launches := mapSet s.nextLaunch l s1.launches, nextLaunch := s.nextLaunch + 1 } s.nextLaunch

end Sys2Proof.Machine
end

