-- ==== Sys2Proof/Machine/Close.lean ====
section
/-! DEFINITION. The team barriers: closing instructions, BARR, BARR.CARVE and YIELD; launches; the work heap (R48–R54, R151,
R157, R163–R168, R273, R309, R310). -/

namespace Sys2Proof.Machine

/-! ## Arrivals -/

/-- Whether an arrival is a closing instruction's (R151). -/
def Arrival.closing : Arrival → Bool
  | .cmt | .lnch _ _ _ _ | .halt => true
  | .barr | .carve _ | .yield | .sealw _ => false

/-- Members that a barrier counts: those that have not retired (R54; log 26). -/
def Team.counted (tm : Team) : List Task := tm.members.filter fun tk => !tk.retired

/-- Whether every counted member stands at an arrival of a kind (R48, R151, R157). -/
def Team.allAt (tm : Team) (f : Arrival → Bool) : Bool := tm.counted.all fun tk => tk.arrived.any f

/-- A thicket phase that a closing instruction waits for (R49): a thicket loaded and not complete. -/
def Task.phasePending (tk : Task) : Bool :=
  [0, 1, 2, 3].any fun t =>
    let st := (tk.th (BitVec.ofNat 2 t)).st
    st = .loading || st = .running || st = .saved

/-- A snapshot of a member (R44). -/
def Task.snap (tk : Task) (c : Carve) : Snap :=
  { carve := c, regs := tk.regs, retry := tk.retry, sig := tk.mxe.sig, rerun := tk.mxe.rerun, err := tk.mxe.err, shadowSel := tk.shadowSel,
    shadow := tk.shadow, lit := tk.lit, spad := tk.spad, px := tk.px, bad := tk.poisonS }

/-- A segment that opens now (R44, R151). -/
def Team.newSeg (tm : Team) (seq : Word) : Seg :=
  { seq := seq, ts := 0, snaps := tm.members.map (·.snap tm.carve), own := tm.members.map fun _ => [],
    seen := tm.members.map fun _ => [], unseen := [], pub := [], fin := [], poison := [], reads := [], marked := [], vlines := [], pushes := [],
    pops := [], adds := [], syncs := tm.members.map fun _ => [],
    launches := [], abort := false, refusedBy := none }

/-- A member goes on past its closing instruction into a new segment (R151). -/
def Task.reopen (tk : Task) (wid : Word) : Task :=
  let r := tk.regs.advance 4
  { tk with regs := { r with ts := wid, seq := r.seq + 1, poisonSr := setBit r.poisonSr 1 false }, retry := 0, arrived := none }

/-- A team starts to save its context for a move, a YIELD or an LNCHW that found the pool full (R51, R363): markers enter its
thickets; waits at barriers are withdrawn, and an MWAIT tests afresh at resumption (R52); a retiring member stays so (R306). -/
def State.beginSave (s : State) (t : Nat) : State :=
  let leave (tk : Task) : Task :=
    if tk.slot = .gone then tk
    else
      let tk1 := tk.beginMarks s.clk
      let tk2 := if tk1.retired then tk1 else tk1.leaveBarrier
      { tk2.stopRun s.clk.toNat with slot := .saving }
  (s.modTeam t fun tm => { tm with st := .saving, members := tm.members.map leave }).leaveWaits t

/-! ## Launch submission (R166, R167) -/

/-- Where a device submission comes from: queue and window of the parent's root packet (R328, R329). -/
def State.origin (s : State) (t : Nat) (tm : Team) (seq : Word) : Origin :=
  match s.launchOf tm with
  | none => { parent := some (t, seq), queue := 0, pseq := 0, record := 0, host := false, window := false }
  | some l => { parent := some (t, seq), queue := l.queue, pseq := 0, record := 0, host := false, window := l.window }

/-- The 128 bytes of a header in its member's view (R166; log 95). -/
def State.headerBytes (s : State) (tm : Team) (m : Nat) (via : List Nat) (va : Nat) : List Byte :=
  let half (va : Nat) : List Byte :=
    match s.lookup tm.vf va via with
    | none => List.replicate 64 0
    | some e => e.reads va (s.viewBytes tm m (e.pa va) 64).1
  half va ++ half (va + 64)

/-- The two lines of a header have been read: that may fire the error injection (R393; log 95, log 131). -/
def State.headerRead (s : State) (vf : Nat) (via : List Nat) (va : Nat) : State :=
  [va, va + 64].foldl (fun s va =>
    match s.lookup vf va via with
    | none => s.walked vf va via
    | some e => ((s.walked vf va via).inject vf (e.pa va)).1) s

/-- Result of a barrier's submissions: the state with every launch placed and every status written, or the member whose LNCHW found the
pool full. -/
inductive Submitted where
  | done (s : State) (ids : List Nat)
  | fullWait (m : Nat)

/-- The status of a member's submission arrives: its destination becomes full (R33, R166). -/
def Task.launched (tk : Task) (rd : Reg) (v : Word) : Task :=
  { tk with regs := tk.regs.write rd v false, fills := tk.fills.filter fun f => f.src ≠ .status }

/-- Submit the headers of the members at LNCH or LNCHW, in member order (R166, R167; log 81). -/
def State.submitAll (s : State) (t : Nat) (tm : Team) (seq : Word) : List (Nat × Task) → List Nat → Submitted
  | [], ids => .done s ids
  | (m, tk) :: rest, ids =>
    match tk.arrived with
    | some (.lnch rd addr wait _) =>
      let status (s : State) (v : Word) : State := s.modTask t m fun tk => tk.launched rd v
      match (s.headerRead tm.vf tk.via addr.toNat).submit tm.vf (s.headerBytes tm m tk.via addr.toNat) (s.origin t tm seq) with
      | .accepted s1 l => (status s1 0).submitAll t tm seq rest (ids ++ [l])
      | .full =>
        if wait then .fullWait m else (status (s.headerRead tm.vf tk.via addr.toNat) 1).submitAll t tm seq rest ids
      | .rejected => (status (s.headerRead tm.vf tk.via addr.toNat) 2).submitAll t tm seq rest ids
    | _ => s.submitAll t tm seq rest ids

/-- The headers of the members up to m have been read (R393). -/
def State.headersRead (s : State) (tm : Team) (m : Nat) : State :=
  (tm.members.take (m + 1)).foldl (fun s tk => match tk.arrived with
    | some (.lnch _ addr _ _) => s.headerRead tm.vf tk.via addr.toNat
    | _ => s) s

/-- The members of a list with their numbers. -/
def numbered (l : List α) : List (Nat × α) := (List.range l.length).zip l

/-- The closing barrier completes (R48, R54, R151): the segment is handed to commit with the greatest %ts, launches are
submitted, halting members retire, and a new segment opens for the others. -/
def State.closeSegment (s : State) (t : Nat) : State :=
  match mapGet t s.teams with
  | none => s
  | some tm =>
    match tm.openSeg with
    | none => s
    | some g =>
      let closed : Seg := { g with ts := BitVec.ofNat 64 tm.openTs }
      let tm1 : Team := { tm with segs := tm.segs ++ [closed], openSeg := none }
      match (s.setTeam t tm1).submitAll t tm1 g.seq (numbered tm1.members) [] with
      | .fullWait m => (s.headersRead tm1 m).beginSave t
      | .done s2 ids =>
        s2.modTeam t fun tm2 =>
          let members := tm2.members.map fun tk =>
            if tk.retired then tk
            else if tk.arrived = some .halt then { tk.stopRun s.clk.toNat with slot := .retiring }
            else tk.reopen tm.wid
          let tm3 : Team := { tm2 with members := members, segs := tm2.segs.map fun x =>
            if x.seq = g.seq then { x with launches := ids } else x }
          if members.all Task.retired then tm3 else { tm3 with openSeg := some (tm3.newSeg (g.seq + 1)) }

/-- Whether a closing instruction must wait because its segment would be a fifth uncommitted one; the frontier of an ORDERED launch
never does (R53, R151, R272; log 62). -/
def State.fifth (s : State) (tm : Team) : Bool :=
  Config.maxUncommitted ≤ tm.segs.length && (s.disjoint tm || !s.atFrontier tm.launch tm.openTs)

/-- A member arrives at a barrier; LNCH and LNCHW mark their destination empty as they issue (R33; log 81). -/
def Task.arrive (tk : Task) (a : Arrival) : Task :=
  match a with
  | .lnch d _ _ _ => { tk.pend d .status with arrived := some a }
  | _ => { tk with arrived := some a }

/-- A member arrives at a closing instruction; with the last arrival the barrier completes (R48, R49, R151). It arrives once its own fills
have landed, so that the whole barrier waits for them (R34, R48; log 148). In a handler it traps ILL 0x0002 (R355). -/
def closing (s : State) (w : BitVec 32) (a : Arrival) : Out :=
  withCur s fun c =>
    if c.task.regs.handler then c.ill s 2 w
    else if c.task.fillsPending || c.task.phasePending || c.task.gsq.running || s.fifth c.team then .next s
    else
      let s1 := c.put s (c.task.arrive a)
      match mapGet c.tid s1.teams with
      | none => .next s1
      | some tm => if tm.allAt Arrival.closing then .next (s1.closeSegment c.tid) else .next s1

/-- CMT (R48, R151). -/
def execCmt (s : State) : Out := issue s (fun _ => .ok) fun _ => closing s (wordOf .cmt) .cmt

/-- HALT (R54; log 78). -/
def execHalt (s : State) : Out := issue s (fun _ => .ok) fun _ => closing s (wordOf .halt) .halt

/-- LNCH and LNCHW: the header's address is checked before the arrival (R139, R166). In a handler the word traps ILL and waits for no
operand (R100, R355; log 129). -/
def launching (d a : Reg) (e : Bool) (wait : Bool) (w : BitVec 32) (s : State) : Out :=
  issue s (fun r => if r.handler then .ok else (r.dst d).then (r.src a e)) fun c =>
    let va := c.task.regs.val a
    if c.task.regs.handler then c.ill s 2 w
    else c.access s (c.task.regs.bad a) va.toNat 64 .read fun s1 _ =>
      match s1.xlate c.team.vf (va.toNat + 64) .read c.task.via with
      | .bad cause detail => c.trap (s.walked c.team.vf (va.toNat + 64) c.task.via) cause detail (va + 64) 0
      | .ok e => closing (s1.cache c.team.vf e c.task.via) w (.lnch d va wait (c.task.regs.condOf d))

/-- LNCH (R166; log 81). -/
def execLnch (d a : Reg) (e : Bool) (s : State) : Out := launching d a e false (wordOf (.lnch d a e)) s
/-- LNCHW (R167; log 81). -/
def execLnchw (d a : Reg) (e : Bool) (s : State) : Out := launching d a e true (wordOf (.lnchw d a e)) s

/-! ## BARR, BARR.CARVE, YIELD -/

/-- What BARR does as it completes (R157): the stores of the segment are published and the banks swap. -/
def Team.barr (tm : Team) : Team :=
  { tm with openSeg := tm.openSeg.map Seg.publish,
            members := tm.members.map fun tk => { tk with shadowSel := !tk.shadowSel, px := tk.px.map fun x => { x with hit := false } } }

/-- Every counted member goes on past its barrier. -/
def Team.pastBarrier (tm : Team) : Team :=
  { tm with members := tm.members.map fun tk => if tk.retired then tk else { tk.past with arrived := none } }

/-- A member arrives at a barrier that is no closing instruction; the last arrival completes it. -/
def barrier (s : State) (w : BitVec 32) (a : Arrival) (f : Arrival → Bool) (done : State → Team → Cur → Out) : Out :=
  withCur s fun c =>
    if c.task.regs.handler then c.ill s 2 w
    else
      let s1 := c.put s { c.task with arrived := some a }
      match mapGet c.tid s1.teams with
      | none => .next s1
      | some tm => if tm.allAt f then done s1 tm c else .next s1

/-- BARR (R157; log 143). -/
def execBarr (s : State) : Out :=
  issue s (fun _ => .ok) fun _ =>
    barrier s (wordOf .barr) .barr (fun a => a == .barr) fun s1 tm c => .next (s1.setTeam c.tid tm.barr.pastBarrier)

/-- YIELD saves the team with its segment open (R168). -/
def execYield (s : State) : Out :=
  issue s (fun _ => .ok) fun _ =>
    barrier s (wordOf .yield) .yield (fun a => a == .yield) fun s1 tm c =>
      .next ((s1.setTeam c.tid tm.pastBarrier).beginSave c.tid)

/-- The physical spad granules of a member as one memory: banks stand in the two highest (R273, log 7). -/
def Task.flatSpad (tk : Task) (c : Carve) : Mem :=
  if c.exchange then
    tk.spad ++ (tk.bank0.map fun p => (p.1 + c.litBase, p.2)) ++ tk.bank1.map fun p => (p.1 + c.litBase + Config.granule, p.2)
  else tk.spad

/-- The place in the physical spad granules of a byte that is kept under a number (`Task.spadKey`). -/
def Carve.flatOf (c : Carve) (k : Nat) : Nat :=
  if 2 ^ 23 ≤ k then k - 2 ^ 23 + c.litBase + Config.granule else if 2 ^ 22 ≤ k then k - 2 ^ 22 + c.litBase else k

/-- The number under which a byte at a place of the physical spad granules is kept. -/
def Carve.keyAt (c : Carve) (a : Nat) : Nat :=
  if !c.exchange || decide (a < c.litBase) then a
  else if a < c.litBase + Config.granule then a - c.litBase + 2 ^ 22 else a - c.litBase - Config.granule + 2 ^ 23

/-- A member under a new carve-out (R163): granules that stay spad keep their content, new ones are zero; the exchange region is
the two highest again. -/
def Task.recarve (tk : Task) (old new : Carve) : Task :=
  if old.spad = new.spad then tk
  else
    let keep := new.spad * Config.granule
    let m := memFilter (tk.flatSpad old) (· < keep)
    let b0 := if new.exchange then new.litBase else keep
    let b1 := b0 + Config.granule
    let held (x : SpadHide) : SpadHide :=
      { x with old := (x.old.filter fun y => old.flatOf y.1 < keep).map fun y => (new.keyAt (old.flatOf y.1), y.2) }
    { tk with spad := memFilter m (· < b0), bank0 := (memFilter m fun a => b0 ≤ a && a < b1).map fun p => (p.1 - b0, p.2),
              bank1 := (memFilter m fun a => b1 ≤ a).map (fun p => (p.1 - b1, p.2)), shadowSel := true, hid := tk.hid.map held,
              poisonS := distinct (((tk.poisonS.map old.flatOf).filter (· < keep)).map new.keyAt) }

/-- The carve-out that all members agree on, when it passes R163 and covers the kernel's .sync words (R20). -/
def Team.agreed (tm : Team) (w : Word) (syncs : List (Nat × Nat)) : Option Carve :=
  let v := carveOf w.toNat
  if tm.counted.all (fun tk => tk.arrived == some (.carve w)) && w.toNat < 2 ^ 32 && v.prog = tm.carve.prog && v.ok && v.covers syncs then
    some v
  else none

/-- Every counted member takes a trap of its own at a barrier's instruction; in turn of the members. -/
def State.trapAll (s : State) (t : Nat) (cause : Nat) (detail : BitVec 16) (taddr : Word) (tval : Task → Word) : Nat → State
  | 0 => s
  | m + 1 =>
    let s1 := s.trapAll t cause detail taddr tval m
    match mapGet t s1.teams with
    | none => s1
    | some tm =>
      match tm.members[m]? with
      | none => s1
      | some tk =>
        if tk.retired || s1.failing tm then s1
        else s1.takeTrap { tid := t, mem := m, team := tm, task := tk } cause tk.regs.pc detail taddr (tval tk)

/-- The word that a member brought to BARR.CARVE. -/
def Task.carveWord (tk : Task) : Word :=
  match tk.arrived with
  | some (.carve w) => w
  | _ => 0

/-- BARR.CARVE acts as BARR and renegotiates the carve-out, or every member traps PROT 0x0006 after the barrier with the word it
brought (R163; log 27, log 129). It never meets a BARR of another member (log 143). In a handler the word traps ILL and waits for no operand (R100, R355). -/
def execBarrCarve (a : Reg) (e : Bool) (s : State) : Out :=
  issue s (fun r => if r.handler then .ok else r.src a e) fun c =>
    if c.task.regs.handler then c.ill s 2 (wordOf (.barrCarve a e))
    else if c.task.regs.bad a then .next (c.consumeAddr s)
    else if c.task.phasePending then .next s
    else
      let w := c.task.regs.val a
      barrier s (wordOf (.barrCarve a e)) (.carve w) (fun x => match x with
        | .carve _ => true
        | _ => false) fun s1 tm c =>
        match tm.agreed w (((s.launchOf tm).map (·.syncs)).getD []) with
        | some v =>
          let tm1 := tm.barr
          let tm2 : Team := { tm1 with carve := v, members := tm1.members.map fun tk => tk.recarve tm.carve v }
          .next (s1.setTeam c.tid tm2.pastBarrier)
        | none => .next ((s1.setTeam c.tid tm.barr).trapAll c.tid 5 6 0 Task.carveWord tm.members.length)

/-! ## The work heap -/

/-- The bush of a core: its number in the module. -/
def bushOf (core : Nat) : Nat := core / 16

/-- The places of a heap (R309): each holds an entry or is free (log 99). -/
def Part.heapSlots (p : Part) (b : Nat) : List (Option (Word × Word)) := (mapGet b p.heaps).getD []

/-- Entries of a heap. -/
def Part.heap (p : Part) (b : Nat) : List (Word × Word) := (p.heapSlots b).filterMap id

/-- The number by which the log names a block of four places of a bush's heap (log 99). -/
def heapBlockNum (b k : Nat) : Nat := b * 2 ^ 32 + k

/-- The 64 bytes of a block of four heap places: keys and payloads, a free place with the reserved key (R164, R378; log 99). -/
def heapBlock (l : List (Option (Word × Word))) (k : Nat) : List Byte :=
  (tabulate 4 fun i => match l.getD (4 * k + i) none with
    | none => leBytes 8 (2 ^ 64 - 1) ++ leBytes 8 0
    | some x => leBytes 8 x.1.toNat ++ leBytes 8 x.2.toNat).flatten

/-- Set one place of a heap; the last place listed holds an entry (log 99). -/
def heapPut : List (Option (Word × Word)) → Nat → Option (Word × Word) → List (Option (Word × Word))
  | [], 0, none => []
  | [], 0, some x => [some x]
  | [], k + 1, v => match heapPut [] k v with
    | [] => []
    | l => none :: l
  | _ :: l, 0, v => match v, l with
    | none, [] => []
    | v, l => v :: l
  | y :: l, k + 1, v => match y, heapPut l k v with
    | none, [] => []
    | y, l => y :: l

/-- On-chip entries of a partition at a bush's heap (R309; log 94). -/
def heapShare (d : PartDesc) (b : Nat) : Nat := 16384 * (d.sprigs.filter fun x => x.toNat / 4 = b).length

/-- Segments of a partition that have not committed. -/
def State.partSegs (s : State) (vf : Nat) : List Seg :=
  s.teams.flatMap fun t => if t.2.vf = vf then t.2.uncommitted else []

/-- Entries at a heap that are pushed and not final (R164). -/
def State.pushesAt (s : State) (vf b : Nat) : List (Word × Word) :=
  (s.partSegs vf).flatMap fun g => (g.pushes.filter fun x => x.1 = b).map (·.2)

/-- Entries at a heap that an uncommitted pop holds (R165). -/
def State.popsAt (s : State) (vf b : Nat) : List (Word × Word) :=
  (s.partSegs vf).flatMap fun g => (g.pops.filter fun x => x.1 = b).map (·.2)

/-- Whether a push to a heap would spill into a full spill region (R164): an entry takes 16 bytes (log 94). A bush whose last sprig
left the partition keeps its heap in the spill area (R311). -/
def State.spillFull (s : State) (vf : Nat) (p : Part) (b : Nat) : Bool :=
  let spilled (b : Nat) := (p.heap b).length + (s.pushesAt vf b).length - heapShare p.desc b
  let bushes := distinct (p.desc.sprigs.map (fun x => x.toNat / 4) ++ p.heaps.map (·.1))
  heapShare p.desc b ≤ (p.heap b).length + (s.pushesAt vf b).length && p.desc.heapSpill < 16 * ((bushes.map spilled).sum + 1)

/-- HPUSH (R164). A poisoned entry poisons its segment, so that its commit consumes it (R387; log 28). -/
def execHpush (a b : Reg) (e f : Bool) (s : State) : Out :=
  issue s (fun r => (r.src a e).then (r.src b f)) fun c =>
    let r := c.task.regs
    let h := bushOf c.task.core
    if r.val a = BitVec.allOnes 64 then .next (c.put s c.task.past)
    else match s.part c.team.vf with
      | none => .next s
      | some p =>
        if s.spillFull c.team.vf p h then .next s
        else
          let s1 := s.modTeam c.tid fun tm => tm.modSeg tm.openSeq fun g =>
            { g with pushes := g.pushes ++ [(h, (r.val a, r.val b))],
                     poison := if r.bad a || r.bad b then setInsert (2 ^ 52 + h) g.poison else g.poison }
          .next (s1.modCur Task.past)

/-- Insert an entry by key; equal keys stay in order of arrival. -/
def heapInsert (x : Word × Word) : List (Word × Word) → List (Word × Word)
  | [] => [x]
  | y :: ys => if x.1.toNat < y.1.toNat then x :: y :: ys else y :: heapInsert x ys

/-- HPOP: one of the 16 smallest keys not held, freely chosen, as a fill of gd and g(d+1); %ts takes the key (R165, R310; log 81). -/
def execHpop (d : Reg) (s : State) : Out :=
  issue s (fun r => (r.dst d).then (r.dst (d + 1))) fun c =>
    let h := bushOf c.task.core
    let fill (tk : Task) (v k : Word) : Task :=
      { tk with regs := (tk.regs.mark d .pending).mark (d + 1) .pending, fills := tk.fills ++ [{ rd := d, src := .pair v k }] }
    match s.part c.team.vf with
    | none => .next s
    | some p =>
      let avail := ((s.popsAt c.team.vf h).foldl (fun l x => l.erase x) (p.heap h)).foldl (fun l x => heapInsert x l) []
      let n := min 16 avail.length
      match avail[if n ≤ 1 then 0 else Config.freeChoice s.fresh % n]? with
      | none => .next (c.put s (fill c.task 0 (BitVec.allOnes 64)).past)
      | some (key, pay) =>
        let s1 := s.tick.modTeam c.tid fun tm => tm.modSeg tm.openSeq fun g => { g with pops := g.pops ++ [(h, (key, pay))] }
        .next (s1.modCur fun tk =>
          let tk1 := (fill tk pay key).past
          { tk1 with regs := { tk1.regs with ts := key, poisonSr := setBit tk1.regs.poisonSr 1 false } })

end Sys2Proof.Machine
end

