-- ==== Sys2Proof/Machine/Engine.lean ====
section
/-! DEFINITION. The engine instructions: command words, their checks at issue, and the append (R19, R169–R173, R338–R343). -/

namespace Sys2Proof.Machine

/-- A check of an engine instruction at issue: passed, or a trap with cause, DETAIL, %taddr and %tval (R139, R173). -/
abbrev EngCheck := Option (Nat × BitVec 16 × Word × Word)

/-- A break of R173 in word n. -/
def badWord (n : Nat) : EngCheck := some (5, 5, 0, BitVec.ofNat 64 n)

/-- The first check that fails decides (log 71). -/
def firstBad : List EngCheck → EngCheck
  | [] => none
  | some x :: _ => some x
  | none :: xs => firstBad xs

/-- A condition on word n. -/
def wordOk (ok : Bool) (n : Nat) : EngCheck := if ok then none else badWord n

/-- A scratchpad range of an engine (R139, R173). -/
def spadRange (c : Carve) (off n : Nat) : EngCheck := if c.spadOk off n then none else some (5, 2, BitVec.ofNat 64 off, 0)

/-- The reserved field of a completion word. -/
def completionOk (w : Word) : EngCheck := wordOk (bitsOf w.toNat 3 1 = 0) 3

/-- The sync word's place. -/
def syncOk (c : Carve) (w : Word) : EngCheck :=
  match syncOff w with
  | none => none
  | some off => spadRange c off 16

/-- Whether a word has no bit above position n − 1. -/
def below (w : Word) (n : Nat) : Bool := w.toNat < 2 ^ n

/-- A new command. -/
def Cmd.new (kind : CmdKind) (q : BitVec 3) (w0 w1 w2 w3 seg : Word) (buf : List Byte) (tab : Option StencilTable) : Cmd :=
  { num := 0, kind := kind, q := q, w0 := w0, w1 := w1, w2 := w2, w3 := w3, seg := seg, pos := 0, acked := 0, started := false,
    cancelled := false, stall := none, buf := buf, tab := tab, src := [], short := false, bad := false }

/-- The register n places after one. -/
def regAfter (a : Reg) (n : Nat) : Reg := BitVec.ofNat 6 (a.toNat + n)

/-- The four command registers at issue (R19): all of one e-bit. -/
def engSrc (a : Reg) (e : Bool) (r : Regs) : Ready :=
  (r.src a e).then ((r.src (regAfter a 1) e).then ((r.src (regAfter a 2) e).then (r.src (regAfter a 3) e)))

/-- Issue of an engine instruction (R169): words are read and checked; a poisoned word is consumed (R387); the command then
waits for its append, with gd pending. `take` gives what the command copies as it issues, and whether that is poisoned. -/
def engIssue (a d : Reg) (tl : BitVec 4) (e : Bool) (kind : CmdKind) (q : BitVec 3)
    (check : Cur → State → Word → Word → Word → Word → EngCheck)
    (take : Cur → State → Word → List Byte × Option StencilTable × Bool) (s : State) : Out :=
  issue s (fun r => (r.dst d).then (engSrc a e r)) fun c =>
    let r := c.task.regs
    let w (n : Nat) := r.val (regAfter a n)
    if [0, 1, 2, 3].any fun n => r.bad (regAfter a n) then .next (c.consumeAddr s)
    else match check c s (w 0) (w 1) (w 2) (w 3) with
      | some (cause, detail, taddr, tval) => c.trapOffset s cause detail taddr tval
      | none =>
        let x := take c s (w 0)
        let cmd := Cmd.new kind q (w 0) (w 1) (w 2) (w 3) c.team.openSeq x.1 x.2.1
        let tk := c.task.pend d .append
        let tk1 : Task := { tk with appends := tk.appends ++ [{ rd := d, tl := tl, cmd := cmd }] }
        if x.2.2 then .next (c.consumeAddr s) else .next (c.put s tk1.past)

/-- A command that copies nothing at issue. -/
def takeNone (_ : Cur) (_ : State) (_ : Word) : List Byte × Option StencilTable × Bool := ([], none, false)

/-- Checks of the four CPY commands (R171, R173): which of source and destination is scratchpad (log 71). -/
def cpyCheck (srcS dstS : Bool) (c : Cur) (_ : State) (w0 w1 w2 w3 : Word) : EngCheck :=
  let n := w2.toNat % 2 ^ 32
  firstBad [wordOk (below w2 32) 2, completionOk w3,
    if srcS then spadRange c.team.carve w0.toNat n else none,
    if dstS then spadRange c.team.carve w1.toNat n else none,
    syncOk c.team.carve w3]

/-- CPY.G2G (R171, R172). -/
def execCpyG2g (a d : Reg) (t : BitVec 4) (e : Bool) (s : State) : Out :=
  engIssue a d t e .cpyG2g 0 (cpyCheck false false) takeNone s
/-- CPY.G2S (R171, R172). -/
def execCpyG2s (a d : Reg) (t : BitVec 4) (e : Bool) (s : State) : Out :=
  engIssue a d t e .cpyG2s 0 (cpyCheck false true) takeNone s
/-- CPY.S2G (R171, R172). -/
def execCpyS2g (a d : Reg) (t : BitVec 4) (e : Bool) (s : State) : Out :=
  engIssue a d t e .cpyS2g 0 (cpyCheck true false) takeNone s
/-- CPY.S2S (R171, R172). -/
def execCpyS2s (a d : Reg) (t : BitVec 4) (e : Bool) (s : State) : Out :=
  engIssue a d t e .cpyS2s 0 (cpyCheck true true) takeNone s

/-! ## GTH, PXST, PXCP (R171, R173, R273, R293, R294) -/

/-- Elements of a GTH. -/
def gthCount (w2 : Word) : Nat := bitsOf w2.toNat 40 32
/-- Element size of a GTH in bytes. -/
def gthSize (w2 : Word) : Nat := 2 ^ bitsOf w2.toNat 49 48

/-- Checks of GTH, alignment before ranges (R100, R139; log 71). -/
def gthCheck (c : Cur) (_ : State) (w0 w1 w2 w3 : Word) : EngCheck :=
  let n := gthCount w2
  let size := gthSize w2
  firstBad [wordOk (w0.toNat % size = 0) 0,
    wordOk (bitsOf w2.toNat 31 22 = 0 && bitsOf w2.toNat 47 41 = 0 && bitsOf w2.toNat 63 50 = 0 && 1 ≤ n && n ≤ 256) 2,
    completionOk w3, if w1.toNat % 4 ≠ 0 then some (3, 0, w1, 0) else none,
    spadRange c.team.carve w1.toNat (4 * n), spadRange c.team.carve (bitsOf w2.toNat 21 0) (n * size),
    syncOk c.team.carve w3]

/-- GTH (R172, R294). -/
def execGth (a d : Reg) (t : BitVec 4) (e : Bool) (s : State) : Out := engIssue a d t e .gth 0 gthCheck takeNone s

/-- Checks of PXST and PXCP (log 71). -/
def pxCheck (srcS : Bool) (c : Cur) (_ : State) (w0 w1 w2 w3 : Word) : EngCheck :=
  let n := w2.toNat % 2 ^ 32
  firstBad [wordOk (bitsOf w1.toNat 47 22 = 0 && bitsOf w1.toNat 63 54 = 0 && bitsOf w1.toNat 53 48 < teamSize c.team.size &&
      bitsOf w1.toNat 21 0 + n ≤ 65536 && c.team.carve.exchange) 1, wordOk (below w2 32) 2, completionOk w3,
    if srcS then spadRange c.team.carve w0.toNat n else none, syncOk c.team.carve w3]

/-- PXST (R172, R293). -/
def execPxst (a d : Reg) (t : BitVec 4) (e : Bool) (s : State) : Out := engIssue a d t e .pxst 0 (pxCheck true) takeNone s
/-- PXCP (R172, R293). -/
def execPxcp (a d : Reg) (t : BitVec 4) (e : Bool) (s : State) : Out := engIssue a d t e .pxcp 0 (pxCheck false) takeNone s

/-! ## Streams -/

/-- Checks of the STRM commands: `space` 0 global, 1 scratchpad, 2 weight store (log 71, log 93). -/
def strmCheck (space : Nat) (c : Cur) (s : State) (w0 w1 w2 w3 : Word) : EngCheck :=
  let weight := (s.part c.team.vf).elim 0 fun p => p.desc.wbanks.length * weightBankBytes
  firstBad [wordOk (w1.toNat % 64 = 0) 1, wordOk (below w2 4) 2, wordOk (w3 = 0) 3,
    if space = 1 then spadRange c.team.carve w0.toNat w1.toNat
    else if space = 2 && weight < w0.toNat + w1.toNat then some (5, 2, w0, 0)
    else none]

/-- STRM.IN.G (R172). -/
def execStrmInG (a d : Reg) (t : BitVec 4) (e : Bool) (s : State) : Out :=
  engIssue a d t e .strmInG 0 (strmCheck 0) takeNone s
/-- STRM.IN.S (R172). -/
def execStrmInS (a d : Reg) (t : BitVec 4) (e : Bool) (s : State) : Out :=
  engIssue a d t e .strmInS 0 (strmCheck 1) takeNone s
/-- STRM.IN.W (R172). -/
def execStrmInW (a d : Reg) (t : BitVec 4) (e : Bool) (s : State) : Out :=
  engIssue a d t e .strmInW 0 (strmCheck 2) takeNone s
/-- STRM.OUT.G (R172). -/
def execStrmOutG (a d : Reg) (t : BitVec 4) (e : Bool) (s : State) : Out :=
  engIssue a d t e .strmOutG 0 (strmCheck 0) takeNone s
/-- STRM.OUT.S (R172). -/
def execStrmOutS (a d : Reg) (t : BitVec 4) (e : Bool) (s : State) : Out :=
  engIssue a d t e .strmOutS 0 (strmCheck 1) takeNone s

/-! ## GTX (R338–R343) -/

/-- A grid-transfer descriptor (R338). -/
structure Grid where
  dbase : Nat
  sbase : Nat
  ctl : Nat
  sn : List Nat
  dn : List Nat
  sp1 : Nat
  sp2 : Nat
  dp1 : Nat
  dp2 : Nat
  rest : Nat

/-- The fields of a descriptor's 64 bytes. -/
def readGrid (bs : List Byte) : Grid :=
  let f (off n : Nat) : Nat := leNat ((bs.drop off).take n)
  { dbase := f 0 8, sbase := f 8 4, ctl := f 12 4, sn := [f 16 4, f 20 4, f 24 4], dn := [f 28 4, f 32 4, f 36 4],
    sp1 := f 40 4, sp2 := f 44 4, dp1 := f 48 4, dp2 := f 52 4, rest := f 56 8 }

/-- Dimensions of a transfer. -/
def Grid.d (g : Grid) : Nat := bitsOf g.ctl 1 0
/-- Whether it prolongs. -/
def Grid.prolong (g : Grid) : Bool := bitAt g.ctl 2
/-- Source format. -/
def Grid.sfmt (g : Grid) : Nat := bitsOf g.ctl 10 7
/-- Destination format. -/
def Grid.dfmt (g : Grid) : Nat := bitsOf g.ctl 14 11
/-- Source element size. -/
def Grid.ws (g : Grid) : Nat := fmtWidth g.sfmt / 8
/-- Destination element size. -/
def Grid.wd (g : Grid) : Nat := fmtWidth g.dfmt / 8
/-- Stencil slot. -/
def Grid.slot (g : Grid) : Nat := bitsOf g.ctl 18 15
/-- Whether the destination is global memory. -/
def Grid.global (g : Grid) : Bool := bitAt g.ctl 19
/-- Entry k of three. -/
def nth3 (l : List Nat) (k : Nat) : Nat := l.getD k 1

/-- A fault of the descriptor at an offset (R343). -/
def gridBad (off : Nat) : EngCheck := some (5, 7, 0, BitVec.ofNat 64 off)

/-- A condition on the field at an offset. -/
def gridOk (ok : Bool) (off : Nat) : EngCheck := if ok then none else gridBad off

/-- Checks of CTL, the fields in ascending offset, the extents and the slot (R338, R339, R343). -/
def Grid.check (g : Grid) (tab : Option StencilTable) : EngCheck :=
  let d := g.d
  let dim (k : Nat) : Bool := k < d
  let ext (l : List Nat) (k : Nat) : Bool := if dim k then 1 ≤ nth3 l k && nth3 l k ≤ 65536 else nth3 l k = 1
  let pitch (v w k : Nat) : Bool := if dim k then v % w = 0 else v = 0
  let centre (k : Nat) : Bool := !dim k ||
    if g.prolong then (nth3 g.dn k - 1) / 2 ≤ nth3 g.sn k - 1 else 2 * (nth3 g.dn k - 1) ≤ nth3 g.sn k - 1
  firstBad [gridOk (bitsOf g.ctl 31 20 = 0 && d ≠ 0 && g.dfmt ≤ 3 && g.sfmt ≤ 3) 12,
    gridOk (g.dbase % g.wd = 0) 0, gridOk (g.sbase < 2 ^ 22 && g.sbase % g.ws = 0) 8,
    gridOk (ext g.sn 0) 16, gridOk (ext g.sn 1) 20, gridOk (ext g.sn 2) 24,
    gridOk (ext g.dn 0) 28, gridOk (ext g.dn 1) 32, gridOk (ext g.dn 2) 36,
    gridOk (pitch g.sp1 g.ws 1) 40, gridOk (pitch g.sp2 g.ws 2) 44,
    gridOk (pitch g.dp1 g.wd 1 && (!dim 1 || nth3 g.dn 0 * g.wd ≤ g.dp1)) 48,
    gridOk (pitch g.dp2 g.wd 2 && (!dim 2 || nth3 g.dn 1 * g.dp1 ≤ g.dp2)) 52,
    gridOk (g.rest = 0) 56, gridOk (centre 0) 28, gridOk (centre 1) 32, gridOk (centre 2) 36,
    gridOk (tab.any fun t => t.d.toNat = d && t.prolong = g.prolong) 64]

/-- Bytes from the first to the last element of a grid. -/
def gridSpan (n : List Nat) (w p1 p2 : Nat) : Nat := (nth3 n 0 - 1) * w + (nth3 n 1 - 1) * p1 + (nth3 n 2 - 1) * p2 + w

/-- The descriptor that a GTX names, the table of its slot, and whether the descriptor is poisoned. -/
def Cur.grid (c : Cur) (s : State) (w0 : Word) : List Byte × Option StencilTable × Bool :=
  let r := c.task.spadBytes c.team.carve w0.toNat 64
  (r.1, (s.part c.team.vf).bind fun p => mapGet (readGrid r.1).slot p.stencils, r.2)

/-- Checks of GTX in the order of R343. -/
def gtxCheck (c : Cur) (s : State) (w0 w1 w2 w3 : Word) : EngCheck :=
  let v := c.team.carve
  let x := c.grid s w0
  let g := readGrid x.1
  firstBad [if w0.toNat % 64 ≠ 0 then some (3, 0, w0, 0) else none, spadRange v w0.toNat 64, wordOk (w1 = 0) 1, wordOk (w2 = 0) 2,
    completionOk w3, syncOk v w3, g.check x.2.1, spadRange v g.sbase (gridSpan g.sn g.ws g.sp1 g.sp2),
    if g.global then none else spadRange v g.dbase (gridSpan g.dn g.wd g.dp1 g.dp2)]

/-- GTX takes its descriptor and table as it issues (R343). -/
def execGtx (a d : Reg) (t : BitVec 4) (e : Bool) (s : State) : Out := engIssue a d t e .gtx 0 gtxCheck Cur.grid s

/-! ## The append (R169) -/

/-- The first command that waits for its append and whose context has room. -/
def Task.nextAppend (tk : Task) : List Append → List (BitVec 4) → Option Append
  | [], _ => none
  | x :: xs, full =>
    if !full.contains x.tl && (tk.timeline x.tl).cmds.length < Config.chainSize then some x else tk.nextAppend xs (x.tl :: full)

/-- Remove the first append equal to one. -/
def dropAppend (x : Append) : List Append → List Append
  | [] => []
  | y :: ys => if y = x then ys else y :: dropAppend x ys

/-- A command enters its context's chain with the next number; its destination's fill takes it (R42, R169). -/
def Task.append (tk : Task) (x : Append) : Task :=
  let num := (tk.timeline x.tl).issued + 1
  let tk1 := tk.modTl x.tl fun t => { t with issued := num, cmds := t.cmds ++ [{ x.cmd with num := num.toNat }] }
  let tk2 : Task := { tk1 with appends := dropAppend x tk1.appends }
  tk2.resolve x.rd .append num false

/-- ENG_COMMAND_APPEND (R169): a STRM.OUT then takes the tokens that wait at its port. -/
def execEngCommandAppend (s : State) : Out :=
  withCur s fun c =>
    match c.task.nextAppend c.task.appends [] with
    | none => .next s
    | some x =>
      let s1 := c.put s (c.task.append x)
      if x.cmd.kind.isOut then
        let n : BitVec 4 := BitVec.ofNat 4 x.cmd.port
        .next (s1.drainFo c.tid c.mem n ((c.task.snk n).fifo.length + 2))
      else .next s1

end Sys2Proof.Machine
end

