-- ==== Sys2Proof/Machine/Trap.lean ====
section
/-! DEFINITION. Arrival of fills, and the taking of asynchronous traps at an instruction boundary (R33, R174, R253, R270,
R353–R356). -/

namespace Sys2Proof.Machine

/-! ## Fills -/

/-- The 64 bits that an STK takes from a sink port's oldest data token, and the port after it (R174). A STRM.OUT queued on the
port, or an earlier STK, comes first. -/
def Task.stkTake (tk : Task) (earlier : List Fill) (n : BitVec 4) : Option (Word × Bool × Task) :=
  if (tk.portCmd true n.toNat).isSome || earlier.any (fun f => f.src == .stk n) then none
  else
    let p := tk.snk n
    match p.fifo.dropWhile fun t => t.kind = .eos with
    | [] => none
    | x :: rest =>
      let v := BitVec.ofNat 64 (valAt 64 p.cursor x.payload.toNat)
      let q : SnkPort := if p.cursor = 7 then p.leave rest else { (p.leave (x :: rest)) with cursor := p.cursor + 1 }
      some (v, x.poison, tk.modSnk n fun _ => q)

/-- What a fill does when it arrives (R33, R165, R174); none while its value is not there. -/
def Task.fillTake (tk : Task) (earlier : List Fill) (f : Fill) : Option Task :=
  match f.src with
  | .value v bad => some { tk with regs := tk.regs.write f.rd v bad }
  | .pair v w => some { tk with regs := (tk.regs.write f.rd v false).write (f.rd + 1) w false }
  | .amoo | .append | .status => none
  | .stk n =>
    match tk.stkTake earlier n with
    | none => none
    | some (v, bad, tk1) => some { tk1 with regs := tk1.regs.write f.rd v bad }

/-- The first fill of a register that can arrive, among the fills after `earlier`. -/
def Task.firstFill (tk : Task) (d : Reg) : List Fill → List Fill → Option Task
  | _, [] => none
  | earlier, f :: rest =>
    if f.rd = d then
      match tk.fillTake earlier f with
      | some tk1 => some { tk1 with fills := earlier ++ rest }
      | none => tk.firstFill d (earlier ++ [f]) rest
    else tk.firstFill d (earlier ++ [f]) rest

/-- FILL_ARRIVE: the value of a pending fill arrives and its destination becomes full (R33; log 65). -/
def execFillArrive (d : Reg) (s : State) : Out :=
  withCur s fun c =>
    match c.task.firstFill d [] c.task.fills with
    | none => .next s
    | some tk => .next (c.put s tk)

/-! ## Trap entry -/

/-- Whether the focused task's core is at work: its team runs, nothing stops or aborts it, it is not being swapped, and its
partition is at no debug stop (R47, R50, R267, R316, R330; log 78, log 106). -/
def Cur.live (c : Cur) (s : State) : Bool :=
  c.team.st == .running && !s.failing c.team && !c.team.swapping c.mem &&
    !(c.team.uncommitted.any (·.abort)) && !s.debugHeld c.team.vf

/-- Whether the focused task issues instructions. -/
def Cur.canIssue (c : Cur) (s : State) : Bool := c.live s && c.task.slot == .running

/-- The cause that a boundary takes (R356): the lowest CAUSE, then the lowest DETAIL, which orders elements by thicket, row and
column. -/
def nextCause : List Cause → Option Cause
  | [] => none
  | x :: xs =>
    match nextCause xs with
    | none => some x
    | some y => if y.cause < x.cause ∨ (y.cause = x.cause ∧ y.detail.toNat < x.detail.toNat) then some y else some x

/-- The causes that a task can take now: a task in RETIRING takes only DIGEST and DISJOINT, in its HALT (R50). -/
def Task.takeable (tk : Task) : List Cause :=
  if tk.slot = .running then tk.causes
  else if tk.slot = .retiring then tk.causes.filter fun c => c.cause = 8 || c.cause = 9
  else []

/-- Whether an asynchronous cause is due at this boundary (R353, R355; log 78). -/
def Task.trapDue (tk : Task) : Bool := !tk.regs.handler && !tk.takeable.isEmpty

/-- A DIGEST or DISJOINT trap in the HALT returns a team's slots to RUNNING and opens a new, empty segment (R54, R270). -/
def Team.unretire (tm : Team) (clk : Nat) : Team :=
  let seq := match tm.openSeg with
    | some g => g.seq
    | none => (match tm.members with
      | [] => 0
      | tk :: _ => tk.regs.seq) + 1
  let back (tk : Task) : Task :=
    if tk.slot = .retiring then
      let regs := { tk.regs with seq := seq, ts := tm.wid, poisonSr := setBit tk.regs.poisonSr 1 false }
      { tk.startRun clk with slot := .running, arrived := none, retry := 0, regs := regs }
    else tk
  let tm1 : Team := { tm with members := tm.members.map back }
  match tm.openSeg with
  | some _ => tm1
  | none => { tm1 with openSeg := some (tm1.newSeg seq) }

/-- The element fault that a trap reports counts as delivered: ERET refires its element (R192). -/
def Task.delivered (tk : Task) (x : Cause) : Task :=
  [0, 1, 2, 3].foldl (fun (tk : Task) i =>
    let t : BitVec 2 := BitVec.ofNat 2 i
    tk.modTh t fun y => { y with elems := y.elems.map fun e =>
      (e.1, { e.2 with fault := e.2.fault.map fun f =>
        if f.cause = x.cause ∧ y.site t e.1 = x.detail then { f with delivered := true } else f }) }) tk

/-- Remove one cause from a list. -/
def dropCause (x : Cause) : List Cause → List Cause
  | [] => []
  | y :: ys => if y = x then ys else y :: dropCause x ys

/-- The trap of the focused task as it stands in a state. -/
def State.takeCause (s : State) (x : Cause) : State :=
  match s.cur with
  | none => s
  | some c =>
    let tk := { c.task with causes := dropCause x c.task.causes }.delivered x
    let c1 : Cur := { c with task := tk }
    s.takeTrap c1 x.cause tk.regs.pc x.detail x.taddr x.tval

/-- TRAP_ENTRY: the focused task takes the first pending cause at its boundary or in its wait (R253, R353–R356); REGION fires an
armed snapshot (R332). -/
def execTrapEntry (s : State) : Out :=
  withCur s fun c =>
    if c.task.regs.handler || !c.live s then .next s
    else match nextCause c.task.takeable with
      | none => .next s
      | some x =>
        let s1 := match s.part c.team.vf with
          | none => s
          | some p => if x.cause = 10 && p.dbg.snapRegion then s.snapshot c.team.vf else s
        let s2 := if c.task.slot = .retiring then s1.modTeam c.tid fun tm => tm.unretire s.clk.toNat else s1
        .next (s2.takeCause x)

end Sys2Proof.Machine
end

