-- ==== Sys2Proof/Machine/Copy.lean ====
section
/-! DEFINITION. Events of the copy unit, the grid-transfer engine, the gather engine and the exchange, of streams and of TXQ
(R158, R170–R173, R213, R293–R295, R342–R344, R413). -/

namespace Sys2Proof.Machine

/-! ## Shared parts -/

/-- The command at the head of a context's chain. -/
def Task.headCmd (tk : Task) (tl : BitVec 4) : Option Cmd := (tk.timeline tl).cmds.head?

/-- Whether a debug stop holds a command: one that has not begun stays in its chain (R330). -/
def State.engHeld (s : State) (tm : Team) (c : Cmd) : Bool := s.debugHeld tm.vf && c.pos = 0 && !c.started && !c.cancelled

/-- Bytes of a copy command. -/
def Cmd.count (c : Cmd) : Nat := c.w2.toNat % 2 ^ 32

/-- The state that an engine access leaves: a wait changes nothing. -/
def EngIo.after (r : EngIo) (s : State) : State :=
  match r with
  | .ok s1 _ _ => s1
  | .wait => s
  | .stall s1 => s1

/-- Bytes counted into a sync word as arrivals of at most 64 (R158). -/
def State.countBytes (s : State) (t m : Nat) (off : Option Nat) : Nat → Nat → State
  | 0, _ => s
  | fuel + 1, n =>
    match off with
    | none => s
    | some o => if n = 0 then s else (s.syncArrive t m o (min n 64)).countBytes t m off fuel (n - min n 64)

/-- Remove the stall of a command. -/
def State.dropStall (s : State) (vf t m : Nat) (tl : BitVec 4) (num : Nat) : State :=
  s.modPart vf fun p => p.dropStalls fun x => !x.txq && x.team = t && x.member = m && x.tl = tl.toNat && x.num = num

/-- A copy-family command completes, with what lands by that (R42, R43, R170, R172): the memory counter takes its add at once, or with
the segment's commit when the destination is global; a cancelled command and a count of 0 add nothing. A counter that has no translation
to a page that it may write stalls the command (R173), and a full log holds the add. -/
def State.finishCopy (s : State) (t m : Nat) (tl : BitVec 4) (c : Cmd) (global counts : Bool) (land : State → State) : State :=
  match s.task t m with
  | none => s
  | some (tm, tk) =>
    let done (s : State) : State := land ((s.dropStall tm.vf t m tl c.num).modTask t m fun tk => tk.complete tl c.num)
    match counterOf c.w3 with
    | none => done s
    | some va =>
      if c.cancelled || !counts then done s
      else if c.stall.isSome then s
      else match s.engXlate t m tl c.num va true fun s _ => .ok s [] false with
      | .ok s1 _ _ =>
        if global then done (s1.modTeam t fun tm => tm.modSeg c.seg fun g => { g with adds := g.adds ++ [va] })
        else
          let s2 := s1.counterAdd tm.vf va 1 (tk.ctxVia tl)
          if s1.logFull s2 tm.vf then s1.fillLog s2 tm.vf
          else done (s2.modTeam t fun tm => tm.retag m fun x =>
            if x.tl == tl.toNat && x.num == c.num then { x with added := true } else x)
      | r => r.after s

/-! ## CPY (R171, R172, R263) -/

/-- Whether the source of a copy is global, and its destination. -/
def CmdKind.globalSrc : CmdKind → Bool
  | .cpyG2g | .cpyG2s => true
  | _ => false

/-- Whether the destination of a copy is global. -/
def CmdKind.globalDst : CmdKind → Bool
  | .cpyG2g | .cpyS2g => true
  | _ => false

/-- Whether a command is a CPY. -/
def CmdKind.isCpy : CmdKind → Bool
  | .cpyG2g | .cpyG2s | .cpyS2g | .cpyS2s => true
  | _ => false

/-- Whether a copy between two pages converts (R172). -/
def converts (a b : TlbEntry) : Bool := a.fmt ≠ b.fmt && a.fmt ≠ 15 && b.fmt ≠ 15

/-- Translate the destination pages of a copy whose source pages are known, with their bytes of the range, and go on with the pairs of pages
that meet and the page that the last bytes go to, with how many they are; `used` of the destination page are filled already (R172, R263;
log 76). -/
def meetPages (t m : Nat) (tl : BitVec 4) (num : Nat) :
    Nat → State → List (TlbEntry × Nat) → Nat → Nat → (State → List (TlbEntry × TlbEntry) → Option (TlbEntry × Nat) → EngIo) → EngIo
  | 0, _, _, _, _, _ => .wait
  | _, s, [], _, _, k => k s [] none
  | fuel + 1, s, (a, n) :: as, va, used, k =>
    s.engXlate t m tl num va true fun s b =>
      let room := roomOf b va
      if room = 0 then meetPages t m tl num fuel s ((a, n) :: as) (nextPage b va) 0 k
      else
        let w1 := if converts a b then fmtWidth a.fmt else 8
        let w2 := if converts a b then fmtWidth b.fmt else 8
        let fill := min room (8 * n / w1 * w2 / 8)
        let take := min n (8 * fill / w2 * w1 / 8)
        if fill = 0 || take = 0 || (take = n && as.isEmpty) then k s [(a, b)] (some (b, used + fill))
        else if take = n then meetPages t m tl num fuel s as (va + fill) (used + fill) fun s ps l => k s ((a, b) :: ps) l
        else meetPages t m tl num fuel s ((a, n - take) :: as) (nextPage b va) 0 fun s ps l => k s ((a, b) :: ps) l

/-- The pages at fault of a copy between two ranges of pages: a pair of formats without a conversion, or a page that does not hold whole
units or elements of the range (R172, R263, R423; log 76). -/
def meetFaults (as : List (TlbEntry × Nat)) (ps : List (TlbEntry × TlbEntry)) (last : Option (TlbEntry × Nat)) : List TlbEntry :=
  match ps.find? fun x => converts x.1 x.2 && (!isNumeric x.1.fmt || !isNumeric x.2.fmt) with
  | some (a, b) => [a, b]
  | none => (unitFault as).toList ++ (last.toList.filter fun x => x.2 % wholeBytes x.1 ≠ 0).map (·.1)

/-- The page at fault of a copy with one global side: one that does not hold whole units of its range (log 76). -/
def sideFaults (ps : List (TlbEntry × Nat)) : List TlbEntry :=
  (ps.find? fun x => x.1.geo ≠ 0 && x.2 % unitBytes x.1 ≠ 0).toList.map (·.1)

/-- A copy that has moved nothing yet translates all the pages of its global sides, and goes on with the pages at fault (R173, R263; log 76). -/
def State.copyCheck (s : State) (t m : Nat) (tl : BitVec 4) (c : Cmd) (src dst : Bool) (k : State → List TlbEntry → EngIo) : EngIo :=
  if c.pos ≠ 0 then k s []
  else if src then
    walkPages t m tl c.num false (pageFuel c.count) s c.w0.toNat c.count fun s as =>
      if dst then meetPages t m tl c.num (as.length + pageFuel (16 * c.count)) s as c.w1.toNat 0 fun s ps last => k s (meetFaults as ps last)
      else k s (sideFaults as)
  else if dst then walkPages t m tl c.num true (pageFuel c.count) s c.w1.toNat c.count fun s bs => k s (sideFaults bs)
  else k s []

/-- Act on the page of one side of a copy at a data offset, when it is global, and its address there. -/
def State.copyPage (s : State) (t m : Nat) (tl : BitVec 4) (num : Nat) (global : Bool) (va d : Nat) (write : Bool)
    (k : State → Option (TlbEntry × Nat) → EngIo) : EngIo :=
  if global then runAt t m tl num write (fun s e a => k s (some (e, a))) (pageFuel d) s va d else k s none

/-- The bytes of a copy's source at its position, within the page that they start in. -/
def State.copyRead (s : State) (t m : Nat) (tl : BitVec 4) (c : Cmd) (e1 : Option (TlbEntry × Nat)) (n : Nat) : EngIo :=
  match e1 with
  | some (a, va) => s.readRuns t m tl c (pageRuns a va (n + 1) 0 n)
  | none =>
    match s.task t m with
    | none => .wait
    | some (tm, tk) =>
      let r := tk.spadBytes tm.carve (c.w0.toNat + c.pos) n
      .ok s r.1 r.2

/-- Part of a copy has landed: its bytes count, and the command goes on; `acked` is its position in a global destination. -/
def State.copyLanded (s : State) (t m : Nat) (tl : BitVec 4) (c : Cmd) (src dst : Nat) : EngIo :=
  .ok ((s.countBytes t m (syncOff c.w3) (dst + 1) dst).modTask t m fun tk => tk.modCmd tl c.num fun x =>
    { x with pos := x.pos + src, acked := if c.kind.globalDst then x.acked + dst else x.acked }) [] false

/-- Move bytes unconverted: a flit, or a whole unit where the destination carries scales, within one page of each side (R172, R263). A
scale moves with its unit between pages of one format and geometry; elsewhere it is a free value (log 29). -/
def State.copyMove (s : State) (t m : Nat) (tl : BitVec 4) (c : Cmd) (e1 e2 : Option (TlbEntry × Nat)) : EngIo :=
  let left := min (c.count - c.pos) (e1.elim c.count fun x => max 1 (roomOf x.1 x.2))
  match e2 with
  | none =>
    let dst := c.w1.toNat + c.pos
    let k := min left (64 - dst % 64)
    (s.copyRead t m tl c e1 k).bind fun s bs bad =>
      (s.modTeam t fun tm => tm.modMember m fun tk => tk.engPut tm.carve (c.writeTag tl) bad dst bs).copyLanded t m tl c k k
  | some (b, va) =>
    let k := if hasScale b then min left (unitBytes b - va % 2 ^ b.size % unitBytes b) else min left (64 - va % 64)
    (s.copyRead t m tl c e1 k).bind fun s bs bad =>
      let data := dealRuns (pageRuns b va (k + 1) 0 k) bs
      let put (s : State) (bad : Bool) (runs : List (Nat × List Byte)) : EngIo :=
        (s.writeRuns t m tl c bad runs).bind fun s _ _ => s.copyLanded t m tl c k k
      if !hasScale b then put s bad data
      else
        let at_ := scaleAddr b va 0
        match e1 with
        | some (a, from_) =>
          if hasScale a && a.geo = b.geo && a.fmt = b.fmt then
            (s.engRead t m tl c (scaleAddr a from_ 0) 1).bind fun s sc bad2 => put s (bad || bad2) (data ++ [(at_, sc)])
          else put s.tick bad (data ++ [(at_, [Config.freeByte s.fresh])])
        | none => put s.tick bad (data ++ [(at_, [Config.freeByte s.fresh])])

/-- Encode the values of a chunk for a page: data codes, and the scale of each unit (R65, R68, R172). A tile's scale follows
R68 over its elements (log 30). -/
def encodeUnits (b : TlbEntry) (xs : List Num) : Nat → List Nat × List Byte
  | 0 => ([], [])
  | n + 1 =>
    if hasScale b then
      let u := encodeMx b.fmt 0 (xs.take (unitElems b))
      let r := encodeUnits b (xs.drop (unitElems b)) n
      (u.2 ++ r.1, BitVec.ofNat 8 u.1 :: r.2)
    else (xs.map (roundNum b.fmt 0 false), [])

/-- Read and decode q elements of a copy's source from data offset d on, each by the page that it lies in and with the scale of its unit,
and go on with their values, the bytes that they take and whether any is poisoned (R172, R263); `dry` only translates their pages. -/
def readElems (t m : Nat) (tl : BitVec 4) (c : Cmd) (dry : Bool) : Nat → State → Nat → Nat → (State → List Num → Nat → Bool → EngIo) → EngIo
  | 0, s, _, _, k => k s [] 0 false
  | fuel + 1, s, d, q, k =>
    if q = 0 || c.count ≤ d then k s [] 0 false
    else
      runAt t m tl c.num false (fun s a va =>
        let w := fmtWidth a.fmt
        let room := min (c.count - d) (max 1 (roomOf a va))
        let unit := if hasScale a then unitBytes a - va % 2 ^ a.size % unitBytes a else room
        let n := min q (8 * min room unit / w)
        let bytes := ceilDiv (n * w) 8
        if n = 0 then k s [] 0 false
        else if dry then readElems t m tl c dry fuel s (d + bytes) (q - n) k
        else
          (s.readRuns t m tl c (pageRuns a va (bytes + 1) 0 bytes)).bind fun s bs bad =>
            (if hasScale a then s.engRead t m tl c (scaleAddr a va 0) 1 else .ok s [] false).bind fun s sc bad2 =>
              let v := leNat bs
              let xs := tabulate n fun i =>
                if hasScale a then decodeMx a.fmt (sc.getD 0 0).toNat (valAt w i v) else decodeNum a.fmt (valAt w i v)
              readElems t m tl c dry fuel s (d + bytes) (q - n) fun s ys more bad3 => k s (xs ++ ys) (bytes + more) (bad || bad2 || bad3))
        (pageFuel d) s c.w0.toNat d

/-- Convert elements to one unit of the destination's page, or to eight elements of a page without units, each once, RNE (R172). -/
def State.copyConvert (s : State) (t m : Nat) (tl : BitVec 4) (c : Cmd) (b : TlbEntry) (va : Nat) : EngIo :=
  let w := fmtWidth b.fmt
  let q := if unitElems b ≤ 1 then min 8 (max 1 (8 * roomOf b va / w)) else unitElems b
  readElems t m tl c true (q + 1) s c.pos q fun s _ _ _ => readElems t m tl c false (q + 1) s c.pos q fun s xs n1 bad =>
    let n2 := xs.length * w / 8
    let r := encodeUnits b xs 1
    let data := dealRuns (pageRuns b va (n2 + 1) 0 n2) (leBytes n2 (packVals w r.1))
    let scales := r.2.map fun x => (scaleAddr b va 0, [x])
    (s.writeRuns t m tl c bad (data ++ scales)).bind fun s _ _ => s.copyLanded t m tl c n1 n2

/-- Land one part of a CPY, after the page checks of its start (R172, R263). -/
def State.copyLand (s : State) (t m : Nat) (tl : BitVec 4) (c : Cmd) : EngIo :=
  s.copyCheck t m tl c c.kind.globalSrc c.kind.globalDst fun s faults =>
    match s.task t m, faults with
    | none, _ => .wait
    | some (tm, _), e :: es =>
      let f := ((e :: es).getD (Config.freeChoice s.fresh % (es.length + 1)) e).base
      .stall ((s.tick.dropStall tm.vf t m tl c.num).engFmt t m tl c.num f)
    | some _, [] =>
      s.copyPage t m tl c.num c.kind.globalSrc c.w0.toNat c.pos false fun s e1 =>
        s.copyPage t m tl c.num c.kind.globalDst c.w1.toNat c.acked true fun s e2 =>
          match e1, e2 with
          | some (a, _), some (b, va) => if converts a b then s.copyConvert t m tl c b va else s.copyMove t m tl c e1 e2
          | _, _ => s.copyMove t m tl c e1 e2

/-- Whether a CPY.S2S overlaps itself, so that its source is read whole first (R172). -/
def Cmd.overlaps (c : Cmd) : Bool :=
  c.kind = .cpyS2s && decide (c.w0.toNat < c.w1.toNat + c.count) && decide (c.w1.toNat < c.w0.toNat + c.count)

/-- The flits of a scratchpad range with their poison. -/
def Task.spadFlits (tk : Task) (v : Carve) : Nat → Nat → Nat → List (List Byte × Bool)
  | 0, _, _ => []
  | fuel + 1, off, n =>
    if n = 0 then []
    else tk.spadBytes v off (min n 64) :: tk.spadFlits v fuel (off + min n 64) (n - min n 64)

/-- Land flits one after another in the scratchpad, each counted. -/
def State.landFlits (s : State) (t m : Nat) (tag : CmdTag) : Nat → List (List Byte × Bool) → State
  | _, [] => s
  | off, (bs, bad) :: xs =>
    ((s.modTeam t fun tm => tm.modMember m fun tk => tk.engPut tm.carve tag bad off bs).countBytes t m tag.sync 1 bs.length).landFlits t m
      tag (off + bs.length) xs

/-- SYNC_WORD_ARRIVAL: a flit of the CPY at the head of a context lands and counts into its sync word (R158, R170). A CPY.S2S
over itself lands whole (log 31, log 67). -/
def execSyncWordArrival (t : BitVec 4) (s : State) : Out :=
  withCur s fun c =>
    match c.task.headCmd t with
    | none => .next s
    | some x =>
      if !x.kind.isCpy || x.stall.isSome || x.cancelled || x.count ≤ x.pos || s.engHeld c.team x then .next s
      else if x.overlaps then
        let flits := c.task.spadFlits c.team.carve (x.count + 1) x.w0.toNat x.count
        .next ((s.landFlits c.tid c.mem (x.writeTag t) x.w1.toNat flits).modCur fun tk =>
          tk.modCmd t x.num fun y => { y with pos := x.count })
      else .next ((s.copyLand c.tid c.mem t x).after s)

/-- COPY_COMMAND_COMPLETE (R42, R43, R170, R172). -/
def execCopyCommandComplete (t : BitVec 4) (s : State) : Out :=
  withCur s fun c =>
    match c.task.headCmd t with
    | none => .next s
    | some x =>
      if !x.kind.isCpy || !(x.cancelled || x.count ≤ x.pos) || s.engHeld c.team x then .next s
      else .next (s.finishCopy c.tid c.mem t x x.kind.globalDst (x.count ≠ 0) id)

/-! ## Streams -/

/-- STRM_IN_COMPLETE: a port's current STRM.IN completes once its end-of-stream has been taken, or at once for a count of 0
(R172, R368), or as it raises FMT (R263). -/
def execStrmInComplete (n : BitVec 4) (s : State) : Out :=
  withCur s fun c =>
    match c.task.portCmd false n.toNat with
    | none => .next s
    | some x =>
      let p := c.task.src n
      if x.cancelled || (x.bytes = 0 && !s.debugHeld c.team.vf) || (x.acked ≠ 0 && (c.task.portHead n).isNone && p.phases.all fun h => h.2.back = 0) then
        .next ((s.dropStall c.team.vf c.tid c.mem 14 x.num).modCur fun tk => tk.complete 14 x.num)
      else .next ((s.streamCheck c.tid c.mem x false).getD s)

/-- STRM_OUT_COMPLETE: a port's current STRM.OUT completes once end-of-stream came, or as it raises FMT (R263); else it takes
tokens that wait (R172). -/
def execStrmOutComplete (n : BitVec 4) (s : State) : Out :=
  withCur s fun c =>
    match c.task.portCmd true n.toNat with
    | none => .next s
    | some x =>
      let fuel := (c.task.snk n).fifo.length + 2
      if x.cancelled || (x.bytes = 0 && !s.debugHeld c.team.vf) || x.acked ≠ 0 then
        .next (((s.dropStall c.team.vf c.tid c.mem 14 x.num).modCur fun tk => tk.complete 14 x.num).drainFo c.tid c.mem n fuel)
      else match s.streamCheck c.tid c.mem x true with
        | some s1 => .next s1
        | none => .next (s.drainFo c.tid c.mem n fuel)

/-! ## GTX (R341, R342, R344) -/

/-- Rounding mode of a transfer. -/
def Grid.rm (g : Grid) : Nat := bitsOf g.ctl 6 5
/-- Boundary rule of a transfer. -/
def Grid.bnd (g : Grid) : Nat := bitsOf g.ctl 4 3

/-- The offsets {−1, 0, +1}^d, the first dimension fastest. -/
def gridOffsets : Nat → List (List Int)
  | 0 => [[]]
  | d + 1 => (gridOffsets d).flatMap fun o => [-1, 0, 1].map fun x => o ++ [x]

/-- The offsets in the order of R342: the first dimension fastest. -/
def gridWalk (d : Nat) : List (List Int) := (gridOffsets d).map List.reverse

/-- What a boundary rule makes of a coordinate (R342). -/
inductive Edge where
  | at_ (s : Nat)
  | drop
  | skip

/-- Apply the boundary rule to a coordinate of an extent. -/
def Grid.edge (g : Grid) (v : Int) (n : Nat) : Edge :=
  if 0 ≤ v ∧ v < n then .at_ v.toNat
  else if g.bnd = 0 then .drop
  else if g.bnd = 1 then .at_ (clampInt 0 ((n : Int) - 1) v).toNat
  else if g.bnd = 2 then .at_ (v % n).toNat
  else .skip

/-- The source point of an offset: its coordinates, dropped, or skipped; every dimension is looked at. -/
def Grid.point (g : Grid) : Nat → List Int → List Int → Option (List Nat) × Bool
  | k, b :: bs, o :: os =>
    let r := g.point (k + 1) bs os
    match g.edge (b + o) (nth3 g.sn k) with
    | .at_ s => (r.1.map (s :: ·), r.2)
    | .drop => (none, r.2)
    | .skip => (none, true)
  | _, _, _ => (some [], false)

/-- Scratchpad offset of a source element. -/
def Grid.srcAt (g : Grid) (p : List Nat) : Nat :=
  g.sbase + p.getD 0 0 * g.ws + p.getD 1 0 * g.sp1 + p.getD 2 0 * g.sp2

/-- Place of a destination element. -/
def Grid.dstAt (g : Grid) (j : List Nat) : Nat :=
  g.dbase + j.getD 0 0 * g.wd + j.getD 1 0 * g.dp1 + j.getD 2 0 * g.dp2

/-- Bytes of a source element among the bytes that a transfer has read, and whether any is poisoned. -/
def Grid.read (g : Grid) (src : List (Byte × Bool)) (off n : Nat) : List Byte × Bool :=
  let xs := tabulate n fun i => src.getD (off - g.sbase + i) (0, false)
  (xs.map (·.1), xs.any (·.2))

/-- The value of a destination point, with its poison; none when SKIP leaves it (R342). -/
def Grid.value (g : Grid) (w : StencilTable) (src : List (Byte × Bool)) (j : List Nat) : Option (List Byte × Bool) :=
  let d := g.d
  let js := j.take d
  let cls := if g.prolong then packVals 1 (js.map (· % 2)) else 0
  let b : List Int := js.map fun x => if g.prolong then ((x / 2 : Nat) : Int) else ((2 * x : Nat) : Int)
  let step (acc : Num × Bool × Bool × Bool) (o : List Int) : Num × Bool × Bool × Bool :=
    let num := (o.foldr (fun x n => (x + 1).toNat + 3 * n) 0)
    let bits := (w.weights.getD (cls * 3 ^ d + num) 0).toNat
    if bits % 2 ^ 31 = 0 then acc
    else
      let (sum, first, skip, bad) := acc
      let r := g.point 0 b o
      match r.1 with
      | none => (sum, first, skip || r.2, bad)
      | some p =>
        let x := g.read src (g.srcAt p) g.ws
        let term := numMul (decodeNum 1 bits) (decodeNum g.sfmt (leNat x.1))
        (if first then term else numAdd (decide (g.rm = 3)) sum term, false, skip || r.2, bad || x.2)
  let r := (gridWalk d).foldl step (.fin false 0 0, true, false, false)
  if r.2.2.1 then none else some (leBytes g.wd (roundNum g.dfmt g.rm false r.1), r.2.2.2)

/-- Number of destination points. -/
def Grid.count (g : Grid) : Nat := nth3 g.dn 0 * nth3 g.dn 1 * nth3 g.dn 2

/-- The k-th destination point, the first dimension fastest. -/
def Grid.pointAt (g : Grid) (k : Nat) : List Nat :=
  [k % nth3 g.dn 0, k / nth3 g.dn 0 % nth3 g.dn 1, k / (nth3 g.dn 0 * nth3 g.dn 1)]

/-- Translate every destination page of a transfer before it writes (R344); the page that breaks its rule, if any. -/
def State.gridPages (s : State) (t m : Nat) (tl : BitVec 4) (num : Nat) (g : Grid) (k : State → EngIo) : List Nat → EngIo
  | [] => k s
  | a :: as =>
    s.engXlate t m tl num a true fun s e =>
      if e.geo ≠ 0 || !(e.fmt = g.dfmt || e.fmt = 15) then
        .stall ((s.dropStall ((s.task t m).elim 0 fun x => x.1.vf) t m tl num).engFmt t m tl num e.base)
      else s.gridPages t m tl num g k as

/-- A transfer starts: every destination page is translated and checked, those of points that SKIP will leave among them (R344). -/
def State.gridStart (s : State) (t m : Nat) (tl : BitVec 4) (c : Cmd) (g : Grid) : EngIo :=
  let begin_ (s : State) : EngIo := .ok (s.modTask t m fun tk => tk.modCmd tl c.num fun x => { x with started := true }) [] false
  if g.global then s.gridPages t m tl c.num g begin_ (tabulate g.count fun k => g.dstAt (g.pointAt k)) else begin_ s

/-- A destination point lands: its element is written whole, and its bytes count (R342, R344); a point that SKIP leaves counts
nothing. -/
def State.gridPoint (s : State) (t m : Nat) (tl : BitVec 4) (c : Cmd) (g : Grid) (w : StencilTable) : EngIo :=
  let next (s : State) (n : Nat) : EngIo :=
    .ok ((s.countBytes t m (syncOff c.w3) 1 n).modTask t m fun tk => tk.modCmd tl c.num fun x => { x with pos := x.pos + 1 }) [] false
  let j := g.pointAt c.pos
  match g.value w c.src j with
  | none => next s 0
  | some (bs, bad) =>
    if g.global then (s.engWrite t m tl c (g.dstAt j) bs bad).bind fun s _ _ => next s bs.length
    else next (s.modTeam t fun tm => tm.modMember m fun tk => tk.engPut tm.carve (c.writeTag tl) bad (g.dstAt j) bs) bs.length

/-- GTX_COMPLETE: the transfer at the head of a context goes on by one step: it starts, reads the next byte of its source region, each
once and all before it writes, lands its next point, or completes (R342–R344, R346; log 67). -/
def execGtxComplete (t : BitVec 4) (s : State) : Out :=
  withCur s fun c =>
    match c.task.headCmd t with
    | none => .next s
    | some x =>
      let g := readGrid x.buf
      if x.kind ≠ .gtx || x.stall.isSome || s.engHeld c.team x then .next s
      else if x.cancelled || g.count ≤ x.pos then .next (s.finishCopy c.tid c.mem t x g.global true id)
      else match x.tab with
        | none => .next s
        | some w =>
          if !x.started then .next ((s.gridStart c.tid c.mem t x g).after s)
          else if x.src.length < gridSpan g.sn g.ws g.sp1 g.sp2 then
            let r := c.task.spadBytes c.team.carve (g.sbase + x.src.length) 1
            .next (s.modCur fun tk => tk.modCmd t x.num fun y => { y with src := y.src ++ [(r.1.headD 0, r.2)] })
          else .next ((s.gridPoint c.tid c.mem t x g w).after s)

/-! ## GTH (R294, R295) -/

/-- Whether a partition's error injection is armed (R393). -/
def State.armed (s : State) (vf : Nat) : Bool := (s.part vf).any fun p => p.regs.einjArm

/-- Read the elements of a gather, whose addresses have been translated; an injected error poisons every element of its line, which is read once (R294, R393). -/
def State.gather (s : State) (t m vf : Nat) (tl : BitVec 4) (c : Cmd) (hit : List Nat) : List Nat → EngIo
  | [] => .ok s [] false
  | a :: as =>
    (s.engRead t m tl c a (gthSize c.w2)).bind fun s1 bs bad =>
      let hit1 := if s.armed vf && !s1.armed vf then a / 64 :: hit else hit
      (s1.gather t m vf tl c hit1 as).bind fun s2 cs bad2 => .ok s2 (bs ++ cs) (bad || bad2 || hit1.contains (a / 64))

/-- The reply of a gather: its addresses are translated before its first element is read (R294). -/
def State.gthRead (s : State) (t m vf : Nat) (tl : BitVec 4) (c : Cmd) (addrs : List Nat) : EngIo :=
  engXlateAll t m tl c.num (fun s => s.gather t m vf tl c [] addrs) addrs s

/-- Endpoint of the slice that runs a core's gather on a context (R289, R294). -/
def gatherSlice (core : Nat) (tl : BitVec 4) : Nat :=
  core / 64 * 512 + 0x80 + 8 * (core % 64 / 4) + (2 * (core % 4) + tl.toNat % 2)

/-- GTH_REPLY: the gather at the head of a context reads its elements and its reply lands in the scratchpad (R294, R295). A
poisoned index is consumed at that slice (R387, R389); a poisoned element poisons the reply (log 32, log 67). -/
def execGthReply (t : BitVec 4) (s : State) : Out :=
  withCur s fun c =>
    match c.task.headCmd t with
    | none => .next s
    | some x =>
      if x.kind ≠ .gth || x.stall.isSome || s.engHeld c.team x then .next s
      else if x.cancelled || x.started then .next (s.finishCopy c.tid c.mem t x false true id)
      else
        let n := gthCount x.w2
        let size := gthSize x.w2
        let ix := c.task.spadBytes c.team.carve x.w1.toNat (4 * n)
        if ix.2 then .next (s.consume (gatherSlice c.task.core t) 3 0)
        else
          let addrs := tabulate n fun i => (x.w0.toNat + size * leNat ((ix.1.drop (4 * i)).take 4)) % 2 ^ 64
          match s.gthRead c.tid c.mem c.team.vf t x addrs with
          | .ok s1 bs bad =>
            let s2 := s1.modTeam c.tid fun tm => tm.modMember c.mem fun tk => tk.engPut tm.carve (x.writeTag t) bad (bitsOf x.w2.toNat 21 0) bs
            let s3 := (s2.countBytes c.tid c.mem (syncOff x.w3) (n + 8) (n * size)).modCur fun tk =>
              tk.modCmd t x.num fun y => { y with started := true }
            .next (s3.finishCopy c.tid c.mem t { x with started := true } false true id)
          | r => .next (r.after s)

/-! ## PXST and PXCP (R274, R293, R313) -/

/-- Receiving member of an exchange. -/
def Cmd.receiver (c : Cmd) : Nat := bitsOf c.w1.toNat 53 48
/-- Offset of an exchange in the receiver's shadow bank. -/
def Cmd.shadowOff (c : Cmd) : Nat := bitsOf c.w1.toNat 21 0

/-- Write bytes into a member's shadow bank, with their poison. -/
def Task.shadowPut (tk : Task) (off : Nat) (bs : List Byte) (bad : Bool) : Task :=
  let base := if tk.shadowSel then 2 ^ 23 else 2 ^ 22
  let keys := tabulate bs.length fun i => base + off + i
  let tk1 : Task := { tk with poisonS := if bad then setUnion keys tk.poisonS else tk.poisonS.filter fun k => !keys.contains k,
                              hid := unhide keys.contains tk.hid }
  if tk.shadowSel then { tk1 with bank1 := memWriteBytes tk.bank1 off bs } else { tk1 with bank0 := memWriteBytes tk.bank0 off bs }

/-- Bytes of the flit of an exchange at a position. -/
def Cmd.flitAt (c : Cmd) (pos : Nat) : Nat := min (c.count - pos) (64 - (c.shadowOff + pos) % 64)

/-- Swap ticks that the bush of a member has decided (R313). -/
def State.ticksAt (s : State) (tm : Team) (m : Nat) : Nat :=
  match tm.members[m]? with
  | none => 0
  | some tk => (mapGet (tk.core / 16) s.swapTicks).getD 0

/-- Halvings that both members' bushes have done of their pair's count (R313; log 47). -/
def State.halvings (s : State) (tm : Team) (a b : Nat) : Nat := min (s.ticksAt tm a) (s.ticksAt tm b)

/-- A pair's count after n halvings in all. -/
def countAfter (x : Nat × Nat) (n : Nat) : Nat := x.1 / 2 ^ (n - x.2)

/-- The traffic counter of two members counts a flit's 64 bytes, saturating (R313). -/
def State.countFlit (s : State) (t a b : Nat) : State :=
  s.modTeam t fun tm =>
    if a = b then tm
    else
      let k := min a b * 64 + max a b
      let h := s.halvings tm a b
      let old := (mapGet k tm.traffic).getD (0, h)
      { tm with traffic := mapSet k (min (2 ^ 32 - 1) (countAfter old h + 64), max old.2 h) tm.traffic }

/-- A flit of an exchange lands at its receiver and counts into its sync word; its bytes stand in the shadow bank once the command
completes (R274, R293). -/
def State.pxLand (s : State) (t m : Nat) (c : Cmd) (n : Nat) (bs : List Byte) (bad : Bool) : State :=
  let r := c.receiver
  let px := tabulate bs.length fun i =>
    { sender := m, num := c.num, off := c.shadowOff + c.pos + i, val := bs.getD i 0, bad := bad, hit := false }
  let s1 := s.modTask t r fun tk => { tk with px := tk.px ++ px }
  let s2 := s1.countBytes t r (syncOff c.w3) 1 n
  let resident := ((mapGet t s.teams).bind s.launchOf).any fun l => l.hdr.resident
  let s3 := if resident then s2.countFlit t m r else s2
  s3.modTask t m fun tk => tk.modCmd 9 c.num fun x => { x with pos := x.pos + n }

/-- Bytes of completed exchanges enter the shadow bank in the order in which they arrived, but where a later arrival stands already;
an earlier arrival of another command to the same byte is overtaken (R274). -/
def landBytes (sender num : Nat) : List PxByte → Task → List PxByte × Task
  | [], tk => ([], tk)
  | x :: xs, tk =>
    if x.sender = sender ∧ x.num = num then landBytes sender num xs (if x.hit then tk else tk.shadowPut x.off [x.val] x.bad)
    else
      let r := landBytes sender num xs tk
      let passed := xs.any fun y => y.sender = sender && y.num = num && y.off = x.off && !y.hit
      ({ x with hit := x.hit || passed } :: r.1, r.2)

/-- An exchange completes at its receiver (R274). -/
def Task.pxDone (tk : Task) (sender num : Nat) : Task :=
  let r := landBytes sender num tk.px tk
  { r.2 with px := r.1 }

/-- Read the source bytes of a PXCP's next flit, of n bytes; the first read translates all its pages (R172, R263, R293; log 76). -/
def State.pxcpRead (s : State) (t m : Nat) (vf : Nat) (c : Cmd) (n : Nat) : EngIo :=
  s.copyCheck t m 9 c true false fun s faults =>
    match faults with
    | e :: _ => .stall ((s.dropStall vf t m 9 c.num).engFmt t m 9 c.num e.base)
    | [] => runParts t m 9 c.num false (n + 1) s c.w0.toNat c.pos n fun s ps => s.readRuns t m 9 c (tokenRuns ps)

/-- PX_FLIT_LAND: the next flit of the exchange at the head of tl9 lands (R293); one to a member in a swap is held till the swap ends
(R316). -/
def execPxFlitLand (s : State) : Out :=
  withCur s fun c =>
    match c.task.headCmd 9 with
    | none => .next s
    | some x =>
      let n := x.flitAt x.pos
      if !(x.kind = .pxst || x.kind = .pxcp) || x.stall.isSome || x.cancelled || x.count ≤ x.pos || c.team.swapping x.receiver || s.engHeld c.team x then
        .next s
      else if x.kind = .pxst then
        let r := c.task.spadBytes c.team.carve (x.w0.toNat + x.pos) n
        .next (s.pxLand c.tid c.mem x n r.1 r.2)
      else
        .next (((s.pxcpRead c.tid c.mem c.team.vf x n).bind fun s1 bs bad => .ok (s1.pxLand c.tid c.mem x n bs bad) [] false).after s)

/-- PX_ACK: the receiver's acknowledgement of a flit comes back; once all have, tl9 passes the command (R293). -/
def execPxAck (s : State) : Out :=
  withCur s fun c =>
    match c.task.headCmd 9 with
    | none => .next s
    | some x =>
      if !(x.kind = .pxst || x.kind = .pxcp) then .next s
      else if s.engHeld c.team x then .next s
      else if x.cancelled || x.count ≤ x.acked then
        .next (s.finishCopy c.tid c.mem 9 x false (x.count ≠ 0) fun s => s.modTask c.tid x.receiver fun tk => tk.pxDone c.mem x.num)
      else if x.pos ≤ x.acked then .next s
      else
        .next (s.modCur fun tk => tk.modCmd 9 x.num fun y => { y with acked := y.acked + y.flitAt y.acked })

/-! ## TXQ (R173, R213) -/

/-- Translate for one element of a TXQ request; a fault stalls the request with its record. -/
def State.txqXlate (s : State) (t m num va : Nat) (k : State → Team → TlbEntry → EngIo) : EngIo :=
  match s.task t m with
  | none => .wait
  | some (tm, tk) =>
    match s.xlate tm.vf va .read tk.engVia with
    | .bad cause detail => (s.walked tm.vf va tk.engVia).stall t m 14 num true false va cause detail
    | .ok e => k (s.cache tm.vf e tk.engVia) tm e

/-- Read one element of a TXQ request. -/
def State.txqRead (s : State) (t m num seq va n : Nat) : EngIo :=
  s.txqXlate t m num va fun s tm e =>
    if s.markWait tm m (BitVec.ofNat 64 seq) (e.pa va) n then .wait
    else
      let r := s.segRead t m (BitVec.ofNat 64 seq) e va n
      .ok r.1 r.2.1 r.2.2

/-- Translate the addresses of a request token before its first element is read. -/
def txqPages (t m num : Nat) (k : State → EngIo) : List Nat → State → EngIo
  | [], s => k s
  | a :: as, s => s.txqXlate t m num a fun s _ _ => txqPages t m num k as s

/-- Read the elements of a request token: the values by lane pair. -/
def State.txqAll (s : State) (t m num seq size : Nat) (tok : Token) : Nat → EngIo
  | 0 => .ok s [] false
  | j + 1 =>
    (s.txqAll t m num seq size tok j).bind fun s bs bad =>
      if tok.ok 64 j then
        (s.txqRead t m num seq (tok.val 64 j) size).bind fun s x bad2 =>
          .ok s (bs ++ leBytes 8 (leNat x)) (bad || bad2)
      else .ok s (bs ++ leBytes 8 0) bad

/-- The reply of a request token: its addresses are translated before its first element is read (R213). -/
def State.txqReply (s : State) (t m num seq size : Nat) (tok : Token) : EngIo :=
  txqPages t m num (fun s => s.txqAll t m num seq size tok 8) (((List.range 8).filter (tok.ok 64)).map (tok.val 64)) s

/-- The first request without its reply takes it. -/
def answerFirst (r : Token) : List (Token × Option Token) → List (Token × Option Token)
  | [] => []
  | (q, none) :: xs => (q, some r) :: xs
  | x :: xs => x :: answerFirst r xs

/-- Replies at the head of the requests leave in order. -/
def Elem.txqEmit (e : Elem) : Elem :=
  match e.own with
  | .txq reqs =>
    let ready := reqs.takeWhile fun x => x.2.isSome
    ({ e with own := .txq (reqs.drop ready.length) } : Elem).emit (ready.filterMap fun x => x.2) none
  | _ => e

/-- TXQ_REPLY: the oldest unanswered request of a request element is read, and its reply follows the earlier ones; a poisoned
address is consumed (R213, R387). -/
def execTxqReply (t : BitVec 2) (n : BitVec 2) (s : State) : Out :=
  withCur s fun c =>
    let k := 80 + n.toNat
    let x := c.task.th t
    let num := t.toNat * 4 + n.toNat
    let stalled := (s.part c.team.vf).any fun p => p.stalled.any fun z =>
      z.txq && z.team = c.tid && z.member = c.mem && z.num = num
    match x.elem k with
    | none => .next s
    | some e =>
      match e.own with
      | .txq reqs =>
        match reqs.find? fun q => q.2.isNone with
        | none => .next s
        | some (tok, _) =>
          if !x.moves || e.saved || e.recording x.marking || stalled then .next s
          else if tok.poison then .next (c.consumeAddr s)
          else match s.txqReply c.tid c.mem num c.team.openSeq.toNat (2 ^ (pAux e.pat % 4)) tok with
            | .ok s1 bs bad =>
              let r := { tok with payload := BitVec.ofNat 512 (leNat bs), sbx := 0, poison := bad }
              .next (s1.modCur fun tk => tk.modTh t fun x => x.modElem k fun e =>
                ({ e with own := .txq (answerFirst r reqs) }.txqEmit).drain k 64)
            | r => .next (r.after s)
      | _ => .next s

/-! ## Walks (R413, R414) -/

/-- PAGE_WALK: a walker walks a page's tables for a miss of a sprig's cache, and the entry it finds is cached there; a walk that finds none
leaves nothing there, since the access that missed reports its own fault (R139, R173, R413, R414). -/
def execPageWalk (vf : BitVec 6) (miss : Miss) (wr : Bool) (s : State) : Out :=
  let via := [miss.sprig.toNat]
  let va := miss.va.toNat
  match s.part vf.toNat with
  | none => .next s
  | some p =>
    match walk s.mem p.regs.ptroot va with
    | none => .next (s.walked vf.toNat va via)
    | some e =>
      if (p.cached via va).isSome then .next s
      else if wr && !e.writable then .next (s.walked vf.toNat va via)
      else .next (s.cache vf.toNat e via)

end Sys2Proof.Machine
end

