-- ==== Sys2Proof/Machine/MxeIssue.lean ====
section
/-! DEFINITION. The matrix commands at issue: formats, the issued view, the checks of R234, and MCHK, MSIG and GSQ (R180,
R226–R246). -/

namespace Sys2Proof.Machine

/-! ## Formats (R230, R231) -/

/-- The factor d of a B format: a pass has K = 32·d products (R230). -/
def passFactor (f : Nat) : Nat :=
  if f = 0 then 1 else if f = 1 then 2 else if f = 2 || f = 3 then 8 else if f = 8 || f = 12 then 32 else if f = 13 then 64 else 16

/-- Length of a pass. -/
def passLen (f : Nat) : Nat := 32 * passFactor f

/-- The element formats that an MX flag goes with. -/
def mxFormat (f : Nat) : Bool := 4 ≤ f && f ≤ 8

/-- Whether a format and MX flag name an operand, TERN among them (R231). -/
def operandOk (f : Nat) (mx : Bool) : Bool :=
  (f ≤ 8 || f = 11 || f = 12 || f = 13) && (!(6 ≤ f && f ≤ 8) || mx) && (!mx || mxFormat f)

/-- Whether a format is an integer's, TERN among them. -/
def integerFormat (f : Nat) : Bool := f = 11 || f = 12 || f = 13

/-- Width for the comparison of A and B: 6-bit formats count as 8. -/
def compareWidth (f : Nat) : Nat := if fmtWidth f = 6 then 8 else fmtWidth f

/-- Format of an accumulator code (R238). -/
def accFormat (a : Nat) : Nat := if a = 0 then 1 else if a = 1 then 0 else 10

/-- Rows available to a run (R227). -/
def rowLimit (shape acc : Nat) : Nat := if acc = 2 || shape = 3 then 32 else if shape = 2 then 128 else 512

/-! ## Command words (R235, R237, R238, R242, R243) -/

/-- First slot and slot count. -/
def mSlot (w : Word) : Nat := bitsOf w.toNat 6 0
/-- Number of slots or passes. -/
def mCnt (w : Word) : Nat := bitsOf w.toNat 14 8 + 1
/-- SPACE of an MLDB. -/
def ldbSpace (w : Word) : Nat := bitsOf w.toNat 17 16
/-- Format of an MLDB or MZB. -/
def ldbFmt (w : Word) : Nat := bitsOf w.toNat 23 20
/-- MX flag of an MLDB or MZB. -/
def ldbMx (w : Word) : Bool := bitAt w.toNat 24
/-- First row of an MMA. -/
def mmaRow (w : Word) : Nat := bitsOf w.toNat 24 16
/-- Rows of an MMA. -/
def mmaM (w : Word) : Nat := bitsOf w.toNat 41 32 + 1
/-- A format of an MMA. -/
def mmaFmt (w : Word) : Nat := bitsOf w.toNat 51 48
/-- Accumulator of an MMA. -/
def mmaAcc (w : Word) : Nat := bitsOf w.toNat 53 52
/-- CLR of an MMA. -/
def mmaClr (w : Word) : Bool := bitAt w.toNat 54
/-- AMX of an MMA. -/
def mmaAmx (w : Word) : Bool := bitAt w.toNat 55
/-- Whether A comes from an fo port. -/
def mmaPort (w0 : Word) : Bool := bitAt w0.toNat 63
/-- First row of an MDRN or MCLR. -/
def drnRow (w : Word) : Nat := bitsOf w.toNat 8 0
/-- Rows of an MDRN or MCLR. -/
def drnM (w : Word) : Nat := bitsOf w.toNat 25 16 + 1
/-- Target format of an MDRN. -/
def drnFmt (w : Word) : Nat := bitsOf w.toNat 35 32
/-- The run that an MMA opens; SHAPE does not matter to an integer run (R75). -/
def mmaRun (c : Cmd) : Run := .open (if mmaAcc c.w1 = 2 then 0 else c.q.toNat % 4) (mmaAcc c.w1)

/-- The numbers lo to lo + n − 1. -/
def span (lo n : Nat) : List Nat := (List.range n).map (lo + ·)

/-! ## The issued view (R233, R426) -/

/-- Format and MX flag of each VALID slot, run, held format and validity of each row, and which scale sets are VALID. -/
structure MxView where
  slots : List (Nat × (Nat × Bool))
  rows : List (Nat × (Run × Option Nat × Bool))
  cs0 : Bool
  cs1 : Bool

/-- A row as the view keeps it. -/
def MxView.row (v : MxView) (r : Nat) : Run × Option Nat × Bool := (mapGet r v.rows).getD (.none, none, true)

/-- The view of the state that stands. -/
def Mxe.viewNow (x : Mxe) : MxView :=
  { slots := (x.slots.filter fun s => s.2.valid).map fun s => (s.1, (s.2.fmt, s.2.mx)),
    rows := x.rows.map fun r => (r.1, (r.2.run, r.2.held, r.2.valid)), cs0 := x.cs0.isSome, cs1 := x.cs1.isSome }

/-- Change the rows of a range. -/
def MxView.onRows (v : MxView) (rs : List Nat) (f : Run × Option Nat × Bool → Run × Option Nat × Bool) : MxView :=
  { v with rows := rs.foldl (fun m r => mapSet r (f ((mapGet r m).getD (.none, none, true))) m) v.rows }

/-- What a load leaves in its slots: from the command's words, or for a global source from the page as it stood at issue, kept in
the first byte of the command's buffer (log 34). -/
def Cmd.slotCode (c : Cmd) : Option (Nat × Bool) :=
  match c.buf with
  | [] => none
  | b :: _ => if b = 0xFF#8 then none else some (b.toNat % 16, bitAt b.toNat 4)

/-- The view after one more command (R233); of the cancelled ones, those that have started complete (R229). -/
def MxView.after (v : MxView) (c : Cmd) : MxView :=
  if c.cancelled && !c.started then v
  else match c.kind with
  | .mldb | .mldbT =>
    { v with slots := (span (mSlot c.w1) (mCnt c.w1)).foldl (fun m s => match c.slotCode with
        | some x => mapSet s x m
        | none => mapErase s m) v.slots }
  | .mzb =>
    { v with slots := (span (mSlot c.w0) (mCnt c.w0)).foldl (fun m s => mapSet s (ldbFmt c.w0, ldbMx c.w0) m) v.slots }
  | .mma | .mmat =>
    let rs := span (mmaRow c.w1) (mmaM c.w1)
    let bad := (span (mSlot c.w1) (mCnt c.w1)).any (fun s => (mapGet s v.slots).isNone) ||
      (!mmaClr c.w1 && rs.any fun r => !(v.row r).2.2)
    v.onRows rs fun x =>
      if bad then (x.1, x.2.1, false)
      else
        let y := if mmaClr c.w1 then (.none, none, true) else x
        if y.1 = .none then (mmaRun c, y.2.1, y.2.2) else y
  | .mdrn =>
    let rs := span (drnRow c.w1) (drnM c.w1)
    if rs.any fun r => !(v.row r).2.2 then v
    else v.onRows rs fun x => match x.1 with
      | .none => x
      | .open _ a => (.none, some a, x.2.2)
  | .mclr => v.onRows (span (drnRow c.w0) (drnM c.w0)) fun _ => (.none, none, true)
  | .mscl => if bitAt c.w1.toNat 0 then { v with cs1 := true } else { v with cs0 := true }
  | _ => v

/-- The issued view of a task: what stands after every matrix command of tl8, those that wait for their append among them. -/
def Task.issuedView (tk : Task) : MxView :=
  let cmds := (tk.timeline 8).cmds ++ (tk.appends.filter fun a => a.tl = 8).map (·.cmd)
  cmds.foldl MxView.after tk.mxe.viewNow

/-! ## Checks (R234) -/

/-- A break of R234: cause, DETAIL, %taddr, and the offending word. -/
abbrev MxCheck := Option (Nat × BitVec 16 × Word × Nat)

/-- A condition on a command word. -/
def mxOk (ok : Bool) (n : Nat) : MxCheck := if ok then none else some (5, 5, 0, n)
/-- An alignment of a scratchpad or weight-store offset. -/
def mxAlign (w : Word) (m n : Nat) : MxCheck := if w.toNat % m = 0 then none else some (3, 0, w, n)
/-- A scratchpad range. -/
def mxSpad (v : Carve) (w : Word) (len n : Nat) : MxCheck := if v.spadOk w.toNat len then none else some (5, 2, w, n)
/-- No bit outside a mask. -/
def only (w mask : Word) : Bool := w &&& ~~~mask = 0

/-- The first break. -/
def firstMx : List MxCheck → MxCheck
  | [] => none
  | some x :: _ => some x
  | none :: xs => firstMx xs

/-- What the checks know of the core: carve-out, bytes of weight store, and issued view. -/
structure MxEnv where
  carve : Carve
  weight : Nat
  view : MxView

/-- Checks of MLDB and MLDB.T (R235, R236); `code` is what a global page gives, when it is known (log 72, log 93). -/
def ldbCheck (env : MxEnv) (t : Bool) (code : Option (Nat × Bool)) (w0 w1 w2 w3 : Word) : MxCheck :=
  let space := ldbSpace w1
  let global := space = 0
  let fmt := if global then code.elim 0 (·.1) else ldbFmt w1
  let mx := if global then code.elim false (·.2) else ldbMx w1
  let known := !global || code.isSome
  let w := fmtWidth fmt
  let n := mCnt w1 * passLen fmt
  let len := if t then 31 * w2.toNat + ceilDiv (n * w) 8 else (n - 1) * w2.toNat + 4 * w
  firstMx [
    mxOk (!global || w0.toNat % 8 = 0) 0,
    mxOk (only w1 0x1F37F7F && mSlot w1 + mCnt w1 ≤ 128 && space ≠ 3 &&
      (if global then ldbFmt w1 = 0 && !ldbMx w1 else operandOk fmt mx) && (t || !mx)) 1,
    mxOk (below w2 32 && w2.toNat % 8 = 0 && (!known || (if t then n else 32) * w ≤ 8 * w2.toNat)) 2,
    mxOk (w3 = 0 || (mx && !global)) 3,
    if global then none else mxAlign w0 8 0,
    if space = 1 then mxSpad env.carve w0 len 0
    else if space = 2 && env.weight < w0.toNat + len then some (5, 2, w0, 0) else none,
    if mx && space = 1 then mxSpad env.carve w3 n 3
    else if mx && space = 2 && env.weight < w3.toNat + n then some (5, 2, w3, 3) else none]

/-- Checks of MMA and MMAT (R231, R234, R238). -/
def mmaCheck (env : MxEnv) (tern : Bool) (q : BitVec 3) (w0 w1 w2 w3 : Word) : MxCheck :=
  let slots := (span (mSlot w1) (mCnt w1)).map fun s => mapGet s env.view.slots
  let b := (slots.headD none).getD (0, false)
  let f := mmaFmt w1
  let a := mmaAcc w1
  let amx := mmaAmx w1
  let shape := if a = 2 then 0 else q.toNat % 4
  let rs := span (mmaRow w1) (mmaM w1)
  let pair := operandOk f amx && f ≠ 13 && decide ((a = 2) ↔ (integerFormat f && integerFormat b.1)) &&
    if tern then b.1 = 13 && f = 11 && a = 2 else b.1 ≠ 13 && compareWidth f ≤ compareWidth b.1
  let rowOk (r : Nat) : Bool :=
    let x := env.view.row r
    mmaClr w1 || (x.2.2 && (x.1 = .none || x.1 = .open shape a) && x.2.1.all (· = a))
  let n := mCnt w1 * passLen b.1
  let port := mmaPort w0
  let scales := mmaM w1 * n / 32
  firstMx [
    mxOk (if port then bitsOf w0.toNat 62 4 = 0 else below w0 22) 0,
    mxOk (only w1 0x00FF03FF01FF7F7F && mSlot w1 + mCnt w1 ≤ 128 && a ≠ 3 && slots.all (fun s => s = slots.headD none && s.isSome) &&
      pair && mmaRow w1 + mmaM w1 ≤ rowLimit (q.toNat % 4) a && rs.all rowOk) 1,
    mxOk (if port then below w2 1 else below w2 32 && w2.toNat % 8 = 0 && n * fmtWidth f ≤ 8 * w2.toNat) 2,
    mxOk (w3 = 0 || (below w3 22 && amx && !port)) 3,
    if port then none else mxAlign w0 8 0,
    if port then none else mxSpad env.carve w0 ((mmaM w1 - 1) * w2.toNat + ceilDiv (n * fmtWidth f) 8) 0,
    if amx && !port then mxSpad env.carve w3 scales 3 else none]

/-- Checks of MDRN (R234, R243). -/
def drnCheck (env : MxEnv) (w0 w1 w2 w3 : Word) : MxCheck :=
  let f := drnFmt w1
  let mx := bitAt w1.toNat 41
  let cs := if bitAt w1.toNat 40 then env.view.cs1 else env.view.cs0
  let rs := span (drnRow w1) (drnM w1)
  let rowOk (r : Nat) : Bool :=
    let x := env.view.row r
    x.2.2 && (x.1 ≠ .none || x.2.1.isSome)
  let target := if mx then mxFormat f else f ≤ 5 || f = 10 || f = 11
  firstMx [
    mxOk (below w0 22) 0,
    mxOk (only w1 0x3FF03FF01FF && drnRow w1 + drnM w1 ≤ 512 && target && (!bitAt w1.toNat 39 || cs) && rs.all rowOk) 1,
    mxOk (below w2 32 && w2.toNat % 8 = 0 && 4 * fmtWidth f ≤ w2.toNat) 2,
    mxOk (w3 = 0 || (below w3 22 && mx)) 3,
    mxAlign w0 8 0,
    mxSpad env.carve w0 ((drnM w1 - 1) * w2.toNat + 4 * fmtWidth f) 0,
    if mx then mxSpad env.carve w3 (drnM w1) 3 else none]

/-- Checks of MCLR (R242). -/
def clrCheck (w0 w1 w2 w3 : Word) : MxCheck :=
  firstMx [mxOk (only w0 0x3FF01FF && drnRow w0 + drnM w0 ≤ 512) 0, mxOk (w1 = 0) 1, mxOk (w2 = 0) 2, mxOk (w3 = 0) 3]

/-- Checks of MSCL (R242). -/
def sclCheck (env : MxEnv) (w0 w1 w2 w3 : Word) : MxCheck :=
  firstMx [mxOk (below w1 1) 1, mxOk (w2 = 0) 2, mxOk (w3 = 0) 3, mxAlign w0 4 0, mxSpad env.carve w0 128 0]

/-- Checks of MZB (R237). -/
def zbCheck (w0 w1 w2 w3 : Word) : MxCheck :=
  firstMx [mxOk (only w0 0x1F07F7F && mSlot w0 + mCnt w0 ≤ 128 && operandOk (ldbFmt w0) (ldbMx w0)) 0,
    mxOk (w1 = 0) 1, mxOk (w2 = 0) 2, mxOk (w3 = 0) 3]

/-- The checks of a matrix command (log 71). -/
def mxCheck (env : MxEnv) (kind : CmdKind) (q : BitVec 3) (code : Option (Nat × Bool)) (w0 w1 w2 w3 : Word) : MxCheck :=
  match kind with
  | .mldb => ldbCheck env false code w0 w1 w2 w3
  | .mldbT => ldbCheck env true code w0 w1 w2 w3
  | .mma => mmaCheck env false q w0 w1 w2 w3
  | .mmat => mmaCheck env true q w0 w1 w2 w3
  | .mdrn => drnCheck env w0 w1 w2 w3
  | .mclr => clrCheck w0 w1 w2 w3
  | .mscl => sclCheck env w0 w1 w2 w3
  | _ => zbCheck w0 w1 w2 w3

/-- What the focused core's checks know. -/
def Cur.mxEnv (c : Cur) (s : State) : MxEnv :=
  { carve := c.team.carve, weight := (s.part c.team.vf).elim 0 fun p => p.desc.wbanks.length * weightBankBytes,
    view := c.task.issuedView }

/-- The format and MX flag that a global page gives a load (R236), when its page has a translation that may be read and an allowed
format. -/
def State.pageCode (s : State) (vf va : Nat) (via : List Nat) : Option (Nat × Bool) :=
  match s.xlate vf va .read via with
  | .bad _ _ => none
  | .ok e => if e.geo ≤ 1 && operandOk e.fmt (e.geo = 1) then some (e.fmt, decide (e.geo = 1)) else none

/-- The byte that a load keeps of its format (log 34). -/
def codeByte : Option (Nat × Bool) → Byte
  | none => 0xFF#8
  | some (f, mx) => BitVec.ofNat 8 (f % 16 + 16 * b2n mx)

/-- The format that a load will give its slots, as known at issue. -/
def State.loadCode (s : State) (c : Cur) (w0 w1 : Word) : Option (Nat × Bool) :=
  if ldbSpace w1 = 0 then s.pageCode c.team.vf w0.toNat c.task.engVia else some (ldbFmt w1, ldbMx w1)

/-- Issue of a matrix command (R232–R234); it waits in place while the graph sequencer runs (R250). -/
def mxIssue (a d : Reg) (e : Bool) (kind : CmdKind) (q : BitVec 3) (s : State) : Out :=
  withCur s fun c =>
    if c.task.gsq.running then .next s
    else
      let code (c : Cur) (s : State) (w0 w1 : Word) : Option (Nat × Bool) := s.loadCode c w0 w1
      engIssue a d 8 e kind q
        (fun c s w0 w1 w2 w3 =>
          (mxCheck (c.mxEnv s) kind q (code c s w0 w1) w0 w1 w2 w3).map fun x =>
            (x.1, x.2.1, x.2.2.1, if x.1 = 5 ∧ x.2.1 = 5 then BitVec.ofNat 64 x.2.2.2 else 0))
        (fun c s w0 =>
          ((if kind = .mldb || kind = .mldbT then [codeByte (code c s w0 (c.task.regs.val (regAfter a 1)))] else []), none, false)) s

/-- MLDB (R235, R236). -/
def execMldb (a d : Reg) (e : Bool) (s : State) : Out := mxIssue a d e .mldb 0 s
/-- MLDB.T (R235, R236). -/
def execMldbT (a d : Reg) (e : Bool) (s : State) : Out := mxIssue a d e .mldbT 0 s
/-- MMA (R238, R239). -/
def execMma (a d : Reg) (e : Bool) (q : BitVec 2) (s : State) : Out := mxIssue a d e .mma (q.setWidth 3) s
/-- MMAT (R238, R239). -/
def execMmat (a d : Reg) (e : Bool) (q : BitVec 2) (s : State) : Out := mxIssue a d e .mmat (q.setWidth 3) s
/-- MDRN (R243, R244). -/
def execMdrn (a d : Reg) (e : Bool) (s : State) : Out := mxIssue a d e .mdrn 0 s
/-- MCLR (R242). -/
def execMclr (a d : Reg) (e : Bool) (s : State) : Out := mxIssue a d e .mclr 0 s
/-- MSCL (R242). -/
def execMscl (a d : Reg) (e : Bool) (s : State) : Out := mxIssue a d e .mscl 0 s
/-- MZB (R237). -/
def execMzb (a d : Reg) (e : Bool) (s : State) : Out := mxIssue a d e .mzb 0 s

/-! ## Status and the sequencer's start -/

/-- The value of MCHK (R245). -/
def Mxe.mchk (x : Mxe) : Word :=
  BitVec.ofNat 64 (b2n (x.rows.any fun r => r.2.sat.any (· = true)) * 2 ^ 48 + min x.err 0xFFFF * 2 ^ 32 + min x.rerun (2 ^ 32 - 1))

/-- MCHK writes the checksum counts and the saturation summary at issue (R245). -/
def execMchk (d : Reg) (s : State) : Out :=
  issueWrite s 4 d (fun r => r.dst d) (fun _ => (s.cur.map fun c => c.task.mxe.mchk).getD 0) fun _ => false

/-- MSIG writes SIG at issue (R246). -/
def execMsig (d : Reg) (s : State) : Out :=
  issueWrite s 4 d (fun r => r.dst d) (fun _ => (s.cur.map fun c => c.task.mxe.sig).getD 0) fun _ => false

/-- GSQ starts the graph sequencer, or reports that it runs (R180, R250); its address is consumed when poisoned. -/
def execGsq (d a : Reg) (e : Bool) (s : State) : Out :=
  issue s (fun r => (r.dst d).then (r.src a e)) fun c =>
    let r := c.task.regs
    let go (tk : Task) (v : Word) : Out := .next (c.put s { tk with regs := (r.write d v false).advance 4 })
    if r.bad a then .next (c.consumeAddr s)
    else if c.task.gsq.running then go c.task 1
    else go { c.task with gsq := { c.task.gsq with running := r.val a ≠ 0, sect := r.val a, tile := 0, node := 0 } } 0

end Sys2Proof.Machine
end

