-- ==== Sys2Proof/Machine/MxeRun.lean ====
section
/-! DEFINITION. The matrix engine at work: runs and their shapes, tiles and their checks, loads, drains, the completion of
commands and the graph sequencer (R73, R75, R226–R250, R362). -/

namespace Sys2Proof.Machine

/-! ## Slots and rows -/

/-- A cleared row (R242). -/
def Row.clear : Row :=
  { vals := List.replicate 32 0, run := .none, held := none, valid := true, sat := List.replicate 32 false, parts := [], wide := [],
    poison := false }

/-- Row r of the accumulator array. -/
def Mxe.row (x : Mxe) (r : Nat) : Row := (mapGet r x.rows).getD Row.clear

/-- Change rows. -/
def Mxe.onRows (x : Mxe) (rs : List Nat) (f : Row → Row) : Mxe :=
  { x with rows := rs.foldl (fun m r => mapSet r (f ((mapGet r m).getD Row.clear)) m) x.rows }

/-- Clear rows. -/
def Mxe.clearRows (x : Mxe) (rs : List Nat) : Mxe := { x with rows := rs.foldl (fun m r => mapErase r m) x.rows }

/-- Mark rows INVALID. -/
def Mxe.spoilRows (x : Mxe) (rs : List Nat) : Mxe := x.onRows rs fun r => { r with valid := false }

/-- Make slots INVALID. -/
def Mxe.spoilSlots (x : Mxe) (ss : List Nat) : Mxe := { x with slots := ss.foldl (fun m s => mapErase s m) x.slots }

/-- The VALID slot with a number. -/
def Mxe.slot (x : Mxe) (n : Nat) : Option Slot := (mapGet n x.slots).bind fun s => if s.valid then some s else none

/-- B(s, k, n): the decoded value of a slot (R239). -/
def Slot.value (s : Slot) (k n : Nat) : Num :=
  let bits := (mapGet (k * 32 + n) s.vals).getD 0
  if s.mx then decodeMx s.fmt ((mapGet (n * (passLen s.fmt / 32) + k / 32) s.scales).getD 0x7F) bits else decodeNum s.fmt bits

/-- `sat(int32, v)` of R66 for the exact sum of column n, as 32 bits, and whether the clamp changed it (R75): a sum that lies between
integers, which a scale brings (R208, R240), takes the nearest, a tie the even one; of a NaN the result and the flag are free (log 146). -/
def satSum (n : Nat) (v : Num) : Nat × Bool :=
  if v = .nan then ((Config.satNaN n).toNat % 2 ^ 32, bitAt (Config.satNaN n).toNat 32)
  else (wrapOf 32 (roundToIntW 32 0 v), numLt (numOfInt (2 ^ 31 - 1)) v || numLt v (numOfInt (-2 ^ 31)))

/-! ## Runs (R73, R75, R239) -/

/-- One rounded addition in an accumulator format, RNE. -/
def accAdd (f : Nat) (x : Nat) (y : Num) : Nat := roundFloat f 0 false (numAdd false (decodeNum f x) y)

/-- One level of the pairwise tree: neighbours added and rounded. -/
def pairLevel (f : Nat) : List Num → List Num
  | a :: b :: xs => decodeNum f (roundFloat f 0 false (numAdd false a b)) :: pairLevel f xs
  | xs => xs

/-- The tree over a block of 32. -/
def blockTree (f : Nat) (xs : List Num) : Num :=
  (pairLevel f (pairLevel f (pairLevel f (pairLevel f (pairLevel f xs))))).headD (.fin true 0 0)

/-- PAIR32 over the products of a pass, block by block. -/
def pairBlocks (f : Nat) (acc : Nat) : Nat → List Num → Nat
  | 0, _ => acc
  | n + 1, ps => pairBlocks f (accAdd f acc (blockTree f (ps.take 32))) n (ps.drop 32)

/-- Column n of a QUAD run's partial sums after products, by k mod 4. -/
def quadAdd (f : Nat) : Nat → List Nat → List Num → List Nat
  | _, s, [] => s
  | k, s, p :: ps => quadAdd f (k + 1) (s.modify (k % 4) fun x => accAdd f x p) ps

/-- A row whose run is NONE opens one with acc0 as its held value. -/
def Row.open_ (r : Row) (shape acc : Nat) : Row :=
  if r.run ≠ .none then r
  else
    let f := accFormat acc
    { r with run := .open shape acc,
             parts := if acc ≠ 2 && shape = 2 then List.replicate 32 (List.replicate 4 (2 ^ signPos f)) else [],
             wide := if acc = 2 || shape = 3 then r.vals.map (decodeNum f) else [] }

/-- Products of one column appended to a row's run. -/
def Row.append (r : Row) (shape acc n : Nat) (ps : List Num) : Row :=
  let f := accFormat acc
  if acc = 2 || shape = 3 then { r with wide := r.wide.modify n fun x => ps.foldl (numAdd false) x }
  else if shape = 2 then { r with parts := r.parts.modify n fun s => quadAdd f 0 s ps }
  else if shape = 1 then { r with vals := r.vals.modify n fun x => pairBlocks f x (ps.length / 32) ps }
  else { r with vals := r.vals.modify n fun x => ps.foldl (accAdd f) x }

/-- The closed value of column n of an open run, and whether an integer clamp changed it (log 146). -/
def Row.closed (r : Row) (shape acc n : Nat) : Nat × Bool :=
  let f := accFormat acc
  let x := r.vals.getD n 0
  let w := r.wide.getD n (.fin false 0 0)
  if acc = 2 then satSum n w
  else if shape = 3 then (roundFloat f 0 false w, false)
  else if shape = 2 then
    let s := r.parts.getD n []
    let p (i : Nat) := decodeNum f (s.getD i 0)
    let x0 := decodeNum f (roundFloat f 0 false (numAdd false (p 0) (p 1)))
    let x1 := decodeNum f (roundFloat f 0 false (numAdd false (p 2) (p 3)))
    let x2 := decodeNum f (roundFloat f 0 false (numAdd false x0 x1))
    (roundFloat f 0 false (numAdd false x2 (decodeNum f x)), false)
  else (x, false)

/-- Close a row's run; the row keeps its closed value (R244). -/
def Row.close (r : Row) : Row :=
  match r.run with
  | .none => r
  | .open shape acc =>
    let cs := tabulate 32 (r.closed shape acc)
    { r with vals := cs.map (·.1), run := .none, held := some acc, parts := [], wide := [],
             sat := tabulate 32 fun n => r.sat.getD n false || (cs.getD n (0, false)).2 }

/-! ## The checks of a tile (R241) -/

/-- An exact sum. -/
def exactSum (xs : List Num) : Num := xs.foldl (numAdd false) (.fin false 0 0)

/-- The exact value of column n of an open run. -/
def Row.exact (r : Row) (n : Nat) : Num :=
  match r.run with
  | .none => decodeNum (accFormat (r.held.getD 0)) (r.vals.getD n 0)
  | .open shape acc =>
    let f := accFormat acc
    if acc = 2 || shape = 3 then r.wide.getD n (.fin false 0 0)
    else if shape = 2 then exactSum (decodeNum f (r.vals.getD n 0) :: (r.parts.getD n []).map (decodeNum f))
    else decodeNum f (r.vals.getD n 0)

/-- Whether a value is finite. -/
def Num.finite : Num → Bool
  | .fin _ _ _ => true
  | _ => false

/-- One comparison; a NaN or an infinity is not compared. `tol` none asks for equality. -/
def sumOk (got ref abs : Num) (tol : Option Nat) : Bool :=
  if !got.finite || !ref.finite || !abs.finite then true
  else
    let d := numAbs (numAdd false got (numNeg ref))
    match tol with
    | none => !numLt (.fin false 0 0) d
    | some t => !numLt (numScale (-(t : Int)) abs) d

/-- The row checks and the column checks of a tile: A rows, B values, and the runs before and after (log 70). -/
def tileOk (a : List (List Num)) (b : List (List Num)) (before after : List Row) (tol : Option Nat) : Bool :=
  let mul (x y : List Num) : Num := exactSum ((x.zip y).map fun p => numMul p.1 p.2)
  let cols := List.range 32
  let bsum := b.map exactSum
  let babs := b.map fun r => exactSum (r.map numAbs)
  let rowOk (ai : List Num) (x y : Row) : Bool :=
    let got := exactSum (cols.map fun n => numAdd false (y.exact n) (numNeg (x.exact n)))
    let abs := exactSum (mul (ai.map numAbs) babs :: cols.map fun n => numAbs (x.exact n))
    sumOk got (mul ai bsum) abs tol
  let k := b.length
  let col (f : Num → Num) (j : Nat) : Num := exactSum (a.map fun ai => f (ai.getD j (.fin false 0 0)))
  let asum := tabulate k (col id)
  let aabs := tabulate k (col numAbs)
  let colOk (n : Nat) : Bool :=
    let bn := b.map fun r => r.getD n (.fin false 0 0)
    let got := exactSum ((before.zip after).map fun p => numAdd false (p.2.exact n) (numNeg (p.1.exact n)))
    let abs := exactSum (mul aabs (bn.map numAbs) :: before.map fun x => numAbs (x.exact n))
    sumOk got (mul asum bn) abs tol
  ((a.zip (before.zip after)).all fun p => rowOk p.1 p.2.1 p.2.2) && cols.all colOk

/-- The tolerance of a run's checks: an exponent, or equality. -/
def tileTol (shape acc k : Nat) : Option Nat :=
  if acc = 2 || shape = 3 then none else some ((if acc = 0 then 24 else 53) - Nat.log2 k - 3)

/-! ## A from scratchpad and from a port (R239, R240) -/

/-- A value with the scale of its block. -/
def aValue (f : Nat) (scale : Option Nat) (bits : Nat) : Num :=
  match scale with
  | none => decodeNum f bits
  | some x => decodeMx f x bits

/-- Row i of A for pass j from scratchpad, and whether it is poisoned. -/
def Task.aRow (tk : Task) (v : Carve) (c : Cmd) (k i j : Nat) : List Num × Bool :=
  let f := mmaFmt c.w1
  let w := fmtWidth f
  let x := tk.spadBytes v (c.w0.toNat + i * c.w2.toNat + j * k * w / 8) (k * w / 8)
  let nb := mCnt c.w1 * k / 32
  let sc := if mmaAmx c.w1 then tk.spadBytes v (c.w3.toNat + i * nb + j * (k / 32)) (k / 32) else ([], false)
  let bits := leNat x.1
  (tabulate k fun y => aValue f (if mmaAmx c.w1 then some (sc.1.getD (y / 32) 0).toNat else none) (valAt w y bits), x.2 || sc.2)

/-- The values of data tokens in order; `scale` is the tile scale in force (R208, R240; log 68). -/
def portValues (f : Nat) (amx tsc : Bool) : Nat → List Token → List Num
  | _, [] => []
  | scale, t :: ts =>
    let s1 := if tsc && t.head then t.sbx.toNat % 256 else scale
    let n := valsPerToken f
    let w := fmtWidth f
    (tabulate n fun v =>
      let sc := if tsc then some s1 else if amx then some (bitsOf t.sbx.toNat (8 * (v / 32) + 7) (8 * (v / 32))) else none
      if t.ok w v then aValue f sc (t.val w v) else .fin false 0 0) ++ portValues f amx tsc s1 ts

/-- The tile scale after data tokens (log 68). -/
def scaleAfter (tsc : Bool) : Nat → List Token → Nat
  | s, [] => s
  | s, t :: ts => scaleAfter tsc (if tsc && t.head then t.sbx.toNat % 256 else s) ts

/-- Rows of a row tile. -/
def tileRows (m i : Nat) : Nat := min 32 (m - 32 * i)

/-- Data tokens that a row tile takes from its port (log 68). -/
def Cmd.tileTokens (c : Cmd) (k i : Nat) : Nat :=
  ceilDiv (tileRows (mmaM c.w1) i * (mCnt c.w1 * k)) (valsPerToken (mmaFmt c.w1))

/-- Drop the first n DATA tokens of a port, with what stands before them (log 68). -/
def dropData : Nat → List Token → List Token
  | 0, ts => ts
  | _, [] => []
  | n + 1, t :: ts => if t.kind = .data then dropData n ts else dropData (n + 1) ts

/-! ## Tiles (R239–R241, R426) -/

/-- Number of tiles of an MMA: passes by row tiles. -/
def Cmd.tiles (c : Cmd) : Nat := mCnt c.w1 * ceilDiv (mmaM c.w1) 32

/-- One tile added to its rows: the rows before, with their A values and poison, give the rows after. -/
def tileAdd (shape acc : Nat) (b : List (List Num)) (bad : Bool) (rows : List Row) (a : List (List Num × Bool)) : List Row :=
  (rows.zip a).map fun p =>
    let r := (List.range 32).foldl (fun (r : Row) n =>
      r.append shape acc n ((p.2.1.zip b).map fun q => numMul q.1 (q.2.getD n (.fin false 0 0)))) p.1
    { r with poison := r.poison || bad || p.2.2 }

/-- Set a row. -/
def Mxe.putRows (x : Mxe) (rs : List Nat) (rows : List Row) : Mxe :=
  { x with rows := (rs.zip rows).foldl (fun m p => mapSet p.1 p.2 m) x.rows }

/-- The bits that an MMA or MMAT enters into SIG (R246). -/
def mmaSig (c : Cmd) (b : Nat) : Word :=
  BitVec.ofNat 64 (2 ^ (c.q.toNat % 4)) ||| BitVec.ofNat 64 (2 ^ (4 + mmaAcc c.w1)) ||| BitVec.ofNat 64 (2 ^ (8 + mmaFmt c.w1)) |||
  BitVec.ofNat 64 (2 ^ (24 + b)) ||| (if c.kind = .mmat then 0x80 else 0)

/-- The counter of a section whose last command this is has to translate before the command may complete (R173, R250). -/
def State.sectionGate (s : State) (c : Cur) (x : Cmd) (cancelled : Bool) : EngIo :=
  match mapGet x.num c.task.gsq.adds with
  | none => .ok s [] false
  | some a =>
    if cancelled then .ok s [] false
    else s.engXlate c.tid c.mem 8 x.num a.toNat true fun s1 _ =>
      let s2 := s1.counterAdd c.team.vf a.toNat 1 c.task.engVia
      if s1.logFull s2 c.team.vf then .stall (s1.fillLog s2 c.team.vf) else .ok s1 [] false

/-- The section's last command completes: the section's counter takes its add (R250). -/
def State.sectionAdd (s : State) (c : Cur) (num : Nat) (cancelled : Bool) : State :=
  match mapGet num c.task.gsq.adds with
  | none => s
  | some a =>
    let s1 := s.modCur fun tk => { tk with gsq := { tk.gsq with adds := mapErase num tk.gsq.adds } }
    if cancelled then s1 else s1.counterAdd c.team.vf a.toNat 1 c.task.engVia

/-- A matrix command leaves tl8, with its cause if it raises one. -/
def State.mxDone (s : State) (c : Cur) (x : Cmd) (cause : Option Cause) (f : Mxe → Mxe) : State :=
  ((s.sectionAdd c x.num (x.cancelled && !x.started)).dropStall c.team.vf c.tid c.mem 8 x.num).modCur fun tk =>
    let tk1 := { tk with mxe := f tk.mxe }.complete 8 x.num
    match cause with
    | none => tk1
    | some z => tk1.addCause z

/-- A region error of the MXE: its rows, and for a checksum its slots, become INVALID, REGION is raised and the launch is tainted
(R240, R241, R362). -/
def State.mxRegion (s : State) (c : Cur) (x : Cmd) (checksum : Bool) : State :=
  let cause : Cause := { cause := 10, detail := if checksum then 0x10 else 0x11, taddr := 0, tval := BitVec.ofNat 64 x.num }
  (s.mxDone c x (some cause) fun m =>
    let b := ((m.slot (mSlot x.w1)).map (·.fmt)).getD 0
    let m1 := { m.spoilRows (span (mmaRow x.w1) (mmaM x.w1)) with sig := m.sig ||| mmaSig x b }
    if checksum then { m1.spoilSlots (span (mSlot x.w1) (mCnt x.w1)) with rerun := m1.rerun + 1, err := m1.err + 1, upset := 0 } else m1).modLaunch
      c.team.launch fun l => { l with tainted := true }

/-- The A rows of a tile: pass j of row tile i; none while a port has too few values. -/
def Task.tileA (tk : Task) (v : Carve) (c : Cmd) (k i j init : Nat) : Option (List (List Num × Bool)) :=
  let n := tileRows (mmaM c.w1) i
  if mmaPort c.w0 then
    let q := (tk.snk (BitVec.ofNat 4 (c.w0.toNat % 16))).fifo.filter fun t => t.kind = .data
    let need := c.tileTokens k i
    if q.length < need then none
    else
      let ts := q.take need
      let vs := portValues (mmaFmt c.w1) (mmaAmx c.w1) (bitAt c.w2.toNat 0) init ts
      let per := mCnt c.w1 * k
      let bad := ts.any (·.poison)
      some (tabulate n fun r => ((vs.drop (r * per + j * k)).take k, bad))
  else some (tabulate n fun r => tk.aRow v c k (32 * i + r) j)

/-- The tokens of a port without the first EOS that the engine skips: one with fewer than `need` data tokens before it, or with none
(R240). -/
def skipEos : Nat → List Token → Option (List Token)
  | _, [] => none
  | need, t :: ts =>
    if t.kind = .eos then some ts
    else if t.kind = .data then (if need ≤ 1 then none else (skipEos (need - 1) ts).map (t :: ·))
    else (skipEos need ts).map (t :: ·)

/-- The engine skips an EOS at its port, and the delivery counts as a sink point (R214, R240); none when it meets none (log 68). -/
def Task.mxeSkip (tk : Task) (n : BitVec 4) (need : Nat) : Option Task :=
  match skipEos need (tk.snk n).fifo with
  | none => none
  | some rest =>
    let tk1 := tk.modSnk n fun p => p.leave rest
    match tk1.feeder n.toNat with
    | none => some tk1
    | some t => some (tk1.modTh t fun x =>
        { x with elems := x.elems.map fun e => if deliversTo n.toNat e then (e.1, { e.2 with snkEos := true }) else e }.settle.settleRounds)

/-- Port that an MMA takes A from. -/
def mmaFo (c : Cmd) : BitVec 4 := BitVec.ofNat 4 (c.w0.toNat % 16)

/-- MXE_TILE_EXECUTE: the MMA at the head of tl8 does one tile: passes in order, or from a port row tile by row tile, past the EOS
tokens that stand before its values. A tile that fails its check runs once more; a second failure is a region error (R239–R241; log 67,
log 70). -/
def execMxeTileExecute (s : State) : Out :=
  withCur s fun c =>
    match c.task.headCmd 8 with
    | none => .next s
    | some x =>
      if !(x.kind = .mma || x.kind = .mmat) || (x.cancelled && !x.started) || x.tiles ≤ x.pos || s.engHeld c.team x then .next s
      else
        let rs := span (mmaRow x.w1) (mmaM x.w1)
        let slots := (span (mSlot x.w1) (mCnt x.w1)).map c.task.mxe.slot
        if slots.any (·.isNone) || (x.pos = 0 && !mmaClr x.w1 && rs.any fun r => !(c.task.mxe.row r).valid) then
          .next (s.modCur fun tk => { tk with mxe := tk.mxe.spoilRows rs }.modCmd 8 x.num fun y =>
            { y with pos := x.tiles, started := true, bad := true })
        else
          let it := ceilDiv (mmaM x.w1) 32
          let np := mCnt x.w1
          let (j, i) := if mmaPort x.w0 then (x.pos % np, x.pos / np) else (x.pos / it, x.pos % it)
          match slots[j]? with
          | some (some b) =>
            let k := passLen b.fmt
            let tsc := mmaPort x.w0 && bitAt x.w2.toNat 0
            let init := if x.pos = 0 then (Config.freeByte s.fresh).toNat else x.acked
            match if mmaPort x.w0 then c.task.mxeSkip (mmaFo x) (x.tileTokens k i) else none with
            | some tk => .next (c.put s tk)
            | none =>
            match c.task.tileA c.team.carve x k i j init with
            | none =>
              let port := c.task.snk (mmaFo x)
              let fed := x.started || port.fifo.any fun y => y.kind = .data
              let over_ := match c.task.feeder (mmaFo x).toNat with
                | none => true
                | some t => (c.task.th t).st = .complete
              if x.short || (fed && over_) then
                if x.stall.isSome then .next s
                else match s.sectionGate c x false with
                  | .ok s1 _ _ => .next (s1.mxRegion c x false)
                  | r => .next (r.after s)
              else .next s
            | some a =>
              let mxe := if x.pos = 0 && mmaClr x.w1 then c.task.mxe.clearRows rs else c.task.mxe
              let acc := mmaAcc x.w1
              let shape := if acc = 2 then 0 else x.q.toNat % 4
              let trs := span (mmaRow x.w1 + 32 * i) a.length
              let before := trs.map fun r => (mxe.row r).open_ shape acc
              let bv := tabulate k fun y => tabulate 32 fun n => b.value y n
              let after := tileAdd shape acc bv b.poison before a
              let again := tileAdd shape acc bv b.poison before a
              let ok := mxe.upset = 0 && tileOk (a.map (·.1)) bv before after (tileTol shape acc k)
              if !ok && !(mxe.upset < 2 && tileOk (a.map (·.1)) bv before again (tileTol shape acc k)) then
                if x.stall.isSome then .next s
                else match s.sectionGate c x false with
                  | .ok s1 _ _ => .next (s1.mxRegion c x true)
                  | r => .next (r.after s)
              else
                let last := mmaPort x.w0 && j + 1 = np
                let need := x.tileTokens k i
                let used := ((c.task.snk (mmaFo x)).fifo.filter fun t => t.kind = .data).take need
                let s1 := if tsc && x.pos = 0 then s.tick else s
                let s2 := if ok then s1 else s1.modLaunch c.team.launch fun l => { l with corrected := true }
                .next (s2.modCur fun tk =>
                  let m1 := mxe.putRows trs (if ok then after else again)
                  let tk1 := { tk with mxe := if ok then m1 else { m1 with rerun := m1.rerun + 1, upset := 0 } }
                  let tk2 := if last then tk1.modSnk (mmaFo x) fun p => p.leave (dropData need p.fifo) else tk1
                  tk2.modCmd 8 x.num fun y => { y with pos := y.pos + 1, started := true,
                                                       acked := if last then scaleAfter tsc init used else init })
          | _ => .next s

/-! ## Loads (R236) -/

/-- Rows that a load reads: data offset and bytes of each, with its scale bytes after. -/
def ldbRows (c : Cmd) (f : Nat) (mx : Bool) : List (Nat × Nat) × List (Nat × Nat) :=
  let n := mCnt c.w1 * passLen f
  let w := fmtWidth f
  let pitch := c.w2.toNat
  if c.kind = .mldbT then
    (tabulate 32 fun i => (i * pitch, n * w / 8), if mx then tabulate 32 fun i => (i * (n / 32), n / 32) else [])
  else (tabulate n fun k => (k * pitch, 4 * w), [])

/-- Split a range into runs within lines. -/
def lineRuns : Nat → Nat → Nat → List (Nat × Nat)
  | 0, _, _ => []
  | fuel + 1, a, n => if n = 0 then [] else (a, lineRun a n) :: lineRuns fuel (a + lineRun a n) (n - lineRun a n)

/-- The accesses of a load from the scratchpad or the weight store in order: address and bytes (R236). -/
def ldbRuns (c : Cmd) (f : Nat) (mx : Bool) : List (Nat × Nat) :=
  let rows := ldbRows c f mx
  (rows.1.flatMap fun r => lineRuns (r.2 + 1) (c.w0.toNat + r.1) r.2) ++
  rows.2.flatMap fun r => lineRuns (r.2 + 1) (c.w3.toNat + r.1) r.2

/-- The byte at a position of a list of ranges: its offset, and how many bytes of its range are left from there. -/
def rowAt : List (Nat × Nat) → Nat → Option (Nat × Nat)
  | [], _ => none
  | (d, n) :: rs, i => if i < n then some (d + i, n - i) else rowAt rs (i - n)

/-- What a load from global pages takes next after its first bytes: data from an offset on, or with MX the scale of the unit there
(R236, R262). -/
def ldbNext (c : Cmd) (e : TlbEntry) (pos : Nat) : Option (Nat × Nat × Bool) :=
  let data := (ldbRows c e.fmt (e.geo = 1)).1
  let units := if e.geo = 1 then data.flatMap fun r => tabulate (r.2 / unitBytes e) fun b => (r.1 + b * unitBytes e, 1) else []
  match rowAt data pos with
  | some (d, n) => some (d, n, false)
  | none => (rowAt units (pos - (data.map (·.2)).sum)).map fun x => (x.1, x.2, true)

/-- Bits of value (k, n) of tile t in the bytes that a load read. -/
def ldbBits (c : Cmd) (f : Nat) (bs : List Byte) (t k n : Nat) : Nat :=
  let w := fmtWidth f
  let x := t * passLen f + k
  if c.kind = .mldbT then
    let rb := mCnt c.w1 * passLen f * w / 8
    valAt w x (leNat ((bs.drop (n * rb)).take rb))
  else valAt w n (leNat ((bs.drop (x * (4 * w))).take (4 * w)))

/-- The slots that a load writes. -/
def ldbSlot (c : Cmd) (f : Nat) (mx : Bool) (bs : List Byte) (bad : Bool) (t : Nat) : Slot :=
  let k := passLen f
  let data := mCnt c.w1 * k * 32 * fmtWidth f / 8
  let nb := mCnt c.w1 * k / 32
  let vals := (List.range (k * 32)).filterMap fun i =>
    let v := ldbBits c f bs t (i / 32) (i % 32)
    if v = 0 then none else some (i, v)
  let scales := if mx then (List.range k).map fun i =>
      (i, (bs.getD (data + i / (k / 32) * nb + t * (k / 32) + i % (k / 32)) 0).toNat) else []
  { fmt := f, mx := mx, valid := true, vals := vals, scales := scales, poison := bad }

/-- The first TERN value 10 of a load, by the address of its byte (R236); no page of TERN carries a scale (R262). -/
def ldbTern (c : Cmd) (f : Nat) (bs : List Byte) : Option Nat :=
  if f ≠ 13 then none
  else
    let k := passLen f
    (List.range (mCnt c.w1 * k * 32)).findSome? fun i =>
      let (t, y, n) := (i / (k * 32), i / 32 % k, i % 32)
      if ldbBits c f bs t y n = 2 then
        let x := t * k + y
        let d := if c.kind = .mldbT then n * c.w2.toNat + x * 2 / 8 else x * c.w2.toNat + n * 2 / 8
        some (c.w0.toNat + d)
      else none

/-- One access of a load. -/
def State.ldbRead (s : State) (c : Cur) (x : Cmd) (a n : Nat) : EngIo :=
  if ldbSpace x.w1 = 0 then s.engRead c.tid c.mem 8 x a n
  else if ldbSpace x.w1 = 1 then
    let r := c.task.spadBytes c.team.carve a n
    .ok s r.1 r.2
  else match s.part c.team.vf with
    | none => .wait
    | some p =>
      if s.refreshing p.desc a then .wait
      else .ok s (memReadBytes p.wstore a n) ((List.range n).any fun i => p.poisonW.contains (a + i))

/-- A load takes bytes and moves its position on. -/
def State.ldbTake (s : State) (c : Cur) (x : Cmd) (a n on : Nat) : EngIo :=
  (s.ldbRead c x a n).bind fun s bs bad =>
    .ok (s.modCur fun tk => tk.modCmd 8 x.num fun y =>
      { y with pos := y.pos + on, started := true, buf := y.buf ++ bs, bad := y.bad || bad }) [] false

/-- A load raises FMT and completes with its slots INVALID (R236, R358). -/
def State.ldbFault (s : State) (c : Cur) (x : Cmd) (addr : Nat) : State :=
  s.mxDone c x (some (fmtCause 8 (BitVec.ofNat 64 addr) x.num)) fun m => m.spoilSlots (span (mSlot x.w1) (mCnt x.w1))

/-- A load has read everything: its slots, or FMT at a TERN value 10 (R236). -/
def State.ldbEnd (s : State) (c : Cur) (x : Cmd) (f : Nat) (mx : Bool) : EngIo :=
  let bs := x.buf.drop 1
  match ldbTern x f bs with
  | some a => .ok (s.ldbFault c x a) [] false
  | none =>
    .ok (s.mxDone c x none fun m =>
      { m with slots := (numbered (span (mSlot x.w1) (mCnt x.w1))).foldl (fun q p => mapSet p.2 (ldbSlot x f mx bs x.bad p.1) q) m.slots })
      [] false

/-- A load from global pages goes on by one access, each page with its own size and layout (R236, R262, R263); a page of another format or
geometry than its first, or than it allows, is the fault of R236 (log 67). -/
def State.ldbGlobal (s : State) (c : Cur) (x : Cmd) : EngIo :=
  let w0 := x.w0.toNat
  s.engXlate c.tid c.mem 8 x.num w0 false fun s e =>
    let mx := e.geo = 1
    if !(e.geo ≤ 1 && operandOk e.fmt mx && (x.kind = .mldbT || !mx)) then .ok (s.ldbFault c x e.base) [] false
    else match ldbNext x e x.pos with
    | none => s.ldbEnd c x e.fmt mx
    | some (d, n, scale) =>
      let read (s : State) (e2 : TlbEntry) (va : Nat) : EngIo :=
        if e2.geo ≠ e.geo || e2.fmt ≠ e.fmt then .ok (s.ldbFault c x e2.base) [] false
        else if scale then s.ldbTake c x (scaleAddr e2 va 0) 1 1
        else
          let k := min (lineRun va n) (max 1 (roomOf e2 va))
          s.ldbTake c x va k k
      if mx then runAt c.tid c.mem 8 x.num false read (pageFuel d) s w0 d
      else s.engXlate c.tid c.mem 8 x.num (w0 + d) false fun s e2 => read s e2 (w0 + d)

/-- A load goes on by one access, or completes with its slots (R236; log 67). -/
def State.ldbStep (s : State) (c : Cur) (x : Cmd) : State :=
  let r :=
    if ldbSpace x.w1 = 0 then s.ldbGlobal c x
    else match (ldbRuns x (ldbFmt x.w1) (ldbMx x.w1))[x.pos]? with
      | some (a, n) => s.ldbTake c x a n 1
      | none => s.ldbEnd c x (ldbFmt x.w1) (ldbMx x.w1)
  r.after s

/-! ## Drains, clears, scales, zero slots (R237, R242, R244) -/

/-- What MDRN writes for a row: bytes, and the block's scale with MX. -/
def drnRowBytes (c : Cmd) (r : Row) (cs : Option ScaleSet) : List Byte × Option Byte :=
  let f := drnFmt c.w1
  let rm := bitsOf c.w1.toNat 37 36
  let ovf := bitAt c.w1.toNat 38
  let x := tabulate 32 fun n =>
    let v := decodeNum (accFormat (r.held.getD 0)) (r.vals.getD n 0)
    match cs with
    | none => v
    | some z => numMul v (decodeNum 1 (z.vals.getD n 0).toNat)
  if bitAt c.w1.toNat 41 then
    let y := encodeMx f rm x
    (leBytes (4 * fmtWidth f) (packVals (fmtWidth f) y.2), some (BitVec.ofNat 8 y.1))
  else (leBytes (4 * fmtWidth f) (packVals (fmtWidth f) (x.map (roundNum f rm ovf))), none)

/-- MDRN writes its rows into the scratchpad in order, with MX the scale byte of a row before its values, where the core's LDPs see them
once a wait covers it (R142, R244). -/
def Task.drain (tk : Task) (v : Carve) (c : Cmd) (cs : Option ScaleSet) : List (Nat × Nat) → Task
  | [] => tk
  | (i, n) :: rest =>
    let r := (tk.mxe.row n).close
    let w := drnRowBytes c r cs
    let bad := r.poison || cs.any (·.poison)
    let tag : CmdTag := { tl := 8, num := c.num, sync := none, ctr := none, passed := false, added := false }
    let tk1 := match w.2 with
      | none => tk
      | some b => tk.engPut v tag bad (c.w3.toNat + i) [b]
    let tk2 := tk1.engPut v tag bad (c.w0.toNat + i * c.w2.toNat) w.1
    { tk2 with mxe := tk2.mxe.putRows [n] [r] }.drain v c cs rest

/-- MDRN (R244, R246, R426): it leaves everything unwritten when a row or scale set that it uses is INVALID. -/
def State.drnDone (s : State) (c : Cur) (x : Cmd) : State :=
  let rs := span (drnRow x.w1) (drnM x.w1)
  let csc := bitAt x.w1.toNat 39
  let set := if bitAt x.w1.toNat 40 then c.task.mxe.cs1 else c.task.mxe.cs0
  if rs.any (fun r => !(c.task.mxe.row r).valid) || (csc && set.isNone) then s.mxDone c x none id
  else
    let s1 := s.modCur fun tk => tk.drain c.team.carve x (if csc then set else none) (numbered rs)
    s1.mxDone c x none fun m => { m with sig := m.sig ||| BitVec.ofNat 64 (2 ^ (40 + drnFmt x.w1)) }

/-- Zero slots (R237). -/
def zeroSlot (w0 : Word) : Slot :=
  { fmt := ldbFmt w0, mx := ldbMx w0, valid := true, vals := [], poison := false,
    scales := if ldbMx w0 then tabulate (passLen (ldbFmt w0)) fun i => (i, 0x7F) else [] }

/-- MXE_COMMAND_COMPLETE: the command at the head of tl8 takes its effect and completes, in order (R248); a load goes on by one
access (log 67). -/
def execMxeCommandComplete (s : State) : Out :=
  withCur s fun c =>
    match c.task.headCmd 8 with
    | none => .next s
    | some x =>
      let cancelled := x.cancelled && !x.started
      if !cancelled && (x.stall.isSome || s.engHeld c.team x) then .next s
      else match s.sectionGate c x cancelled with
      | .wait => .next s
      | .stall s1 => .next s1
      | .ok s0 _ _ =>
        if cancelled then .next (s0.mxDone c x none id)
        else match x.kind with
          | .mldb | .mldbT => .next (s0.ldbStep c x)
          | .mma | .mmat =>
            if x.pos < x.tiles then .next s
            else match if mmaPort x.w0 then c.task.mxeSkip (mmaFo x) 0 else none with
            | some tk => .next (c.put s tk)
            | none =>
              let b := ((c.task.mxe.slot (mSlot x.w1)).map (·.fmt)).getD 0
              .next (s0.mxDone c x none fun m => if x.bad then m else { m with sig := m.sig ||| mmaSig x b })
          | .mdrn => .next (s0.drnDone c x)
          | .mclr => .next (s0.mxDone c x none fun m => m.clearRows (span (drnRow x.w0) (drnM x.w0)))
          | .mscl =>
            let r := c.task.spadBytes c.team.carve x.w0.toNat 128
            let z : ScaleSet := { vals := tabulate 32 fun n => BitVec.ofNat 32 (leNat ((r.1.drop (4 * n)).take 4)), poison := r.2 }
            .next (s0.mxDone c x none fun m => if bitAt x.w1.toNat 0 then { m with cs1 := some z } else { m with cs0 := some z })
          | .mzb =>
            .next (s0.mxDone c x none fun m =>
              { m with slots := (span (mSlot x.w0) (mCnt x.w0)).foldl (fun q n => mapSet n (zeroSlot x.w0) q) m.slots })
          | _ => .next s

/-! ## The graph sequencer (R249, R250) -/

/-- The matrix command of a node's fn byte. -/
def nodeKind (n : Nat) : Option CmdKind :=
  match n with
  | 0 => some .mldb | 1 => some .mldbT | 2 => some .mma | 3 => some .mmat | 4 => some .mdrn | 5 => some .mclr | 6 => some .mscl
  | 7 => some .mzb | _ => none

/-- A section header: T, N, next and MCA, when it keeps its limits. -/
def sectionOf (sect : Word) (bs : List Byte) : Option (Nat × Nat × Word × Word) :=
  let f (off n : Nat) : Nat := leNat ((bs.drop off).take n)
  if sect.toNat % 64 = 0 ∧ f 0 4 ≠ 0 ∧ 1 ≤ f 4 2 ∧ f 4 2 ≤ 64 ∧ f 8 8 % 64 = 0 ∧ f 16 8 % 8 = 0 ∧ f 6 2 = 0 ∧ f 24 40 = 0 then
    some (f 0 4, f 4 2, BitVec.ofNat 64 (f 8 8), BitVec.ofNat 64 (f 16 8))
  else none

/-- The sequencer stops on a failing node or header and raises PROT 0x0005 (log 69). -/
def State.gsqStop (s : State) (addr : Word) (word : Word) : State :=
  s.modCur fun tk => { tk with gsq := { tk.gsq with running := false } }.addCause
    { cause := 5, detail := 5, taddr := addr, tval := word }

/-- The command words of a node for a tile. -/
def nodeWord (bs : List Byte) (t i : Nat) : Word :=
  let f (off : Nat) : Word := BitVec.ofNat 64 (leNat ((bs.drop off).take 8))
  if i = 3 then f 32 else f (8 + 8 * i) + BitVec.ofNat 64 t * f (40 + 8 * i)

/-- Append the node at the sequencer's position, and move on (R250; log 69). -/
def State.gsqNode (s : State) (c : Cur) (h : Nat × Nat × Word × Word) (addr : Word) (bs : List Byte) : State :=
  let g := c.task.gsq
  let w (i : Nat) : Word := nodeWord bs g.tile i
  let q : BitVec 3 := BitVec.ofNat 3 (bs.getD 1 0).toNat
  let rest := leNat ((bs.drop 2).take 6)
  match nodeKind (bs.getD 0 0).toNat with
  | none => s.gsqStop addr 4
  | some kind =>
    let shaped := kind = .mma || kind = .mmat
    if (bs.getD 1 0).toNat ≥ (if shaped then 4 else 1) || rest ≠ 0 then s.gsqStop addr 4
    else
      let code := s.loadCode c (w 0) (w 1)
      match mxCheck (c.mxEnv s) kind q code (w 0) (w 1) (w 2) (w 3) with
      | some (_, _, _, n) => s.gsqStop addr (BitVec.ofNat 64 n)
      | none =>
        let buf := if kind = .mldb || kind = .mldbT then [codeByte code] else []
        let num := (c.task.timeline 8).issued + 1
        let cmd := { Cmd.new kind q (w 0) (w 1) (w 2) (w 3) c.team.openSeq buf none with num := num.toNat }
        let lastNode := g.node + 1 = h.2.1
        let lastTile := lastNode && g.tile + 1 = h.1
        let g1 : Gsq :=
          if lastTile then
            { running := h.2.2.1 ≠ 0, sect := h.2.2.1, tile := 0, node := 0,
              adds := if h.2.2.2 = 0 then g.adds else mapSet num.toNat h.2.2.2 g.adds }
          else if lastNode then { g with tile := g.tile + 1, node := 0 }
          else { g with node := g.node + 1 }
        s.modCur fun tk => { tk with gsq := g1 }.modTl 8 fun t => { t with issued := num, cmds := t.cmds ++ [cmd] }

/-- GSQ_APPEND: the sequencer reads its section header and node as an engine reads, and appends the node's command once tl8 has
room and no matrix command waits for its append (R250; log 67); a poisoned header or node is consumed as a command word is (R387). -/
def execGsqAppend (s : State) : Out :=
  withCur s fun c =>
    let g := c.task.gsq
    let stalled := (s.part c.team.vf).any fun p => p.stalled.any fun z =>
      !z.txq && z.team = c.tid && z.member = c.mem && z.tl = 8 && z.num = 0
    if !g.running || stalled || Config.chainSize ≤ (c.task.timeline 8).cmds.length || c.task.appends.any (fun a => a.tl = 8) then
      .next s
    else
      let walker := Cmd.new .mclr 0 0 0 0 0 c.team.openSeq [] none
      let at_ := (g.sect.toNat + 64 * (g.node + 1)) % 2 ^ 64
      if g.sect.toNat % 64 ≠ 0 then .next (s.tick.gsqStop g.sect (Config.freeWord s.fresh))
      else
        .next (((s.engRead c.tid c.mem 8 walker g.sect.toNat 64).bind fun s1 hb poisoned =>
          if poisoned then .ok (c.consumeAddr s1) [] false
          else match sectionOf g.sect hb with
          | none => .ok (s1.tick.gsqStop g.sect (Config.freeWord s1.fresh)) [] false
          | some h =>
            (s1.engRead c.tid c.mem 8 walker at_ 64).bind fun s2 nb bad =>
              .ok (if bad then c.consumeAddr s2 else s2.gsqNode c h (BitVec.ofNat 64 at_) nb) [] false).after s)

end Sys2Proof.Machine
end

