-- ==== Sys2Proof/Machine/SegEvents.lean ====
section
/-! DEFINITION. What happens to a segment after its closing barrier: commit, refusal, abort, and the application of ordered
atomics (R43, R44, R146, R151, R152, R164–R166, R264–R272, R319). -/

namespace Sys2Proof.Machine

/-! ## Commit (R151, R152, R264–R266, R319, R376) -/

/-- Whether a member still has engine commands of a segment (R151). -/
def Task.segBusy (tk : Task) (seq : Word) : Bool :=
  tk.appends.any (fun a => a.cmd.seg = seq) || tk.tl.toList.any fun t => t.cmds.any fun c => c.seg = seq

/-- The page of a line that a segment wrote, when it is not tracked. A page unmapped since counts as tracked (log 61). -/
def State.lineFree (s : State) (vf : Nat) (g : Seg) (line : Nat) : Option (Nat × Nat) :=
  match s.lookup vf (64 * (mapGet line g.vlines).getD line) [] with
  | none => none
  | some e => e.free

/-- Put the versions of one line into committed memory (R264, R379). -/
def State.commitLine (s : State) (vf : Nat) (g : Seg) (line : Nat) : State :=
  let free := s.lineFree vf g line
  let s := s.logLine vf (64 * line) free.isNone
  let old := memReadBytes s.mem (64 * line) 64
  let new := tabulate 64 fun i => (mapGet (64 * line + i) g.fin).getD (old.getD i 0)
  ({ s with mem := memWriteBytes s.mem (64 * line) new, prev := mapSet line old s.prev,
            poisonMem := s.poisonMem.filter fun a => !(a / 64 = line && (mapGet a g.fin).isSome) }.noteFree free).noteWrite line

/-- The digest term of a line as it stands (R319). -/
def State.lineTerm (s : State) (g : Seg) (line : Nat) : Word :=
  shakeWord (leBytes 8 (64 * (mapGet line g.vlines).getD line) ++ memReadBytes s.mem (64 * line) 64)

/-- Add to a digest register. -/
def Regs.fold (r : Regs) (v : Word) : Regs := { r with dgs := r.dgs + v }

/-- Fold a commit's terms into every member and into the snapshots of the segments that follow (R319; log 35). -/
def Team.fold (tm : Team) (v : Word) : Team :=
  let inSeg (g : Seg) : Seg := { g with snaps := g.snaps.map fun x => { x with regs := x.regs.fold v } }
  { tm with members := tm.members.map (fun tk => { tk with regs := tk.regs.fold v }), segs := tm.segs.map inSeg,
            openSeg := tm.openSeg.map inSeg }

/-- Abort the segments of the launch with greater timestamps that have a line of a commit in their read set, the committing team's own
among them, each with every later segment of its team (R265–R267, R269; log 87). -/
def State.abortReaders (s : State) (launch : Nat) (ts : Nat) (lines : List Nat) : State :=
  { s with teams := s.teams.map fun p =>
      if p.2.launch ≠ launch then p
      else match p.2.uncommitted.find? fun g => decide (ts < p.2.segTs g.seq) && g.reads.any lines.contains with
        | none => p
        | some g => (p.1, p.2.abortFrom g.seq) }

/-- Log the block of four heap places that holds place k of a bush's heap, before its first change of the interval (R311, R378, R379; log
99; log 99). -/
def State.logHeap (s : State) (vf b k : Nat) : State :=
  match s.part vf with
  | none => s
  | some p =>
    let block := heapBlockNum b (k / 4)
    if p.logged s.rin 1 block then s
    else s.logAppend vf { line := block, rin := s.rin, kind := 1, poison := false, data := heapBlock (p.heapSlots b) (k / 4) }

/-- Change one place of a bush's heap. -/
def State.setHeap (s : State) (vf b k : Nat) (v : Option (Word × Word)) : State :=
  (s.logHeap vf b k).modPart vf fun p => { p with heaps := mapSet b (heapPut (p.heapSlots b) k v) p.heaps }

/-- Make a push final: the entry takes the first free place. -/
def State.finalPush (s : State) (vf : Nat) (x : Nat × (Word × Word)) : State :=
  s.setHeap vf x.1 (((s.part vf).map fun p => (p.heapSlots x.1).findIdx (·.isNone)).getD 0) (some x.2)

/-- Make a pop final: the entry's place is free. -/
def State.finalPop (s : State) (vf : Nat) (x : Nat × (Word × Word)) : State :=
  match (s.part vf).bind fun p => (p.heapSlots x.1).findIdx? (· == some x.2) with
  | none => s
  | some k => s.setHeap vf x.1 k none

/-- The first poison that a segment's commit would consume: a byte it wrote, or a heap entry (R387; log 28). -/
def Seg.poisoned (g : Seg) : Option Nat := g.poison.find? fun a => 2 ^ 52 ≤ a || (mapGet a g.fin).isSome

/-- The line that another team of a DISJOINT launch has committed already (R270). -/
def Launch.taken (l : Launch) (tid : Nat) (lines : List Nat) : Option Nat :=
  lines.find? fun x => (mapGet x l.lines).any fun t => t ≠ tid

/-- Drop a closed segment of a team; its AMOO entries go. -/
def State.dropSeg (s : State) (tid : Nat) (seq : Word) : State :=
  { s with amoos := s.amoos.filter fun x => !(x.team == tid && x.seq == seq) }.modTeam tid fun tm =>
    { tm with segs := tm.segs.filter fun g => g.seq ≠ seq }

/-- The closed segment of a team that commits next: in a DISJOINT launch the oldest; in an ORDERED one that of the smallest
timestamp, the oldest among equals (R265, R266, R270; log 62). -/
def Team.nextCommit (tm : Team) (disjoint : Bool) : Option Seg :=
  match tm.segs with
  | [] => none
  | g :: gs => if disjoint then some g else some (gs.foldl (fun a b => if b.ts.toNat < a.ts.toNat then b else a) g)

/-- Perform a commit: versions, digest, heap entries, counter adds, aborts of readers, and the launch's record of it (log 98). -/
def State.performCommit (s : State) (tid : Nat) (tm : Team) (g : Seg) (l : Launch) : State :=
  let lines := verLines g.fin
  let s1 := lines.foldl (fun s x => s.commitLine tm.vf g x) s
  let terms := (lines.map fun x => s1.lineTerm g x).foldl (· + ·) 0
  let s2 := if l.hdr.disjoint then s1 else s1.abortReaders tm.launch g.ts.toNat lines
  let s3 := g.pops.foldl (fun s x => s.finalPop tm.vf x) (g.pushes.foldl (fun s x => s.finalPush tm.vf x) s2)
  let s4 := g.adds.foldl (fun s va => s.counterAdd tm.vf va 1 []) s3
  let late := !l.hdr.disjoint && l.maxTs.any fun t => g.ts.toNat < t
  let s5 := (s4.dropSeg tid g.seq).modTeam tid fun tm =>
    { tm.fold terms with committed := tm.committed + 1, lastLate := late }
  s5.modLaunch tm.launch fun l =>
    { l with maxTs := some (max (l.maxTs.getD 0) g.ts.toNat),
             lines := if l.hdr.disjoint then lines.foldl (fun m x => mapSet x tid m) l.lines else l.lines }

/-- A refused commit (R270): the versions go, with the launches submitted in the segment, and every member that has not left its core
has DISJOINT pending. -/
def State.refuseCommit (s : State) (tid : Nat) (g : Seg) (line : Nat) : State :=
  let cause : Cause := { cause := 9, detail := 0, taddr := BitVec.ofNat 64 (64 * (mapGet line g.vlines).getD line), tval := 0 }
  ((s.withdraw g.launches).dropSeg tid g.seq).modTeam tid fun tm => { tm with members := tm.members.map fun tk => if tk.slot = .gone then tk else tk.addCause cause }

/-- SEGMENT_COMMIT: the next segment that a team has handed to commit (R151, R152, R265, R270, R380, R387; log 98). -/
def execSegmentCommit (team : Nat) (s : State) : Out :=
  match mapGet team s.teams with
  | none => .next s
  | some tm =>
    match s.launchOf tm with
    | none => .next s
    | some l => match tm.nextCommit l.hdr.disjoint with
    | none => .next s
    | some g =>
      let due := l.hdr.disjoint || s.atFrontier tm.launch g.ts.toNat || l.maxTs.any fun t => g.ts.toNat < t
      let held := s.amoos.any fun x => x.team == team && x.seq == g.seq && !x.applied
      if !due || g.abort || held || s.failing tm || tm.members.any (·.segBusy g.seq) then .next s
      else match if l.hdr.disjoint then l.taken team (verLines g.fin) else none with
        | some line => .next (s.refuseCommit team g line)
        | none =>
          match g.poisoned with
          | some a =>
            if 2 ^ 52 ≤ a then .next (s.consume (coreEndpoint (16 * (a - 2 ^ 52))) 0 0)
            else .next (s.consume (s.homeSlice tm.vf a) 0 (a / 64 * 64))
          | none => s.orStall (s.performCommit team tm g l) tm.vf

/-! ## Abort (R43, R44, R153, R229, R267) -/

/-- Commands not yet appended take their numbers as cancelled ones, and their fills take the numbers (R43). -/
def Task.cancelAppends (tk : Task) (seqs : List Word) : List Append → Task
  | [] => { tk with appends := tk.appends.filter fun a => !seqs.contains a.cmd.seg }
  | x :: xs =>
    if seqs.contains x.cmd.seg then
      let num := (tk.timeline x.tl).issued + 1
      let tk1 := tk.modTl x.tl fun t =>
        { t with issued := num, cmds := t.cmds ++ [{ x.cmd with num := num.toNat, cancelled := true }] }
      (tk1.resolve x.rd .append num false).cancelAppends seqs xs
    else tk.cancelAppends seqs xs

/-- Whether a command is the matrix engine's. -/
def CmdKind.ofMatrix : CmdKind → Bool
  | .mldb | .mldbT | .mma | .mmat | .mdrn | .mclr | .mscl | .mzb => true
  | .cpyG2g | .cpyG2s | .cpyS2g | .cpyS2s | .gtx | .gth | .pxst | .pxcp | .strmInG | .strmInS | .strmInW | .strmOutG
  | .strmOutS => false

/-- Cancel the commands of segments in every chain (R43); a started matrix command is marked and completes (R229). -/
def Task.cancelChains (tk : Task) (seqs : List Word) : Task :=
  let cancel (c : Cmd) : Cmd :=
    if seqs.contains c.seg then { c with cancelled := true, stall := if c.kind.ofMatrix && c.started then c.stall else none } else c
  { tk with tl := tk.tl.map fun t => { t with cmds := t.cmds.map cancel } }

/-- Whether an MMA that an abort lets complete still takes its values from a port (R229). -/
def Task.mmaOpen (tk : Task) (seqs : List Word) : Bool :=
  (tk.timeline 8).cmds.any fun c => seqs.contains c.seg && c.started && (c.kind = .mma || c.kind = .mmat) && mmaPort c.w0

/-- Ports that no live command uses return to their start; their tokens go (log 37). -/
def Task.clearPorts (tk : Task) : Task :=
  let used (out : Bool) (n : Nat) : Bool :=
    ((tk.timeline 14).cmds.any fun c => c.port = n && !c.cancelled && (if out then c.kind.isOut else c.kind.isIn)) ||
    (out && (tk.timeline 8).cmds.any fun c =>
      !c.cancelled && (c.kind = .mma || c.kind = .mmat) && mmaPort c.w0 && c.w0.toNat % 16 = n)
  (List.range 16).foldl (fun tk n =>
    let v : BitVec 4 := BitVec.ofNat 4 n
    let tk1 := if used false n then tk else tk.modSrc v fun _ => SrcPort.start
    if used true n then tk1 else tk1.modSnk v fun _ => SnkPort.start) tk

/-- COUNT, GEN and flags of a sync word as a snapshot has them (R158). -/
def Snap.sync (x : Snap) (off : Nat) : Nat × Nat × Nat :=
  let at_ (o : Nat) : Nat :=
    if x.carve.exchange && decide (x.carve.litBase ≤ o) then memReadLE x.lit (o - x.carve.litBase) 4 else memReadLE x.spad o 4
  (at_ (off + 4), at_ (off + 8), at_ (off + 12))

/-- Whether COUNT, GEN or flags of a sync word were poisoned at a snapshot (R387). -/
def Snap.syncBad (x : Snap) (off : Nat) : Bool :=
  let key (o : Nat) : Nat :=
    if x.carve.exchange && decide (x.carve.litBase ≤ o) then (if x.shadowSel then 2 ^ 22 else 2 ^ 23) + (o - x.carve.litBase) else o
  (List.range 12).any fun i => x.bad.contains (key (off + 4 + i))

/-- Every sync word that segments changed for a member returns to its fields of a snapshot (R158). -/
def Task.restoreSync (tk : Task) (c : Carve) (m : Nat) (gs : List Seg) (x : Snap) : Task :=
  (distinct (gs.flatMap fun g => g.syncs.getD m [])).foldl (fun tk off => tk.setSync c off (x.sync off) (x.syncBad off)) tk

/-- The shadow bank as a snapshot holds it, with its poison (R273, R387; log 100). What it has of a byte of an exchange that is still on its way is what it had at
the snapshot, so that the byte has been overtaken only by what stood there then (R274). -/
def Task.restoreBanks (tk : Task) (x : Snap) : Task :=
  let base := if x.shadowSel then 2 ^ 23 else 2 ^ 22
  let ahead (y : PxByte) : Bool := x.px.any fun z => z.sender = y.sender && z.num = y.num && z.off = y.off && z.hit
  let inBank (k : Nat) : Bool := base ≤ k && k < base + 2 ^ 22
  let tk1 : Task :=
    { tk with px := tk.px.map (fun y => { y with hit := ahead y }), hid := unhide inBank tk.hid,
              poisonS := setUnion (x.bad.filter inBank) (tk.poisonS.filter fun k => !inBank k) }
  if x.shadowSel then { tk1 with shadowSel := true, bank1 := x.shadow } else { tk1 with shadowSel := false, bank0 := x.shadow }

/-- Whether a cause outlasts an abort: DIGEST, DISJOINT, and the region error of a matrix command, which completes (R229). -/
def Cause.lasts (c : Cause) : Bool := c.cause = 8 || c.cause = 9 || (c.cause = 10 && (c.detail = 0x10 || c.detail = 0x11))

/-- A member returns to a snapshot, with the sync words that segments changed (R44, R158, R229, R267) and the setting of GLNT, which its
registers hold (R181; log 153). -/
def Task.restore (tk : Task) (c : Carve) (m : Nat) (gs : List Seg) (x : Snap) : Task :=
  let tk1 := (tk.restoreBanks x).restoreSync c m gs x
  { tk1 with regs := x.regs, retry := x.retry, fills := [], arrived := none, entered := none,
             causes := tk1.causes.filter Cause.lasts,
             gsq := { tk1.gsq with running := false }, mxe := { tk1.mxe with sig := x.sig, rerun := x.rerun, err := x.err } }

/-- A member that was RETIRING runs again (R54, R312). -/
def Task.rerun (tk : Task) (clk : Nat) : Task := if tk.slot = .retiring then { tk.startRun clk with slot := .running } else tk

/-- The segments that an abort takes with its oldest flagged one. -/
def fromAborted : List Seg → List Seg
  | [] => []
  | g :: gs => if g.abort then g :: gs else fromAborted gs

/-- The segments that an abort keeps. -/
def beforeAborted : List Seg → List Seg
  | [] => []
  | g :: gs => if g.abort then [] else g :: beforeAborted gs

/-- The snapshot with %retry counted (R267). -/
def Snap.again (x : Snap) : Snap := { x with retry := x.retry + 1 }

/-- The snapshot that a member returns to: none for a member that had retired before the segment opened. -/
def Seg.snapOf (g : Seg) (m : Nat) : Option Snap :=
  match g.snaps[m]? with
  | none => none
  | some x => if x.regs.seq = g.seq then some x.again else none

/-- Unload the thickets of a member: their tokens are counted, and a running phase's log entry is written (R44, R331). -/
def State.unload (s : State) (c : Cur) : State := [0, 1, 2, 3].foldl (fun s i => s.killThicket c (BitVec.ofNat 2 i)) s

/-- The stalls of commands that are no longer in a chain, or cancelled, go. -/
def State.dropStalls (s : State) (vf t : Nat) : State :=
  match mapGet t s.teams with
  | none => s
  | some tm =>
    let live (x : Stall) : Bool :=
      x.team ≠ t || match tm.members[x.member]? with
        | none => false
        | some tk =>
          if x.txq then true
          else if x.num = 0 then tk.gsq.running
          else (tk.cmd (BitVec.ofNat 4 x.tl) x.num).any fun c => !c.cancelled || c.stall.isSome
    s.modPart vf fun p => p.dropStalls fun x => !live x

/-- Whether an abort gives the fill its value. -/
def FillSrc.abandoned : FillSrc → Bool
  | .amoo | .append | .stk _ => true
  | _ => false

/-- Every fill whose value is still to come takes a value, free but for those of appended commands; the restoration overwrites them
(R34; log 36). -/
def Task.resolveFills (tk : Task) (v : Word) : Task :=
  { tk with fills := tk.fills.map fun f => if f.src.abandoned then { f with src := .value v false } else f }

/-- The bytes of exchanges that segments issued and that have not landed go (R43). -/
def Team.dropPx (tm : Team) (seqs : List Word) : Team :=
  let gone (x : PxByte) : Bool := (tm.members[x.sender]?).any fun tk => (tk.cmd 9 x.num).any fun c => seqs.contains c.seg
  { tm with members := tm.members.map fun tk => { tk with px := tk.px.filter fun x => !gone x } }

/-- An abort gives every fill that is still to come its value: appends and ordered atomics of the aborted segments go (R34, R267; log 36). -/
def State.abortFills (s : State) (team : Nat) (tm : Team) (seqs : List Word) : State :=
  let v := Config.freeWord s.fresh
  let stop (tk : Task) : Task := if tk.slot = .gone then tk else (tk.cancelAppends seqs tk.appends).resolveFills v
  let s0 := if tm.members.any fun tk => tk.fills.any (·.src.abandoned) then s.tick else s
  { s0 with amoos := s0.amoos.filter fun x => !(x.team == team && seqs.contains x.seq) }.setTeam team { tm with members := tm.members.map stop }

/-- What an abort stops at once (R43, R153, R229, R267): waits at barriers, ordered atomics, launches submitted, commands and
thickets; every fill then comes. -/
def State.abortStop (s : State) (team : Nat) (tm : Team) (gs : List Seg) : State :=
  let seqs := gs.map (·.seq)
  let stop (tk : Task) : Task :=
    if tk.slot = .gone then tk
    else (if tk.retired then tk else tk.leaveBarrier).cancelChains seqs
  let s1 := ((s.abortFills team tm seqs).leaveWaits team).withdraw (gs.flatMap (·.launches))
  match mapGet team s1.teams with
  | none => s1
  | some tm0 =>
    let tm1 := { tm0 with members := tm0.members.map stop }.dropPx seqs
    ((numbered tm1.members).foldl (fun s x => s.unload { tid := team, mem := x.1, team := tm1, task := x.2 })
      (s1.setTeam team tm1)).dropStalls tm.vf team

/-- An aborted segment starts over (R267). -/
def Seg.cleared (g : Seg) : Seg :=
  { g with ts := 0, own := g.own.map fun _ => [], seen := g.seen.map fun _ => [], unseen := [], pub := [], fin := [], poison := [],
           reads := [], marked := [], vlines := [], pushes := [], pops := [], adds := [], syncs := g.syncs.map fun _ => [], launches := [],
           abort := false, snaps := g.snaps.map Snap.again }

/-- ABORT_RESTORE: what the aborted segments did is undone at once; when every fill of the team has landed, and every MMA that takes
values from a port has completed, each member returns to the snapshot of the oldest aborted segment. In a swap it gives the
fills their values and takes effect at resumption (R43, R44, R229, R267, R318). -/
def execAbortRestore (team : Nat) (s : State) : Out :=
  match mapGet team s.teams with
  | none => .next s
  | some tm =>
    let gs := fromAborted tm.uncommitted
    match gs with
    | [] => .next s
    | g :: _ =>
      if !tm.swaps.isEmpty then .next (s.abortFills team tm (gs.map (·.seq)))
      else
        let s1 := s.abortStop team tm gs
        let waits (tk : Task) : Bool := tk.fillsPending || tk.mmaOpen (gs.map (·.seq))
        if ((mapGet team s1.teams).map fun tm => tm.members.any waits).getD false then .next s1
        else
          let back (m : Nat) (tk : Task) : Task :=
            match g.snapOf m with
            | none => tk
            | some x => (tk.clearPorts.restore tm.carve m gs x).rerun s.clk.toNat
          .next (s1.modTeam team fun tm =>
            { tm with members := (numbered tm.members).map (fun x => back x.1 x.2), segs := beforeAborted tm.segs,
                      openSeg := some g.cleared })

/-! ## Ordered atomics (R146) -/

/-- The bytes that an ordered atomic reads at its slice: its segment's versions, older ones of the team, committed memory (log 97). -/
def State.sliceByte (s : State) (tm : Team) (seq : Word) (pa : Nat) : Byte × Bool :=
  let older := tm.uncommitted.filter fun g => g.seq.toNat ≤ seq.toNat
  ((older.reverse.findSome? fun g => g.byte g.fin pa)).getD (s.committedByte pa)

/-- Whether the k-th entry may be applied now (R146): no other uncommitted segment of the launch has a smaller timestamp; of the entries
that reached the slice before it, those of its segment for its line are applied, and none of another segment has an equal timestamp (log
97; log 97). -/
def State.amooDue (s : State) (k : Nat) (x : Amoo) (tm : Team) : Bool :=
  let stamps := s.teams.flatMap fun t =>
    if t.2.launch ≠ x.launch then []
    else (t.2.uncommitted.filter fun g => !(t.1 = x.team && g.seq = x.seq)).map fun g => t.2.segTs g.seq
  let before := (s.amoos.take k).filter fun y => y.launch = x.launch && s.amooHome y = s.amooHome x
  (tm.seg x.seq).any (fun g => !g.abort) && stamps.all (s.amooTs x ≤ ·) &&
    before.all fun y =>
      if y.team = x.team && y.seq = x.seq then y.applied || decide (y.addr / 64 ≠ x.addr / 64) else s.amooTs y ≠ s.amooTs x

/-- Virtual address of an entry: that of its line's first access in the segment. -/
def Seg.vaOf (g : Seg) (pa : Nat) : Nat := 64 * (mapGet (pa / 64) g.vlines).getD (pa / 64) + pa % 64

/-- What an ordered atomic reads at its slice, as its page gives it (R262), and whether any byte is poisoned. -/
def State.sliceBytes (s : State) (tm : Team) (seq : Word) (va pa n : Nat) : List Byte × Bool :=
  let xs := tabulate n fun i => s.sliceByte tm seq (pa + i)
  let bs := xs.map (·.1)
  (((s.lookup tm.vf va []).map fun e => e.reads va bs).getD bs, xs.any (·.2))

/-- AMOO_APPLY: the k-th entry is applied at its slice: its value becomes a version of its segment, which has read the line, and its
destination fills (R146; log 97). -/
def execAmooApply (k : Nat) (s : State) : Out :=
  match s.amoos[k]? with
  | none => .next s
  | some x =>
    match mapGet x.team s.teams with
    | none => .next s
    | some tm =>
      if x.applied || !s.amooDue k x tm then .next s
      else match tm.seg x.seq with
        | none => .next s
        | some g =>
          let n := if x.wide then 8 else 4
          let va := g.vaOf x.addr
          let (s0, fired) := s.inject tm.vf x.addr
          let (bs, poison) := s.sliceBytes tm x.seq va x.addr n
          let bad := poison || fired
          let old := leNat bs
          let new := atomicOp x.op n old (x.operand.toNat % 2 ^ (8 * n))
          s0.storeVersion none x.team x.member x.seq va x.addr (leBytes n new) (bad || g.poison.contains x.addr) fun s1 =>
            let s2 := s1.modTeam x.team fun tm => tm.modSeg x.seq fun g => g.noteRead (!s.atFrontier tm.launch (tm.segTs x.seq)) x.addr
            .next ({ s2 with amoos := s2.amoos.set k { x with applied := true } }.modTask x.team x.member fun tk =>
              tk.resolve x.rd .amoo (BitVec.ofNat 64 old) bad)

end Sys2Proof.Machine
end

