-- ==== Sys2Proof/Machine/Sched.lean ====
section
/-! DEFINITION. Launch stages, bind records, team start, save and retirement, completion, occupant swaps and glint records
(R44–R56, R298–R317, R321–R329, R363–R372, R407). -/

namespace Sys2Proof.Machine

/-! ## Launch stages (R300–R303) -/

/-- Whether a launch's dependency is met (R300, R162): a counter without a translation has not been reached (log 44, log 85). -/
def State.depMet (s : State) (l : Launch) : Bool :=
  l.hdr.depc = 0 || match s.lookup l.vf l.hdr.depc.toNat [] with
    | none => false
    | some e => decide (l.hdr.depv ≤ s.pageLE e l.hdr.depc.toNat 8)

/-- A HELD launch waits for its counter, where that has a translation (R300; log 85). -/
def State.holdLaunch (s : State) (n : Nat) (l : Launch) : State :=
  match s.lookup l.vf l.hdr.depc.toNat [] with
  | none => s
  | some e => s.enterWait (.launch n) (e.pa l.hdr.depc.toNat) l.hdr.depv

/-- The dispatch hardware has read a global address, which may fire the error injection (R393; log 131). -/
def State.dispatchRead (s : State) (vf va : Nat) : State :=
  let s1 := s.walked vf va []
  match s1.lookup vf va [] with
  | none => s1
  | some e => (s1.inject vf (e.pa va)).1

/-- A launch's dependency has been read (R393). -/
def State.depRead (s : State) (l : Launch) : State := if l.hdr.depc = 0 then s else s.dispatchRead l.vf l.hdr.depc.toNat

/-- The digest of a launch (R321). -/
def Launch.digest (l : Launch) : List Byte := shake256 16 (l.retired.flatMap fun r => leBytes 8 r.1 ++ leBytes 8 r.2.1.toNat)

/-- The term sum of a launch (R322). -/
def Launch.msum (l : Launch) : Word := l.retired.foldl (fun v r => v + r.2.1) 0

/-- A completion record (R407). -/
def Launch.completion (l : Launch) (rin : Nat) : List Byte :=
  leBytes 4 l.lidx ++ leBytes 1 l.queue.toNat ++ leBytes 1 l.verdict ++ leBytes 2 l.status ++ leBytes 8 rin ++ l.digest ++
  leBytes 8 l.sig.toNat ++ leBytes 8 l.hdr.key.toNat ++ leBytes 8 l.pseq ++ leBytes 8 l.msum.toNat

/-- Records that the device-launch ring holds (R404). -/
def deviceRing : Nat := 4096

/-- Write a launch's completion record: to its packet's address, or into the device-launch ring (R404, R407). -/
def State.writeCompletion (s : State) (l : Launch) (bs : List Byte) : State :=
  if l.host then s.hostWrite l.record.toNat bs
  else match s.part l.vf with
    | none => s
    | some p =>
      (s.hostWrite (p.regs.dlbase.toNat + 64 * (p.regs.dltail.toNat % deviceRing)) bs).modPart l.vf fun p =>
        { p with regs := { p.regs with dltail := p.regs.dltail + 1 } }

/-- The entry of a record-mode launch (R324). -/
def Launch.recEntry (l : Launch) : RecEntry :=
  { key := l.hdr.key, occ := l.occ, team := l.hdr.team, trunc := l.dropped, sumchk := l.hdr.sumchk, digest := l.digest,
    sig := l.sig, pairs := l.retired, msum := l.msum, trace := l.trace }

/-- Put an entry into its record set, in place of one with its key and occurrence (R324). -/
def Part.putRec (p : Part) (n : Nat) (r : RecEntry) : Part :=
  { p with recs := mapSet n ((p.recSet n).filter (fun x => !(x.key = r.key && x.occ = r.occ)) ++ [r]) p.recs }

/-- A signature without the launch's part, which differs between record and bind mode (R246; log 38). -/
def sigRest (x : Word) : Word := x &&& 0x04FFFFFFFFFFFFFF#64

/-- Whether a bind-mode launch matches its record (R322, R325). -/
def Launch.agrees (l : Launch) (r : RecEntry) : Bool :=
  !l.digestTrap && sigRest l.sig == sigRest r.sig && (if l.hdr.sumchk then l.msum == r.msum else l.digest == r.digest)

/-- Whether a re-execution gave the recorded digest (R325). -/
def Launch.repaired (l : Launch) (r : RecEntry) : Bool := if l.hdr.sumchk then l.msum == r.msum else l.digest == r.digest

/-- A launch starts over as its one re-execution (R325). -/
def Launch.again (l : Launch) : Launch :=
  { l with retired := [], sig := 0, reexec := true, digestTrap := false, maxTs := none, lines := [], trace := [], traceAt := [] }

/-- The record that a bind-mode launch is checked against. -/
def State.recordOf (s : State) (l : Launch) : Option RecEntry :=
  match s.part l.vf with
  | none => none
  | some p => if l.mode = 2 then p.recFind l.hdr.trace l.hdr.key l.occ else none

/-- Whether a COMPLETE launch's record must wait for room in the device-launch ring (R404). -/
def State.completionHeld (s : State) (l : Launch) : Bool :=
  !l.host && match s.part l.vf with
    | none => false
    | some p => p.regs.dltail = p.regs.dlhead + BitVec.ofNat 64 deviceRing

/-- A COMPLETE launch's add at DONE (R303). -/
def State.addDone (s : State) (l : Launch) : State :=
  if l.verdict = 2 || l.hdr.done = 0 then s else s.counterAdd l.vf l.hdr.done.toNat 1 []

/-- A COMPLETE launch writes its completion record and adds at DONE, or waits in COMPLETE, for room in its ring or in the log (R303, R380,
R404, R407). -/
def State.postLaunch (s : State) (n : Nat) : State :=
  match mapGet n s.launches with
  | none => s
  | some l =>
    if l.stage ≠ .complete || l.posted || s.completionHeld l then s
    else if s.logFull (s.addDone l) l.vf then s.fillLog (s.addDone l) l.vf
    else ((s.writeCompletion l (l.completion s.rin)).addDone l).modLaunch n fun l => { l with posted := true, rinDone := s.rin }

/-- A launch becomes COMPLETE with a verdict and status; a record-mode launch writes its entry (R55, R300, R324). -/
def State.finishLaunch (s : State) (n : Nat) (l : Launch) (verdict status : Nat) : State :=
  let s1 := if l.mode = 1 then s.modPart l.vf fun p => p.putRec l.hdr.trace l.recEntry else s
  (s1.modLaunch n fun l => { l with stage := .complete, verdict := verdict, status := status }).postLaunch n

/-- Complete a launch all of whose teams have retired, or start its re-execution (R55, R300, R325; log 41). -/
def State.completeLaunch (s : State) (n : Nat) (l : Launch) : State :=
  let plain (fixed : Bool) : Nat := if l.tainted then 2 else if fixed || l.corrected then 1 else 0
  match s.recordOf l with
  | none => s.finishLaunch n l (plain false) (if l.unrecorded then 3 else 0)
  | some r =>
    if l.reexec then s.finishLaunch n l (if l.repaired r then plain true else 2) 2
    else if l.agrees r then s.finishLaunch n l (plain false) 0
    else s.modLaunch n Launch.again

/-- Launches of a partition on its run list (R302). -/
def State.listed (s : State) (vf : Nat) : List (Nat × Launch) :=
  s.launches.filter fun l => l.2.vf = vf && (l.2.stage = .held || l.2.stage = .ready)

/-- The first index from k on, of n in a ring, that is not used; the last one tried when the tries end (log 101). -/
def freeIndex (n : Nat) (used : List Nat) : Nat → Nat → Nat
  | 0, k => k % n
  | tries + 1, k => if used.contains (k % n) then freeIndex n used tries (k + 1) else k % n

/-- The run-list index that a launch takes: free, among those that no listed launch has (R302; log 101). -/
def State.newLidx (s : State) (vf size : Nat) : Nat :=
  let used := (s.listed vf).map (·.2.lidx)
  freeIndex (max 1 size) used used.length (Config.freeChoice s.fresh)

/-- Whether a launch's parent segment has committed (R166, R300). -/
def State.parentDone (s : State) (l : Launch) : Bool :=
  match l.parent with
  | none => true
  | some (t, seq) =>
    match mapGet t s.teams with
    | none => true
    | some tm => !tm.uncommitted.any fun g => g.seq = seq

/-- LAUNCH_DISPATCH: a pooled launch whose parent segment has committed takes an entry of the run list; one with no work left, for it has none
or a rollback has abandoned all of it, completes, with no entry to name in its record (R300, R302, R390; log 101). -/
def execLaunchDispatch (n : Nat) (s : State) : Out :=
  match mapGet n s.launches with
  | none => .next s
  | some l =>
    match s.part l.vf with
    | none => .next s
    | some p =>
      if l.stage ≠ .pooled || !s.parentDone l then .next s
      else if l.hdr.work = l.retired.length then
        let l1 := { l with lidx := (Config.freeWord s.fresh).toNat % 2 ^ 32 }
        .next ((s.tick.modLaunch n fun _ => l1).completeLaunch n l1)
      else if p.desc.listSize ≤ (s.listed l.vf).length then .next s
      else if s.depMet l then
        .next ((s.tick.depRead l).modLaunch n fun l => { l with lidx := s.newLidx l.vf p.desc.listSize, stage := .ready })
      else .next (((s.tick.depRead l).modLaunch n fun l => { l with lidx := s.newLidx l.vf p.desc.listSize, stage := .held }).holdLaunch n l)

/-- DEPENDENCY_MET: the counter reaches DEPV now, or a write since the launch was held has met it (R162, R300). -/
def execDependencyMet (n : Nat) (s : State) : Out :=
  match mapGet n s.launches with
  | none => .next s
  | some l =>
    if l.stage ≠ .held then .next s
    else if s.depMet l || s.waitMet (.launch n) then
      let s1 := (s.depRead l).modLaunch n fun l => { l with stage := .ready }
      .next { s1 with waits := s1.waits.filter fun w => w.who ≠ .launch n }
    else .next ((s.depRead l).holdLaunch n l)

/-- LAUNCH_COMPLETE: with its last team retired a launch becomes COMPLETE; one that waits in COMPLETE posts its record once it can
(R55, R300, R302, R303, R404). -/
def execLaunchComplete (n : Nat) (s : State) : Out :=
  match mapGet n s.launches with
  | none => .next s
  | some l =>
    if l.stage = .complete then .next (s.postLaunch n)
    else if l.stage = .ready && l.retired.length = l.hdr.work then .next (s.completeLaunch n l)
    else .next s

/-! ## Bind records (R305–R307, R326, R372) -/

/-- A bind record (R305). -/
structure BindRec where
  wid : Word
  op : Nat
  lidx : Nat
  core : Nat
  tsz : BitVec 2
  resume : Bool
  zero : Nat

/-- The fields of a record. -/
def bindRec (r : BitVec 128) : BindRec :=
  { wid := (r >>> 64).setWidth 64, op := bitsOf r.toNat 63 62, lidx := bitsOf r.toNat 61 30, core := bitsOf r.toNat 29 24,
    tsz := BitVec.ofNat 2 (bitsOf r.toNat 23 22), resume := bitAt r.toNat 21, zero := bitsOf r.toNat 20 0 }

/-- Whether a work identifier lies in the extents of fields from the lowest up (R45). -/
def fieldsOk : List Nat → List Nat → Nat → Bool
  | w :: ws, e :: es, v => decide (v % 2 ^ w < e) && fieldsOk ws es (v / 2 ^ w)
  | _, _, v => v = 0

/-- Whether a work identifier is one of a launch's. -/
def Header.hasWid (h : Header) (wid : Word) : Bool := fieldsOk h.widths h.exts wid.toNat

/-- Whether a task holds a slot of a core (R50, R54). -/
def Task.holds (tk : Task) (core : Nat) : Bool := tk.core = core && tk.slot ≠ .gone

/-- Whether a core's staged slot is not EMPTY (R50). -/
def State.stagedAt (s : State) (core : Nat) : Bool := s.teams.any fun t => t.2.st = .staged && t.2.members.any (·.holds core)

/-- Whether a core's running slot is not EMPTY (R50). -/
def State.runningAt (s : State) (core : Nat) : Bool :=
  s.teams.any fun t => (t.2.st = .running || t.2.st = .saving) && t.2.members.any (·.holds core)

/-- Whether a core is in a swap (R316). -/
def State.swappingAt (s : State) (core : Nat) : Bool :=
  s.teams.any fun t => t.2.swaps.any fun x => [x.1, x.2].any fun m => (t.2.members[m]?).any fun tk => tk.core = core

/-- The team of a launch's work identifier in a state. -/
def State.teamOf (s : State) (launch : Nat) (wid : Word) (st : TeamState) : Option (Nat × Team) :=
  s.teams.find? fun t => t.2.launch = launch && t.2.wid = wid && t.2.st = st

/-- A 16-byte trace entry (R326). -/
def traceEntry (wid : Word) (kind die core core2 tick : Nat) : BitVec 128 :=
  BitVec.ofNat 128 (wid.toNat * 2 ^ 64 + kind * 2 ^ 62 + die * 2 ^ 58 + core * 2 ^ 52 + core2 * 2 ^ 46 + tick % 2 ^ 32)

/-- The record whose trace governs a launch: none in a re-execution, or with another team size (R325, R326; log 45). -/
def State.traceRec (s : State) (l : Launch) : Option RecEntry :=
  match s.recordOf l with
  | none => none
  | some r => if l.reexec || r.team ≠ l.hdr.team then none else some r

/-- Trace entries of a kind at a die that a launch has not consumed (R326). -/
def Launch.traceLeft (l : Launch) (r : RecEntry) (kind die : Nat) : List (BitVec 128) :=
  (r.trace.filter fun e => bitsOf e.toNat 63 62 = kind && bitsOf e.toNat 61 58 = die).drop ((mapGet (die * 4 + kind) l.traceAt).getD 0)

/-- Whether the trace refuses a BIND or MOVE (R326). -/
def State.traceRefuses (s : State) (l : Launch) (kind die core : Nat) (wid : Word) : Bool :=
  match s.traceRec l with
  | none => false
  | some r =>
    match l.traceLeft r kind die with
    | [] => !r.trunc
    | e :: _ => !(e.toNat / 2 ^ 64 = wid.toNat && bitsOf e.toNat 57 52 = core)

/-- A BIND or MOVE is accepted: in bind mode it consumes its trace entry, in record mode it appends one (R324, R326). -/
def State.traceEvent (s : State) (n : Nat) (kind die core core2 tick : Nat) (wid : Word) : State :=
  match mapGet n s.launches with
  | none => s
  | some l =>
    match s.traceRec l with
    | some r =>
      if (l.traceLeft r kind die).isEmpty then s
      else s.modLaunch n fun l =>
        { l with traceAt := mapSet (die * 4 + kind) ((mapGet (die * 4 + kind) l.traceAt).getD 0 + 1) l.traceAt }
    | none =>
      if l.mode ≠ 1 then s
      else
        let room := l.trace.length < l.hdr.work || match s.part l.vf with
          | none => false
          | some p => decide (16 ≤ s.recFree l.vf p l.hdr.trace)
        s.modLaunch n fun l =>
          if room && !l.dropped then { l with trace := l.trace ++ [traceEntry wid kind die core core2 tick] }
          else { l with dropped := true }

/-- The cells of a thicket's rectangle at an origin. -/
def rectCells (x0 y0 w h : Nat) : List Nat := (List.range h).flatMap fun j => tabulate w fun i => 8 * (y0 + j) + x0 + i

/-- The origin that a saved thicket takes (R372): its own, or the first one free, row by row. -/
def placeOrigin (map : BitVec 64) (taken : List Nat) (x : Thicket) : Option (Nat × Nat) :=
  let fits (o : Nat × Nat) : Bool :=
    decide (o.1 + x.w ≤ 8) && decide (o.2 + x.h ≤ 8) && (rectCells o.1 o.2 x.w x.h).all fun k => map.getLsbD k && !taken.contains k
  ((x.x0, x.y0) :: ((List.range 8).flatMap fun j => tabulate 8 fun i => (i, j))).find? fits

/-- Place the saved thickets of a task, in ascending number (R372); a pending fault of an element names its new place (R192, R224). -/
def placeThickets (map : BitVec 64) (tk : Task) : List (BitVec 2) → List Nat → Option Task
  | [], _ => some tk
  | t :: ts, taken =>
    let x := tk.th t
    if x.st ≠ .saved then placeThickets map tk ts taken
    else match placeOrigin map taken x with
      | none => none
      | some (i, j) =>
        let y := { x with x0 := i, y0 := j }
        let moved (z : Cause) : Cause :=
          match x.elems.find? fun e => e.2.fault.any (fun f => !f.delivered && f.cause = z.cause) && x.site t e.1 = z.detail with
          | some e => { z with detail := y.site t e.1 }
          | none => z
        placeThickets map ({ tk with causes := tk.causes.map moved }.modTh t fun _ => y) ts (rectCells i j x.w x.h ++ taken)

/-- A task with its thickets placed on a core; none where one finds no origin (R372). -/
def State.placed (s : State) (tk : Task) (core : Nat) : Option Task := placeThickets (s.peMap core) tk [0, 1, 2, 3] []

/-- A thicket at resumption (R110, R365, R372): saved ones run, COMPLETE ones are IDLE, one saved empty stays SAVED (log 113). -/
def Thicket.resume (x : Thicket) : Thicket :=
  match x.st with
  | .complete => Thicket.start
  | .saved =>
    if x.emptied.isSome then { x with marking := false }
    else { x with st := .running, marking := false, elems := x.elems.map fun e => (e.1, { e.2 with saved := false }) }
  | _ => x

/-- A task resumes on its core: thickets placed and restored, and TIMEOUT pending for one saved empty (R365, R372). -/
def State.resumeTask (s : State) (tk : Task) : Task :=
  let tk1 := (s.placed tk tk.core).getD tk
  [0, 1, 2, 3].foldl (fun (tk : Task) i =>
    let t : BitVec 2 := BitVec.ofNat 2 i
    let x := tk.th t
    let owed := if x.st = .saved && x.marking then x.emptied else none
    let tk := tk.modTh t Thicket.resume
    match owed with
    | some n => tk.addCause { cause := 13, detail := BitVec.ofNat 16 (i * 2 ^ 14 + 1), taddr := 0, tval := BitVec.ofNat 64 n }
    | none => tk) tk1

/-- Result of a bind record: a refusal code, or the state after it. -/
inductive BindResult where
  | code (n : Nat)
  | done (s : State)

/-- The launch that a record names by its run-list index: that of the partition of CORE's sprig, else of the lowest partition that
has one (R302, R305; log 39). -/
def State.bindLaunch (s : State) (die : Nat) (r : BindRec) : Option (Nat × Launch) :=
  let own := s.parts.find? fun p => p.2.desc.sprigs.any fun x => x.toNat = (64 * die + r.core) / 4
  let at_ (vf : Nat) : Option (Nat × Launch) := (s.listed vf).find? fun l => l.2.lidx = r.lidx
  (own.bind fun p => at_ p.1).or (s.parts.findSome? fun p => at_ p.1)

/-- Cores of a record's group (R46, R305). -/
def BindRec.cores (r : BindRec) (die : Nat) : List Nat := tabulate (teamSize r.tsz) (64 * die + r.core + ·)

/-- Whether a work identifier has a saved context (R305, R307). -/
def State.savedContext (s : State) (launch : Nat) (wid : Word) : Bool :=
  s.teams.any fun t => t.2.launch = launch && t.2.wid = wid && (t.2.st = .saved || (t.2.st = .staged && t.2.resumed))

/-- The checks that every record passes, in the order of R306: 0x07, 0x04, 0x06, 0x05, 0x08 (R326), 0x03, 0x02; `kind` is the trace's
kind of the operation, none for WITHDRAW (log 39, log 96). -/
def State.bindCheck (s : State) (die : Nat) (r : BindRec) (kind : Option Nat) (k : Nat → Launch → BindResult) : BindResult :=
  if r.op = 3 ∨ r.zero ≠ 0 then .code 7
  else match s.bindLaunch die r with
    | none => .code 4
    | some (n, l) =>
      if !l.hdr.hasWid r.wid then .code 4
      else if l.stage = .held then .code 6
      else if r.resume ≠ s.savedContext n r.wid then .code 5
      else if kind.any fun k => s.traceRefuses l k die r.core r.wid then .code 8
      else if r.tsz ≠ l.hdr.team ∨ r.core % teamSize r.tsz ≠ 0 then .code 3
      else if (match s.part l.vf with
        | none => true
        | some p => (r.cores die).any fun c => !p.desc.sprigs.any fun x => x.toNat = c / 4) then .code 2
      else k n l

/-- SIG at start: the launch's part (R246; log 38). -/
def Launch.sigStart (l : Launch) : Word :=
  BitVec.ofNat 64 ((if l.mode = 2 then l.hdr.trace else 0) * 2 ^ 59 + l.mode * 2 ^ 56)

/-- A new team with every member LOADING on its core (R46, R50). -/
def Team.fresh (l : Launch) (n : Nat) (r : BindRec) (base : Nat) (clk : Nat) : Team :=
  { launch := n, vf := l.vf, wid := r.wid, size := r.tsz, st := .staged, resumed := false,
    members := tabulate (teamSize r.tsz) fun i =>
      Task.start (base + i) .loading (Regs.start l.hdr.entry r.wid l.hdr.args) l.sigStart [] [],
    segs := [], openSeg := none, committed := 0, lastLate := false, carve := l.hdr.carve, traffic := [], swaps := [], swapFrom := none,
    firstTick := none,
    table := false, stagedFor := clk, compared := false }

/-- A saved team is staged again: member m on position m of the group (R46), or after a rollback as the sealed location table has it
(R318); one that has left its slot takes none. -/
def Team.restage (tm : Team) (base clk : Nat) : Team :=
  { tm with st := .staged, stagedFor := clk,
            members := (numbered tm.members).map fun x =>
              { x.2 with core := base + (if tm.table then x.2.core % teamSize tm.size else x.1),
                         slot := if x.2.slot = .gone then .gone else .loading } }

/-- BIND (R306, R372; log 130). -/
def State.bindTeam (s : State) (die : Nat) (r : BindRec) : BindResult :=
  s.bindCheck die r (some 0) fun n l =>
    let base := 64 * die + r.core
    if (r.cores die).any fun c => s.stagedAt c || s.swappingAt c then .code 1
    else
      let s1 := s.traceEvent n 0 die r.core 0 0 r.wid
      if !r.resume then .done { s1 with teams := mapSet s1.nextTeam (Team.fresh l n r base s.clk.toNat) s1.teams, nextTeam := s1.nextTeam + 1 }
      else match s.teamOf n r.wid .saved with
        | none => .code 1
        | some (t, tm) =>
          let tm1 := tm.restage base s.clk.toNat
          if tm1.members.any fun tk => tk.slot ≠ .gone && (s.placed tk tk.core).isNone then .code 9 else .done (s1.setTeam t tm1)

/-- The team of a record's work identifier in a state, when it stands on the record's group (R306; log 39, log 130). -/
def State.teamThere (s : State) (die : Nat) (r : BindRec) (n : Nat) (st : TeamState) : Option (Nat × Team) :=
  s.teams.find? fun t =>
    t.2.launch = n && t.2.wid = r.wid && t.2.st = st && t.2.members.all fun tk => (r.cores die).contains tk.core

/-- Number of a swap tick of a team: ticks since its first start (R326). -/
def Team.tickOf (tm : Team) (tick : Nat) : Nat := tick - tm.firstTick.getD tick

/-- The swaps of a team that are decided in this very cycle are not started, and count no damping and no trace entry (R318). -/
def State.unswap (s : State) (t : Nat) (tm : Team) : State :=
  if tm.swaps.isEmpty then s
  else
    let cores := tm.swaps.flatMap fun x => [x.1, x.2].filterMap fun m => (tm.members[m]?).map (·.core)
    let tick := tm.tickOf ((cores.head?.bind fun c => mapGet c s.swapAt).getD 0)
    let mine (e : BitVec 128) : Bool :=
      bitsOf e.toNat 63 62 = 1 && e.toNat / 2 ^ 64 = tm.wid.toNat && cores.any (fun c => c % 64 = bitsOf e.toNat 57 52 && c / 64 = bitsOf e.toNat 61 58) &&
        bitsOf e.toNat 31 0 = tick % 2 ^ 32
    ({ s with swapAt := s.swapAt.filter fun x => !cores.contains x.1 }.setTeam t { tm with swaps := [] }).modLaunch tm.launch fun l =>
      if l.mode = 1 then { l with trace := l.trace.filter fun e => !mine e } else l

/-- MOVE: the team of the work identifier that stands on the named group, with every member RUNNING or RETIRING, starts to be saved
(R306; log 39). It goes before a swap that is decided in the same cycle (R318). -/
def State.moveTeam (s : State) (die : Nat) (r : BindRec) : BindResult :=
  s.bindCheck die r (some 2) fun n _ =>
    match s.teamThere die r n .running with
    | none => .code 1
    | some (t, tm) =>
      if (!tm.swaps.isEmpty && tm.swapFrom ≠ some s.clk) || !tm.members.all fun tk => tk.slot == .running || tk.slot == .retiring then .code 1
      else .done (((s.unswap t tm).traceEvent n 2 die r.core 0 0 r.wid).beginSave t)

/-- A member holds no slot any more; one that has retired and left stays so. -/
def Task.unbind (tk : Task) : Task := if tk.slot = .gone then tk else { tk with slot := .unbound }

/-- A staged team returns unbound to its run-list entry, with any saved context (R306, R307). -/
def State.unstage (s : State) (t : Nat) (tm : Team) : State :=
  if tm.resumed then
    s.setTeam t { tm with st := .saved, stagedFor := s.clk.toNat, members := tm.members.map Task.unbind }
  else { s with teams := mapErase t s.teams }

/-- WITHDRAW clears the staged team of the work identifier on the named group (R305, R306; log 39). -/
def State.withdrawTeam (s : State) (die : Nat) (r : BindRec) : BindResult :=
  s.bindCheck die r none fun n _ =>
    match s.teamThere die r n .staged with
    | none => .code 1
    | some (t, tm) => .done (s.unstage t tm)

/-- The slot-table port of a die. -/
def State.slotTable (s : State) (die : Nat) : Slt := (s.slt.toList[die]?).getD Slt.start

/-- Change the slot-table port of a die. -/
def State.modSlt (s : State) (die : Nat) (f : Slt → Slt) : State :=
  if h : die < 12 then { s with slt := s.slt.set die (f (s.slotTable die)) h } else s

/-- The port answers: the result's code goes to SLT_STS (R306). -/
def bindAnswer (s : State) (die : Nat) (r : BindResult) : State :=
  match r with
  | .code n => s.modSlt die fun x => { x with code := n }
  | .done s1 => s1.modSlt die fun x => { x with code := 0 }

/-- A record is submitted to the port of a die (R305, R306). -/
def State.submitRec (s : State) (die : Nat) (w : BitVec 128) : State :=
  let r := bindRec w
  bindAnswer s die (if r.op = 1 then s.moveTeam die r else if r.op = 2 then s.withdrawTeam die r else s.bindTeam die r)

/-- A write to SLT_BIND_HI submits it with what SLT_BIND_LO holds (R305). -/
def State.writeBindHi (s : State) (die : Nat) (v : Word) : State := s.submitRec die (v ++ (s.slotTable die).bindLo)

/-- The two writes that submit a whole record (R305). -/
def State.writeRec (s : State) (die : Nat) (w : BitVec 128) : State :=
  (s.modSlt die fun x => { x with bindLo := w.setWidth 64 }).writeBindHi die ((w >>> 64).setWidth 64)

/-- BIND, and a record of OP 3, which is refused (R305, R306). -/
def execBind (die : BitVec 4) (rec : BitVec 128) (s : State) : Out :=
  if (bindRec rec).op = 0 ∨ (bindRec rec).op = 3 then .next (s.writeRec die.toNat rec) else .next s
/-- MOVE (R305, R306). -/
def execMove (die : BitVec 4) (rec : BitVec 128) (s : State) : Out :=
  if (bindRec rec).op = 1 then .next (s.writeRec die.toNat rec) else .next s
/-- WITHDRAW (R305, R306). -/
def execWithdraw (die : BitVec 4) (rec : BitVec 128) (s : State) : Out :=
  if (bindRec rec).op = 2 then .next (s.writeRec die.toNat rec) else .next s

/-! ## Load, start, save, watchdog (R47, R50, R307, R363) -/

/-- A granule of the program image from committed memory, at an offset of the program region; none without a translation. -/
def State.imageGranule (s : State) (vf va off : Nat) : Option (Mem × List Nat) :=
  match s.lookup vf va [] with
  | none => none
  | some e =>
    if e.kind ≠ 0 then none
    else
      let pa := e.pa va
      let here (a : Nat) : Bool := decide (pa ≤ a) && decide (a < pa + Config.granule) && !e.unusedAt (va + (a - pa))
      some ((memFilter s.mem here).map (fun x => (x.1 - pa + off, x.2)), (s.poisonMem.filter here).map (· - pa + off))

/-- The program image of a launch, prog granules from KPTR (R298), with the offsets of its poisoned bytes. -/
def State.image (s : State) (vf : Nat) (kptr : Nat) : Nat → Option (Mem × List Nat)
  | 0 => some ([], [])
  | n + 1 =>
    match s.image vf kptr n, s.imageGranule vf (kptr + n * Config.granule) (n * Config.granule) with
    | some a, some b => some (a.1 ++ b.1, a.2 ++ b.2)
    | _, _ => none

/-- The image has been read: an armed error injection in one of its lines fires, and that line is poisoned in the region (R393; log 131). -/
def State.imageRead (s : State) (vf kptr n : Nat) : State × List Nat :=
  let line (s : State) (k : Nat) : State × Bool :=
    match s.lookup vf (kptr + 64 * k) [] with
    | none => (s, false)
    | some e => s.inject vf (e.pa (kptr + 64 * k))
  match s.part vf with
  | none => (s, [])
  | some p =>
    if !p.regs.einjArm then (s, [])
    else
      let s1 := (List.range n).foldl (fun s g => s.walked vf (kptr + g * Config.granule) []) s
      (List.range (n * (Config.granule / 64))).foldl (fun x k =>
        let r := line x.1 k
        (r.1, if r.2 then tabulate 64 (fun i => 64 * k + i) ++ x.2 else x.2)) (s1, [])

/-- PROGRAM_LOAD_COMPLETE: the staged slot of a core becomes READY (R47, R50); a resumed task keeps its saved region (R363). A
region whose image has no translation stays LOADING (log 46, log 79). -/
def execProgramLoadComplete (core : BitVec 10) (s : State) : Out :=
  match s.teams.find? fun t => t.2.st = .staged && t.2.members.any (fun tk => tk.core = core.toNat && tk.slot = .loading) with
  | none => .next s
  | some (t, tm) =>
    let load (s : State) (f : Task → Task) : State := s.modTeam t fun tm =>
      { tm with members := tm.members.map fun tk => if tk.core = core.toNat && tk.slot = .loading then { f tk with slot := .ready } else tk }
    if tm.resumed then .next (load s id)
    else match s.launchOf tm with
      | none => .next s
      | some l =>
        match s.image tm.vf l.hdr.kptr.toNat tm.carve.prog with
        | none => .next s
        | some (m, bad) =>
          let (s1, hit) := s.imageRead tm.vf l.hdr.kptr.toNat tm.carve.prog
          .next (load s1 fun tk => { tk with prog := m, poisonProg := setUnion hit bad })

/-- Initialise the .sync words of a kernel that lie in the carve-out (R21). -/
def Task.initSync (tk : Task) (c : Carve) (l : Launch) : Task :=
  l.syncs.foldl (fun tk x =>
    if x.1 % 16 = 0 && c.spadOk x.1 16 then tk.spadPut c false x.1 (leBytes 4 x.2 ++ leBytes 12 0) else tk) tk

/-- The swap ticks of the module by a clock (R313). -/
def swapTickAt (clk : Nat) : Nat := clk / 600000

/-- A team starts for the first time: .sync words, and its first segment opens (R21, R48, R312, R326). -/
def Team.begin_ (tm : Team) (l : Launch) (clk : Nat) : Team :=
  let start (tk : Task) : Task := { (tk.initSync tm.carve l).startRun clk with slot := .running }
  let tm1 : Team := { tm with firstTick := some (swapTickAt clk), members := tm.members.map start }
  { tm1 with openSeg := some (tm1.newSeg 0) }

/-- A member resumes: RUNNING, or RETIRING when it was saved there (R54, R306, R372). -/
def State.restart (s : State) (tk : Task) : Task :=
  if tk.slot = .gone then tk
  else if tk.arrived = some .halt then { s.resumeTask tk with slot := .retiring }
  else { (s.resumeTask tk).startRun s.clk.toNat with slot := .running }

/-- TEAM_START: a staged team whose members are all READY, with empty running slots, starts or resumes (R47, R50, R306, R372). -/
def execTeamStart (team : Nat) (s : State) : Out :=
  match mapGet team s.teams with
  | none => .next s
  | some tm =>
    match s.launchOf tm with
    | none => .next s
    | some l =>
      let waits (tk : Task) : Bool := tk.slot ≠ .gone && (tk.slot ≠ .ready || s.runningAt tk.core)
      if tm.st ≠ .staged || tm.members.any waits then .next s
      else
        let tm1 := if tm.resumed then { tm with members := tm.members.map s.restart } else tm.begin_ l s.clk.toNat
        .next (s.setTeam team { tm1 with st := .running, table := false })

/-- CONTEXT_SAVE_COMPLETE: with every fill landed and every thicket saved, the team's context has left its cores (R50, R363). A
thicket that finished loading meanwhile gets its markers first. -/
def execContextSaveComplete (team : Nat) (s : State) : Out :=
  match mapGet team s.teams with
  | none => .next s
  | some tm =>
    if tm.st ≠ .saving || s.failing tm then .next s
    else
      let marked := tm.members.map fun tk => if tk.slot = .gone then tk else tk.markAll s.clk
      if marked.all Task.settled then
        .next (s.setTeam team { tm with st := .saved, resumed := true, stagedFor := s.clk.toNat, members := marked.map Task.unbind })
      else .next (s.setTeam team { tm with members := marked })

/-- BIND_WATCHDOG_EXPIRE: a team staged for longer than SLT_WDOG is withdrawn, and WDOG counts it, saturating (R307). -/
def execBindWatchdogExpire (team : Nat) (s : State) : Out :=
  match mapGet team s.teams with
  | none => .next s
  | some tm =>
    let die := ((tm.members.map (·.core)).headD 0) / 64
    if tm.st ≠ .staged || s.clk.toNat - tm.stagedFor ≤ (s.slotTable die).wdog then .next s
    else .next ((s.unstage team tm).modSlt die fun x => { x with withdrawn := min 65535 (x.withdrawn + 1) })

/-! ## Retirement (R54, R320, R325) -/

/-- Whether a member's slot may become EMPTY (R54): it is in RETIRING, its segments have committed, its commands have completed and its
fills have landed. -/
def Team.mayLeave (tm : Team) (tk : Task) : Bool :=
  tk.slot == .retiring && !(tm.uncommitted.any fun g => decide (g.seq.toNat ≤ tk.regs.seq.toNat)) && tk.fills.isEmpty &&
    tk.appends.isEmpty && tk.tl.toList.all (fun t => t.cmds.isEmpty) && !tk.causes.any fun c => c.cause = 8 || c.cause = 9

/-- Whether every member of a team has retired (R54). -/
def Team.finished (tm : Team) : Bool :=
  tm.segs.isEmpty && tm.openSeg.isNone && tm.members.all fun tk => tk.slot == .gone || tm.mayLeave tk

/-- The task digest of a team (R320). -/
def Team.digest (tm : Team) : Word :=
  match tm.members with
  | [] => 0
  | tk :: _ => tk.regs.dgs

/-- The OR of the members' SIG (R327). -/
def Team.sig (tm : Team) : Word := tm.members.foldl (fun v (tk : Task) => v ||| tk.mxe.sig) 0

/-- The task digest that a team's is still to be compared with (R325). -/
def State.toCompare (s : State) (tm : Team) (l : Launch) : Option Word :=
  if tm.compared || l.hdr.sumchk then none
  else (s.recordOf l).bind fun r => (mapGet tm.wid.toNat r.pairs).map (·.1)

/-- TEAM_RETIRE: members whose conditions hold leave their slots, and with the last the team retires; where a digest is to be compared
they all wait for that, and on a mismatch every member has DIGEST pending (R54, R325; log 41). -/
def execTeamRetire (team : Nat) (s : State) : Out :=
  match mapGet team s.teams with
  | none => .next s
  | some tm =>
    match s.launchOf tm with
    | none => .next s
    | some l =>
      let due := s.toCompare tm l
      if tm.st ≠ .running || s.failing tm then .next s
      else if !tm.finished then
        if due.isSome then .next s
        else .next (s.setTeam team { tm with members := tm.members.map fun tk => if tm.mayLeave tk then { tk with slot := .gone } else tk })
      else if due.any (· ≠ tm.digest) then
        let cause : Cause := { cause := 8, detail := 0, taddr := 0, tval := tm.digest }
        .next ((s.setTeam team { tm with compared := true, members := tm.members.map fun tk => tk.addCause cause }).modLaunch tm.launch
          fun l => { l with digestTrap := true })
      else
        .next ({ s with teams := mapErase team s.teams }.modLaunch tm.launch fun l =>
          { l with retired := mapSet tm.wid.toNat (tm.digest, false) l.retired,
                   sig := l.sig ||| tm.sig })

/-! ## Occupant swaps (R312–R317) -/

/-- Cycles that a task has been RUNNING since its first start (R312). -/
def State.runTime (s : State) (tk : Task) : Nat := tk.ranFor + (tk.runFrom.elim 0 fun t => s.clk.toNat - t)

/-- Whether a member is eligible for a swap (R312). -/
def State.eligible (s : State) (tm : Team) (m : Nat) : Bool :=
  match tm.members[m]?, s.launchOf tm, s.part tm.vf with
  | some tk, some l, some p =>
    l.hdr.resident && p.swaps && decide (6000000 ≤ s.runTime tk) && tm.st == .running && tk.slot == .running &&
      !p.dbg.stopReq && !tk.regs.handler && !s.failing tm && !tm.swapping m
  | _, _, _ => false

/-- Distance between two cores in tree hops (R314). A group has four dies (R4). -/
def treeDist (a b : Nat) : Nat :=
  if a = b then 0 else if a / 4 = b / 4 then 2 else if a / 16 = b / 16 then 4 else if a / 64 = b / 64 then 6
  else if a / 256 = b / 256 then 8 else 12

/-- Cost of members x and y at two cores, from counts that n halvings have passed (R313, R315). -/
def Team.swapCost (tm : Team) (n x y cx cy : Nat) : Nat :=
  ((numbered tm.members).map fun q =>
    if q.1 = x ∨ q.1 = y then 0
    else
      let t (a : Nat) : Nat := countAfter ((mapGet (min a q.1 * 64 + max a q.1) tm.traffic).getD (0, n)) n
      t x * treeDist cx q.2.core + t y * treeDist cy q.2.core).sum

/-- Pairs of cores of a bush that may swap (R315): cores of one sprig, or corresponding cores of sprigs one bit apart. -/
def swapPairs (base : Nat) : List (Nat × Nat) :=
  ((List.range 16).flatMap fun i => (List.range 16).filterMap fun j =>
    if i < j ∧ (i / 4 = j / 4 ∨ (i % 4 = j % 4 ∧ (i / 4 ^^^ j / 4 = 1 ∨ i / 4 ^^^ j / 4 = 2))) then some (base + i, base + j)
    else none)

/-- The running team with members on two cores, and those members. -/
def State.swapTeam (s : State) (x y : Nat) : Option (Nat × Team × Nat × Nat) :=
  s.teams.findSome? fun t =>
    if t.2.st ≠ .running then none
    else match t.2.members.findIdx? (·.holds x), t.2.members.findIdx? (·.holds y) with
      | some a, some b => some (t.1, t.2, a, b)
      | _, _ => none

/-- Whether every thicket of a task that is not IDLE finds an origin on a core (R315, R372). -/
def State.fitsOn (s : State) (tk : Task) (core : Nat) : Bool :=
  let tk1 := [0, 1, 2, 3].foldl (fun (tk : Task) i => tk.modTh (BitVec.ofNat 2 i) fun x =>
    if x.st = .idle then x else { x with st := .saved }) tk
  (s.placed tk1 core).isSome

/-- Whether two members may swap: eligible, undamped, and placeable (R315). -/
def State.maySwap (s : State) (tick : Nat) (tm : Team) (a b x y : Nat) : Bool :=
  let damped (c : Nat) : Bool := (mapGet c s.swapAt).any fun t => tick ≤ t + 4
  s.eligible tm a && s.eligible tm b && !damped x && !damped y &&
    match tm.members[a]?, tm.members[b]? with
    | some p, some q => s.fitsOn p y && s.fitsOn q x
    | _, _ => false

/-- The gain of a candidate pair that qualifies, with its team and members (R315). -/
def State.swapGain (s : State) (tick x y : Nat) : Option (Nat × (Nat × Nat × Nat)) :=
  match s.swapTeam x y with
  | none => none
  | some (t, tm, a, b) =>
    let free := match s.launchOf tm with
      | none => false
      | some l =>
        match s.traceRec l with
        | none => true
        | some r => r.trunc && !r.trace.any fun e =>
            bitsOf e.toNat 63 62 = 1 && bitsOf e.toNat 61 58 = x / 64 && e.toNat / 2 ^ 64 = tm.wid.toNat && decide (tm.tickOf tick ≤ bitsOf e.toNat 31 0)
    let before := tm.swapCost (tick - 1) a b x y
    let after := tm.swapCost (tick - 1) a b y x
    if free && s.maySwap tick tm a b x y && decide (8 * after < 7 * before) then some (before - after, (t, a, b)) else none

/-- The pair with the greatest gain, the first among equals. -/
def bestPair : List ((Nat × Nat) × Nat × (Nat × Nat × Nat)) → Option ((Nat × Nat) × Nat × (Nat × Nat × Nat))
  | [] => none
  | x :: xs =>
    match bestPair xs with
    | none => some x
    | some y => if x.2.1 < y.2.1 then some y else some x

/-- Choose pairs by gain, dropping those that share a core (R315). -/
def choosePairs : Nat → List ((Nat × Nat) × Nat × (Nat × Nat × Nat)) → List ((Nat × Nat) × (Nat × Nat × Nat))
  | 0, _ => []
  | fuel + 1, cs =>
    match bestPair cs with
    | none => []
    | some b =>
      let clash (c : Nat × Nat) : Bool := c.1 = b.1.1 || c.1 = b.1.2 || c.2 = b.1.1 || c.2 = b.1.2
      (b.1, b.2.2) :: choosePairs fuel (cs.filter fun c => !clash c.1)

/-- The swaps that a bush switch performs from dispatch traces at a tick (R326). -/
def State.tracedSwaps (s : State) (tick base : Nat) : List ((Nat × Nat) × (Nat × Nat × Nat)) :=
  s.teams.flatMap fun t =>
    match (s.launchOf t.2).bind fun l => s.traceRec l with
    | none => []
    | some r =>
      r.trace.filterMap fun e =>
        let v := e.toNat
        let x := 64 * bitsOf v 61 58 + bitsOf v 57 52
        let y := 64 * bitsOf v 61 58 + bitsOf v 51 46
        if bitsOf v 63 62 = 1 ∧ v / 2 ^ 64 = t.2.wid.toNat ∧ bitsOf v 31 0 = t.2.tickOf tick % 2 ^ 32 ∧ x / 16 = base / 16 ∧ t.2.st = .running then
          match t.2.members.findIdx? (·.holds x), t.2.members.findIdx? (·.holds y) with
          | some a, some b => if s.eligible t.2 a && s.eligible t.2 b then some ((x, y), (t.1, a, b)) else none
          | _, _ => none
        else none

/-- A decided swap starts: both occupants get their markers and leave what they wait for (R52, R316), the cores are damped, and a
record-mode trace notes it. -/
def State.startSwap (s : State) (tick : Nat) (c : (Nat × Nat) × (Nat × Nat × Nat)) : State :=
  let (t, a, b) := c.2
  match mapGet t s.teams with
  | none => s
  | some tm =>
    if tm.swapping a || tm.swapping b then s
    else
      let stop (tk : Task) : Task := (tk.beginMarks s.clk).leaveBarrier
      let s1 := s.setTeam t { ((tm.modMember a stop).modMember b stop) with swaps := tm.swaps ++ [(a, b)], swapFrom := some s.clk }
      let s2 := ({ s1 with swapAt := mapSet c.1.1 tick (mapSet c.1.2 tick s1.swapAt) }.leaveWait t a).leaveWait t b
      let record := (s.launchOf tm).any fun l => l.mode = 1
      if record then s2.traceEvent tm.launch 1 (c.1.1 / 64) (min c.1.1 c.1.2 % 64) (max c.1.1 c.1.2 % 64) (tm.tickOf tick) tm.wid else s2

/-- SWAP_TICK: at each 600,000 cycles a bush switch decides swaps from the counts, whose halving follows; while a seal is in progress it
decides none (R313, R315, R318, R326; log 47). -/
def execSwapTick (die : BitVec 4) (bush : BitVec 2) (s : State) : Out :=
  let b := 4 * die.toNat + bush.toNat
  let tick := (mapGet b s.swapTicks).getD 0 + 1
  if swapTickAt s.clk.toNat < tick then .next s
  else
    let s0 : State := { s with swapTicks := mapSet b tick s.swapTicks }
    if s.sealing.isSome then .next s0
    else
      let cands := (swapPairs (16 * b)).filterMap fun p => (s0.swapGain tick p.1 p.2).map fun g => (p, g)
      .next ((s0.tracedSwaps tick (16 * b) ++ choosePairs 8 cands).foldl (fun s c => s.startSwap tick c) s0)

/-- SWAP_EXECUTE: once both occupants of a team's first swap have settled, they exchange cores and resume; where a thicket finds no
origin on the other core the swap is abandoned and both resume in place (R316, R372; log 130). -/
def execSwapExecute (team : Nat) (s : State) : Out :=
  match mapGet team s.teams with
  | none => .next s
  | some tm =>
    match tm.swaps with
    | [] => .next s
    | (a, b) :: rest =>
      match tm.members[a]?, tm.members[b]? with
      | some p0, some q0 =>
        let p := p0.markAll s.clk
        let q := q0.markAll s.clk
        if tm.st ≠ .running || s.failing tm then .next s
        else if !p.settled || !q.settled then .next (s.setTeam team { tm with members := (tm.members.set a p).set b q })
        else
          let p1 := { p with core := q.core }
          let q1 := { q with core := p.core }
          let (p2, q2) := if (s.placed p1 q.core).isSome && (s.placed q1 p.core).isSome then (p1, q1) else (p, q)
          .next (s.setTeam team { tm with swaps := rest, members := (tm.members.set a (s.resumeTask p2)).set b (s.resumeTask q2) })
      | _, _ => .next (s.setTeam team { tm with swaps := rest })

/-! ## Glint records (R328, R329) -/

/-- Whether a record is of an event: its SRC, WHERE and OP (R328). -/
def glintIs (src loc op : Nat) (r : List Byte) : Bool :=
  fieldLE r 24 1 % 4 = src && fieldLE r 28 4 = loc && fieldLE r 32 4 = op

/-- GLINT_RECORD: the record of a marked event is written to its partition's buffer; a full buffer drops it and counts, with interrupt
vector 4 (R328, R408; log 42). -/
def execGlintRecord (src : BitVec 2) (loc op : BitVec 32) (s : State) : Out :=
  let mine := glintIs src.toNat loc.toNat op.toNat
  match s.parts.find? fun p => p.2.dbg.glintDue.any mine with
  | none => .next s
  | some (vf, p) =>
    match p.dbg.glintDue.find? mine with
    | none => .next s
    | some r =>
      let s1 := s.modPart vf fun p => { p with dbg := { p.dbg with glintDue := p.dbg.glintDue.erase r } }
      if p.desc.glintSize < 64 * (p.dbg.glint.length + 1) then
        .next ((s1.modPart vf fun p => { p with dbg := { p.dbg with glintDropped := p.dbg.glintDropped + 1 } }).raise vf 4)
      else .next (s1.modPart vf fun p => { p with dbg := { p.dbg with glint := p.dbg.glint ++ [r] } })

end Sys2Proof.Machine
end

