-- ==== Sys2Proof/Machine/Recovery.lean ====
section
/-! DEFINITION. Recovery intervals: seals, irrevocable writes, rollback, error injection (R277, R375–R397). -/

namespace Sys2Proof.Machine

/-! ## Host packets that a seal ends (R405) -/

/-- Address of a queue's packet to fetch (R404). -/
def Queue.at_ (q : Queue) : Nat := q.base.toNat + 64 * (q.head.toNat % 2 ^ q.log2)

/-- A number in a queue's packet. -/
def State.packet (s : State) (q : Queue) (off n : Nat) : Nat := memReadLE s.hostMem (q.at_ + off) n

/-- Change a queue of a partition. -/
def State.modQueue (s : State) (vf : Nat) (q : BitVec 3) (f : Queue → Queue) : State :=
  s.modPart vf fun p => { p with queues := p.queues.set q.toFin (f (p.queues.get q.toFin)) q.toFin.isLt }

/-- A queue behind its packet; after an enabling that met the packet in progress, the next one is the first that is counted (R405). -/
def Queue.past (y : Queue) : Queue :=
  { y with head := y.head + 1, pseq := if y.restart then 0 else y.pseq + 1, launches := if y.restart then [] else y.launches, restart := false,
           busy := false, copied := 0, waitRin := none }

/-- The packet of a queue is done: the read position moves on, and vector 0 is raised when FLAGS asks for it (R405, R408). -/
def State.packetDone (s : State) (vf : Nat) (q : BitVec 3) : State :=
  match s.part vf with
  | none => s
  | some p =>
    let x := p.queues.get q.toFin
    let s1 := s.modQueue vf q Queue.past
    if bitAt (s.packet x 1 1) 0 then s1.raise vf 0 else s1

/-- A SEAL packet that waits for a seal up to s is done: the sealed RIN goes to its host address (R405). -/
def State.sealPacketDone (s : State) (vf : Nat) (q : BitVec 3) (num : Nat) : State :=
  match s.part vf with
  | none => s
  | some p =>
    let x := p.queues.get q.toFin
    match x.waitRin with
    | none => s
    | some r =>
      if num < r then s
      else
        let a := s.packet x 8 8
        (if a = 0 then s else s.hostWrite a (leBytes 8 num)).packetDone vf q

/-! ## The sealed state (R44, R229, R381, R382) -/

/-- A member as a seal records it: at the snapshot of the oldest uncommitted segment, with the rest as it stands at the cut (R382). -/
def Task.sealedForm (tk : Task) (clk : Nat) (c : Carve) (m : Nat) (gs : List Seg) : Task :=
  let passed : Task := (tk.cancelAppends (gs.map (·.seq)) tk.appends).stopRun clk
  let still : Task :=
    { passed with tl := passed.tl.map (fun t => { t with count := t.issued, cmds := [], done := [] }), appends := [], fills := [],
                  fi := Vector.replicate 16 SrcPort.start, fo := Vector.replicate 16 SnkPort.start,
                  thickets := Vector.replicate 4 Thicket.start, gsq := Gsq.start, px := [], markClk := none, entered := none }
  match gs with
  | [] => still.unbind
  | g :: _ =>
    match g.snaps[m]? with
    | none => still.unbind
    | some x => if x.regs.seq = g.seq then (still.restore c m gs x).unbind else still.unbind

/-- A team as a seal records it, with its location table (R318, R382); one bound and never started has only its binding. -/
def Team.sealedForm (tm : Team) (clk : Nat) : Team :=
  if tm.st = .staged ∧ !tm.resumed then tm
  else
    let gs := tm.uncommitted
    let members := (numbered tm.members).map fun x => x.2.sealedForm clk tm.carve x.1 gs
    { tm with st := .saved, resumed := true, table := tm.st ≠ .saved || tm.table, members := members, segs := [], swaps := [],
              openSeg := match gs with
                | [] => none
                | g :: _ => some { { tm with members := members }.newSeg g.seq with snaps := g.snaps } }

/-- Whether a member's sealed state holds poison (R387). -/
def Task.sealPoison (tk : Task) : Bool :=
  tk.regs.poisonG ≠ 0 || tk.regs.poisonP ≠ 0 || tk.regs.poisonSr ≠ 0 || !tk.poisonS.isEmpty || tk.fa.toList.any (·.poison) ||
  tk.mxe.slots.any (·.2.poison) || tk.mxe.rows.any (·.2.poison) || (tk.mxe.cs0.any (·.poison)) || tk.mxe.cs1.any (·.poison)

/-- Core of the first member whose sealed state holds poison. -/
def SealCopy.poisonAt (c : SealCopy) : Option Nat :=
  c.teams.findSome? fun t => (t.2.members.find? Task.sealPoison).map fun tk => coreEndpoint tk.core

/-- What the seal of interval s records at its cut (R381, R382, R388): a pooled launch whose parent segment is uncommitted is left
out. -/
def State.sealRecord (s : State) (num : Nat) : SealCopy :=
  { num := num, teams := s.teams.map fun t => (t.1, t.2.sealedForm s.clk.toNat),
    launches := s.launches.filter fun l => l.2.stage ≠ .pooled || s.parentDone l.2,
    parts := s.parts.map fun p => (p.1, { queues := p.2.queues, occs := p.2.occs }) }

/-! ## Seals (R375, R377, R381–R386) -/

/-- Whether this module has the lowest number of its domain, and coordinates its seals (R375; log 48). -/
def State.coordinates (s : State) : Bool := s.domain.all fun d => s.own < d

/-- The period of seals: the shortest of the partitions' PRT_SEAL (R377; log 50). -/
def State.sealPeriod (s : State) : Nat := (minOf (s.parts.map fun p => p.2.regs.sealPeriod)).getD 600000

/-- PERIODIC_SEAL_TIMER: the coordinator's period governs the domain (R377). -/
def execPeriodicSealTimer (s : State) : Out :=
  if s.power ≠ .on || !s.coordinates || (s.clk - s.sealClk).toNat < s.sealPeriod then .next s
  else .next { s with sealClk := s.clk }.requestSeal

/-- PREPARE: the cut, the marker wave and the saved state of the seal that is due (R376, R381, R382, R387). The cut and the saving
are one step, so that nothing is under way in them (log 51); a swap completes first (R318). At a module that does not coordinate,
PREPARE comes from the coordinator (R383; log 48). -/
def execPrepare (s : State) : Out :=
  if (s.coordinates && !s.sealDue) || s.sealing.isSome || s.power ≠ .on || s.teams.any fun t => !t.2.swaps.isEmpty then .next s
  else
    let c := s.sealRecord s.rin
    let s1 : State :=
      { s with rin := s.rin + 1, sealDue := false, sealing := some { num := s.rin, copy := c, answered := [], since := s.clk } }
    match c.poisonAt with
    | none => .next s1
    | some site => .next (s1.consume site 2 0)

/-- Cycles within which every module must have answered (R384). -/
def sealLimit : Nat := 6000000

/-- Whether the time for the answers to a seal is over (R384). -/
def State.sealLate (s : State) (x : Sealing) : Bool := sealLimit < (s.clk - x.since).toNat

/-- Whether a seal's marker wave may have failed to pass every element in time (R381): a RUNNING thicket stands in a partition whose marker
deadline is over (log 51). -/
def State.waveLate (s : State) (x : Sealing) : Bool :=
  s.teams.any fun t => s.atWork t.2 && (s.part t.2.vf).any (fun p => decide (p.regs.mkdl ≤ (s.clk - x.since).toNat)) &&
    t.2.members.any fun tk => tk.thickets.toList.any fun y => y.st = .running

/-- READY: this module answers READY, or FAIL for a marker wave that is late, or the coordinator has the answer of another; at the
coordinator an answer comes in time or not at all (R381, R383, R384). -/
def execReady (domain : BitVec 8) (ok : Bool) (s : State) : Out :=
  match s.sealing with
  | none => .next s
  | some x =>
    if domain.toNat ≠ s.own && !(s.coordinates && s.domain.contains domain.toNat) then .next s
    else if (mapGet domain.toNat x.answered).isSome || (s.coordinates && s.sealLate x) then .next s
    else if domain.toNat = s.own && !ok && !s.waveLate x then .next s
    else .next { s with sealing := some { x with answered := mapSet domain.toNat ok x.answered } }

/-- The modules whose answers this one waits for: every module of the domain at the coordinator, itself elsewhere (R383). -/
def State.answerers (s : State) : List Nat := if s.coordinates then s.own :: s.domain else [s.own]

/-- Whether every module that counts here has answered READY (R383). -/
def State.allReady (s : State) (x : Sealing) : Bool := s.answerers.all fun d => mapGet d x.answered = some true

/-- A released write leaves for its destination (R156, R385, R409): host memory, or the peer's port; one to an unrouted domain is
dropped and counted in that peer's error count. -/
def State.release (s : State) (x : Xwr) : State :=
  match x.peer with
  | none => s.hostWrite x.addr (leBytes (if x.wide then 8 else 4) x.data.toNat)
  | some d =>
    if (mapGet d s.spanRoute).isSome then { s with peerOut := s.peerOut ++ [x] }
    else { s with spanDrop := mapSet d ((mapGet d s.spanDrop).getD 0 + 1) s.spanDrop }

/-- A seal has ended: one that fell due meanwhile is due now (R377). -/
def State.sealEnds (s : State) : State := { s with sealing := none, sealDue := s.sealDue || s.sealPending, sealPending := false }

/-- A partition's held writes and log records up to a sealed interval go (R379, R385), and its SEAL packets are done. -/
def State.sealPart (s : State) (vf num : Nat) : State :=
  match s.part vf with
  | none => s
  | some p =>
    let s1 := (p.egress.filter fun x => x.rin ≤ num).foldl State.release s
    let s2 := s1.modPart vf fun p =>
      { p with egress := p.egress.filter fun x => !decide (x.rin ≤ num), log := p.log.filter fun r => !decide (r.rin ≤ num) }
    (List.range 8).foldl (fun s q => s.sealPacketDone vf (BitVec.ofNat 3 q) num) s2

/-- COMMIT: with every module READY the interval is sealed (R379, R383, R385), unless poison has been consumed, which abandons
the seal (R388; log 77). -/
def execCommit (s : State) : Out :=
  match s.sealing with
  | none => .next s
  | some x =>
    if !s.allReady x || s.consumed.isSome then .next s
    else
      let s1 : State := { s with sealed := x.num, sealCopy := x.copy }.sealEnds
      .next ((s.parts.map (·.1)).foldl (fun s vf => s.sealPart vf x.num) s1)

/-- Members that wait in SEALW on a target of at least num (log 87). -/
def State.sealWaiters (s : State) (num : Nat) : List (Nat × Nat) :=
  s.teams.flatMap fun t =>
    if t.2.st ≠ .running then []
    else (numbered t.2.members).filterMap fun x =>
      match x.2.arrived with
      | some (.sealw target) => if num ≤ target then some (t.1, x.1) else none
      | _ => none

/-- SEAL-FAIL at a waiting member (R353, R384). -/
def State.sealFailAt (s : State) (num : Nat) (x : Nat × Nat) : State :=
  match mapGet x.1 s.teams with
  | none => s
  | some tm =>
    match tm.members[x.2]? with
    | none => s
    | some tk =>
      if s.failing tm then s
      else if tk.regs.handler then s.failTask x.1 x.2 11 0 0
      else s.takeTrap { tid := x.1, mem := x.2, team := tm, task := tk } 11 (tk.regs.pc + 4) 0 0 (BitVec.ofNat 64 num)

/-- A failed seal is counted and signalled at every partition, and its copy goes (R384, R391, R408). -/
def State.sealFailed (s : State) : State :=
  let note (s : State) (vf : Nat) : State :=
    (s.modPart vf fun p => { p with regs := { p.regs with fails := min 255 (p.regs.fails + 1) } }).raise vf 6
  (s.parts.map (·.1)).foldl note s.sealEnds

/-- The seal in progress fails, and waiting cores take SEAL-FAIL (R384). -/
def State.sealFails (s : State) (x : Sealing) : State :=
  let s1 := s.sealFailed
  (s1.sealWaiters x.num).foldl (fun s y => s.sealFailAt x.num y) s1

/-- ABORT: some module answered FAIL; elsewhere than at the coordinator it comes from there (R384). -/
def execAbort (s : State) : Out :=
  match s.sealing with
  | none => .next s
  | some x => if !s.coordinates || x.answered.any fun a => !a.2 then .next (s.sealFails x) else .next s

/-- SEAL_TIMEOUT: at the coordinator, not every module has answered within 6,000,000 cycles (R384). -/
def execSealTimeout (s : State) : Out :=
  match s.sealing with
  | none => .next s
  | some x =>
    if !s.coordinates || !s.sealLate x || s.answerers.all (fun d => (mapGet d x.answered).isSome) then .next s
    else .next (s.sealFails x)

/-! ## Rollback (R277, R311, R379, R387–R390, R394) -/

/-- What a record of a heap block says of its four places (log 99). -/
def heapPlaces (bs : List Byte) : List (Option (Word × Word)) :=
  let word (off : Nat) : Nat := leNat ((bs.drop off).take 8)
  tabulate 4 fun i => if word (16 * i) = 2 ^ 64 - 1 then none else some (BitVec.ofNat 64 (word (16 * i)), BitVec.ofNat 64 (word (16 * i + 8)))

/-- A heap with the four places of a block as a record has them. -/
def heapRestore (l : List (Option (Word × Word))) (k : Nat) (bs : List Byte) : List (Option (Word × Word)) :=
  (List.range 4).foldl (fun l i => heapPut l (4 * k + i) ((heapPlaces bs).getD i none)) l

/-- Undo one log record (R311, R378, R388). -/
def State.undo (s : State) (vf : Nat) (r : LogRec) : State :=
  if r.kind = 1 then
    s.modPart vf fun p =>
      let b := r.line / 2 ^ 32
      { p with heaps := mapSet b (heapRestore (p.heapSlots b) (r.line % 2 ^ 32) r.data) p.heaps }
  else
    let bytes := tabulate 64 fun i => 64 * r.line + i
    let clean := s.poisonMem.filter fun a => a / 64 ≠ r.line
    { s with mem := memWriteBytes s.mem (64 * r.line) r.data, poisonMem := if r.poison then setUnion bytes clean else clean }

/-- Insert a partition's record before those of its interval or an earlier one. -/
def insertRec (x : Nat × LogRec) : List (Nat × LogRec) → List (Nat × LogRec)
  | [] => [x]
  | y :: ys => if y.2.rin ≤ x.2.rin then x :: y :: ys else y :: insertRec x ys

/-- The records above the seal in all partitions' logs, newest interval first, and in a log the newest first (R388): in an interval a line has
one record, in one log (R379). -/
def State.undoList (s : State) : List (Nat × LogRec) :=
  (s.parts.flatMap fun p => (p.2.log.filter fun r => s.sealed < r.rin).map fun r => (p.1, r)).foldl (fun l x => insertRec x l) []

/-- Undo every record above the seal, and free them (R388). -/
def State.undoAll (s : State) : State :=
  let s1 := s.undoList.foldl (fun s x => s.undo x.1 x.2) s
  { s1 with parts := s1.parts.map fun p => (p.1, { p.2 with log := p.2.log.filter fun r => !decide (s.sealed < r.rin) }) }

/-- Untracked pages that were written are left with free values (R277, R379; log 49). -/
def State.loosen (s : State) : State :=
  s.loose.foldl (fun s x =>
    { s with mem := memWriteBytes s.mem x.1 (tabulate (2 ^ x.2) fun i => Config.freeByte (s.fresh + i)), fresh := s.fresh + 2 ^ x.2,
             poisonMem := s.poisonMem.filter fun a => !(decide (x.1 ≤ a) && decide (a < x.1 + 2 ^ x.2)) }) s

/-- Whether a partition existed at the seal restored (R375). -/
def State.existed (s : State) (p : Part) : Bool := p.madeAt ≤ s.sealed

/-- A queue at its read position of the seal; launches it named stay named (R381, R388). -/
def SealPart.queue (x : SealPart) (i : BitVec 3) (now : Queue) : Queue :=
  let old := x.queues.get i.toFin
  { now with head := old.head, pseq := old.pseq, busy := false, copied := 0, restart := old.restart, waitRin := none, window := old.window, halted := old.halted,
             hstat := old.hstat, launches := now.launches.filter fun l => l.1 ≤ old.pseq }

/-- A partition's own part of a rollback: held writes above the seal go, queues return and wait for the acknowledgement (R388, R408; log
108). A fault record that waits for room is still written; what it reports has been rolled back (R357; log 108). -/
def State.rollPart (s : State) (vf : Nat) : State :=
  match s.part vf with
  | none => s
  | some p =>
    let old : Option SealPart := if s.existed p then mapGet vf s.sealCopy.parts else none
    let queues := match old with
      | some x => Vector.ofFn fun i : Fin 8 => x.queue (BitVec.ofFin i) (p.queues.get i)
      | none => p.queues.map fun q =>
          { q with head := 0, pseq := 0, busy := false, copied := 0, restart := false, waitRin := none, window := false, halted := false, hstat := 0, launches := [] }
    s.modPart vf fun p =>
      { p with egress := p.egress.filter fun x => x.rin ≤ s.sealed, queues := queues, occs := (old.map (·.occs)).getD [],
               stalls := [], waitingRecs := p.waitingRecs.map fun r => { r with launch := 2 ^ 64, stall := none }, awaitAck := true, rollbacks := p.rollbacks + 1 }

/-- The work identifiers of a launch from its fields (R45). -/
def widList : List Nat → List Nat → List Nat
  | w :: ws, e :: es => (widList ws es).flatMap fun v => tabulate e fun i => i + 2 ^ w * v
  | _, _ => [0]

/-- Whether a launch is under ABANDON (R298). -/
def Launch.abandons (l : Launch) : Bool := l.hdr.rpol = 1

/-- A restored launch: one that re-executes work is corrected, and stays so (R55, R390). -/
def State.restoredLaunch (s : State) (n : Nat) (l : Launch) : Launch :=
  let began := s.teams.any (fun t => t.2.launch = n && !(t.2.st = .staged && !t.2.resumed)) || match mapGet n s.launches with
    | none => false
    | some now => now.retired.length ≠ l.retired.length || now.reexec ≠ l.reexec || now.corrected
  if l.stage ≠ .complete && began && !l.abandons then { l with corrected := true } else l

/-- The work identifiers of a launch that has not completed fail under ABANDON, bound ones with their fault records (R390). -/
def State.abandonLaunch (s : State) (n : Nat) : State :=
  match mapGet n s.launches with
  | none => s
  | some l =>
    if !l.abandons || l.stage = .complete then s
    else
      let s1 := (s.teams.filter fun t => t.2.launch = n).foldl (fun s t => s.failFree t.1 0) s
      s1.modLaunch n fun l =>
        let left := (widList l.hdr.widths l.hdr.exts).filter fun w =>
          (mapGet w l.retired).isNone && !(s1.teams.any fun t => t.2.launch = n && t.2.wid.toNat = w)
        { l with tainted := true, stage := if l.stage = .pooled then .pooled else .ready,
                 retired := left.foldl (fun m w => mapSet w (0, true) m) l.retired }

/-- The rollback record of a virtual function (R389). -/
def rollbackRecord (num failed : Nat) (c : Consumed) (xdrop restart abandon count : Nat) : List Byte :=
  leBytes 8 num ++ leBytes 8 failed ++ leBytes 8 c.addr ++ leBytes 2 c.site ++ leBytes 1 c.whereCode ++ leBytes 1 0 ++
  leBytes 4 xdrop ++ leBytes 4 restart ++ leBytes 4 abandon ++ leBytes 8 count ++ leBytes 16 0

/-- Write a partition's rollback record and raise vector 1 (R389, R408). -/
def State.reportRollback (s : State) (before : State) (teams : List (Nat × Team)) (c : Consumed) (vf : Nat) : State :=
  match before.part vf, s.part vf with
  | some q, some p =>
    let mine := teams.filter fun t => t.2.vf = vf
    let under (f : Bool) := mine.filter fun t => ((mapGet t.2.launch s.launches).any Launch.abandons) = f
    let restart := ((under false).filter fun t => t.2.st = .saved).length
    let abandon := ((under true).map fun t => teamSize t.2.size).sum
    let drop := (q.egress.filter fun x => before.sealed < x.rin).length
    (s.hostWrite p.regs.rbbase.toNat (rollbackRecord before.sealed before.rin c drop restart abandon p.rollbacks)).raise vf 1
  | _, _ => s

/-- The state that a rollback restores (R375, R388, R390, R394), with a rollback record for each partition (R389). A seal that was due, or
fell due during one that is abandoned, stays due (R377). -/
def State.rollBack (s : State) (c : Consumed) : State :=
  let vfs := s.parts.map (·.1)
  let s0 := if s.sealing.isSome then s.sealFailed else s
  let s1 := s0.undoAll.loosen
  let lives (vf : Nat) : Bool := (s1.part vf).any s1.existed
  let teams := s1.sealCopy.teams.filter fun t => lives t.2.vf
  let launches := (s1.sealCopy.launches.filter fun l => lives l.2.vf).map fun l => (l.1, s.restoredLaunch l.1 l.2)
  let s2 : State := { s1 with teams := teams, launches := launches, amoos := [], waits := [], prev := [], consumed := none }
  let s3 := vfs.foldl State.rollPart s2
  let s4 := (launches.map (·.1)).foldl State.abandonLaunch s3
  let s5 : State := { s4 with teams := s4.teams.filter fun t => t.2.st = .saved || s4.failing t.2, rin := s.rin + 1 }
  vfs.foldl (fun z vf => z.reportRollback s teams c vf) s5

/-- ROLLBACK: poison has been consumed, and the module returns to the last completed seal (R277, R387–R390, R394). In a domain of
several modules a peer may have consumed it; its WHERE and ADDR are then free values (log 52). -/
def execRollback (s : State) : Out :=
  match s.consumed with
  | some c => .next (s.rollBack c)
  | none =>
    if s.domain.isEmpty then .next s
    else
      let n := (Config.freeWord s.fresh).toNat
      .next (s.tick.rollBack { site := 14 * 512 + n % 8, whereCode := n / 8 % 5, addr := n / 64 % 2 ^ 46 * 64 })

/-! ## PRT_RCVST (R391) -/

/-- PRT_RCVST of a partition: the last completed seal, the failed ones, whether the log is so full that writes wait, and its fill (R391; log 145). -/
def State.rcvst (s : State) (p : Part) : Word :=
  BitVec.ofNat 64 (s.sealed % 2 ^ 48 * 2 ^ 16 + p.regs.fails % 256 * 2 ^ 8 + b2n p.logStall * 2 ^ 7 + p.logFill)

/-! ## Error injection (R393) -/

/-- A write to PRT_EINJA (R393): with ARM it arms the pair with the present MINRIN. -/
def State.writeEinja (s : State) (vf : Nat) (v : Word) : State :=
  s.modPart vf fun p =>
    { p with regs := { p.regs with einjLine := bitsOf v.toNat 51 6, einjArm := bitAt v.toNat 0,
                                   einjMin := if bitAt v.toNat 0 then p.regs.einjr else p.regs.einjMin } }

/-- EINJ_ARM (R393). -/
def execEinjArm (vf : BitVec 6) (v : Word) (s : State) : Out :=
  if bitAt v.toNat 0 then .next (s.writeEinja vf.toNat v) else .next s

end Sys2Proof.Machine
end

