-- ==== Sys2Proof/Machine/Host.lean ====
section
/-! DEFINITION. The host's packets, registers, fault answers, debug requests and attestation (R260, R276, R299, R303, R328–R332,
R357, R358, R404–R418). -/

namespace Sys2Proof.Machine

/-! ## Packets (R404–R406) -/

/-- Whether a queue fetches the packet at its read position (R404, R406, R408). -/
def State.fetches (s : State) (p : Part) (q : Queue) : Bool :=
  s.power == .on && q.ctlEnable && !q.halted && decide (6 ≤ q.log2) && decide (q.log2 ≤ 16) && !p.awaitAck && q.head ≠ q.tail

/-- A queue halts at its packet, with vector 3 (R404, R405, R408). -/
def State.haltQueue (s : State) (vf : Nat) (q : BitVec 3) (hstat : Nat) : State :=
  (s.modQueue vf q fun x => { x with halted := true, hstat := hstat, busy := false }).raise vf 3

/-- What a queue's packet in turn is, for the event of a packet type. -/
structure Fetched where
  vf : Nat
  q : BitVec 3
  part : Part
  queue : Queue

/-- Act on the packet at a queue's read position when it has a type (R405); a packet of an unlisted type, or with a reserved byte
set, halts the queue as a bad packet (log 53). -/
def onPacket (vf : BitVec 6) (q : BitVec 3) (type : Nat) (s : State) (f : Fetched → Out) : Out :=
  match s.part vf.toNat with
  | none => .next s
  | some p =>
    let x := p.queues.get q.toFin
    if !s.fetches p x then .next s
    else
      let t := s.packet x 0 1
      if t = 0 ∨ 7 < t then .next (s.haltQueue vf.toNat q 1)
      else if t ≠ type then .next s
      else if 1 < s.packet x 1 1 ∨ s.packet x 2 6 ≠ 0 then .next (s.haltQueue vf.toNat q 1)
      else f { vf := vf.toNat, q := q, part := p, queue := x }

/-- Number that stands for a rejected launch in a queue's list: no launch has it. -/
def rejectedLaunch : Nat := 2 ^ 64

/-- The completion record of a rejected launch (R299, R407): STATUS, RIN, QUEUE and PSEQ, and the KEY of the header bytes where they could be
read (R323); the fields of a launch that never was are free values (log 54). -/
def State.rejectedRecord (s : State) (q : BitVec 3) (pseq : Nat) (hdr : Option (List Byte)) : List Byte :=
  let free (i n : Nat) : List Byte := leBytes n (Config.freeWord (s.fresh + i)).toNat
  free 0 4 ++ leBytes 1 q.toNat ++ leBytes 1 ((Config.freeWord (s.fresh + 1)).toNat % 3) ++ leBytes 2 1 ++ leBytes 8 s.rin ++
  free 2 8 ++ free 3 8 ++ free 4 8 ++ (hdr.elim (free 5 8) fun bs => leBytes 8 (headerKey bs).toNat) ++ leBytes 8 pseq ++ free 6 8

/-- A launch header in committed memory: none without translations (R298; log 95). -/
def State.hostHeader (s : State) (vf va : Nat) : Option (List Byte) :=
  match s.lookup vf va [], s.lookup vf (va + 64) [] with
  | some a, some b => some (s.pageBytes a va 64 ++ s.pageBytes b (va + 64) 64)
  | _, _ => none

/-- The packet at a queue's read position has been fetched and stays there. -/
def State.packetWaits (s : State) (vf : Nat) (q : BitVec 3) : State := s.modQueue vf q fun y => { y with busy := true }

/-- LAUNCH_PACKET (R299, R301, R405): accepted or rejected it is done; a full pool holds it. A header at no multiple of 64 breaks R298
(log 54). -/
def execLaunchPacket (vf : BitVec 6) (q : BitVec 3) (s : State) : Out :=
  onPacket vf q 1 s fun x =>
    let va := s.packet x.queue 8 8
    let num := x.queue.pseq + 1
    let named (s : State) (l : Nat) : State := s.modQueue x.vf q fun y => { y with launches := mapSet num l y.launches }
    let hdr := if va % 64 = 0 then s.hostHeader x.vf va else none
    let s0 := if va % 64 = 0 then s.headerRead x.vf [] va else s
    let reject : Out :=
      let s1 : State := { s0 with fresh := s.fresh + 7 }.hostWrite (s.packet x.queue 16 8) (s.rejectedRecord q num hdr)
      .next ((named s1 rejectedLaunch).packetDone x.vf q)
    match hdr with
    | none => reject
    | some bs =>
      match s0.submit x.vf bs { parent := none, queue := q, pseq := num, record := BitVec.ofNat 64 (s.packet x.queue 16 8), host := true,
                                window := x.queue.window } with
      | .accepted s1 l => .next ((named s1 l).packetDone x.vf q)
      | .full => .next (s0.packetWaits x.vf q)
      | .rejected => reject

/-- Whether a launch of a partition is running (R260): from its first binding till its last team retires, a re-execution included
(R325). -/
def State.launchRuns (s : State) (vf : Nat) : Bool :=
  s.teams.any (fun t => t.2.vf = vf) ||
    s.launches.any fun l => l.2.vf = vf && l.2.stage = .ready && (!l.2.retired.isEmpty || l.2.reexec)

/-- Bytes of a partition's weight store (R7, R260; log 93). -/
def Part.weightBytes (p : Part) : Nat := p.desc.wbanks.length * weightBankBytes

/-- Whether a COPY packet's fields keep their limits: DIR, and a weight-store range inside the store (R405; log 55). -/
def State.copyOk (s : State) (p : Part) (q : Queue) : Bool :=
  let dir := s.packet q 28 4
  dir < 2 || (dir = 2 && decide (s.packet q 16 8 + s.packet q 24 4 ≤ p.weightBytes))

/-- COPY_PACKET starts a copy (R405). -/
def execCopyPacket (vf : BitVec 6) (q : BitVec 3) (s : State) : Out :=
  onPacket vf q 2 s fun x =>
    if x.queue.busy then .next s
    else if !s.copyOk x.part x.queue then .next (s.haltQueue x.vf q 1)
    else .next (s.modQueue x.vf q fun y => { y with busy := true })

/-- Write host bytes into device memory, line by line, till the log holds a line's write (R376, R379, R380), with the bytes that are left. A
line without a translation to device memory that may be written is left out (R412; log 56). -/
def State.hostToGlobal (s : State) (vf : Nat) : Nat → Nat → List Byte → State × List Byte
  | 0, _, bs => (s, bs)
  | fuel + 1, va, bs =>
    if bs.isEmpty then (s, [])
    else
      let n := min bs.length (64 - va % 64)
      let rest (s : State) : State × List Byte := s.hostToGlobal vf fuel (va + n) (bs.drop n)
      match s.lookup vf va [] with
      | none => rest (s.walked vf va [])
      | some e =>
        if e.kind ≠ 0 || !e.writable then rest (s.walked vf va [])
        else if s.stalled vf (e.pa va) e.tracked then (s, bs)
        else rest ((s.walked vf va []).commitWrite vf (e.pa va) e.free (bs.take n))

/-- Committed bytes at virtual addresses; one without a translation to device memory reads as a free value (log 56). -/
def State.globalToHost (s : State) (vf va n : Nat) : List Byte :=
  tabulate n fun i =>
    match s.lookup vf (va + i) [] with
    | none => Config.freeByte (s.fresh + i)
    | some e => if e.kind ≠ 0 then Config.freeByte (s.fresh + i) else (s.pageBytes e (va + i) 1).headD 0

/-- The lines of a range of global memory have been read for the host, which may fire the error injection (R393; log 131). -/
def State.hostReads (s : State) (vf va n : Nat) : State :=
  if n = 0 then s else (span (va / 64) ((va + n - 1) / 64 - va / 64 + 1)).foldl (fun s l => s.dispatchRead vf (64 * l)) s

/-- The bytes of a COPY packet move, as far as they need not wait (R260, R380, R405), and whether they all have. -/
def State.copyBytes (s : State) (q : BitVec 3) (x : Fetched) : State × Bool :=
  let src := s.packet x.queue 8 8
  let dst := s.packet x.queue 16 8
  let n := s.packet x.queue 24 4
  let dir := s.packet x.queue 28 4
  let k := x.queue.copied
  if dir = 0 then
    let (s1, left) := s.hostToGlobal x.vf (n / 64 + 2) (dst + k) (memReadBytes s.hostMem (src + k) (n - k))
    (s1.modQueue x.vf q fun y => { y with copied := n - left.length }, left.isEmpty)
  else if dir = 1 then ({ s.hostReads x.vf src n with fresh := s.fresh + n }.hostWrite dst (s.globalToHost x.vf src n), true)
  else if s.launchRuns x.vf then (s, false)
  else
    let addrs := tabulate n fun i => dst + i
    (s.modPart x.vf fun p => { p with wstore := memWriteBytes p.wstore dst (memReadBytes s.hostMem src n),
                                      poisonW := p.poisonW.filter fun a => !addrs.contains a }, true)

/-- COPY_PACKET_DONE: with the bytes landed, the host word is set and the packet is done; while some must wait it goes on later (R260, R276,
R380, R405, R427). -/
def execCopyPacketDone (vf : BitVec 6) (q : BitVec 3) (s : State) : Out :=
  onPacket vf q 2 s fun x =>
    if !x.queue.busy then .next s
    else
      let (s1, all) := s.copyBytes q x
      let a := s.packet x.queue 32 8
      if all then .next ((if a = 0 then s1 else s1.hostWrite a (leBytes 8 1)).packetDone x.vf q) else .next s1

/-- WAITV waits for an earlier launch of its queue; a tainted verdict halts the queue (R405; log 85). -/
def execWaitv (vf : BitVec 6) (q : BitVec 3) (s : State) : Out :=
  onPacket vf q 3 s fun x =>
    match mapGet (s.packet x.queue 8 8) x.queue.launches with
    | none => .next (s.haltQueue x.vf q 1)
    | some n =>
      if n = rejectedLaunch then .next (s.packetDone x.vf q)
      else match mapGet n s.launches with
        | none => .next (s.packetWaits x.vf q)
        | some l =>
          if !l.posted then .next (s.packetWaits x.vf q)
          else if l.verdict = 2 then .next (s.haltQueue x.vf q 2)
          else .next (s.packetDone x.vf q)

/-- CAPTURE_START (R329, R405). -/
def execCaptureStart (vf : BitVec 6) (q : BitVec 3) (s : State) : Out :=
  onPacket vf q 4 s fun x => .next ((s.modQueue x.vf q fun y => { y with window := true }).packetDone x.vf q)
/-- CAPTURE_STOP (R329, R405). -/
def execCaptureStop (vf : BitVec 6) (q : BitVec 3) (s : State) : Out :=
  onPacket vf q 5 s fun x => .next ((s.modQueue x.vf q fun y => { y with window := false }).packetDone x.vf q)

/-- SEAL_PACKET requests a seal, and is done when the seal of the interval open at its fetch completes (R377, R405). -/
def execSealPacket (vf : BitVec 6) (q : BitVec 3) (s : State) : Out :=
  onPacket vf q 6 s fun x =>
    if x.queue.busy then .next s
    else .next (s.modQueue x.vf q fun y => { y with busy := true, waitRin := some s.rin }).requestSeal

/-- COUNT_PACKET adds to a counter as an AMOF.ADD.D: poison at its location is consumed, and nothing is added on a page that may not be
written; the add may wait for log space (R303, R380, R387, R389, R405, R412; log 13). -/
def execCountPacket (vf : BitVec 6) (q : BitVec 3) (s : State) : Out :=
  onPacket vf q 7 s fun x =>
    let va := s.packet x.queue 8 8
    if va % 8 ≠ 0 then .next (s.haltQueue x.vf q 1)
    else
      let s0 := s.walked x.vf va []
      match s.lookup x.vf va [] with
      | none => .next (s0.packetDone x.vf q)
      | some e =>
        if e.kind ≠ 0 || !e.writable then .next (s0.packetDone x.vf q)
        else
          let pa := e.pa va
          let (s1, fired) := s0.inject x.vf pa
          if fired || (List.range 8).any fun i => s1.poisonMem.contains (pa + i) then
            .next (s1.consume (s1.homeSlice x.vf pa) 4 (pa / 64 * 64))
          else
            let s2 := s1.counterAdd x.vf va (s.packet x.queue 16 8) []
            .next (if s1.logFull s2 x.vf then (s1.fillLog s2 x.vf).packetWaits x.vf q else s2.packetDone x.vf q)

/-! ## Queue registers (R404, R405) -/

/-- QUEUE_DOORBELL: a write to VF_Qq_TAIL (R404). -/
def execQueueDoorbell (vf : BitVec 6) (q : BitVec 3) (v : Word) (s : State) : Out :=
  .next (s.modQueue vf.toNat q fun x => { x with tail := v })

/-- A write to VF_Qq_CTL (R404, R405): enabling restarts PSEQ, with the first packet fetched after it; ENABLE = 1 while HALTED resumes past the
halting packet (log 103). -/
def Queue.writeCtl (x : Queue) (v : Word) : Queue :=
  let on := bitAt v.toNat 31
  let again := on && !x.ctlEnable
  let x1 := if again then (if x.busy then { x with restart := true } else { x with pseq := 0, launches := [], restart := false }) else x
  let x2 := { x1 with ctlEnable := on, log2 := bitsOf v.toNat 4 0 }
  if on && x.halted then
    let x3 := { x2 with halted := false, hstat := 0 }
    if again then { x3 with head := x3.head + 1 } else x3.past
  else x2

/-- QUEUE_CTL_WRITE (R404, R405). -/
def execQueueCtlWrite (vf : BitVec 6) (q : BitVec 3) (v : Word) (s : State) : Out :=
  .next (s.modQueue vf.toNat q fun x => x.writeCtl v)

/-! ## Invalidation of translations (R415) -/

/-- The entries that a VF_TLBINV value names go from every cache, and bit 63 clears. -/
def Part.invalidate (p : Part) : Part :=
  let v := p.regs.tlbinv.toNat
  let va := bitsOf v 48 16 * 65536
  if !bitAt v 63 then p
  else { p with tlb := if bitAt v 0 then [] else p.tlb.filter fun e => va / 2 ^ e.2.size ≠ e.2.page,
                regs := { p.regs with tlbinv := p.regs.tlbinv &&& 0x7FFFFFFFFFFFFFFF#64 } }

/-- A write to VF_TLBINV: the named entries go by TLB_INVALIDATE_DONE, till when bit 63 reads 1; an invalidation still under way
ends first. -/
def State.writeTlbinv (s : State) (vf : Nat) (v : Word) : State :=
  s.modPart vf fun p =>
    let p1 := p.invalidate
    { p1 with regs := { p1.regs with tlbinv := v ||| 0x8000000000000000#64 } }

/-- TLB_INVALIDATE_ALL (R415). -/
def execTlbInvalidateAll (vf : BitVec 6) (s : State) : Out := .next (s.writeTlbinv vf.toNat 1)
/-- TLB_INVALIDATE_PAGE: a value with bit 0 clear (R415). -/
def execTlbInvalidatePage (vf : BitVec 6) (v : Word) (s : State) : Out :=
  if bitAt v.toNat 0 then .next s else .next (s.writeTlbinv vf.toNat v)
/-- TLB_INVALIDATE_DONE (R415). -/
def execTlbInvalidateDone (vf : BitVec 6) (s : State) : Out := .next (s.modPart vf.toNat Part.invalidate)

/-! ## Fault answers (R357, R358) -/

/-- A record that waited is written (R357): a failure's team is removed; an access that still stalls takes the record's number. -/
def State.flushFault (s : State) (vf : Nat) (r : WaitRec) : State :=
  let num := ((s.part vf).map (·.faultSeq)).getD 0 % 2 ^ 32
  let s1 := s.writeFault vf r.entry
  match r.stall with
  | none =>
    match s1.teams.find? fun t => r.entry.kind = 1 && t.2.vf = vf && t.2.wid = r.entry.wid && t.2.launch = r.launch with
    | some (t, _) => s1.dropTeam t
    | none => s1
  | some x =>
    let s2 := s1.modPart vf fun p => { p with stalls := p.stalls ++ [{ x with seq := num }] }
    if x.txq then s2
    else s2.modTask x.team x.member fun tk => tk.modCmd (BitVec.ofNat 4 x.tl) x.num fun c =>
      if c.stall = some unnumbered then { c with stall := some num } else c

/-- Write the records that wait for room, while there is room (R357; log 110). -/
def State.flushFaults (s : State) (vf : Nat) : Nat → State
  | 0 => s
  | n + 1 =>
    match s.part vf with
    | none => s
    | some p =>
      match p.waitingRecs with
      | [] => s
      | r :: rest =>
        if p.fqFull then s else ((s.modPart vf fun p => { p with waitingRecs := rest }).flushFault vf r).flushFaults vf n

/-- The stalled access with a record number. -/
def State.stalledBy (s : State) (vf : Nat) (seq : BitVec 32) : Option Stall :=
  match s.part vf with
  | none => none
  | some p => p.stalls.find? fun x => x.seq = seq.toNat

/-- FQANS_RETRY: the stalled access is free to walk again (R173, R358); a STRM.OUT takes the tokens that waited. -/
def execFqansRetry (vf : BitVec 6) (seq : BitVec 32) (s : State) : Out :=
  match s.stalledBy vf.toNat seq with
  | none => .next s
  | some x =>
    let s1 := s.modPart vf.toNat fun p => { p with stalls := p.stalls.filter fun y => y ≠ x }
    if x.txq then .next s1
    else
      let tl : BitVec 4 := BitVec.ofNat 4 x.tl
      let s2 := s1.modTask x.team x.member fun tk => tk.modCmd tl x.num fun c => { c with stall := none }
      match (s2.task x.team x.member).bind fun y => (y.2.cmd tl x.num).map fun c => (y.2, c) with
      | some (tk, c) =>
        if c.kind.isOut then
          let n : BitVec 4 := BitVec.ofNat 4 c.port
          .next (s2.drainFo x.team x.member n ((tk.snk n).fifo.length + 2))
        else .next s2
      | none => .next s2

/-- FQANS_FAIL fails the tile task (R56, R358). -/
def execFqansFail (vf : BitVec 6) (seq : BitVec 32) (s : State) : Out :=
  match s.stalledBy vf.toNat seq with
  | none => .next s
  | some x => .next (s.failTask x.team x.member x.cause x.detail x.addr)

/-- VF_RBACK acknowledges the rollback record, and fetching resumes (R404, R408). -/
def execVfRback (vf : BitVec 6) (s : State) : Out := .next (s.modPart vf.toNat fun p => { p with awaitAck := false })

/-! ## Registers (R305, R307, R364, R377, R393, R404, R409) -/

/-- Change a partition's registers. -/
def State.modRegs (s : State) (vf : Nat) (f : PartRegs → PartRegs) : State := s.modPart vf fun p => { p with regs := f p.regs }

/-- Change a partition's debug state. -/
def State.modDebug (s : State) (vf : Nat) (f : Debug → Debug) : State := s.modPart vf fun p => { p with dbg := f p.dbg }

/-- The value that a register of a bounded count stores (log 103). -/
def clampNat (lo hi v : Nat) : Nat := if v < lo then lo else if hi < v then hi else v

/-- REGISTER_WRITE stores a register's value, within the limits that its map states; a write to VF_FQHEAD lets waiting records out
(R357), one to SLT_BIND_HI submits a bind record (R305). A snapshot armed again drops its latched values (R332; log 102, log 103). -/
def execRegisterWrite (vf : BitVec 6) (r : RegName) (v : Word) (s : State) : Out :=
  let n := vf.toNat
  let low (k : Nat) : Nat := v.toNat % 2 ^ k
  let on := bitAt v.toNat 0
  match r with
  | .vfPtroot => .next (s.modRegs n fun x => { x with ptroot := v })
  | .vfFqbase => .next (s.modRegs n fun x => { x with fqbase := v })
  | .vfFqhead =>
    let s1 := s.modRegs n fun x => { x with fqhead := v }
    .next (s1.flushFaults n (((s1.part n).map fun p => p.waitingRecs.length).getD 0))
  | .vfRbbase => .next (s.modRegs n fun x => { x with rbbase := v })
  | .vfDlbase => .next (s.modRegs n fun x => { x with dlbase := v })
  | .vfDlhead => .next (s.modRegs n fun x => { x with dlhead := v })
  | .vfIntmask => .next (s.modRegs n fun x => { x with intmask := v.setWidth 8 })
  | .vfQbase q => .next (s.modQueue n q fun x => { x with base := v })
  | .prtSeal => .next (s.modRegs n fun x => { x with sealPeriod := clampNat 60000 60000000 (low 32) })
  | .prtMkdl => .next (s.modRegs n fun x => { x with mkdl := max 6000 (low 32) })
  | .prtEinja => .next (s.writeEinja n v)
  | .prtEinjr => .next (s.modRegs n fun x => { x with einjr := low 48 })
  | .sltWdog die => .next (s.modSlt die.toNat fun x => { x with wdog := max 65536 (low 32) })
  | .sltBindLo die => .next (s.modSlt die.toNat fun x => { x with bindLo := v })
  | .sltBindHi die => .next (s.writeBindHi die.toNat v)
  | .spanRoute d =>
    .next { s with spanRoute := if v.toNat < 8 then mapSet d.toNat v.toNat s.spanRoute else mapErase d.toNat s.spanRoute }
  | .debugArm => .next (s.modDebug n fun x => { x with armed := on })
  | .snapArmBrk => .next (s.modDebug n fun x => { x with snapBrk := on, latched := if on then none else x.latched })
  | .snapArmRegion => .next (s.modDebug n fun x => { x with snapRegion := on, latched := if on then none else x.latched })
  | .swapEnable => .next (s.modPart n fun p => { p with swaps := on })

/-! ## Debug, snapshots, attestation (R330, R332, R418) -/

/-- SNAPSHOT_TRIGGER (R332). -/
def execSnapshotTrigger (vf : BitVec 6) (s : State) : Out := .next (s.snapshot vf.toNat)

/-- DEBUG_STOP_REQUEST (R330; log 106). -/
def execDebugStopRequest (vf : BitVec 6) (s : State) : Out := .next (s.debugStop vf.toNat)

/-- DEBUG_RESUME: the host resumes all parts together (R330; log 106). -/
def execDebugResume (vf : BitVec 6) (s : State) : Out := .next (s.modDebug vf.toNat fun x => { x with stopReq := false })

/-! ## Reads of registers and of the management window (R330, R332, R404, R416) -/

/-- VF_Qq_CTL as it reads (R404). -/
def Queue.ctl (x : Queue) : Nat := b2n x.ctlEnable * 2 ^ 31 + b2n x.halted * 2 ^ 30 + x.hstat % 256 * 2 ^ 16 + x.log2 % 32

/-- The value of a register, as its virtual function or the management function reads it (R305–R307, R364, R371, R377, R391, R393, R404, R409, R416;
log 145). -/
def State.readReg (s : State) (vf : Nat) (r : ReadName) : Word :=
  let part (f : Part → Word) : Word := (s.part vf).elim 0 f
  let queue (q : BitVec 3) (f : Queue → Word) : Word := part fun p => f (p.queues.get q.toFin)
  match r with
  | .vfPtroot => part (·.regs.ptroot)
  | .vfTlbinv => part (·.regs.tlbinv)
  | .vfFqbase => part (·.regs.fqbase)
  | .vfFqhead => part (·.regs.fqhead)
  | .vfFqtail => part (·.regs.fqtail)
  | .vfRbbase => part (·.regs.rbbase)
  | .vfDlbase => part (·.regs.dlbase)
  | .vfDlhead => part (·.regs.dlhead)
  | .vfDltail => part (·.regs.dltail)
  | .vfIntmask => part (·.regs.intmask.setWidth 64)
  | .vfQbase q => queue q (·.base)
  | .vfQctl q => queue q fun x => BitVec.ofNat 64 x.ctl
  | .vfQtail q => queue q (·.tail)
  | .vfQhead q => queue q (·.head)
  | .prtSeal => part fun p => BitVec.ofNat 64 p.regs.sealPeriod
  | .prtMkdl => part fun p => BitVec.ofNat 64 p.regs.mkdl
  | .prtRcvst => part s.rcvst
  | .prtEinja => part fun p => BitVec.ofNat 64 (p.regs.einjLine * 2 ^ 6 + b2n p.regs.einjArm)
  | .prtEinjr => part fun p => BitVec.ofNat 64 p.regs.einjr
  | .sltSts die => BitVec.ofNat 64 ((s.slotTable die.toNat).withdrawn * 2 ^ 8 + (s.slotTable die.toNat).code)
  | .sltWdog die => BitVec.ofNat 64 (s.slotTable die.toNat).wdog
  | .sltBindLo die => (s.slotTable die.toNat).bindLo
  | .spanRoute d => BitVec.ofNat 64 ((mapGet d.toNat s.spanRoute).getD 255)
  | .spanDrop d => BitVec.ofNat 64 ((mapGet d.toNat s.spanDrop).getD 0)
  | .corePemap core => s.peMap core.toNat

/-- Whether a core's blocks have come to a debug stop (R330): fills landed, no engine command begun, every RUNNING thicket at rest. -/
def Cur.debugStopped (c : Cur) (s : State) : Bool :=
  let tk := c.task
  s.debugHeld c.team.vf && tk.fills.isEmpty && tk.tl.toList.all (fun x => x.cmds.all fun c => c.pos = 0 && !c.started) &&
    [0, 1, 2, 3].all fun n =>
      let t : BitVec 2 := BitVec.ofNat 2 n
      (tk.th t).st ≠ .running || (tk.th t).stopped || !(c.injects s t || (tk.th t).elems.any fun e => s.elemMoves c t e.1 e.2)

/-- Whether the blocks of a team's cores have come to a debug stop. -/
def Team.debugStopped (tm : Team) (s : State) (t : Nat) : Bool :=
  (numbered tm.members).all fun x => x.2.slot = .gone || Cur.debugStopped { tid := t, mem := x.1, team := tm, task := x.2 } s

/-- Whether a partition has come to a debug stop (R330): every core of it, and no seal or swap in progress. -/
def State.partStopped (s : State) (vf : Nat) : Bool :=
  s.debugHeld vf && s.sealing.isNone &&
    s.teams.all fun t => t.2.vf ≠ vf || (t.2.swaps.isEmpty && (t.2.st ≠ .running || t.2.debugStopped s t.1))

/-- What the management window shows of a partition's blocks (R332, R416): of a stopped one what stands, else what its snapshot latched (log 145). -/
def State.window (s : State) (vf : Nat) : Option Snapshot :=
  (s.part vf).bind fun p => if s.partStopped vf then some (s.capture vf p) else p.dbg.latched

/-- What the window shows of the core of a team's member: what stands once its blocks have stopped, else what the snapshot latched (R330,
R416; log 145). -/
def State.windowCore (s : State) (t m : Nat) : Option Task :=
  (s.task t m).bind fun (tm, tk) =>
    if Cur.debugStopped { tid := t, mem := m, team := tm, task := tk } s then some tk
    else ((s.part tm.vf).bind (·.dbg.latched)).bind fun x => (mapGet t x.teams).bind (·.members[m]?)

/-- The image that runs: slot 1 after the alternative of bring-up step 2 (R417, R419). -/
def Flash.running (f : Flash) : List Byte := if f.status.get 1 = 3 then f.image1 else f.image0

/-- The board-flash configuration as bytes: the PE maps (R371; log 57). -/
def Flash.config (f : Flash) : List Byte := f.pemaps.flatMap fun m => leBytes 8 m.1 ++ leBytes 8 m.2.toNat

/-- The content of an attestation report (R418): digests of 32 bytes, the bring-up record, the nonce (log 57). -/
def Flash.report (f : Flash) (nonce : BitVec 256) : List Byte :=
  shake256 32 f.running ++ shake256 32 f.config ++ (f.status.toList.flatMap fun x => leBytes 1 x.toNat) ++ leBytes 32 nonce.toNat

/-- ATTESTATION_REPORT: signed with the next unused leaf; with every leaf spent it is refused (R418). -/
def execAttestationReport (nonce : BitVec 256) (s : State) : Out :=
  if s.power ≠ .on || Config.xmssLeaves ≤ s.flash.leaf then .next s
  else
    let r := s.flash.report nonce
    .next { s with reports := s.reports ++ [r ++ Config.xmssSign s.flash.leaf r], flash := { s.flash with leaf := s.flash.leaf + 1 } }

end Sys2Proof.Machine
end

