-- ==== Sys2Proof/Machine/Module.lean ====
section
/-! DEFINITION. Management of partitions, weight-store refresh, power, bring-up, ECC errors and peers (R27, R38, R340, R360, R375,
R387, R400–R403, R409, R417–R421). -/

namespace Sys2Proof.Machine

/-! ## Partitions (R400–R403) -/

/-- Whether two lists share an entry. -/
def meets [BEq α] (a b : List α) : Bool := a.any b.contains

/-- Whether a list holds no entry twice. -/
def noRepeat [BEq α] : List α → Bool
  | [] => true
  | x :: xs => !xs.contains x && noRepeat xs

/-- Whether sprigs exist and are named once, with at least one (R2, R4, R9). -/
def sprigsOk (l : List (BitVec 8)) : Bool := !l.isEmpty && noRepeat l && l.all fun x => x.toNat < 192

/-- Bytes of the areas that a partition keeps in its HBM (R271, R302, R309, R323, R328, R378; log 102). -/
def areaBytes (d : PartDesc) : Nat :=
  256 * d.listSize + logBytes d + d.overflowBytes + d.heapSpill + d.detBytes + d.glintSize

/-- Whether a description keeps the limits of R7, R271, R302, R400 and R401: resources that exist, banks of its dies, areas that its HBM
holds (log 102). -/
def descOk (d : PartDesc) : Bool :=
  sprigsOk d.sprigs && decide (areaBytes d ≤ Config.groupBytes * d.hbmGroups.length) && noRepeat d.wbanks && noRepeat d.hbmGroups &&
  d.wbanks.all (fun b => b.toNat < 384 && d.sprigs.any fun x => x.toNat / 16 = b.toNat / 32) &&
  d.hbmGroups.all (fun g => g.toNat < 576) && decide (d.share.toNat ≤ 256) && d.ports.all (fun x => x.2.toNat ≤ 256) && decide (65536 ≤ d.listSize) &&
  decide (d.listSize ≤ 2 ^ 32) && decide (2 ^ 26 ≤ d.overflowBytes)

/-- Whether a description shares a resource with a partition (R400; log 102). -/
def descClash (d e : PartDesc) : Bool := meets d.sprigs e.sprigs || meets d.wbanks e.wbanks || meets d.hbmGroups e.hbmGroups

/-- A partition's share of a switch port or memory controller, by the port's number (R401; log 102). -/
def shareAt (d : PartDesc) (port : Nat) : Nat := ((mapGet port d.ports).getD d.share).toNat

/-- Whether the shares of every port sum to at most 256 among partitions (R401): of the ports that some partition lists, and of the others (log 102). -/
def sharesOk (ds : List PartDesc) : Bool :=
  (ds.map fun d => d.share.toNat).sum ≤ 256 &&
    (ds.flatMap fun d => d.ports.map (·.1)).all fun n => (ds.map fun d => shareAt d n).sum ≤ 256

/-- Whether a description takes what bring-up has mapped out (R419; log 107). -/
def mappedOut (o : MapOut) (d : PartDesc) : Bool := meets d.hbmGroups o.groups || meets d.wbanks o.banks || meets d.sprigs o.sprigs

/-- PARTITION_CREATE: firmware gives a partition its resources; a description that breaks R400 or R401, or takes what is mapped out, changes
nothing. The flushing of slices changes no value (R340, R400–R402, R419; log 102). -/
def execPartitionCreate (vf : BitVec 6) (desc : PartDesc) (s : State) : Out :=
  if s.power ≠ .on || (s.part vf.toNat).isSome || !descOk desc || mappedOut s.out desc || s.parts.any (fun p => descClash desc p.2.desc) ||
      !sharesOk (desc :: s.parts.map (·.2.desc)) then .next s
  else .next { s with parts := mapSet vf.toNat (Part.start desc s.rin) s.parts }

/-- PARTITION_DESTROY: the partition goes with its teams and launches (R402; log 58). -/
def execPartitionDestroy (vf : BitVec 6) (s : State) : Out :=
  let n := vf.toNat
  let mine (t : Nat) : Bool := (mapGet t s.teams).any fun tm => tm.vf = n
  let owned (l : Nat) : Bool := (mapGet l s.launches).any fun l => l.vf = n
  .next { s with parts := mapErase n s.parts, teams := s.teams.filter (fun t => t.2.vf ≠ n),
                 waits := s.waits.filter (fun w => !(w.who.team).any mine && !w.who.launch?.any owned),
                 launches := s.launches.filter (fun l => l.2.vf ≠ n), amoos := s.amoos.filter fun x => !mine x.team }

/-- Whether a team of a partition holds a core outside some sprigs. -/
def State.outside (s : State) (vf : Nat) (sprigs : List (BitVec 8)) : Bool :=
  s.teams.any fun t => t.2.vf = vf && t.2.st ≠ .saved && t.2.members.any fun tk => tk.slot ≠ .gone && !sprigs.any fun x => x.toNat = tk.core / 4

/-- A partition's description after a resize: sprigs, weight-store banks, pseudo-channel groups and L2 mode are new; its areas keep their
sizes (R402, R403; log 102). -/
def resizedDesc (d new : PartDesc) : PartDesc :=
  { d with sprigs := new.sprigs, wbanks := new.wbanks, hbmGroups := new.hbmGroups, sharedGroup := new.sharedGroup, logSize := some (logBytes d) }

/-- PARTITION_RESIZE: the new home list and the new groups take effect in one step, once no team stands on a leaving sprig and no seal is in
progress; it changes no value (R311, R402, R403; log 102). -/
def execPartitionResize (vf : BitVec 6) (new : PartDesc) (s : State) : Out :=
  match s.part vf.toNat with
  | none => .next s
  | some p =>
    let desc := resizedDesc p.desc new
    if s.sealing.isSome || !descOk desc || mappedOut s.out desc || s.parts.any (fun q => q.1 ≠ vf.toNat && descClash desc q.2.desc) ||
        s.outside vf.toNat desc.sprigs then
      .next s
    else .next (s.modPart vf.toNat fun p => { p with desc := desc })

/-- Whether a weight is finite (R340). -/
def finite32 (w : BitVec 32) : Bool := bitsOf w.toNat 30 23 ≠ 255

/-- Whether a stencil table has its dimension, classes and finite weights (R27, R340). -/
def stencilOk (w : StencilTable) : Bool :=
  w.d ≠ 0 && w.weights.length = 3 ^ w.d.toNat * (if w.prolong then 2 ^ w.d.toNat else 1) && w.weights.all finite32

/-- STENCIL_TABLE_INSTALL installs one slot at once; the loader refuses a table that breaks R27 or R340. -/
def execStencilTableInstall (vf : BitVec 6) (slot : BitVec 4) (tab : StencilTable) (s : State) : Out :=
  if !stencilOk tab then .next s
  else .next (s.modPart vf.toNat fun p => { p with stencils := mapSet slot.toNat tab p.stencils })

/-! ## Clock, refresh, power (R38, R40, R417–R421) -/

/-- WEIGHT_STORE_REFRESH: the bank that refreshes is a function of %clk alone (R38), so the start of a window changes no state (log 104). -/
def execWeightStoreRefresh (s : State) : Out := .next s

/-- THERMAL_CLOCK_STEP: the fabric clock steps by 25 MHz between 300 and 600 MHz; every count in cycles keeps its number (R420). -/
def execThermalClockStep (up : Bool) (s : State) : Out :=
  if s.power ≠ .on then .next s
  else .next { s with mhz := if up then min 600 (s.mhz + 25) else max 300 (s.mhz - 25) }

/-- The module without power: what board flash, the host and the model's own fields hold stays. -/
def State.unpowered (s : State) (p : Power) : State :=
  { State.reset with agenda := s.agenda, focus := s.focus, fresh := s.fresh, hostMem := s.hostMem, spanRoute := s.spanRoute,
                     peerOut := s.peerOut, flash := s.flash, reports := s.reports, power := p }

/-- JUNCTION_TRIP stops the module at once, without a seal, and power is removed (R421). -/
def execJunctionTrip (s : State) : Out := .next (s.unpowered .tripped)

/-- Whether a firmware slot's image may run (R417). -/
def Flash.imageOk (f : Flash) (slot : Nat) : Bool :=
  if slot = 0 then Config.xmssVerify f.image0 && decide (f.floor ≤ f.version0)
  else Config.xmssVerify f.image1 && decide (f.floor ≤ f.version1)

/-- The bring-up steps that have an alternative (R419; log 107). -/
def hasAlternative (step : Nat) : Bool := 2 ≤ step && step ≤ 7

/-- Whether a bring-up step passes, by its action or its alternative. -/
def Flash.passes (f : Flash) (step : Nat) (alt : Bool) (fail altFail : BitVec 8) : Bool :=
  !(if alt then altFail else fail).getLsbD (step - 1) && (step ≠ 2 || f.imageOk (if alt then 1 else 0))

/-- Bring-up from a step on (R419): a step whose last status is 2 runs its alternative; the first that fails ends the start. The
flash after it, and whether every step passed (log 107). -/
def bringUp (fail altFail : BitVec 8) : List Nat → Flash → Flash × Bool
  | [], f => (f, true)
  | n :: ns, f =>
    if h : n - 1 < 8 then
      let alt := f.status.get ⟨n - 1, h⟩ = 2 && hasAlternative n
      if f.passes n alt fail altFail then bringUp fail altFail ns { f with status := f.status.set (n - 1) (if alt then 3 else 1) h }
      else ({ f with status := f.status.set (n - 1) 2 h }, false)
    else (f, false)

/-- What bring-up maps out of the groups, banks and sprigs that its tests found failing: those of the steps that passed by their alternative
(R419; log 107). -/
def Flash.mapsOut (f : Flash) (found : MapOut) : MapOut :=
  { groups := if f.status.get 2 = 3 then found.groups else [], banks := if f.status.get 3 = 3 then found.banks else [],
    sprigs := if f.status.get 4 = 3 then found.sprigs else [] }

/-- POWER_ON: bring-up in order (R417, R419). After a trip, step 1 is recorded as failed and the start ends there (R421; log 59, log 107). The
formation of the domain is seal 0, with RIN 1 open (R375). -/
def execPowerOn (fail : BitVec 8) (alt : Alternatives) (s : State) : Out :=
  if s.power = .on then .next s
  else if s.power = .tripped then
    let f := { s.flash with status := s.flash.status.set 0 2 }
    .next { s.unpowered .stopped with flash := f }
  else
    let r := bringUp fail alt.fail [1, 2, 3, 4, 5, 6, 7, 8] s.flash
    if !r.2 then .next { s.unpowered .stopped with flash := r.1 }
    else
      let f := r.1
      let version := if f.status.get 1 = 3 then f.version1 else f.version0
      .next { s.unpowered .on with flash := { f with floor := max f.floor version }, pemap := f.pemaps, rin := 1,
                                   out := f.mapsOut alt.out, own := f.domain,
                                   domain := if f.status.get 6 = 3 then [] else (s.spanRoute.map (·.1)).filter (· ≠ f.domain) }

/-! ## ECC errors (R241, R360, R387) -/

/-- The bytes of a line (log 105). -/
def lineBytes (line : Nat) : List Nat := tabulate 64 fun i => 64 * line + i

/-- UNCORRECTABLE_ECC_ERROR poisons the line, version, granule, slot or row that it hits; in an element buffer a corrected or uncorrectable one is a region
error of the thicket; in the MXE's sums it falsifies the next tile's run, or its rerun too (R241, R360, R387; log 70, log 79, log 105). -/
def execUncorrectableEccError (x : EccTarget) (s : State) : Out :=
  match x with
  | .memory a => .next { s with poisonMem := setUnion (lineBytes (a.toNat / 64)) s.poisonMem }
  | .weight vf o => .next (s.modPart vf.toNat fun p => { p with poisonW := setUnion (lineBytes (o.toNat / 64)) p.poisonW })
  | .version seq a =>
    withCur s fun c =>
      let hit (g : Seg) : Seg := { g with poison := setUnion ((lineBytes (a.toNat / 64)).filter fun x => (mapGet x g.fin).isSome) g.poison }
      .next (s.setTeam c.tid (c.team.modSeg seq hit))
  | .shadow o =>
    withCur s fun c =>
      let base := if c.task.shadowSel then 2 ^ 23 else 2 ^ 22
      let keys := (lineBytes (o.toNat / 64)).map (base + ·)
      .next (c.put s { c.task with poisonS := if c.team.carve.exchange then setUnion keys c.task.poisonS else c.task.poisonS })
  | .program o =>
    withCur s fun c => .next (c.put s { c.task with poisonProg := setUnion (lineBytes (o.toNat / 64)) c.task.poisonProg })
  | .replay n k =>
    withCur s fun c =>
      .next (c.put s (c.task.modSrc n fun p =>
        { p with replay := p.replay.modify k.toNat fun x => (x.1, { x.2 with poison := true }) }))
  | .scratch o =>
    withCur s fun c =>
      let keys := (lineBytes (o.toNat / 64)).map fun a => c.task.spadKey c.team.carve a
      .next (c.put s { c.task with poisonS := setUnion keys c.task.poisonS })
  | .slot n =>
    withCur s fun c =>
      let hit (y : Nat × Slot) : Nat × Slot := if y.1 = n.toNat then (y.1, { y.2 with poison := true }) else y
      .next (c.put s { c.task with mxe := { c.task.mxe with slots := c.task.mxe.slots.map hit } })
  | .row n =>
    withCur s fun c =>
      let r := { c.task.mxe.row n.toNat with poison := true }
      .next (c.put s { c.task with mxe := { c.task.mxe with rows := mapSet n.toNat r c.task.mxe.rows } })
  | .tile twice => withCur s fun c => .next (c.put s { c.task with mxe := { c.task.mxe with upset := if twice then 2 else 1 } })
  | .element t p =>
    withCur s fun c =>
      let y := c.task.th t
      if y.st ≠ .running || (y.elem (placeKey p)).isNone || y.err.isSome then .next s
      else .next (c.put s (c.task.modTh t fun y => y.regionError (placeKey p) false))

/-! ## Peers (R409) -/

/-- PEER_WRITE_ARRIVAL: a peer's write lands as a host write, with this module's RIN (R376, R409). It names a device address, whose
page the model takes as tracked, logged by the lowest partition (log 60). -/
def execPeerWriteArrival (addr : BitVec 52) (data : Word) (wide : Bool) (s : State) : Out :=
  let n := if wide then 8 else 4
  let vf := (s.parts.map (·.1)).headD 0
  if s.power ≠ .on || addr.toNat % n ≠ 0 || s.stalled vf addr.toNat true then .next s
  else .next (s.commitWrite vf addr.toNat none (leBytes n data.toNat))

end Sys2Proof.Machine
end

