-- ==== Sys2Proof/Machine/Dispatch.lean ====
section
/-! DEFINITION. One arm per constructor of `Instr`: each calls the meaning of its instruction. -/

namespace Sys2Proof.Machine

/-- The meaning of an instruction or an event. -/
def exec (i : Instr) (s : State) : Host.Outcome State Fault Refusal :=
  match i with
  | .add d a b e f => Sys2Proof.Machine.execAdd d a b e f s
  | .sub d a b e f => Sys2Proof.Machine.execSub d a b e f s
  | .mul d a b e f => Sys2Proof.Machine.execMul d a b e f s
  | .mulh d a b e f => Sys2Proof.Machine.execMulh d a b e f s
  | .mulhu d a b e f => Sys2Proof.Machine.execMulhu d a b e f s
  | .div d a b e f => Sys2Proof.Machine.execDiv d a b e f s
  | .divu d a b e f => Sys2Proof.Machine.execDivu d a b e f s
  | .rem d a b e f => Sys2Proof.Machine.execRem d a b e f s
  | .remu d a b e f => Sys2Proof.Machine.execRemu d a b e f s
  | .and d a b e f => Sys2Proof.Machine.execAnd d a b e f s
  | .or d a b e f => Sys2Proof.Machine.execOr d a b e f s
  | .xor d a b e f => Sys2Proof.Machine.execXor d a b e f s
  | .shl d a b e f => Sys2Proof.Machine.execShl d a b e f s
  | .shr d a b e f => Sys2Proof.Machine.execShr d a b e f s
  | .sar d a b e f => Sys2Proof.Machine.execSar d a b e f s
  | .rol d a b e f => Sys2Proof.Machine.execRol d a b e f s
  | .min d a b e f => Sys2Proof.Machine.execMin d a b e f s
  | .max d a b e f => Sys2Proof.Machine.execMax d a b e f s
  | .minu d a b e f => Sys2Proof.Machine.execMinu d a b e f s
  | .maxu d a b e f => Sys2Proof.Machine.execMaxu d a b e f s
  | .clz d a e => Sys2Proof.Machine.execClz d a e s
  | .ctz d a e => Sys2Proof.Machine.execCtz d a e s
  | .popc d a e => Sys2Proof.Machine.execPopc d a e s
  | .mov d a e => Sys2Proof.Machine.execMov d a e s
  | .addi d a e k => Sys2Proof.Machine.execAddi d a e k s
  | .andi d a e k => Sys2Proof.Machine.execAndi d a e k s
  | .ori d a e k => Sys2Proof.Machine.execOri d a e k s
  | .xori d a e k => Sys2Proof.Machine.execXori d a e k s
  | .shli d a e n => Sys2Proof.Machine.execShli d a e n s
  | .shri d a e n => Sys2Proof.Machine.execShri d a e n s
  | .sari d a e n => Sys2Proof.Machine.execSari d a e n s
  | .roli d a e n => Sys2Proof.Machine.execRoli d a e n s
  | .sext d a e w => Sys2Proof.Machine.execSext d a e w s
  | .zext d a e w => Sys2Proof.Machine.execZext d a e w s
  | .bfx d a e l p => Sys2Proof.Machine.execBfx d a e l p s
  | .bfi d a e l p => Sys2Proof.Machine.execBfi d a e l p s
  | .wfld d a e k => Sys2Proof.Machine.execWfld d a e k s
  | .wcmb d a e k => Sys2Proof.Machine.execWcmb d a e k s
  | .sel d a b e f p => Sys2Proof.Machine.execSel d a b e f p s
  | .lea d a b e f sz => Sys2Proof.Machine.execLea d a b e f sz s
  | .li d imm => Sys2Proof.Machine.execLi d imm s
  | .lui d imm => Sys2Proof.Machine.execLui d imm s
  | .cmp p c a b e f => Sys2Proof.Machine.execCmp p c a b e f s
  | .cmpi p c a e k => Sys2Proof.Machine.execCmpi p c a e k s
  | .pand d a b => Sys2Proof.Machine.execPand d a b s
  | .por d a b => Sys2Proof.Machine.execPor d a b s
  | .pxor d a b => Sys2Proof.Machine.execPxor d a b s
  | .pnot d a => Sys2Proof.Machine.execPnot d a s
  | .fset d v => Sys2Proof.Machine.execFset d v s
  | .fchk p a => Sys2Proof.Machine.execFchk p a s
  | .br p n d => Sys2Proof.Machine.execBr p n d s
  | .jmp d => Sys2Proof.Machine.execJmp d s
  | .jal r d => Sys2Proof.Machine.execJal r d s
  | .jr a e => Sys2Proof.Machine.execJr a e s
  | .ret => Sys2Proof.Machine.execRet s
  | .loop a e l => Sys2Proof.Machine.execLoop a e l s
  | .ld t a e sz h o => Sys2Proof.Machine.execLd t a e sz h o s
  | .st t a e sz h o => Sys2Proof.Machine.execSt t a e sz h o s
  | .ldp t a e sz o => Sys2Proof.Machine.execLdp t a e sz o s
  | .stp t a e sz o => Sys2Proof.Machine.execStp t a e sz o s
  | .ldw t a e sz o => Sys2Proof.Machine.execLdw t a e sz o s
  | .prf a e h o => Sys2Proof.Machine.execPrf a e h o s
  | .amo d a b e f sz o => Sys2Proof.Machine.execAmo d a b e f sz o s
  | .amoo d a b e f sz o => Sys2Proof.Machine.execAmoo d a b e f sz o s
  | .amof d a b e f sz o => Sys2Proof.Machine.execAmof d a b e f sz o s
  | .amop d a b e f sz o => Sys2Proof.Machine.execAmop d a b e f sz o s
  | .cas d a b e f sz => Sys2Proof.Machine.execCas d a b e f sz s
  | .disc a b e f => Sys2Proof.Machine.execDisc a b e f s
  | .tset a e => Sys2Proof.Machine.execTset a e s
  | .cmt => Sys2Proof.Machine.execCmt s
  | .abrt => Sys2Proof.Machine.execAbrt s
  | .tsrd d a e => Sys2Proof.Machine.execTsrd d a e s
  | .seal d => Sys2Proof.Machine.execSeal d s
  | .sealw a e => Sys2Proof.Machine.execSealw a e s
  | .xwr t a e sz o => Sys2Proof.Machine.execXwr t a e sz o s
  | .barr => Sys2Proof.Machine.execBarr s
  | .barrCarve a e => Sys2Proof.Machine.execBarrCarve a e s
  | .syarm a b e f => Sys2Proof.Machine.execSyarm a b e f s
  | .sywait a b e f => Sys2Proof.Machine.execSywait a b e f s
  | .sywaitImm a e g => Sys2Proof.Machine.execSywaitImm a e g s
  | .tlwait n a e => Sys2Proof.Machine.execTlwait n a e s
  | .mwait a b e f => Sys2Proof.Machine.execMwait a b e f s
  | .hpush a b e f => Sys2Proof.Machine.execHpush a b e f s
  | .hpop d => Sys2Proof.Machine.execHpop d s
  | .lnch d a e => Sys2Proof.Machine.execLnch d a e s
  | .lnchw d a e => Sys2Proof.Machine.execLnchw d a e s
  | .yield => Sys2Proof.Machine.execYield s
  | .halt => Sys2Proof.Machine.execHalt s
  | .cpyG2g a d t e => Sys2Proof.Machine.execCpyG2g a d t e s
  | .cpyG2s a d t e => Sys2Proof.Machine.execCpyG2s a d t e s
  | .cpyS2g a d t e => Sys2Proof.Machine.execCpyS2g a d t e s
  | .cpyS2s a d t e => Sys2Proof.Machine.execCpyS2s a d t e s
  | .gtx a d t e => Sys2Proof.Machine.execGtx a d t e s
  | .gth a d t e => Sys2Proof.Machine.execGth a d t e s
  | .pxst a d t e => Sys2Proof.Machine.execPxst a d t e s
  | .pxcp a d t e => Sys2Proof.Machine.execPxcp a d t e s
  | .strmInG a d t e => Sys2Proof.Machine.execStrmInG a d t e s
  | .strmInS a d t e => Sys2Proof.Machine.execStrmInS a d t e s
  | .strmInW a d t e => Sys2Proof.Machine.execStrmInW a d t e s
  | .strmOutG a d t e => Sys2Proof.Machine.execStrmOutG a d t e s
  | .strmOutS a d t e => Sys2Proof.Machine.execStrmOutS a d t e s
  | .cfsw a e n t => Sys2Proof.Machine.execCfsw a e n t s
  | .thst d t => Sys2Proof.Machine.execThst d t s
  | .thwt t => Sys2Proof.Machine.execThwt t s
  | .acz n => Sys2Proof.Machine.execAcz n s
  | .acrd d n => Sys2Proof.Machine.execAcrd d n s
  | .mrk t => Sys2Proof.Machine.execMrk t s
  | .gsq d a e => Sys2Proof.Machine.execGsq d a e s
  | .stk d n => Sys2Proof.Machine.execStk d n s
  | .cfg d a e t => Sys2Proof.Machine.execCfg d a e t s
  | .cfgKill d a e t => Sys2Proof.Machine.execCfgKill d a e t s
  | .mldb a d e => Sys2Proof.Machine.execMldb a d e s
  | .mldbT a d e => Sys2Proof.Machine.execMldbT a d e s
  | .mma a d e sz => Sys2Proof.Machine.execMma a d e sz s
  | .mmat a d e sz => Sys2Proof.Machine.execMmat a d e sz s
  | .mdrn a d e => Sys2Proof.Machine.execMdrn a d e s
  | .mclr a d e => Sys2Proof.Machine.execMclr a d e s
  | .mscl a d e => Sys2Proof.Machine.execMscl a d e s
  | .mzb a d e => Sys2Proof.Machine.execMzb a d e s
  | .mchk d => Sys2Proof.Machine.execMchk d s
  | .msig d => Sys2Proof.Machine.execMsig d s
  | .nop => Sys2Proof.Machine.execNop s
  | .trap n => Sys2Proof.Machine.execTrap n s
  | .eret => Sys2Proof.Machine.execEret s
  | .mfs d sz => Sys2Proof.Machine.execMfs d sz s
  | .mts a e sz => Sys2Proof.Machine.execMts a e sz s
  | .brk n => Sys2Proof.Machine.execBrk n s
  | .glnt a e => Sys2Proof.Machine.execGlnt a e s
  | .dgst d a e => Sys2Proof.Machine.execDgst d a e s
  | .fenceCore => Sys2Proof.Machine.execFenceCore s
  | .fenceTeam => Sys2Proof.Machine.execFenceTeam s
  | .fenceDevice => Sys2Proof.Machine.execFenceDevice s
  | .fenceSystem => Sys2Proof.Machine.execFenceSystem s
  | .fillArrive d => Sys2Proof.Machine.execFillArrive d s
  | .engCommandAppend => Sys2Proof.Machine.execEngCommandAppend s
  | .trapEntry => Sys2Proof.Machine.execTrapEntry s
  | .syncWordArrival t => Sys2Proof.Machine.execSyncWordArrival t s
  | .copyCommandComplete t => Sys2Proof.Machine.execCopyCommandComplete t s
  | .strmInComplete n => Sys2Proof.Machine.execStrmInComplete n s
  | .strmOutComplete n => Sys2Proof.Machine.execStrmOutComplete n s
  | .gtxComplete t => Sys2Proof.Machine.execGtxComplete t s
  | .gthReply t => Sys2Proof.Machine.execGthReply t s
  | .pxFlitLand => Sys2Proof.Machine.execPxFlitLand s
  | .pxAck => Sys2Proof.Machine.execPxAck s
  | .txqReply t n => Sys2Proof.Machine.execTxqReply t n s
  | .pageWalk vf miss wr => Sys2Proof.Machine.execPageWalk vf miss wr s
  | .mxeTileExecute => Sys2Proof.Machine.execMxeTileExecute s
  | .mxeCommandComplete => Sys2Proof.Machine.execMxeCommandComplete s
  | .gsqAppend => Sys2Proof.Machine.execGsqAppend s
  | .segmentCommit team => Sys2Proof.Machine.execSegmentCommit team s
  | .abortRestore team => Sys2Proof.Machine.execAbortRestore team s
  | .amooApply k => Sys2Proof.Machine.execAmooApply k s
  | .thicketLoadComplete t => Sys2Proof.Machine.execThicketLoadComplete t s
  | .thicketPhaseComplete t => Sys2Proof.Machine.execThicketPhaseComplete t s
  | .roundInject t n => Sys2Proof.Machine.execRoundInject t n s
  | .balInject t n => Sys2Proof.Machine.execBalInject t n s
  | .linkRequest t p k => Sys2Proof.Machine.execLinkRequest t p k s
  | .linkTokenTransfer t p k => Sys2Proof.Machine.execLinkTokenTransfer t p k s
  | .nonDataAlign t p => Sys2Proof.Machine.execNonDataAlign t p s
  | .quiesce t => Sys2Proof.Machine.execQuiesce t s
  | .regionContainment t => Sys2Proof.Machine.execRegionContainment t s
  | .elementCkptRecord t p k => Sys2Proof.Machine.execElementCkptRecord t p k s
  | .elementCkptSave t p => Sys2Proof.Machine.execElementCkptSave t p s
  | .markerDeadlineExpire t => Sys2Proof.Machine.execMarkerDeadlineExpire t s
  | .vadd t p => Sys2Proof.Machine.execVadd t p s
  | .vsub t p => Sys2Proof.Machine.execVsub t p s
  | .vmul t p => Sys2Proof.Machine.execVmul t p s
  | .vfma t p => Sys2Proof.Machine.execVfma t p s
  | .vfms t p => Sys2Proof.Machine.execVfms t p s
  | .vmin t p => Sys2Proof.Machine.execVmin t p s
  | .vmax t p => Sys2Proof.Machine.execVmax t p s
  | .vabs t p => Sys2Proof.Machine.execVabs t p s
  | .vneg t p => Sys2Proof.Machine.execVneg t p s
  | .vcvt t p => Sys2Proof.Machine.execVcvt t p s
  | .vqnt t p => Sys2Proof.Machine.execVqnt t p s
  | .vdqn t p => Sys2Proof.Machine.execVdqn t p s
  | .vand t p => Sys2Proof.Machine.execVand t p s
  | .vor t p => Sys2Proof.Machine.execVor t p s
  | .vxor t p => Sys2Proof.Machine.execVxor t p s
  | .vshl t p => Sys2Proof.Machine.execVshl t p s
  | .vshr t p => Sys2Proof.Machine.execVshr t p s
  | .vsar t p => Sys2Proof.Machine.execVsar t p s
  | .vcmp t p => Sys2Proof.Machine.execVcmp t p s
  | .vsel t p => Sys2Proof.Machine.execVsel t p s
  | .vclp t p => Sys2Proof.Machine.execVclp t p s
  | .vlut t p => Sys2Proof.Machine.execVlut t p s
  | .vred t p => Sys2Proof.Machine.execVred t p s
  | .vscn t p => Sys2Proof.Machine.execVscn t p s
  | .vrng t p => Sys2Proof.Machine.execVrng t p s
  | .pass t p => Sys2Proof.Machine.execPass t p s
  | .dup t p => Sys2Proof.Machine.execDup t p s
  | .hold t p => Sys2Proof.Machine.execHold t p s
  | .filt t p => Sys2Proof.Machine.execFilt t p s
  | .join t p => Sys2Proof.Machine.execJoin t p s
  | .reci t p => Sys2Proof.Machine.execReci t p s
  | .leav t p => Sys2Proof.Machine.execLeav t p s
  | .rate t p => Sys2Proof.Machine.execRate t p s
  | .ctrn t p => Sys2Proof.Machine.execCtrn t p s
  | .swin t p => Sys2Proof.Machine.execSwin t p s
  | .spad t p => Sys2Proof.Machine.execSpad t p s
  | .txq t p => Sys2Proof.Machine.execTxq t p s
  | .sink t p => Sys2Proof.Machine.execSink t p s
  | .cnt t p => Sys2Proof.Machine.execCnt t p s
  | .ddai t p => Sys2Proof.Machine.execDdai t p s
  | .ddal t p => Sys2Proof.Machine.execDdal t p s
  | .ddao t p => Sys2Proof.Machine.execDdao t p s
  | .incs t p => Sys2Proof.Machine.execIncs t p s
  | .lrec t p => Sys2Proof.Machine.execLrec t p s
  | .tsel t p => Sys2Proof.Machine.execTsel t p s
  | .bind die rec => Sys2Proof.Machine.execBind die rec s
  | .move die rec => Sys2Proof.Machine.execMove die rec s
  | .withdraw die rec => Sys2Proof.Machine.execWithdraw die rec s
  | .programLoadComplete core => Sys2Proof.Machine.execProgramLoadComplete core s
  | .teamStart team => Sys2Proof.Machine.execTeamStart team s
  | .contextSaveComplete team => Sys2Proof.Machine.execContextSaveComplete team s
  | .teamRetire team => Sys2Proof.Machine.execTeamRetire team s
  | .bindWatchdogExpire team => Sys2Proof.Machine.execBindWatchdogExpire team s
  | .launchDispatch l => Sys2Proof.Machine.execLaunchDispatch l s
  | .dependencyMet l => Sys2Proof.Machine.execDependencyMet l s
  | .launchComplete l => Sys2Proof.Machine.execLaunchComplete l s
  | .swapTick die bush => Sys2Proof.Machine.execSwapTick die bush s
  | .swapExecute team => Sys2Proof.Machine.execSwapExecute team s
  | .glintRecord src loc op => Sys2Proof.Machine.execGlintRecord src loc op s
  | .periodicSealTimer => Sys2Proof.Machine.execPeriodicSealTimer s
  | .prepare => Sys2Proof.Machine.execPrepare s
  | .ready domain ok => Sys2Proof.Machine.execReady domain ok s
  | .commit => Sys2Proof.Machine.execCommit s
  | .abort => Sys2Proof.Machine.execAbort s
  | .sealTimeout => Sys2Proof.Machine.execSealTimeout s
  | .rollback => Sys2Proof.Machine.execRollback s
  | .einjArm vf v => Sys2Proof.Machine.execEinjArm vf v s
  | .launchPacket vf q => Sys2Proof.Machine.execLaunchPacket vf q s
  | .copyPacket vf q => Sys2Proof.Machine.execCopyPacket vf q s
  | .copyPacketDone vf q => Sys2Proof.Machine.execCopyPacketDone vf q s
  | .waitv vf q => Sys2Proof.Machine.execWaitv vf q s
  | .captureStart vf q => Sys2Proof.Machine.execCaptureStart vf q s
  | .captureStop vf q => Sys2Proof.Machine.execCaptureStop vf q s
  | .sealPacket vf q => Sys2Proof.Machine.execSealPacket vf q s
  | .countPacket vf q => Sys2Proof.Machine.execCountPacket vf q s
  | .queueDoorbell vf q v => Sys2Proof.Machine.execQueueDoorbell vf q v s
  | .queueCtlWrite vf q v => Sys2Proof.Machine.execQueueCtlWrite vf q v s
  | .tlbInvalidateAll vf => Sys2Proof.Machine.execTlbInvalidateAll vf s
  | .tlbInvalidatePage vf v => Sys2Proof.Machine.execTlbInvalidatePage vf v s
  | .tlbInvalidateDone vf => Sys2Proof.Machine.execTlbInvalidateDone vf s
  | .fqansRetry vf seq => Sys2Proof.Machine.execFqansRetry vf seq s
  | .fqansFail vf seq => Sys2Proof.Machine.execFqansFail vf seq s
  | .vfRback vf => Sys2Proof.Machine.execVfRback vf s
  | .registerWrite vf r v => Sys2Proof.Machine.execRegisterWrite vf r v s
  | .snapshotTrigger vf => Sys2Proof.Machine.execSnapshotTrigger vf s
  | .debugStopRequest vf => Sys2Proof.Machine.execDebugStopRequest vf s
  | .debugResume vf => Sys2Proof.Machine.execDebugResume vf s
  | .attestationReport nonce => Sys2Proof.Machine.execAttestationReport nonce s
  | .partitionResize vf desc => Sys2Proof.Machine.execPartitionResize vf desc s
  | .weightStoreRefresh => Sys2Proof.Machine.execWeightStoreRefresh s
  | .thermalClockStep up => Sys2Proof.Machine.execThermalClockStep up s
  | .junctionTrip => Sys2Proof.Machine.execJunctionTrip s
  | .powerOn fail alt => Sys2Proof.Machine.execPowerOn fail alt s
  | .unassignedWord w detail => Sys2Proof.Machine.execUnassignedWord w detail s
  | .cfswPlaneFilled t => Sys2Proof.Machine.execCfswPlaneFilled t s
  | .uncorrectableEccError x => Sys2Proof.Machine.execUncorrectableEccError x s
  | .stencilTableInstall vf slot tab => Sys2Proof.Machine.execStencilTableInstall vf slot tab s
  | .partitionCreate vf desc => Sys2Proof.Machine.execPartitionCreate vf desc s
  | .partitionDestroy vf => Sys2Proof.Machine.execPartitionDestroy vf s
  | .peerWriteArrival addr data wide => Sys2Proof.Machine.execPeerWriteArrival addr data wide s

end Sys2Proof.Machine
end

