-- ==== Sys2Proof/Machine/Fetch.lean ====
section
/-! DEFINITION. When a core issues, how it fetches and what a step adds to the clock (R47, R53, R102, R113), the units that move
by themselves when no step is chosen, and the placing of an instruction at the next fetch (log 1). -/

namespace Sys2Proof.Machine

/-- The word at an offset of the program region, when it lies in the region (R102). -/
def Cur.wordAt (c : Cur) (pc : Nat) : Option (BitVec 32) :=
  if pc + 4 ≤ c.regionSize then some (BitVec.ofNat 32 (memReadLE c.task.prog pc 4)) else none

/-- Fetch and decode at the program counter (R100–R102): none past the end of the region. -/
def Cur.fetch (c : Cur) : Option (BitVec 32 × Except (BitVec 16) Instr) :=
  match c.wordAt c.task.regs.pc with
  | none => none
  | some w => some (w, decodeWord w (c.wordAt (c.task.regs.pc + 4)))

/-- Cycles that an instruction holds the issue stage (R113, R181, R343; log 142). -/
def issueCycles (i : Instr) (r : Regs) : Nat :=
  match i with
  | .mul _ _ _ _ _ | .mulh _ _ _ _ _ | .mulhu _ _ _ _ _ => 2
  | .div _ _ _ _ _ | .divu _ _ _ _ _ | .rem _ _ _ _ _ | .remu _ _ _ _ _ => 34
  | .br p n _ => if r.pred p ^^ n then 2 else 1
  | .jmp _ | .jal _ _ | .jr _ _ | .ret => 2
  | .loop a _ _ => if (r.val a).toNat % 2 ^ 32 = 0 then 2 else 1
  | .dgst _ _ _ => 24
  | .gtx _ _ _ _ => 4
  | _ => 1

/-- The clock advances by n cycles (R40; log 65). -/
def State.pass (s : State) (n : Nat) : State := { s with clk := s.clk + BitVec.ofNat 64 n }

/-- What the focused task does next: the word that it issues, none for a trap entry or past the region's end; the cycles that this takes;
whether it issues although nothing changes, as a branch to itself does; and the outcome. -/
structure Issue where
  word : Option (BitVec 32)
  cycles : Nat
  still : Bool
  out : Out

/-- Whether an instruction that leaves the registers as they are has issued: a transfer of control to itself. -/
def transfersNow (i : Instr) (r : Regs) : Bool :=
  match i with
  | .br _ _ _ | .jmp _ => true
  | .jal d _ => r.dst d = .ok
  | .jr a e => r.src a e = .ok
  | .ret => r.src 57 false = .ok
  | _ => false

/-- An issue of a decoded instruction. -/
def Issue.of (w : BitVec 32) (i : Instr) (c : Cur) (s : State) : Issue :=
  { word := some w, cycles := issueCycles i c.task.regs, still := transfersNow i c.task.regs, out := exec i s }

/-- A fetch of a poisoned word consumes the poison (R387; log 79). -/
def Cur.fetchConsumed (c : Cur) (s : State) : Issue := { word := none, cycles := 1, still := true, out := .next (c.consumeAddr s) }

/-- What the focused task does next: none when it cannot issue (R47, R100–R102, R353, R356). A member in RETIRING takes DIGEST and
DISJOINT in its HALT (R50). -/
def nextIssue (s : State) : Option (Cur × Issue) :=
  match s.cur with
  | none => none
  | some c =>
    if c.live s && c.task.trapDue then
      some (c, { word := none, cycles := 1, still := true, out := Sys2Proof.Machine.execTrapEntry s })
    else if !c.canIssue s then none
    else match c.fetch with
      | none => some (c, { word := none, cycles := 1, still := true, out := fetchPastEnd s })
      | some (w, .error d) =>
        some (c, if c.task.progBad c.task.regs.pc 4 then c.fetchConsumed s
          else { word := some w, cycles := 1, still := true, out := Sys2Proof.Machine.execUnassignedWord w d s })
      | some (w, .ok i) =>
        some (c, if c.task.progBad c.task.regs.pc (4 * (encode i).length) then c.fetchConsumed s else Issue.of w i c s)

/-- Whether an attempt to issue took effect, and did not wait: the task's registers changed, it arrived at a barrier, its segment was
aborted, its task failed, or poison was consumed. -/
def Cur.tookEffect (c : Cur) (s s1 : State) : Bool :=
  s1.consumed ≠ s.consumed || match s1.task c.tid c.mem with
    | none => true
    | some (tm, tk) =>
      let waits := match tk.arrived with
        | none | some (.sealw _) => true
        | a => a = c.task.arrived
      tk.regs ≠ c.task.regs || !waits || s1.failing tm || tm.uncommitted.any (·.abort)

/-- A command that an issue has sent: its counter, and the number that it takes as it is appended (R42, R169). -/
def Cur.sent (c : Cur) (s1 : State) : Option (BitVec 4 × Word) :=
  match s1.task c.tid c.mem with
  | none => none
  | some (_, tk) =>
    if tk.appends.length ≤ c.task.appends.length then none
    else tk.appends.getLast?.map fun x =>
      (x.tl, (tk.timeline x.tl).issued + BitVec.ofNat 64 (tk.appends.filter fun y => y.tl = x.tl).length)

/-- Whether a word is GLNT's. -/
def isGlnt (w : BitVec 32) : Bool :=
  match decodeWord w none with
  | .ok (.glnt _ _) => true
  | _ => false

/-- Sampling of an instruction that has issued (R181, R328): the mark that GLNT left for the next instruction is used up, a marked
instruction's record is due, and that of the command that it sent. -/
def Cur.sample (c : Cur) (s s1 : State) (w : BitVec 32) : State :=
  let r := c.task.regs
  let s2 := if r.glintMark || c.task.entered.isSome then s1.modTask c.tid c.mem fun tk =>
      { tk with entered := none, regs := { tk.regs with glintMark := tk.regs.glintMark && isGlnt w && tk.regs.handler == r.handler } }
    else s1
  if !s.inWindow c.team then s2
  else
    let (s3, drawn) := s2.drawGlint r.glintK
    if !drawn && !r.glintMark then s3
    else
      let s4 := s3.addGlint c.team c.task.core 0 0 (c.task.entered.getD s.clk) r.seq r.pc w.toNat
      match c.sent s1 with
      | none => s4
      | some (tl, num) => s4.addGlint c.team c.task.core 2 tl.toNat s.clk num r.pc (w.toNat / 2 ^ 20 * 2 ^ 20)

/-- While sampling is on, a waiting instruction keeps when it entered its first stage (R328). -/
def Cur.enter (c : Cur) (s : State) : State :=
  if (c.task.regs.glintK = 0 && !c.task.regs.glintMark) || c.task.entered.isSome then s
  else s.modTask c.tid c.mem fun tk => { tk with entered := some s.clk }

/-- An attempt to issue ends: an instruction that has issued takes its cycles, one that waits lets a cycle pass (R113; log 9); one that
traps takes its cycles as well (log 142). -/
def Issue.finish (x : Issue) (c : Cur) (s : State) : Out :=
  match x.out with
  | .next s1 =>
    if x.still || c.tookEffect s s1 then .next ((x.word.elim s1 fun w => c.sample s s1 w).pass x.cycles) else .next ((c.enter s1).pass 1)
  | o => o

/-- The focused task takes a due trap, or issues the instruction at its program counter; a core that cannot issue lets a cycle
pass (log 79). -/
def issueFocused (s : State) : Out :=
  match nextIssue s with
  | none => .next (s.pass 1)
  | some (c, x) => x.finish c s

/-- Whether a row is an instruction word, which only a core issues, and no event of a unit. -/
def isWord (i : Instr) : Bool := !(encode i).isEmpty

/-- Return the focus after a unit's event. -/
def State.refocus (s : State) (f : Option (Nat × Nat)) : State := { s with focus := f }

/-- Return the focus after an outcome. -/
def refocusAfter (f : Option (Nat × Nat)) : Out → Out
  | .next s => .next (s.refocus f)
  | .fault x => .fault x
  | .refused x => .refused x

/-- One chosen turn: a core issues, or a unit's event happens at a task. -/
def takeTurn (t : Turn) (s : State) : Out :=
  match t with
  | .issue tid m => issueFocused (s.refocus (some (tid, m)))
  | .unit tid m i => if isWord i then .next s else refocusAfter s.focus (exec i (s.refocus (some (tid, m))))

/-! ## What moves when no step is chosen (log 1) -/

/-- A move that a unit may make: the task that it acts on, and its meaning. -/
structure Move where
  at_ : Option (Nat × Nat)
  act : State → Out

/-- The firing of an element, by its operation. -/
def fireMove (opc : Nat) (t : BitVec 2) (p : Place) (s : State) : Out :=
  match opc with
  | 0x01 => execVadd t p s
  | 0x02 => execVsub t p s
  | 0x03 => execVmul t p s
  | 0x04 => execVfma t p s
  | 0x05 => execVfms t p s
  | 0x06 => execVmin t p s
  | 0x07 => execVmax t p s
  | 0x08 => execVabs t p s
  | 0x09 => execVneg t p s
  | 0x0A => execVcvt t p s
  | 0x0B => execVqnt t p s
  | 0x0C => execVdqn t p s
  | 0x0D => execVand t p s
  | 0x0E => execVor t p s
  | 0x0F => execVxor t p s
  | 0x10 => execVshl t p s
  | 0x11 => execVshr t p s
  | 0x12 => execVsar t p s
  | 0x13 => execVcmp t p s
  | 0x14 => execVsel t p s
  | 0x19 => execVclp t p s
  | 0x15 => execVlut t p s
  | 0x16 => execVred t p s
  | 0x17 => execVscn t p s
  | 0x18 => execVrng t p s
  | 0x20 => execPass t p s
  | 0x21 => execDup t p s
  | 0x26 => execHold t p s
  | 0x22 => execFilt t p s
  | 0x23 => execJoin t p s
  | 0x24 => execReci t p s
  | 0x25 => execLeav t p s
  | 0x27 => execRate t p s
  | 0x28 => execCtrn t p s
  | 0x29 => execSwin t p s
  | 0x2A => execSpad t p s
  | 0x2B => execTxq t p s
  | 0x2C => execSink t p s
  | 0x2D => execCnt t p s
  | 0x30 => execDdai t p s
  | 0x31 => execDdal t p s
  | 0x32 => execDdao t p s
  | 0x33 => execIncs t p s
  | 0x38 => execLrec t p s
  | 0x39 => execTsel t p s
  | _ => .next s

/-- The place of an element key. -/
def placeOf (k : Nat) : Place :=
  if k < 64 then .pe (BitVec.ofNat 3 (k % 8)) (BitVec.ofNat 3 (k / 8))
  else if k < 72 then .window (BitVec.ofNat 1 (k - 64))
  else if k < 80 then .scratch (BitVec.ofNat 1 (k - 72))
  else .request (BitVec.ofNat 2 (k - 80))

/-- Moves of an element. -/
def elemMoves (t : BitVec 2) (k : Nat) (e : Elem) : List (State → Out) :=
  let p := placeOf k
  let links (f : BitVec 2 → BitVec 2 → State → Out) : List (State → Out) := [f 0 0, f 1 1, f 2 2, f 3 3]
  links (fun i _ => execLinkTokenTransfer t p i) ++ [fireMove (pOpc e.pat) t p, execNonDataAlign t p] ++
  links (fun i _ => execLinkRequest t p i) ++ links (fun i _ => execElementCkptRecord t p i) ++ [execElementCkptSave t p]

/-- Moves of a thicket. -/
def thicketMoves (t : BitVec 2) (x : Thicket) : List (State → Out) :=
  if x.st = .idle then []
  else
    [execThicketLoadComplete t, execCfswPlaneFilled t, execRegionContainment t, execThicketPhaseComplete t, execMarkerDeadlineExpire t] ++
    (x.elems.flatMap fun e => elemMoves t e.1 e.2) ++ (tabulate 4 fun n => execTxqReply t (BitVec.ofNat 2 n)) ++
    (x.sources.flatMap fun n => [execRoundInject t (BitVec.ofNat 4 n), execBalInject t (BitVec.ofNat 4 n)]) ++ [execQuiesce t]

/-- Moves of the units of a task's core. -/
def taskMoves (tk : Task) : List (State → Out) :=
  (tk.fills.map fun f => execFillArrive f.rd) ++ [execEngCommandAppend] ++
  ((List.range 8).flatMap fun n =>
    let t : BitVec 4 := BitVec.ofNat 4 n
    [execSyncWordArrival t, execCopyCommandComplete t, execGtxComplete t, execGthReply t]) ++
  [execPxFlitLand, execPxAck, execMxeTileExecute, execMxeCommandComplete, execGsqAppend] ++
  ((List.range 16).flatMap fun n => [execStrmInComplete (BitVec.ofNat 4 n), execStrmOutComplete (BitVec.ofNat 4 n)]) ++
  ([0, 1, 2, 3].flatMap fun t => thicketMoves t (tk.th t))

/-- Swap ticks that are due at bushes with tasks (R313). -/
def State.swapMoves (s : State) : List (State → Out) :=
  let bushes := distinct (s.teams.flatMap fun t => t.2.members.map fun tk => tk.core / 16)
  (bushes.filter fun b => decide ((mapGet b s.swapTicks).getD 0 < swapTickAt s.clk.toNat)).map fun b =>
    execSwapTick (BitVec.ofNat 4 (b / 4)) (BitVec.ofNat 2 b)

/-- Glint records that are due (R328). -/
def State.glintMoves (s : State) : List (State → Out) :=
  (s.parts.flatMap fun p => p.2.dbg.glintDue).map fun r =>
    execGlintRecord (BitVec.ofNat 2 (fieldLE r 24 1)) (BitVec.ofNat 32 (fieldLE r 28 4)) (BitVec.ofNat 32 (fieldLE r 32 4))

/-- Moves of every task's units and cores, then of the module's units, in a fixed order; none of firmware's or the host's choices (log 65). -/
def State.unitMoves (s : State) : List Move :=
  let tasks := s.teams.flatMap fun t => (numbered t.2.members).map fun x => ((t.1, x.1), x.2)
  (tasks.flatMap fun x => (taskMoves x.2).map fun f => { at_ := some x.1, act := f }) ++
  (((s.teams.map (·.1)).flatMap fun t =>
    [execAbortRestore t, execSegmentCommit t, execContextSaveComplete t, execTeamStart t, execTeamRetire t, execSwapExecute t,
     execBindWatchdogExpire t]) ++
   (tabulate s.amoos.length fun k => execAmooApply k) ++ (tasks.map fun x => execProgramLoadComplete (BitVec.ofNat 10 x.2.core)) ++
   ((s.launches.map (·.1)).flatMap fun l => [execLaunchDispatch l, execDependencyMet l, execLaunchComplete l]) ++
   s.swapMoves ++ s.glintMoves ++ [execPeriodicSealTimer, execReady (BitVec.ofNat 8 s.own) true, execSealTimeout] ++
   if s.coordinates then [execPrepare, execCommit, execAbort] else []).map fun f => { at_ := none, act := f }

/-- What a move changes: none when it changes nothing. -/
def State.tryMove (s : State) (x : Move) : Option State :=
  let s0 := match x.at_ with
    | none => s
    | some p => s.refocus (some p)
  match x.act s0 with
  | .next s1 =>
    let s2 := s1.refocus s.focus
    if s2 = s then none else some s2
  | _ => none

/-- The tasks in turn, the one after the focused task first. -/
def State.turns (s : State) : List (Nat × Nat) :=
  let all := s.teams.flatMap fun t => tabulate t.2.members.length fun m => (t.1, m)
  match s.focus with
  | none => all
  | some p => (all.dropWhile fun q => q ≠ p).drop 1 ++ all.takeWhile fun q => q ≠ p

/-- An instruction that a task issues, when it does not only wait. -/
def State.tryIssue (s : State) (p : Nat × Nat) : Option Out :=
  let s0 := s.refocus (some p)
  match nextIssue s0 with
  | none => none
  | some (c, x) =>
    let waits := match x.out with
      | .next s1 => !x.still && !c.tookEffect s0 s1 && decide (s1 = s0)
      | _ => false
    if waits then none else some (x.finish c s0)

/-- While sampling is on, the instruction that a core has next keeps when it entered its first stage, whether it goes on in this step or not,
so that sampling changes no step and no cycle (R328). -/
def State.noteEntry (s : State) (p : Nat × Nat) : State :=
  match s.task p.1 p.2 with
  | none => s
  | some (_, tk) =>
    if (tk.regs.glintK = 0 && !tk.regs.glintMark) || tk.entered.isSome || (nextIssue (s.refocus (some p))).isNone then s
    else s.modTask p.1 p.2 fun tk => { tk with entered := some s.clk }

/-- A step that the agenda does not choose: the focused task issues; when that changes nothing, the first unit that can moves; else
another task issues; else a cycle passes (log 65). -/
def freeStep (s0 : State) : Out :=
  let s := s0.turns.foldl State.noteEntry s0
  match s.focus.bind s.tryIssue with
  | some o => o
  | none =>
    match s.unitMoves.findSome? s.tryMove with
    | some s1 => .next s1
    | none => (s.turns.findSome? s.tryIssue).getD (.next (s.pass 1))

/-- Whether a turn powers the module on. -/
def Turn.powers (t : Turn) : Bool :=
  match t with
  | .unit _ _ (.powerOn _ _) => true
  | _ => false

/-- A step of the module (log 1): a tripped module only powers on (R421); a due rollback comes first (R388); then the agenda's
first turn; with an empty agenda the free step. -/
def State.stepOnce (s : State) : Out :=
  if s.power == .tripped && !(s.agenda.head?.any Turn.powers) then .fault .moduleStopped
  else if s.consumed.isSome then Sys2Proof.Machine.execRollback s
  else match s.agenda with
    | t :: rest => takeTurn t { s with agenda := rest }
    | [] => freeStep s

/-! ## Placing an instruction at the next fetch -/

/-- Resources of the partition in which a placed instruction runs when no task stands ready. -/
def placeDesc : PartDesc :=
  { sprigs := [0], wbanks := [], hbmGroups := [0], share := 0, ports := [], sharedGroup := none, listSize := 65536,
    logSize := some (2 ^ 28), overflowBytes := 2 ^ 26, heapSpill := 0, detBytes := 0, glintSize := 0, kernels := [] }

/-- The launch of a placed instruction: one work identifier, one granule of program and one of scratchpad. -/
def placeLaunch : Launch :=
  { vf := 0,
    hdr := { kptr := 0, entry := 0, carve := { prog := 1, spad := 1, replay := 0, dcache := 0 }, widths := [1], team := 0, prio := 0,
             sumchk := false, trace := 0, resident := false, rpol := 0, dmode := 0, disjoint := false, depv := 0, exts := [1],
             args := [], depc := 0, done := 0, key := 0 },
    stage := .ready, lidx := 0, parent := none, retired := [], sig := 0, tainted := false, corrected := false, digestTrap := false, maxTs := none,
    lines := [], queue := 0, pseq := 0, record := 0, host := true, occ := 0, mode := 0, unrecorded := false, reexec := false,
    window := false, trace := [], traceAt := [], dropped := false, syncs := [], verdict := 0, status := 0, rinDone := 0,
    posted := false }

/-- The team of a placed instruction: running on core 0, its first segment open. -/
def placeTeam (launch : Nat) (prog : Mem) : Team :=
  let tm : Team :=
    { launch := launch, vf := 0, wid := 0, size := 0, st := .running, resumed := false,
      members := [Task.start 0 .running (Regs.start 0 0 []) 0 [] prog], segs := [], openSeg := none, committed := 0, lastLate := false,
      carve := { prog := 1, spad := 1, replay := 0, dcache := 0 }, traffic := [], swaps := [], swapFrom := none, firstTick := some 0,
      table := false, stagedFor := 0, compared := false }
  { tm with openSeg := some (tm.newSeg 0) }

/-- The bytes of a placed instruction, later words zero. -/
def placeBytes (nbits w : Nat) : List Byte := leBytes 8 (w % 2 ^ nbits)

/-- A state in which the focused task issues next, when it can. -/
def State.placeHere (s : State) (nbits w : Nat) : Option State :=
  match s.cur with
  | none => none
  | some c =>
    if c.canIssue s && !c.task.trapDue && s.consumed.isNone && s.power == .on && decide (c.task.regs.pc + 8 ≤ c.regionSize) then
      let pc := c.task.regs.pc
      some { c.put s { c.task with prog := memWriteBytes c.task.prog pc (placeBytes nbits w),
                                   poisonProg := c.task.poisonProg.filter fun a => !(decide (pc ≤ a) && decide (a < pc + 8)) } with
        agenda := [.issue c.tid c.mem] }
    else none

/-- A state with a new running task that holds the instruction, beside what stands (log 1). -/
def State.placeNew (s : State) (nbits w : Nat) : State :=
  { s with agenda := [.issue s.nextTeam 0], focus := some (s.nextTeam, 0), consumed := none, power := .on, rin := max 1 s.rin,
           parts := if (s.part 0).isSome then s.parts.map (fun p => if p.1 = 0 then (p.1, { p.2 with dbg := Debug.start }) else p)
             else mapSet 0 (Part.start placeDesc (max 1 s.rin)) s.parts,
           launches := mapSet s.nextLaunch placeLaunch s.launches, nextLaunch := s.nextLaunch + 1,
           teams := mapSet s.nextTeam (placeTeam s.nextLaunch (memWriteBytes [] 0 (placeBytes nbits w))) s.teams,
           nextTeam := s.nextTeam + 1 }

end Sys2Proof.Machine
end

