-- ==== Sys2Proof/Machine/Step.lean ====
section
/-! DEFINITION. One step of the module, and the placing of an instruction at the next fetch. -/

namespace Sys2Proof.Machine

/-- One step of the module. -/
def step (s : State) : Host.Outcome State Fault Refusal := s.stepOnce

/-- The state with an instruction where the next step fetches: at the program counter of the focused task when its core issues, else
in a new running task (log 1). -/
def State.withFetchWord (s : State) (nbits w : Nat) : State := (s.placeHere nbits w).getD (s.placeNew nbits w)

end Sys2Proof.Machine
end

