-- ==== Sys2Proof/Safety.lean ====
section
/-! DEFINITION. The terms in which statements speak of the machine: when an instruction goes on to its effect, what an outcome
leaves, what a frame compares, and the forms that every step keeps. -/

namespace Sys2Proof

/-- The register that an instruction writes from registers and its own fields alone, without a memory access: none for another
instruction. -/
def Instr.regDest : Instr → Option Reg
  | .add d .. => some d
  | .sub d .. => some d
  | .mul d .. => some d
  | .mulh d .. => some d
  | .mulhu d .. => some d
  | .div d .. => some d
  | .divu d .. => some d
  | .rem d .. => some d
  | .remu d .. => some d
  | .and d .. => some d
  | .or d .. => some d
  | .xor d .. => some d
  | .shl d .. => some d
  | .shr d .. => some d
  | .sar d .. => some d
  | .rol d .. => some d
  | .min d .. => some d
  | .max d .. => some d
  | .minu d .. => some d
  | .maxu d .. => some d
  | .clz d .. => some d
  | .ctz d .. => some d
  | .popc d .. => some d
  | .mov d .. => some d
  | .addi d .. => some d
  | .andi d .. => some d
  | .ori d .. => some d
  | .xori d .. => some d
  | .shli d .. => some d
  | .shri d .. => some d
  | .sari d .. => some d
  | .roli d .. => some d
  | .sext d .. => some d
  | .zext d .. => some d
  | .bfx d .. => some d
  | .bfi d .. => some d
  | .wfld d .. => some d
  | .wcmb d .. => some d
  | .sel d .. => some d
  | .lea d .. => some d
  | .li d .. => some d
  | .lui d .. => some d
  | .mfs d .. => some d
  | .dgst d .. => some d
  | _ => none

end Sys2Proof

namespace Sys2Proof.Machine

/-! ## Completing -/

/-- The outcome is a next state, and that state is as said. -/
def Completes (o : Out) (post : State → Prop) : Prop := ∃ t, o = .next t ∧ post t

/-- c is the task in focus, its team is at work and it is not at rest for a move or a swap: an instruction of it is checked and has its effect
(R100). -/
def State.Issues (s : State) (c : Cur) : Prop := s.cur = some c ∧ s.atWork c.team = true ∧ c.still = false

/-- A register can be read at once: it is full (R33, R133). -/
def Regs.Full (r : Regs) (n : Reg) : Prop := r.condOf n = .full

/-- A register can be written at once: no fill of it is pending (R33, R133). -/
def Regs.Free (r : Regs) (n : Reg) : Prop := r.condOf n ≠ .pending

/-- The outcome of an instruction of n bytes that writes one register and goes on. -/
def Cur.writes (c : Cur) (s : State) (n : Nat) (d : Reg) (v : Word) (bad : Bool) : Out :=
  .next (c.putRegs s ((c.task.regs.write d v bad).advance n))

/-- The outcome of an instruction that writes one predicate and goes on. -/
def Cur.writesPred (c : Cur) (s : State) (p : Pred) (v bad : Bool) : Out :=
  .next (c.putRegs s ((c.task.regs.setPred p v bad).advance 4))

/-- The outcome of an instruction that only goes on. -/
def Cur.passes (c : Cur) (s : State) : Out := .next (c.putRegs s (c.task.regs.advance 4))

/-- A store of versions by a member of a team finds a version line, and the version area does not overflow (R271). -/
def State.StoreFits (s : State) (t m : Nat) (tm : Team) (seq : Word) (va pa : Nat) (bs : List Byte) (bad : Bool) : Prop :=
  s.versionWait tm seq pa = false ∧
  (tm.holdsLine seq pa = true ∨
    ∀ p, (s.segWrite none t m seq va pa bs bad).part tm.vf = some p →
      (s.segWrite none t m seq va pa bs bad).overflow tm.vf p ≤ p.desc.overflowBytes)

/-- The outcome of an engine instruction: its command, with the four registers of the block as words, waits for its append to the
chain of a counter, gd is pending with the fill that the append brings, the task goes on, and no chain, memory or port of the task
has changed (R19, R169). -/
def Cur.issued (c : Cur) (s : State) (o : Out) (a d : Reg) (tl : BitVec 4) (kind : CmdKind) (q : BitVec 3) : Prop :=
  ∃ (tk : Task) (x : Append), o = .next (c.put s tk) ∧ tk.regs = (c.task.regs.mark d .pending).advance 4 ∧
    tk.fills = c.task.fills ++ (if d = 0 then [] else [{ rd := d, src := .append }]) ∧ tk.appends = c.task.appends ++ [x] ∧
    x.rd = d ∧ x.tl = tl ∧ x.cmd.kind = kind ∧ x.cmd.q = q ∧ x.cmd.w0 = c.task.regs.val a ∧ x.cmd.w1 = c.task.regs.val (a + 1) ∧
    x.cmd.w2 = c.task.regs.val (a + 2) ∧ x.cmd.w3 = c.task.regs.val (a + 3) ∧ x.cmd.seg = c.team.openSeq ∧
    x.cmd.cancelled = false ∧ tk.tl = c.task.tl ∧ tk.spad = c.task.spad ∧ tk.bank0 = c.task.bank0 ∧ tk.bank1 = c.task.bank1 ∧
    tk.fi = c.task.fi ∧ tk.fo = c.task.fo ∧ tk.mxe = c.task.mxe

/-- The caches of a way all hold the translation e of an address, so that an access there neither walks nor gives up an entry (R413). -/
def State.holds (s : State) (vf : Nat) (via : List Nat) (e : TlbEntry) (va : Nat) : Prop :=
  mapSorted s.parts = true ∧ ∃ p, s.part vf = some p ∧ p.cached via va = some e ∧ ∀ n ∈ via, (n, e) ∈ p.tlb

/-- A range of n bytes at an address lies in one device page e without units, which the caches of a way hold (R262, R411, R413). -/
def State.plainRange (s : State) (vf : Nat) (via : List Nat) (e : TlbEntry) (va n : Nat) : Prop :=
  e.kind = 0 ∧ e.geo = 0 ∧ va % 2 ^ e.size + n ≤ 2 ^ e.size ∧ ∀ i, i < n → s.holds vf via e (va + i)

/-- Bytes become versions of a segment of the team, poisoned or not, and every other version of it stays (R169, R264). -/
def Cur.Stores (c c' : Cur) (seq : Word) (pa : Nat) (bs : List Byte) (bad : Bool) : Prop :=
  ∀ g, c.team.seg seq = some g → ∃ g', c'.team.seg seq = some g' ∧
    (∀ i, i < bs.length → mapGet (pa + i) g'.fin = some (bs.getD i 0) ∧ (pa + i ∈ g'.poison ↔ bad = true)) ∧
    ∀ a, a < pa ∨ pa + bs.length ≤ a → mapGet a g'.fin = mapGet a g.fin ∧ (a ∈ g'.poison ↔ a ∈ g.poison)

/-- What a write of a line of committed memory leaves in a partition's log (R378, R379): the first of the interval open to a line of a
tracked page appends one record, with the line, the interval, kind 0, the 64 bytes that stood there and their poison; any other appends
nothing. -/
def State.Logs (s u : State) (vf pa : Nat) (tracked : Bool) : Prop :=
  let line := pa / 64
  let first := tracked = true ∧ ∀ q ∈ s.parts, ∀ r ∈ q.2.log, ¬(r.rin = s.rin ∧ r.kind = 0 ∧ r.line = line)
  ∀ p, s.part vf = some p → ∃ p', u.part vf = some p' ∧
    (first → ∃ r : LogRec, p'.log = p.log ++ [r] ∧ r.line = line ∧ r.rin = s.rin ∧ r.kind = 0 ∧
      r.data = memReadBytes s.mem (64 * line) 64 ∧ (r.poison = true ↔ ∃ a ∈ s.poisonMem, a / 64 = line)) ∧
    (¬ first → p'.log = p.log)

/-- A segment without the note of the launches that it submitted, which its closing barrier adds (R166). -/
def Seg.plain (g : Seg) : Seg := { g with launches := [] }

/-! ## Frames -/

/-- Every general register but the listed ones is as before: value, condition and poison. -/
def Regs.SameGeneral (r r' : Regs) (except_ : List Reg) : Prop :=
  ∀ n, n ∉ except_ → r'.val n = r.val n ∧ r'.condOf n = r.condOf n ∧ r'.bad n = r.bad n

/-- Every predicate but the listed ones is as before. -/
def Regs.SamePreds (r r' : Regs) (except_ : List Pred) : Prop :=
  ∀ n, n ∉ except_ → r'.pred n = r.pred n ∧ r'.badPred n = r.badPred n

/-- The timestamp, segment number, digest and sampling registers are as before. -/
def Regs.SameSegment (r r' : Regs) : Prop :=
  r'.ts = r.ts ∧ r'.seq = r.seq ∧ r'.dgs = r.dgs ∧ r'.glintK = r.glintK ∧ r'.glintMark = r.glintMark

/-- The registers that a trap saves into are as before, with the handler flag. -/
def Regs.SameTrap (r r' : Regs) : Prop :=
  r'.epc = r.epc ∧ r'.tcause = r.tcause ∧ r'.taddr = r.taddr ∧ r'.tval = r.tval ∧ r'.handler = r.handler

/-- A task that has taken a trap, with the registers q: a barrier arrival is withdrawn (R48, R354; log 81). -/
def Task.entering (tk : Task) (q : Regs) : Task := { tk.leaveBarrier with regs := q, entered := none }

/-- The outcome of a trap that leaves the registers q. An MWAIT that the trap ends tests afresh when it issues again (R162). -/
def Cur.traps (c : Cur) (s : State) (q : Regs) : Out := .next ((c.put s (c.task.entering q)).leaveWait c.tid c.mem)

/-- No error injection of a partition is armed (R393). -/
def State.uninjected (s : State) (vf : Nat) : Prop := ∀ p, s.part vf = some p → p.regs.einjArm = false

/-- What a trap leaves of the registers (R354): the handler runs, %tcause holds the cause, the loop stack stands. -/
def Regs.Trapped (r r' : Regs) (cause : Nat) : Prop :=
  r'.handler = true ∧ r'.tcause.toNat % 65536 = cause ∧ r'.loops = r.loops ∧ r'.tvec = r.tvec ∧ r'.pc = r.tvec.toNat + 4 * cause

/-- Every byte of committed device memory reads as before. -/
def State.SameMemory (s t : State) : Prop := ∀ a, memRead t.mem a = memRead s.mem a

/-- Every byte of committed device memory outside n bytes at pa reads as before. -/
def State.SameMemoryBut (s t : State) (pa n : Nat) : Prop := ∀ a, a < pa ∨ pa + n ≤ a → memRead t.mem a = memRead s.mem a

/-- Every byte of a task's scratchpad and exchange banks reads as before, and every accumulator, port, engine and timeline is. -/
def Task.SameUnits (tk tk' : Task) : Prop :=
  (∀ a, memRead tk'.spad a = memRead tk.spad a) ∧ (∀ a, memRead tk'.bank0 a = memRead tk.bank0 a) ∧
  (∀ a, memRead tk'.bank1 a = memRead tk.bank1 a) ∧ tk'.fa = tk.fa ∧ tk'.fi = tk.fi ∧ tk'.fo = tk.fo ∧ tk'.mxe = tk.mxe ∧
  tk'.gsq = tk.gsq ∧ tk'.tl = tk.tl ∧ tk'.appends = tk.appends

/-! ## Units and elements -/

/-- The outcome is a next state in which the task in focus is as said: its registers and committed memory are as before. -/
def Cur.Becomes (c : Cur) (s : State) (o : Out) (post : Task → Prop) : Prop :=
  Completes o fun u => s.SameMemory u ∧ ∃ c' : Cur, u.cur = some c' ∧ c'.task.regs = c.task.regs ∧ post c'.task

/-- The element e at a place of thicket t may fire as opcode opc: it moves, no fault or marker holds it, no token awaits an entry,
its inputs hold tokens of the kinds it expects and are paced, and an entry is free where it needs one (R186, R188, R192, R369). -/
def Cur.MayFire (c : Cur) (t : BitVec 2) (p : Place) (e : Elem) (opc : Nat) : Prop :=
  (c.task.th t).elem (placeKey p) = some e ∧ (c.task.th t).moves = true ∧ pOpc e.pat = opc ∧ e.fault = none ∧ e.saved = false ∧
  e.recording (c.task.th t).marking = false ∧ e.pend = [] ∧ e.pendPlane = none ∧ wrongKind e.pat e = false ∧ pacedError e.pat e = false ∧
  (e.room (placeKey p) = true ∨ terminal e.pat = true ∨ (opc = 0x2A ∧ pMode e.pat = 0))

/-- The outcome leaves the element e' at the place, of the same pattern, with e' and the task as said. -/
def Cur.Fires (c : Cur) (s : State) (o : Out) (t : BitVec 2) (p : Place) (e : Elem) (post : Elem → Task → Prop) : Prop :=
  c.Becomes s o fun tk => ∃ e' : Elem, (tk.th t).elem (placeKey p) = some e' ∧ e'.pat = e.pat ∧ post e' tk

/-- Input i of an element offers a token of a kind: from its latch, as a constant, or from an accumulator (R186). -/
def Cur.Offers (c : Cur) (s : State) (p : Place) (e : Elem) (i : Nat) (k : Kind) (x : Token) : Prop :=
  offer (c.task.fireEnv c.team.carve (placeKey p) e s.fresh) e.pat e i k = .tok x

/-- Whether a firing with a's token uses the b that the element holds (R187). -/
def Elem.reuses (e : Elem) (x : Token) : Bool := (pFire e.pat ≠ 0 && !(pFire e.pat = 1 && x.head)) && e.held.isSome

/-- The operands of a firing by the default rule: a and c as offered, b as held or offered (R186, R187). -/
def Cur.Operands (c : Cur) (s : State) (p : Place) (e : Elem) (k : Kind) (x y z : Token) : Prop :=
  c.Offers s p e 0 k x ∧ c.Offers s p e 2 .data z ∧ (if e.reuses x then e.held = some y else c.Offers s p e 1 .data y)

/-- Which inputs a firing has consumed. -/
def Elem.Consumes (e e' : Elem) (a b c : Bool) : Prop :=
  e'.a = (if a then { e.a with latch := none } else e.a) ∧ e'.b = (if b then { e.b with latch := none } else e.b) ∧
  e'.c = (if c then { e.c with latch := none } else e.c)

/-- The inputs of a firing by the default rule, that streams feed, are consumed; b is not where it is held (R187). -/
def Elem.ConsumesAll (e e' : Elem) (x : Token) : Prop :=
  e.Consumes e' (streamSel (pSel e.pat 0)) (streamSel (pSel e.pat 1) && !e.reuses x) (streamSel (pSel e.pat 2))

/-- Tokens produced in order for the main side, and one for the second side: each that a consumer waits for stands behind the older
entries, and all but the first may still await an entry. -/
def Elem.EmitsTo (e e' : Elem) (ts : List Token) (alt : Option Token) : Prop :=
  e'.out ++ e'.pend = e.out ++ (ts.map (entryOf e.pat false) ++ alt.toList.map (entryOf e.pat true)).filter (fun x => x.mask ≠ 0) ∧
  e'.pend.length ≤ ts.length + alt.toList.length - 1

/-- Tokens produced in order for the main side. -/
def Elem.Emits (e e' : Elem) (ts : List Token) : Prop := e.EmitsTo e' ts none

/-- Lanes of a token: its mask, and each value of width w, zero where its lane is invalid (R185, R189). -/
def Token.Lanes (r : Token) (w : Nat) (vm : BitVec 16) (f : Nat → Nat) : Prop :=
  r.vmask = vm ∧ ∀ v, v < 512 / w → r.val w v = if vm.getLsbD (v * w / 32) then f v % 2 ^ w else 0

/-- Value i of tokens laid out one after another (R198). -/
def tokenVal (ts : List Token) (w i : Nat) : Nat :=
  let per := if w = 6 then 64 else 512 / w
  (ts.getD (i / per) plainToken).val w (i % per)

/-! ## The canonical form of the memories -/

/-- Device memory and host memory have the canonical form. -/
def State.memOk (s : State) : Bool := Memory.wf s.mem && Memory.wf s.hostMem

end Sys2Proof.Machine
end

