-- ==== Sys2Proof/Certificates/Slice0/Obligations.lean ====
section
/-! DEFINITION. The statements about the machine. Each docstring says what its statement says, and OBLIGATIONS.json names the
rules that it formalises. -/

open Sys2Proof Sys2Proof.Machine

/-- The words that chapters 04 and 05 print beside their assembly forms decode to those forms: one or more of each format, RR,
RI, MEM, BR, CMP, ENG, SYS and LONG. The two corrupted words of chapter 04 are refused with DETAIL 0x0001 and 0x0000. -/
def Obligations.WordsOfTheListingDecode : Prop :=
  decodeWord 0xF8100003#32 none = .ok (.mfs 1 0) ∧
  decodeWord 0x38104000#32 none = .ok (.wfld 1 1 false 0) ∧
  decodeWord 0x18306006#32 none = .ok (.shli 3 1 true 6) ∧
  decodeWord 0x50D04100#32 none = .ok (.cmpi 1 5 1 false 256) ∧
  decodeWord 0x6080002A#32 none = .ok (.br 1 false 42) ∧
  decodeWord 0x61400019#32 none = .ok (.br 2 true 25) ∧
  decodeWord 0x48900000#32 (some 0x00000040#32) = .ok (.li 9 0x40) ∧
  decodeWord 0xC8121400#32 none = .ok (.cpyG2s 8 20 0 false) ∧
  decodeWord 0xC0030000#32 none = .ok (.sywaitImm 12 false 0) ∧
  decodeWord 0x88D31002#32 none = .ok (.ldp 13 12 false 2 2) ∧
  decodeWord 0xC89216E0#32 none = .ok (.strmInS 8 22 14 false) ∧
  decodeWord 0xD1518000#32 none = .ok (.cfg 21 6 false 0) ∧
  decodeWord 0xBCA54004#32 none = .ok (.tlwait 10 21 false) ∧
  decodeWord 0xB0000001#32 none = .ok .cmt ∧
  decodeWord 0xC4000005#32 none = .ok .halt ∧
  decodeWord 0xF80001C1#32 none = .ok (.trap 7) ∧
  decodeWord 0x70014002#32 none = .ok (.loop 5 false 2) ∧
  decodeWord 0x0861800A#32 none = .ok (.addi 6 6 false 10) ∧
  decodeWord 0x04718501#32 none = .ok (.sub 7 6 5 false false) ∧
  decodeWord 0x3C708001#32 none = .ok (.wcmb 7 2 false 1) ∧
  decodeWord 0x58400001#32 none = .ok (.fset 4 true) ∧
  decodeWord 0x5D810000#32 none = .ok (.fchk 3 4) ∧
  decodeWord 0xF800C404#32 none = .ok (.mts 3 false 16) ∧
  decodeWord 0x18306046#32 none = .error 1 ∧
  decodeWord 0#32 none = .error 0

/-- For every step of the opcode table that has a word, with every operand at every value that its encoding admits, the decoder
reads from the encoder's bytes exactly that instruction and leaves no byte over. -/
def Obligations.EncodeThenDecode : Prop :=
  ∀ i : Instr, i.wf = true → encode i ≠ [] → decodeBytes (encodeBytes i) = .ok (i, [])

/-- Whenever the decoder accepts a word, the instruction is well-formed and its encoding is that word, followed by the second
word for LI and LUI. A word with a bit set in a field that its instruction does not use is therefore refused, and no two
words decode to one instruction. -/
def Obligations.DecodeThenEncode : Prop :=
  ∀ (w : BitVec 32) (next : Option (BitVec 32)) (i : Instr), decodeWord w next = .ok i →
    i.wf = true ∧
    ((i.isLong = false ∧ encode i = [w]) ∨ (i.isLong = true ∧ ∃ imm, next = some imm ∧ encode i = [w, imm]))

/-- At a task that runs no handler and has a vector table, a word refused with a detail code takes cause 1: %epc and %taddr hold
the offset of the word, %tval the word zero-extended, %tcause the detail code above the cause, the handler flag is set and
the pc stands at %tvec + 4. Every general register, predicate, loop, timestamp and digest, all of memory and all else of the
task but a barrier arrival, which is withdrawn, are as before. A core that fetches such a word, not poisoned, takes exactly this trap; that
it takes one cycle is the model's choice (log 142). Every word whose major the table of chapter 04 does not list is refused with DETAIL 0x0000. -/
def Obligations.RefusedWordTrapsIll : Prop :=
  (∀ (s : State) (c : Cur) (w : BitVec 32) (detail : BitVec 16),
    s.Issues c → c.task.regs.handler = false → c.task.regs.tvec ≠ 0 → c.task.regs.poisonSr.getLsbD 16 = false →
    ∃ r : Regs, exec (.unassignedWord w detail) s = c.traps s r ∧
      r.epc = BitVec.ofNat 64 c.task.regs.pc ∧ r.taddr = BitVec.ofNat 64 c.task.regs.pc ∧ r.tval = w.setWidth 64 ∧
      r.tcause = BitVec.ofNat 64 (detail.toNat * 65536 + 1) ∧ r.handler = true ∧ r.pc = c.task.regs.tvec.toNat + 4 ∧
      r.g = c.task.regs.g ∧ r.cond = c.task.leaveBarrier.regs.cond ∧ r.p = c.task.regs.p ∧ r.loops = c.task.regs.loops ∧
      c.task.regs.SameSegment r ∧ r.tvec = c.task.regs.tvec) ∧
  (∀ (s : State) (c : Cur) (w : BitVec 32) (detail : BitVec 16),
    s.cur = some c → c.canIssue s = true → c.task.trapDue = false → c.fetch = some (w, .error detail) →
    c.task.progBad c.task.regs.pc 4 = false →
    issueFocused s =
      Issue.finish { word := some w, cycles := 1, still := true, out := exec (.unassignedWord w detail) s } c s) ∧
  (∀ (w : BitVec 32) (next : Option (BitVec 32)),
    w.toNat / 2 ^ 26 ∈ [0x00, 0x1D, 0x1E, 0x1F, 0x37, 0x38, 0x39, 0x3A, 0x3B, 0x3C, 0x3D, 0x3F] → decodeWord w next = .error 0)

/-- The agenda's first turn names a task, the module has power and no rollback is due. If that task's core may issue, no
asynchronous trap is due, and the bytes of the program region from its program counter on, not poisoned, decode to an instruction, then the
step is that instruction's meaning at the state with the task in focus and the turn taken off. The clock then rises by the
instruction's issue cycles when it has issued (it transfers control, or took effect), and by one when it waits; glint sampling
adds its records, and nothing while it is off. The turn, the focus and the clock are the model's own (log 1, log 9). -/
def Obligations.StepRunsTheDecodedInstruction : Prop :=
  ∀ (s : State) (tid m : Nat) (rest : List Turn) (c : Cur) (i : Instr) (more : List Byte),
    s.agenda = .issue tid m :: rest → s.power ≠ .tripped → s.consumed = none →
    let s1 : State := { s with agenda := rest, focus := some (tid, m) }
    s1.cur = some c → c.canIssue s1 = true → c.task.trapDue = false →
    decodeBytes (memReadBytes c.task.prog c.task.regs.pc (min 8 (c.regionSize - c.task.regs.pc))) = .ok (i, more) →
    c.task.progBad c.task.regs.pc (4 * (encode i).length) = false →
    let w := BitVec.ofNat 32 (memReadLE c.task.prog c.task.regs.pc 4)
    step s = (match exec i s1 with
      | .next t =>
        if transfersNow i c.task.regs = true ∨ c.tookEffect s1 t = true then
          .next ((c.sample s1 t w).pass (issueCycles i c.task.regs))
        else .next ((c.enter t).pass 1)
      | .fault x => .fault x
      | .refused x => .refused x) ∧
    (c.task.regs.glintK = 0 → c.task.regs.glintMark = false → c.task.entered = none →
      ∀ t : State, c.sample s1 t w = t ∧ c.enter t = t)

/-- State.reset: %clk is 0, the recovery interval and the last seal are 0, seal 0 holds no team and no launch, no partition,
launch, team or ordered-atomic entry exists, the fabric clock is 600 MHz, and device memory reads zero at every address. That
unlisted memory reads zero is the model's choice (log 2); the other values without a stated reset are named in log 6. -/
def Obligations.ResetLeavesNoWork : Prop :=
  State.reset.clk = 0 ∧ State.reset.rin = 0 ∧ State.reset.sealed = 0 ∧ State.reset.sealCopy.teams = [] ∧
  State.reset.sealCopy.launches = [] ∧ State.reset.parts = [] ∧ State.reset.launches = [] ∧ State.reset.teams = [] ∧
  State.reset.amoos = [] ∧ State.reset.mhz = 600 ∧ (∀ a, memRead State.reset.mem a = 0)

/-- Device memory and host memory of State.reset have the canonical form that every step keeps: addresses strictly rising, and no
entry equal to what an unlisted address reads as. The form is the model's own (log 2). -/
def Obligations.ResetMemoryIsCanonical : Prop :=
  State.reset.memOk = true

/-- For every state whose device and host memories have the canonical form (addresses strictly rising, no entry equal to what an
unlisted address reads as), any step that answers a next state leaves them so: stores that commit, atomics, discards,
rollbacks, fault records, copies, completion records and seals among them. The form is the model's own (log 2). -/
def Obligations.StepKeepsMemoryCanonical : Prop :=
  ∀ s t : State, s.memOk = true → step s = .next t → t.memOk = true

/-- A register file has 64 registers of 64 bits. g0 reads zero and is full in every register file, a write to it changes nothing,
and it never holds up an instruction that names it as destination. A write to any other register makes it hold the value
written, full, and leaves the value and the full/empty bit of every other register. -/
def Obligations.HardwiredRegisters : Prop :=
  ∀ r : Regs,
    r.val 0 = 0 ∧ r.condOf 0 = .full ∧ r.dst 0 = .ok ∧
    ∀ (d : Reg) (v : Word) (bad : Bool),
      (d = 0 → r.write d v bad = r) ∧
      (d ≠ 0 → (r.write d v bad).val d = v ∧ (r.write d v bad).condOf d = .full) ∧
      ∀ n, n ≠ d → (r.write d v bad).val n = r.val n ∧ (r.write d v bad).condOf n = r.condOf n

/-- Predicates p0 to p7 are one bit each and have no full/empty bit. p0 reads true and a write to it is discarded. A write to
another predicate is what it then reads as, and leaves every other predicate. Every instruction that writes a predicate
completes in its issue cycle: CMP, CMPI, PAND, POR, PXOR, PNOT and FCHK at a task that can read their sources answer a state
in which the predicate is written already. -/
def Obligations.HardwiredPredicate : Prop :=
  (∀ r : Regs, r.pred 0 = true ∧
    ∀ (d : Pred) (v bad : Bool),
      (d = 0 → r.setPred d v bad = r) ∧ (d ≠ 0 → (r.setPred d v bad).pred d = v) ∧
      ∀ n, n ≠ d → (r.setPred d v bad).pred n = r.pred n) ∧
  ∀ (s : State) (c : Cur) (i : Instr) (d : Pred) (a b : Reg) (x y : Pred) (cc : BitVec 3) (e f : Bool) (imm : BitVec 13),
    s.Issues c → c.task.regs.Full a → c.task.regs.Full b →
    i ∈ [.cmp d cc a b e f, .cmpi d cc a e imm, .pand d x y, .por d x y, .pxor d x y, .pnot d x, .fchk d a] →
    ∃ v bad, exec i s = c.writesPred s d v bad

/-- With the task at work, both sources full and no fill pending at the destination, each of these instructions writes the value
that the spec's tables give (modulo 2^64; shift counts from b[5:0]; the high halves from the 128-bit product) to its
destination, poisoned when a source is, and advances by one word. Whichever e-bits it has. A destination g0 discards the
value (HardwiredRegisters). -/
def Obligations.ArithmeticAndLogicResults : Prop :=
  ∀ (s : State) (c : Cur) (d a b : Reg) (e f : Bool),
    s.Issues c → c.task.regs.Free d → c.task.regs.Full a → c.task.regs.Full b →
    let x := c.task.regs.val a
    let y := c.task.regs.val b
    let bad := c.task.regs.bad a || c.task.regs.bad b
    exec (.add d a b e f) s = c.writes s 4 d (x + y) bad ∧
    exec (.sub d a b e f) s = c.writes s 4 d (x - y) bad ∧
    exec (.mul d a b e f) s = c.writes s 4 d (BitVec.ofNat 64 (x.toNat * y.toNat)) bad ∧
    exec (.mulh d a b e f) s = c.writes s 4 d (BitVec.ofInt 64 (x.toInt * y.toInt / 2 ^ 64)) bad ∧
    exec (.mulhu d a b e f) s = c.writes s 4 d (BitVec.ofNat 64 (x.toNat * y.toNat / 2 ^ 64)) bad ∧
    exec (.and d a b e f) s = c.writes s 4 d (x &&& y) bad ∧
    exec (.or d a b e f) s = c.writes s 4 d (x ||| y) bad ∧
    exec (.xor d a b e f) s = c.writes s 4 d (x ^^^ y) bad ∧
    exec (.shl d a b e f) s = c.writes s 4 d (x <<< (y.toNat % 64)) bad ∧
    exec (.shr d a b e f) s = c.writes s 4 d (x >>> (y.toNat % 64)) bad ∧
    exec (.sar d a b e f) s = c.writes s 4 d (x.sshiftRight (y.toNat % 64)) bad ∧
    exec (.rol d a b e f) s = c.writes s 4 d (x <<< (y.toNat % 64) ||| x >>> (64 - y.toNat % 64)) bad ∧
    exec (.min d a b e f) s = c.writes s 4 d (if x.toInt ≤ y.toInt then x else y) bad ∧
    exec (.max d a b e f) s = c.writes s 4 d (if x.toInt ≤ y.toInt then y else x) bad ∧
    exec (.minu d a b e f) s = c.writes s 4 d (if x.toNat ≤ y.toNat then x else y) bad ∧
    exec (.maxu d a b e f) s = c.writes s 4 d (if x.toNat ≤ y.toNat then y else x) bad ∧
    ∀ n : BitVec 3, exec (.lea d a b e f n) s = c.writes s 4 d (x + y <<< n.toNat) bad

/-- With the sources full and no fill pending at the destination, DIV and DIVU write the quotient q and REM and REMU the
remainder r: for b = 0, q is all ones and r is a; for a = -2^63 and b = -1 (signed), q is -2^63 and r is 0; else q is the
exact quotient truncated toward zero and r = a - q * b. Each goes on to the next word: it never traps. -/
def Obligations.DivisionResults : Prop :=
  ∀ (s : State) (c : Cur) (d a b : Reg) (e f : Bool),
    s.Issues c → c.task.regs.Free d → c.task.regs.Full a → c.task.regs.Full b →
    let x := c.task.regs.val a
    let y := c.task.regs.val b
    let bad := c.task.regs.bad a || c.task.regs.bad b
    (∃ q r : Word,
      exec (.div d a b e f) s = c.writes s 4 d q bad ∧ exec (.rem d a b e f) s = c.writes s 4 d r bad ∧
      (y = 0 → q = 0xFFFFFFFFFFFFFFFF#64 ∧ r = x) ∧
      (y.toInt = -1 ∧ x.toInt = -2 ^ 63 → q.toInt = -2 ^ 63 ∧ r = 0) ∧
      (y ≠ 0 ∧ ¬(y.toInt = -1 ∧ x.toInt = -2 ^ 63) → q.toInt = x.toInt.tdiv y.toInt ∧ r.toInt = x.toInt - q.toInt * y.toInt)) ∧
    ∃ q r : Word,
      exec (.divu d a b e f) s = c.writes s 4 d q bad ∧ exec (.remu d a b e f) s = c.writes s 4 d r bad ∧
      (y = 0 → q = 0xFFFFFFFFFFFFFFFF#64 ∧ r = x) ∧
      (y ≠ 0 → q.toNat = x.toNat / y.toNat ∧ r.toNat = x.toNat - q.toNat * y.toNat)

/-- With its source full and no fill pending at its destination, CLZ writes the number n of zero bits above the highest one bit
(64 for 0), CTZ the number of zero bits below the lowest one bit (64 for 0), and POPC the number of one bits, and each goes
on to the next word. -/
def Obligations.BitCountResults : Prop :=
  ∀ (s : State) (c : Cur) (d a : Reg) (e : Bool), s.Issues c → c.task.regs.Free d → c.task.regs.Full a →
    let x := c.task.regs.val a
    let bad := c.task.regs.bad a
    (∃ n, exec (.clz d a e) s = c.writes s 4 d (BitVec.ofNat 64 n) bad ∧ n ≤ 64 ∧ (∀ k, 64 - n ≤ k → x.getLsbD k = false) ∧
      (n < 64 → x.getLsbD (63 - n) = true)) ∧
    (∃ n, exec (.ctz d a e) s = c.writes s 4 d (BitVec.ofNat 64 n) bad ∧ n ≤ 64 ∧ (∀ k, k < n → x.getLsbD k = false) ∧
      (n < 64 → x.getLsbD n = true)) ∧
    exec (.popc d a e) s = c.writes s 4 d (BitVec.ofNat 64 ((List.range 64).countP fun k => x.getLsbD k)) bad

/-- With its source full and its destination free (full for BFI, LUI and WCMB, which read it), each instruction writes the value
that the spec gives: immediates sign-extended from 13 bits, shift and field positions from the word, bit by bit for SEXT,
ZEXT, BFX and BFI, the launch's field widths and offsets for WFLD and WCMB. LI and LUI advance by two words, the others by
one. SEL on a predicate that is not poisoned gives a when p[n] holds, else b. -/
def Obligations.ImmediateAndFieldResults : Prop :=
  ∀ (s : State) (c : Cur) (d a b : Reg) (e f : Bool) (i : BitVec 13) (n w l p : BitVec 6) (k : BitVec 3) (m : BitVec 32) (q : Pred),
    s.Issues c → c.task.regs.Free d → c.task.regs.Full a →
    let r := c.task.regs
    let x := r.val a
    let old := r.val d
    let imm : Word := i.signExtend 64
    let out := fun v => c.writes s 4 d v (r.bad a)
    exec (.mov d a e) s = out x ∧
    exec (.addi d a e i) s = out (x + imm) ∧ exec (.andi d a e i) s = out (x &&& imm) ∧
    exec (.ori d a e i) s = out (x ||| imm) ∧ exec (.xori d a e i) s = out (x ^^^ imm) ∧
    exec (.shli d a e n) s = out (x <<< n.toNat) ∧ exec (.shri d a e n) s = out (x >>> n.toNat) ∧
    exec (.sari d a e n) s = out (x.sshiftRight n.toNat) ∧
    exec (.roli d a e n) s = out (x <<< n.toNat ||| x >>> (64 - n.toNat)) ∧
    (∃ v, exec (.sext d a e w) s = out v ∧ ∀ j, j < 64 → v.getLsbD j = x.getLsbD (min j w.toNat)) ∧
    (∃ v, exec (.zext d a e w) s = out v ∧ ∀ j, v.getLsbD j = (x.getLsbD j && decide (j ≤ w.toNat))) ∧
    (∃ v, exec (.bfx d a e l p) s = out v ∧ ∀ j, v.getLsbD j = (x.getLsbD (p.toNat + j) && decide (j ≤ l.toNat))) ∧
    (∃ v, exec (.wfld d a e k) s = out v ∧ ∀ j, v.getLsbD j =
      match widField s.widths k.toNat with
      | none => false
      | some (wd, o) => x.getLsbD (o + j) && decide (j < wd)) ∧
    exec (.li d m) s = c.writes s 8 d (m.setWidth 64) false ∧
    (r.Full d → exec (.lui d m) s = c.writes s 8 d (m ++ old.setWidth 32) (r.bad d)) ∧
    (r.Full d → ∃ v, exec (.bfi d a e l p) s = c.writes s 4 d v (r.bad d || r.bad a) ∧ ∀ j, j < 64 → v.getLsbD j =
      if p.toNat ≤ j ∧ j ≤ p.toNat + l.toNat then x.getLsbD (j - p.toNat) else old.getLsbD j) ∧
    (r.Full d → ∃ v, exec (.wcmb d a e k) s = c.writes s 4 d v (r.bad d || r.bad a) ∧ ∀ j, j < 64 → v.getLsbD j =
      match widField s.widths k.toNat with
      | none => old.getLsbD j
      | some (wd, o) => if o ≤ j ∧ j < o + wd then x.getLsbD (j - o) else old.getLsbD j) ∧
    (r.Full b → r.badPred q = false →
      exec (.sel d a b e f q) s = c.writes s 4 d (if r.pred q then x else r.val b) (if r.pred q then r.bad a else r.bad b))

/-- With the sources full, CMP and CMPI write to pd: cc 0 a = b, 1 a ≠ b, 2 and 3 signed a < b and its negation, 4 and 5 unsigned
a < b and its negation, 6 whether a AND b is not zero (b is the sign-extended immediate in CMPI). PAND, POR, PXOR and PNOT
write their function of predicates and never wait. FCHK writes whether its register is full, in any condition of it. FSET
waits while its register is pending and otherwise makes it full or void, with its value kept; g0 stays full. Each goes on to
the next word. -/
def Obligations.CompareAndPredicateResults : Prop :=
  ∀ (s : State) (c : Cur) (d : Pred) (cc : BitVec 3) (a b : Reg) (e f v : Bool) (i : BitVec 13) (x y : Pred), s.Issues c →
    let r := c.task.regs
    let cond := fun (u w : Word) => match cc.toNat with
      | 0 => decide (u = w)
      | 1 => decide (u ≠ w)
      | 2 => decide (u.toInt < w.toInt)
      | 3 => decide (w.toInt ≤ u.toInt)
      | 4 => decide (u.toNat < w.toNat)
      | 5 => decide (w.toNat ≤ u.toNat)
      | _ => decide (u &&& w ≠ 0)
    (r.Full a → cc ≠ 7 → exec (.cmpi d cc a e i) s = c.writesPred s d (cond (r.val a) (i.signExtend 64)) (r.bad a)) ∧
    (r.Full a → r.Full b → cc ≠ 7 →
      exec (.cmp d cc a b e f) s = c.writesPred s d (cond (r.val a) (r.val b)) (r.bad a || r.bad b)) ∧
    exec (.pand d x y) s = c.writesPred s d (r.pred x && r.pred y) (r.badPred x || r.badPred y) ∧
    exec (.por d x y) s = c.writesPred s d (r.pred x || r.pred y) (r.badPred x || r.badPred y) ∧
    exec (.pxor d x y) s = c.writesPred s d (r.pred x ^^ r.pred y) (r.badPred x || r.badPred y) ∧
    exec (.pnot d x) s = c.writesPred s d (!r.pred x) (r.badPred x) ∧
    exec (.fchk d a) s = c.writesPred s d (decide (r.condOf a = .full)) false ∧
    (r.condOf a = .pending → exec (.fset a v) s = .next s) ∧
    (r.Free a → ∃ q : Regs, exec (.fset a v) s = .next (c.putRegs s (q.advance 4)) ∧
      (∀ n, q.val n = r.val n ∧ q.bad n = r.bad n ∧ (n ≠ a → q.condOf n = r.condOf n)) ∧
      q.condOf a = if a = 0 ∨ v = true then .full else .void)

/-- ADD stands for the RR forms, whose checks all of them share. With the destination free and source a not full: if a is pending
with e-bit 0 the state stays as it is (the instruction waits). If a is pending with e-bit 1, or void with either, the
instruction traps EMPTY-READ: %tval is the register's number, DETAIL is 0 for pending and 1 for void, %epc and %taddr are the
instruction's offset; general registers and conditions stay. LUI, BFI and WCMB trap so on a void destination. A pending
destination waits. -/
def Obligations.EmptyReadTraps : Prop :=
  ∀ (s : State) (c : Cur) (d a b : Reg) (e f : Bool) (m : BitVec 32) (l p : BitVec 6) (k : BitVec 3), s.Issues c →
    let r := c.task.regs
    let traps := fun (i : Instr) (n : Reg) (void : Nat) => ∃ q : Regs,
      exec i s = c.traps s q ∧ q.tval = n.setWidth 64 ∧
      q.tcause = BitVec.ofNat 64 (void * 65536 + 2) ∧ q.epc = BitVec.ofNat 64 r.pc ∧ q.taddr = BitVec.ofNat 64 r.pc ∧
      q.handler = true ∧ q.pc = r.tvec.toNat + 8 ∧ q.g = r.g ∧ q.cond = c.task.leaveBarrier.regs.cond ∧ q.p = r.p
    (r.condOf d = .pending → exec (.add d a b e f) s = .next s) ∧
    (r.Free d → r.condOf a = .pending → exec (.add d a b false f) s = .next s) ∧
    (r.handler = false → r.tvec ≠ 0 → r.poisonSr.getLsbD 16 = false →
      (r.Free d → r.condOf a = .pending → traps (.add d a b true f) a 0) ∧
      (r.Free d → r.condOf a = .void → traps (.add d a b e f) a 1) ∧
      (r.Free d → r.Full a → r.condOf b = .pending → traps (.add d a b e true) b 0) ∧
      (r.Free d → r.Full a → r.condOf b = .void → traps (.add d a b e f) b 1) ∧
      (r.condOf d = .void → traps (.lui d m) d 1 ∧ traps (.bfi d a e l p) d 1 ∧ traps (.wcmb d a e k) d 1))

/-- Whenever an instruction of this shape (the RR and RI arithmetic forms, LI, LUI, SEL, LEA, WFLD, WCMB, MFS, DGST) answers a
next state in which its task still stands, every general register but its destination, every predicate, the timestamp,
segment number, digest, %tvec and sampling registers, the scratchpad, exchange banks, accumulators, ports, engines and
timelines of the task are as before; the trap registers are as before, or the task has taken a trap and its destination is as
before too (a withdrawn arrival at LNCH gives the register that LNCH marked back); every byte of device memory reads as before, in
any next state. -/
def Obligations.RegisterInstructionFrame : Prop :=
  ∀ (i : Instr) (d : Reg) (s t : State) (c : Cur), i.regDest = some d → s.cur = some c → exec i s = .next t →
    s.SameMemory t ∧
    ∀ c' : Cur, t.cur = some c' →
      let r := c.task.regs
      let r' := c'.task.regs
      r.SamePreds r' [] ∧ r.SameSegment r' ∧ r'.tvec = r.tvec ∧ c.task.SameUnits c'.task ∧
      (r.SameGeneral r' [d] ∧ r.SameTrap r' ∨
        (r.Trapped r' 1 ∨ r.Trapped r' 2) ∧ c.task.leaveBarrier.regs.SameGeneral r' [])

/-- With the task at work: BR on an unpoisoned predicate is taken when p[n] XOR neg and else goes on to the next word; BR and JMP
go to their own offset plus four times the signed displacement, JAL too and writes its own offset + 4; JR goes to g[a] and
RET to g57, when they are full and not poisoned and the target is a multiple of 4. Each holds for targets inside the program
region; TransferTargetsAreChecked says what happens outside. A taken BR, JMP or JR pops the loops that do not hold the target
(LoopStackRules), JAL and RET leave the loop stack; all else stays. -/
def Obligations.TransfersOfControl : Prop :=
  ∀ (s : State) (c : Cur) (p : Pred) (n e : Bool) (d : BitVec 22) (k : BitVec 20) (a rd : Reg) (t : Nat), s.Issues c →
    t < c.team.carve.prog * 65536 →
    let r := c.task.regs
    let pops := if r.handler then r.loops else popLoops r.loops t
    (r.badPred p = false → (r.pred p ^^ n) = false → exec (.br p n d) s = c.passes s) ∧
    (r.badPred p = false → (r.pred p ^^ n) = true → (t : Int) = r.pc + 4 * d.toInt →
      exec (.br p n d) s = .next (c.putRegs s { r with pc := t, loops := pops })) ∧
    ((t : Int) = r.pc + 4 * d.toInt → exec (.jmp d) s = .next (c.putRegs s { r with pc := t, loops := pops })) ∧
    (r.Free rd → (t : Int) = r.pc + 4 * k.toInt →
      exec (.jal rd k) s = .next (c.putRegs s { r.write rd (BitVec.ofNat 64 (r.pc + 4)) false with pc := t })) ∧
    (r.Full a → r.bad a = false → (r.val a).toNat = t → t % 4 = 0 →
      exec (.jr a e) s = .next (c.putRegs s { r with pc := t, loops := pops })) ∧
    (r.Full 57 → r.bad 57 = false → (r.val 57).toNat = t → t % 4 = 0 → exec .ret s = .next (c.putRegs s { r with pc := t }))

/-- JR and RET to a target that is not a multiple of 4 trap ALIGN with %epc and %taddr at the instruction, the target in %tval
and DETAIL 0. A taken BR, JMP, JAL, JR or RET to an offset outside the program region traps ILL with DETAIL 0x0003, %epc and
%taddr at the branch and the branch word in %tval. In both cases control goes to the trap vector only, JAL writes no link and
the loop stack stays. -/
def Obligations.TransferTargetsAreChecked : Prop :=
  ∀ (s : State) (c : Cur) (i : Instr) (p : Pred) (n e : Bool) (d : BitVec 22) (k : BitVec 20) (a rd : Reg) (t : Int), s.Issues c →
    let r := c.task.regs
    r.handler = false → r.tvec ≠ 0 → r.poisonSr.getLsbD 16 = false → r.badPred p = false → r.bad a = false → r.bad 57 = false →
    r.Full a → r.Full 57 → r.Free rd →
    let traps := fun (cause detail : Nat) (tval : Word) => ∃ q : Regs,
      exec i s = c.traps s q ∧ q.epc = BitVec.ofNat 64 r.pc ∧
      q.taddr = BitVec.ofNat 64 r.pc ∧ q.tval = tval ∧ q.tcause = BitVec.ofNat 64 (detail * 65536 + cause) ∧ q.handler = true ∧
      q.pc = r.tvec.toNat + 4 * cause ∧ q.loops = r.loops ∧ q.g = r.g ∧ q.cond = c.task.leaveBarrier.regs.cond
    ((i = .jr a e ∧ t = (r.val a).toNat ∨ i = .ret ∧ t = (r.val 57).toNat) → t % 4 ≠ 0 → traps 3 0 (BitVec.ofInt 64 t)) ∧
    ((i = .br p n d ∧ (r.pred p ^^ n) = true ∧ t = r.pc + 4 * d.toInt ∨ i = .jmp d ∧ t = r.pc + 4 * d.toInt ∨
        i = .jal rd k ∧ t = r.pc + 4 * k.toInt ∨ i = .jr a e ∧ t = (r.val a).toNat ∧ t % 4 = 0 ∨
        i = .ret ∧ t = (r.val 57).toNat ∧ t % 4 = 0) →
      (t < 0 ∨ (c.team.carve.prog * 65536 : Nat) ≤ t) → traps 1 3 ((wordOf i).setWidth 64))

/-- With g[a] full and not poisoned and n its bits [31:0]: a LOOP with n = 0 outside a handler advances sequentially to the end
of the body and pushes nothing; with n > 0 and fewer than four loops it pushes the entry (start pc + 4, end pc + 4 + 4·len,
left n) and goes on to the first word of the body; with four loops it traps ILL with DETAIL 0x0002. Inside a handler it traps so
whatever g[a] holds, which fails the task. -/
def Obligations.LoopInstruction : Prop :=
  ∀ (s : State) (c : Cur) (a : Reg) (e : Bool) (l : BitVec 13), s.Issues c →
    let r := c.task.regs
    let n := (r.val a).toNat % 2 ^ 32
    let stop := r.pc + 4 + 4 * l.toNat
    let ill := c.ill s 2 (wordOf (.loop a e l))
    (r.Full a → r.bad a = false → r.handler = false → n = 0 →
      exec (.loop a e l) s = .next (c.putRegs s { r with loops := (loopBack r.loops stop).1, pc := (loopBack r.loops stop).2 })) ∧
    (r.Full a → r.bad a = false → r.handler = false → 0 < n → r.loops.length < 4 →
      exec (.loop a e l) s =
        .next (c.putRegs s { r with loops := { start := r.pc + 4, stop := stop, left := n } :: r.loops, pc := r.pc + 4 })) ∧
    (r.Full a → r.bad a = false → r.handler = false → 0 < n → 4 ≤ r.loops.length → exec (.loop a e l) s = ill) ∧
    (r.handler = true → exec (.loop a e l) s = .next (s.failTask c.tid c.mem 1 2 (BitVec.ofNat 64 r.pc)))

/-- For a sequential advance to an offset outside a handler: the entries at the top of the loop stack that end at that offset and
have no further trip are popped, innermost first. The next entry, when it ends at that offset and has further trips, loses
one and the pc becomes its start; when it ends elsewhere, or none is left, the stack below stays and the pc is the offset. In
a handler the stack is neither checked nor changed. popLoops, which a taken BR, JMP or JR uses outside a handler, pops
entries innermost first until one holds the target in [start, end): a target that no range holds empties the stack. -/
def Obligations.LoopStackRules : Prop :=
  (∀ (r : Regs) (pc : Nat) (done rest : List LoopEntry), (∀ x ∈ done, x.stop = pc ∧ x.left ≤ 1) →
    (r.handler = true → r.seqTo pc = { r with pc := pc }) ∧
    (r.handler = false → r.loops = done → r.seqTo pc = { r with loops := [], pc := pc }) ∧
    ∀ x : LoopEntry, r.handler = false → r.loops = done ++ x :: rest →
      (x.stop ≠ pc → r.seqTo pc = { r with loops := x :: rest, pc := pc }) ∧
      (x.stop = pc → 1 < x.left → r.seqTo pc = { r with loops := { x with left := x.left - 1 } :: rest, pc := x.start })) ∧
  ∀ (t : Nat) (out rest : List LoopEntry), (∀ x ∈ out, ¬(x.start ≤ t ∧ t < x.stop)) →
    popLoops out t = [] ∧ ∀ x : LoopEntry, x.start ≤ t → t < x.stop → popLoops (out ++ x :: rest) t = x :: rest

/-- TRAP n takes cause 14 with %tval n and %epc at the next word; BRK n takes cause 12 alike unless its partition has a debug
stop armed or a snapshot armed; entry writes %epc, %tcause, %taddr and %tval, sets the handler flag, sets pc to %tvec +
4·CAUSE, withdraws a barrier arrival and changes no general register, predicate or loop. With %tvec 0, or in a handler, both
fail the task. ERET in a handler, with no poisoned %epc and no plane switch under way, clears the flag and sets pc to %epc;
outside a handler it traps ILL 0x0002. -/
def Obligations.TrapEntryAndReturn : Prop :=
  ∀ (s : State) (c : Cur) (n : BitVec 6), s.Issues c →
    let r := c.task.regs
    let enters := fun (o : Out) (cause : Nat) (tval : Word) => ∃ q : Regs,
      o = c.traps s q ∧ q.epc = BitVec.ofNat 64 (r.pc + 4) ∧
      q.tcause = BitVec.ofNat 64 cause ∧ q.taddr = 0 ∧ q.tval = tval ∧ q.handler = true ∧ q.pc = r.tvec.toNat + 4 * cause ∧
      q.g = r.g ∧ q.cond = c.task.leaveBarrier.regs.cond ∧ q.p = r.p ∧ q.loops = r.loops ∧ q.tvec = r.tvec ∧ r.SameSegment q
    let quiet := ∀ p, s.part c.team.vf = some p → p.dbg.armed = false ∧ p.dbg.snapBrk = false
    (r.handler = false → r.tvec ≠ 0 → r.poisonSr.getLsbD 16 = false →
      enters (exec (.trap n) s) 14 (n.setWidth 64) ∧ (quiet → enters (exec (.brk n) s) 12 (n.setWidth 64))) ∧
    ((r.handler = true ∨ r.tvec = 0) → r.poisonSr.getLsbD 16 = false →
      exec (.trap n) s = .next (s.failTask c.tid c.mem 14 0 0) ∧ (quiet → exec (.brk n) s = .next (s.failTask c.tid c.mem 12 0 0))) ∧
    (r.handler = false → exec .eret s = c.ill s 2 (wordOf .eret)) ∧
    (r.handler = true → r.poisonSr.getLsbD 15 = false → (∀ t : BitVec 2, (c.task.th t).planeAwaited = false) →
      ∃ tk : Task, exec .eret s = .next (c.put s tk) ∧ tk.regs = { r with handler := false, pc := r.epc.toNat } ∧
        c.task.SameUnits tk)

/-- NOP only goes on. MFS reads each special register by its number (0 %wid, 1 %ts, 2 %seq, 3 %retry, 4 %team, 5 %member, 6
%core, 7 %vf, 8 %rin, 9 %clk, 10 %wsref, 11 %dgs, 12 %tcause, 13 %taddr, 14 %tval, 15 %epc, 16 %tvec) and a greater number
traps ILL 0x0002; MTS writes %epc (bits [21:2]) or %tvec (bits [21:6]) and no other number: one from 0 to 14 traps ILL
0x0004. GLNT sets k from bits [4:0] (8 to 20, else off) and the mark from bit 8. DGST adds the first 8 bytes of SHAKE256 of
g[a] to gd. A FENCE of each scope waits while an exchange of the core is under way, at SYSTEM scope also while an XWR of the core stands
in the hold queue, and then goes on. That the core's other free accesses are performed at every scope as they issue is the model's own
reading (log 8). -/
def Obligations.SystemInstructionResults : Prop :=
  ∀ (s : State) (c : Cur) (d a : Reg) (e : Bool) (n : BitVec 6), s.Issues c →
    let r := c.task.regs
    let v := (r.val a).toNat
    let special : Word := match n.toNat with
      | 0 => c.team.wid
      | 1 => r.ts
      | 2 => r.seq
      | 3 => c.task.retry
      | 4 => c.team.size.setWidth 64
      | 5 => BitVec.ofNat 64 c.mem
      | 6 => BitVec.ofNat 64 c.task.core
      | 7 => BitVec.ofNat 64 c.team.vf
      | 8 => BitVec.ofNat 64 (s.rin % 2 ^ 48)
      | 9 => s.clk
      | 10 => BitVec.ofNat 64 (s.clk.toNat % 65536 + 65536 * (s.clk.toNat % 65536 / 2048))
      | 11 => r.dgs
      | 12 => r.tcause
      | 13 => r.taddr
      | 14 => r.tval
      | 15 => r.epc
      | _ => r.tvec
    exec .nop s = c.passes s ∧
    (r.Free d → n.toNat ≤ 16 → exec (.mfs d n) s = c.writes s 4 d special (r.poisonSr.getLsbD n.toNat)) ∧
    (r.Free d → 16 < n.toNat → exec (.mfs d n) s = c.ill s 2 (wordOf (.mfs d n))) ∧
    (n.toNat ≤ 14 → exec (.mts a e n) s = c.ill s 4 (wordOf (.mts a e n))) ∧
    (r.Full a → ∃ q : Regs, exec (.mts a e 15) s = .next (c.putRegs s (q.advance 4)) ∧
      q = { r with epc := BitVec.ofNat 64 (v % 2 ^ 22 / 4 * 4), poisonSr := q.poisonSr }) ∧
    (r.Full a → ∃ q : Regs, exec (.mts a e 16) s = .next (c.putRegs s (q.advance 4)) ∧
      q = { r with tvec := BitVec.ofNat 64 (v % 2 ^ 22 / 64 * 64), poisonSr := q.poisonSr }) ∧
    (r.Full a → exec (.glnt a e) s = .next (c.putRegs s
      ({ r with glintK := if 8 ≤ v % 32 ∧ v % 32 ≤ 20 then v % 32 else 0, glintMark := decide (v / 256 % 2 = 1) }.advance 4))) ∧
    (r.Full d → r.Full a → exec (.dgst d a e) s =
      c.writes s 4 d (r.val d + shakeWord (leBytes 8 v)) (r.bad d || r.bad a)) ∧
    (c.task.exchangePending = false →
      exec .fenceCore s = c.passes s ∧ exec .fenceTeam s = c.passes s ∧ exec .fenceDevice s = c.passes s ∧
      (c.held s = false → exec .fenceSystem s = c.passes s)) ∧
    (c.task.exchangePending = true → exec .fenceCore s = .next s ∧ exec .fenceTeam s = .next s ∧ exec .fenceDevice s = .next s) ∧
    (c.task.exchangePending = true ∨ c.held s = true → exec .fenceSystem s = .next s)

/-- At a live running task outside a handler, with a vector table and no poisoned %tvec, TRAP_ENTRY takes a pending cause such
that no pending one has a lower CAUSE, or the same and a lower DETAIL: the pc goes to %tvec + 4·CAUSE, %epc holds the pc,
%tcause, %taddr and %tval the cause's own registers, and the cause is no longer pending. In a handler, and with no cause
pending, nothing changes. -/
def Obligations.AsynchronousTrapTakesLowestCause : Prop :=
  ∀ (s : State) (c : Cur), s.Issues c →
    let r := c.task.regs
    (r.handler = true → exec .trapEntry s = .next s) ∧
    (c.task.slot = .running → c.task.causes = [] → exec .trapEntry s = .next s) ∧
    (r.handler = false → c.task.slot = .running → c.live s = true → c.task.causes ≠ [] → r.tvec ≠ 0 →
      r.poisonSr.getLsbD 16 = false → (∀ p, s.part c.team.vf = some p → p.dbg.snapRegion = false) →
      ∃ x ∈ c.task.causes, (∀ y ∈ c.task.causes, x.cause < y.cause ∨ x.cause = y.cause ∧ x.detail.toNat ≤ y.detail.toNat) ∧
        ∃ tk : Task, exec .trapEntry s = .next ((c.put s tk).leaveWait c.tid c.mem) ∧ tk.causes = c.task.causes.erase x ∧
          tk.regs.epc = BitVec.ofNat 64 r.pc ∧ tk.regs.tcause = BitVec.ofNat 64 (x.detail.toNat * 65536 + x.cause) ∧
          tk.regs.taddr = x.taddr ∧ tk.regs.tval = x.tval ∧ tk.regs.handler = true ∧ tk.regs.pc = r.tvec.toNat + 4 * x.cause ∧
          tk.regs.g = r.g ∧ tk.regs.p = r.p ∧ tk.regs.loops = r.loops)

/-- When the oldest pending fill of a register holds a loaded value, FILL_ARRIVE at a task at work writes it to the register,
with its poison, the register is full, that fill is gone and no other fill of the task, and every other general register is
as before. The fill of an HPOP brings two: the payload to its register d and the key to register d + 1, both full then and every other one
as before. When no fill of the register is pending, nothing changes. -/
def Obligations.PendingFillArrives : Prop :=
  ∀ (s : State) (c : Cur) (d : Reg), s.Issues c →
    ((∀ f ∈ c.task.fills, f.rd ≠ d) → exec (.fillArrive d) s = .next s) ∧
    ∀ before after : List Fill, (∀ f ∈ before, f.rd ≠ d) →
      (∀ (v : Word) (bad : Bool), d ≠ 0 → c.task.fills = before ++ { rd := d, src := .value v bad } :: after →
        ∃ tk : Task, exec (.fillArrive d) s = .next (c.put s tk) ∧ tk.fills = before ++ after ∧ tk.regs.val d = v ∧
          tk.regs.condOf d = .full ∧ tk.regs.bad d = bad ∧ c.task.regs.SameGeneral tk.regs [d] ∧ tk.regs.pc = c.task.regs.pc ∧
          c.task.SameUnits tk) ∧
      ∀ v k : Word, c.task.fills = before ++ { rd := d, src := .pair v k } :: after →
        ∃ tk : Task, exec (.fillArrive d) s = .next (c.put s tk) ∧ tk.fills = before ++ after ∧
          (d ≠ 0 → tk.regs.val d = v ∧ tk.regs.condOf d = .full ∧ tk.regs.bad d = false) ∧
          (d + 1 ≠ 0 → tk.regs.val (d + 1) = k ∧ tk.regs.condOf (d + 1) = .full ∧ tk.regs.bad (d + 1) = false) ∧
          c.task.regs.SameGeneral tk.regs [d, d + 1] ∧ tk.regs.pc = c.task.regs.pc ∧ c.task.SameUnits tk

/-- For each byte, what a member's core reads, and an engine of it in its place, is: its own version in the open segment when it has one;
else the published version of the open segment; else, over the closed uncommitted segments from the newest on, its own version or else
the one that stands; else the byte of committed memory, poisoned when that is. A version that a command of the member wrote is among its own
only once a wait covers the command, so that a byte which such a command wrote last is skipped among the published ones and among those that
stand (log 115). -/
def Obligations.LoadViewOrder : Prop :=
  ∀ (s : State) (tm : Team) (m pa : Nat) (g : Seg), tm.openSeg = some g →
    let mine := fun (x : Seg) => mapGet pa (x.seen.getD m [])
    let stands := fun (x : Seg) => mapGet pa (if x.hidden m pa = true then x.pub else x.fin)
    let published := if g.hiddenOut m pa = true then none else mapGet pa g.pub
    (∀ b, mine g = some b → s.viewByte tm m pa = (b, g.poison.contains pa)) ∧
    (mine g = none →
      (∀ b, published = some b → s.viewByte tm m pa = (b, g.poison.contains pa)) ∧
      (published = none →
        (∀ (older newer : List Seg) (h : Seg), tm.segs = older ++ h :: newer → (∀ x ∈ newer, mine x = none ∧ stands x = none) →
          (∀ b, mine h = some b → s.viewByte tm m pa = (b, h.poison.contains pa)) ∧
          (mine h = none → ∀ b, stands h = some b → s.viewByte tm m pa = (b, h.poison.contains pa))) ∧
        ((∀ x ∈ tm.segs, mine x = none ∧ stands x = none) →
          s.viewByte tm m pa = (memRead s.mem pa, s.poisonMem.contains pa))))

/-- With the base full and not poisoned, no fill pending at the destination, the effective address g[a] + sext(offset9)·size aligned to
the size and translated for reading, a read mark at hand and no error injection armed: LD.B, .H, .W and .D mark the destination pending,
the fill that will come holds the size bytes of the core's view at the physical address (bytes past the page's last unit and scale read as
zero), zero-extended, poisoned when a byte is, and the task goes on. No byte of committed memory, no other register and no other unit of
the task changes. A destination g0 takes no fill. -/
def Obligations.GlobalLoadCompletes : Prop :=
  ∀ (s : State) (c : Cur) (d a : Reg) (e : Bool) (sz h : BitVec 2) (o : BitVec 9) (pg : TlbEntry), s.Issues c →
    let r := c.task.regs
    let n := 2 ^ sz.toNat
    let va := (r.val a + o.signExtend 64 * BitVec.ofNat 64 n).toNat
    let pa := pg.pa va
    r.Free d → r.Full a → r.bad a = false → va % n = 0 → s.xlate c.team.vf va .read c.task.via = .ok pg →
    (s.cache c.team.vf pg c.task.via).markWait c.team c.mem c.team.openSeq pa n = false → s.uninjected c.team.vf →
    let seen := s.viewBytes c.team c.mem pa n
    Completes (exec (.ld d a e sz h o) s) fun t => s.SameMemory t ∧ ∃ c' : Cur, t.cur = some c' ∧
      c'.task.regs = (r.mark d .pending).advance 4 ∧ c.task.SameUnits c'.task ∧
      c'.task.fills = c.task.fills ++ if d = 0 then [] else
        [{ rd := d, src := .value (BitVec.ofNat 64 (leNat (pg.reads va seen.1))) seen.2 }]

/-- With base and data full, the base not poisoned, the effective address aligned and translated for a store, a version line at
hand and the version area not overflowing: ST writes the low size bytes of g[t], least significant first, as versions of the
open segment. The view that the member's core has of these bytes is then the stored ones, poisoned when g[t] is; its view of every other
byte is as before, its poison too; committed memory does not change; the task goes on with all registers as before. -/
def Obligations.GlobalStoreCompletes : Prop :=
  ∀ (s : State) (c : Cur) (d a : Reg) (e : Bool) (sz h : BitVec 2) (o : BitVec 9) (pg : TlbEntry) (g : Seg), s.Issues c →
    let r := c.task.regs
    let n := 2 ^ sz.toNat
    let va := (r.val a + o.signExtend 64 * BitVec.ofNat 64 n).toNat
    let pa := pg.pa va
    let s1 := s.cache c.team.vf pg c.task.via
    r.Full a → r.Full d → r.bad a = false → va % n = 0 → s.xlate c.team.vf va .store c.task.via = .ok pg →
    c.team.openSeg = some g → c.mem < g.own.length → c.mem < g.seen.length →
    s1.StoreFits c.tid c.mem c.team g.seq va pa (leBytes n (r.val d).toNat) (r.bad d) →
    Completes (exec (.st d a e sz h o) s) fun t => s.SameMemory t ∧ ∃ c' : Cur, t.cur = some c' ∧
      c'.task.regs = r.advance 4 ∧ c.task.SameUnits c'.task ∧
      (∀ i, i < n → t.viewByte c'.team c.mem (pa + i) = (BitVec.ofNat 8 ((r.val d).toNat / 256 ^ i), r.bad d)) ∧
      ∀ b, b < pa ∨ pa + n ≤ b → t.viewByte c'.team c.mem b = s.viewByte c.team c.mem b

/-- At a task at work whose sources are full and whose base is not poisoned, with the address aligned to the operand width (4 or
8 bytes) and translated for writing, a read mark and a version line at hand, and no injection armed: AMO leaves the
operation's result of the old value and g[b], and CAS g[b] when the old value equals gd as read at issue (else nothing), as
the member's view of those bytes; the old value comes to gd as a fill. AMOF does the same at once on committed memory, when
log space is at hand and neither operand nor bytes are poisoned; every other byte of memory stays, and the first write of the interval to
a line of a tracked page appends the line's pre-image to the umbra log, a later one nothing. The operations 0 to 8 are
addition modulo 2^(8n), AND, OR, XOR, signed minimum and maximum, unsigned minimum and maximum, and exchange. -/
def Obligations.AtomicResults : Prop :=
  (∀ (s : State) (c : Cur) (d a b : Reg) (e f : Bool) (sz : BitVec 2) (o : BitVec 4) (pg : TlbEntry) (g : Seg), s.Issues c →
    let r := c.task.regs
    let n := if sz = 2 then 4 else 8
    let va := (r.val a).toNat
    let pa := pg.pa va
    let s1 := s.cache c.team.vf pg c.task.via
    let arg := (r.val b).toNat % 2 ^ (8 * n)
    let old := leNat (pg.reads va (s.viewBytes c.team c.mem pa n).1)
    let bad := (s.viewBytes c.team c.mem pa n).2
    let read := (s1.segRead c.tid c.mem g.seq pg va n).1
    let there := leNat (pg.reads va (memReadBytes s.mem pa n))
    r.Free d → r.Full a → r.Full b → r.bad a = false → va % n = 0 → s.xlate c.team.vf va .write c.task.via = .ok pg →
    s.uninjected c.team.vf →
    (c.team.openSeg = some g → c.mem < g.own.length → c.mem < g.seen.length → s1.markWait c.team c.mem g.seq pa n = false →
      (∀ v poison tm2, mapGet c.tid read.teams = some tm2 →
        read.versionWait c.team g.seq pa = false ∧ read.StoreFits c.tid c.mem tm2 g.seq va pa (leBytes n v) poison) →
      (Completes (exec (.amo d a b e f sz o) s) fun t => s.SameMemory t ∧ ∃ c' : Cur, t.cur = some c' ∧
        c'.task.regs = (r.mark d .pending).advance 4 ∧
        c'.task.fills = c.task.fills ++ (if d = 0 then [] else [{ rd := d, src := .value (BitVec.ofNat 64 old) bad }]) ∧
        leNat (t.viewBytes c'.team c.mem pa n).1 = atomicOp o.toNat n old arg) ∧
      Completes (exec (.cas d a b e f sz) s) fun t => s.SameMemory t ∧ ∃ c' : Cur, t.cur = some c' ∧
        c'.task.regs = (r.mark d .pending).advance 4 ∧
        c'.task.fills = c.task.fills ++ (if d = 0 then [] else [{ rd := d, src := .value (BitVec.ofNat 64 old) bad }]) ∧
        leNat (t.viewBytes c'.team c.mem pa n).1 =
          if old = (r.val d).toNat % 2 ^ (8 * n) then arg else leNat (s.viewBytes c.team c.mem pa n).1) ∧
    (s1.stalled c.team.vf pa pg.tracked = false → r.bad b = false → (∀ i, i < n → s.poisonMem.contains (pa + i) = false) →
      Completes (exec (.amof d a b e f sz o) s) fun t => s.SameMemoryBut t pa n ∧
        memReadLE t.mem pa n = atomicOp o.toNat n there arg ∧ s.Logs t c.team.vf pa pg.tracked ∧ ∃ c' : Cur, t.cur = some c' ∧
        c'.task.regs = (r.mark d .pending).advance 4 ∧ c'.task.fills = c.task.fills ++ if d = 0 then [] else
          [{ rd := d, src := .value (BitVec.ofNat 64 there) false }])) ∧
  ∀ n x y : Nat,
    atomicOp 0 n x y = (x + y) % 2 ^ (8 * n) ∧ atomicOp 1 n x y = x &&& y ∧ atomicOp 2 n x y = x ||| y ∧
    atomicOp 3 n x y = x ^^^ y ∧
    atomicOp 4 n x y = (if signedOf (8 * n) x ≤ signedOf (8 * n) y then x else y) ∧
    atomicOp 5 n x y = (if signedOf (8 * n) y ≤ signedOf (8 * n) x then x else y) ∧
    atomicOp 6 n x y = (if x ≤ y then x else y) ∧ atomicOp 7 n x y = (if y ≤ x then x else y) ∧ atomicOp 8 n x y = y

/-- With the sources full, the base not poisoned, the address aligned and translated for writing: in a DISJOINT launch AMOO acts
as AMO. In another, when the segment is at the frontier or the slice's buffer has room below the place kept for the frontier,
AMOO appends one entry at the end of the held ones (operation, operand, address, width, the member and its segment),
marks gd pending with a fill that waits for the entry, and goes on. AMOO_APPLY, on an unapplied due entry whose version fits,
marks it applied and keeps the others, makes the operation's result of the slice's bytes and the operand a version of the
entry's segment, and every fill of its register that waits for an ordered atomic takes the old value. Neither changes a byte
of committed memory. -/
def Obligations.OrderedAtomics : Prop :=
  (∀ (s : State) (c : Cur) (d a b : Reg) (e f : Bool) (sz : BitVec 2) (o : BitVec 4) (pg : TlbEntry), s.Issues c →
    let r := c.task.regs
    let n := if sz = 2 then 4 else 8
    let va := (r.val a).toNat
    r.Free d → r.Full a → r.Full b → r.bad a = false → va % n = 0 → s.xlate c.team.vf va .write c.task.via = .ok pg →
    (s.disjoint c.team = true → exec (.amoo d a b e f sz o) s = exec (.amo d a b e f sz o) s) ∧
    (s.disjoint c.team = false →
    let s1 := s.cache c.team.vf pg c.task.via
    (s1.atFrontier c.team.launch c.team.openTs = true ∨
      (s1.heldAt (s1.homeSlice c.team.vf (pg.pa va))).length + 1 < Config.amooEntries) →
    Completes (exec (.amoo d a b e f sz o) s) fun t => s.SameMemory t ∧
      t.amoos = s.amoos ++ [{ team := c.tid, member := c.mem, seq := c.team.openSeq, launch := c.team.launch,
                              addr := pg.pa va, wide := decide (n = 8), op := o.toNat, operand := r.val b, rd := d,
                              applied := false }] ∧
      ∃ c' : Cur, t.cur = some c' ∧ c'.task.regs = (r.mark d .pending).advance 4 ∧
        c'.task.fills = c.task.fills ++ if d = 0 then [] else [{ rd := d, src := .amoo }])) ∧
  ∀ (s : State) (k : Nat) (x : Amoo) (tm : Team) (tk : Task) (g : Seg), s.amoos[k]? = some x → mapGet x.team s.teams = some tm →
    x.applied = false → s.amooDue k x tm = true → s.uninjected tm.vf → tm.members[x.member]? = some tk → tm.seg x.seq = some g →
    let n := if x.wide then 8 else 4
    let bs := s.sliceBytes tm x.seq (g.vaOf x.addr) x.addr n
    let old := leNat bs.1
    let new := leBytes n (atomicOp x.op n old (x.operand.toNat % 2 ^ (8 * n)))
    (∀ va bad, s.StoreFits x.team x.member tm x.seq va x.addr new bad) →
    Completes (exec (.amooApply k) s) fun t => s.SameMemory t ∧ t.amoos = s.amoos.set k { x with applied := true } ∧
      ∃ tm' tk' g', mapGet x.team t.teams = some tm' ∧ tm'.members[x.member]? = some tk' ∧ tk'.regs = tk.regs ∧
        tk'.fills = tk.fills.map (fun f => if f.rd = x.rd ∧ f.src = .amoo then
          { f with src := .value (BitVec.ofNat 64 old) bs.2 } else f) ∧
        tm'.seg x.seq = some g' ∧ ∀ i, i < n → mapGet (x.addr + i) g'.fin = some (new.getD i 0)

/-- With the operands full, the base not poisoned, the offset aligned and inside the carve-out (inside the partition's weight
store, no bank of it refreshing, for LDW): LDP and LDW leave gd pending with the bytes there, zero-extended; of a byte that an engine
command wrote, LDP reads what stood before it until a wait covers the command. STP writes the size bytes of g[t], least significant
first, which LDP then reads, and no other scratchpad byte; AMOP writes its operation's result of the bytes there and g[b] and leaves
gd pending with the old value. Each goes on to the next word. That AMOP works on the bytes that stand, covered or not, is the model's
choice (log 133). -/
def Obligations.ScratchpadResults : Prop :=
  ∀ (s : State) (c : Cur) (d a b : Reg) (e f : Bool) (sz : BitVec 2) (o : BitVec 9) (q : BitVec 4), s.Issues c →
    let r := c.task.regs
    let n := 2 ^ sz.toNat
    let off := (r.val a + o.signExtend 64 * BitVec.ofNat 64 n).toNat
    let cv := c.team.carve
    let takes := fun (u : Out) (v : Word) (bad : Bool) => ∃ tk : Task, u = .next (c.put s tk) ∧
      tk.regs = (r.mark d .pending).advance 4 ∧ tk.spad = c.task.spad ∧ tk.bank0 = c.task.bank0 ∧ tk.bank1 = c.task.bank1 ∧
      tk.fills = c.task.fills ++ if d = 0 then [] else [{ rd := d, src := .value v bad }]
    r.Full a → r.bad a = false →
    (r.Free d → off % n = 0 → cv.spadOk off n = true →
      let seen := fun (i : Nat) => (c.task.hid.findSome? fun x => mapGet (c.task.spadKey cv (off + i)) x.old).getD
        (c.task.spadRead cv (off + i), c.task.poisonS.contains (c.task.spadKey cv (off + i)))
      takes (exec (.ldp d a e sz o) s) (BitVec.ofNat 64 (leNat (tabulate n fun i => (seen i).1))) ((List.range n).any fun i => (seen i).2)) ∧
    (r.Full d → off % n = 0 → cv.spadOk off n = true → ∃ tk : Task, exec (.stp d a e sz o) s = .next (c.put s tk) ∧
      tk.regs = r.advance 4 ∧ (∀ i, i < n → tk.spadRead cv (off + i) = BitVec.ofNat 8 ((r.val d).toNat / 256 ^ i) ∧
        tk.coreByte cv (off + i) = (BitVec.ofNat 8 ((r.val d).toNat / 256 ^ i), r.bad d)) ∧
      ∀ x, x < off ∨ off + n ≤ x → tk.spadRead cv x = c.task.spadRead cv x) ∧
    (∀ p : Part, r.Free d → off % n = 0 → s.part c.team.vf = some p → off + n ≤ p.desc.wbanks.length * weightBankBytes →
      s.refreshing p.desc off = false →
      takes (exec (.ldw d a e sz o) s) (BitVec.ofNat 64 (memReadLE p.wstore off n))
        ((List.range n).any fun i => p.poisonW.contains (off + i))) ∧
    let m := if sz = 2 then 4 else 8
    let at_ := (r.val a).toNat
    (r.Free d → r.Full b → at_ % m = 0 → cv.spadOk at_ m = true →
      ∃ tk : Task, exec (.amop d a b e f sz q) s = .next (c.put s tk) ∧ tk.regs = (r.mark d .pending).advance 4 ∧
      tk.fills = c.task.fills ++ (if d = 0 then [] else
        [{ rd := d, src := .value (BitVec.ofNat 64 (c.task.spadLE cv at_ m)) (c.task.spadBytes cv at_ m).2 }]) ∧
      tk.spadLE cv at_ m = atomicOp q.toNat m (c.task.spadLE cv at_ m) ((r.val b).toNat % 2 ^ (8 * m)) ∧
      ∀ x, x < at_ ∨ at_ + m ≤ x → tk.spadRead cv x = c.task.spadRead cv x)

/-- PRF goes on to the next word, whatever its address translates to and whether its base is full, void or pending with e-bit 1, and
changes no register, no memory and no unit; only a pending base with e-bit 0 makes it wait. With both sources full and not
poisoned, address and length multiples of 64, every line translated for writing and log space at hand, DISC goes on, every byte
of committed memory outside the discarded lines reads as before, and a discarded line reads as before or as it did before its
last committed write: which of the two the spec leaves open, and the statement holds for every choice (log 16). -/
def Obligations.PrefetchAndDiscard : Prop :=
  ∀ (s : State) (c : Cur) (a b : Reg) (e f : Bool) (h : BitVec 2) (o : BitVec 9), s.Issues c →
    let r := c.task.regs
    (r.condOf a = .pending → exec (.prf a false h o) s = .next s) ∧
    (r.Full a → r.bad a = false → Completes (exec (.prf a e h o) s) fun t =>
      s.SameMemory t ∧ ∃ c' : Cur, t.cur = some c' ∧ c'.task = { c.task with regs := r.advance 4 }) ∧
    (r.condOf a = .void ∨ r.condOf a = .pending ∧ e = true →
      exec (.prf a e h o) s = .next (c.put s { c.task with regs := r.advance 4 })) ∧
    ∀ lines : List (Nat × Option (Nat × Nat)), r.Full a → r.bad a = false → r.Full b → r.bad b = false →
      (r.val a).toNat % 64 = 0 → (r.val b).toNat % 64 = 0 →
      s.discardLines c.team.vf c.task.via (r.val a).toNat ((r.val b).toNat / 64) = .ok lines →
      (∀ p, s.part c.team.vf = some p → p.fillOf (p.log.length + lines.length) < 95) →
      Completes (exec (.disc a b e f) s) fun t =>
        (∀ x, (∀ l ∈ lines, x / 64 ≠ l.1 / 64) → memRead t.mem x = memRead s.mem x) ∧
        (∀ l ∈ lines, (∀ i, i < 64 → memRead t.mem (l.1 / 64 * 64 + i) = memRead s.mem (l.1 / 64 * 64 + i)) ∨
          ∃ old, mapGet (l.1 / 64) s.prev = some old ∧
            ∀ i, i < 64 → i < old.length → memRead t.mem (l.1 / 64 * 64 + i) = old.getD i 0) ∧
        ∃ c' : Cur, t.cur = some c' ∧ c'.task = { c.task with regs := r.advance 4 }

/-- LD and ST stand for the global accesses, LDP and STP for the scratchpad ones. With the operands full and not poisoned: a
misaligned effective address traps ALIGN (cause 3) with DETAIL 0, before translation; else a missing translation traps PAGE
(cause 4), and a page that may not be so accessed PROT (cause 5) with the detail of the check, no error injection armed (else the walk's
reads may use it up); a scratchpad range outside the carve-out traps PROT 0x0002. %taddr is the address, %tval 0, %epc the instruction; no register, fill or memory byte changes. -/
def Obligations.AddressTraps : Prop :=
  ∀ (s : State) (c : Cur) (d a : Reg) (e : Bool) (sz h : BitVec 2) (o : BitVec 9) (cause : Nat) (detail : BitVec 16), s.Issues c →
    let r := c.task.regs
    let n := 2 ^ sz.toNat
    let va := r.val a + o.signExtend 64 * BitVec.ofNat 64 n
    let traps := fun (i : Instr) (cause : Nat) (detail : BitVec 16) => ∃ q : Regs,
      exec i s = c.traps s q ∧ q.epc = BitVec.ofNat 64 r.pc ∧ q.taddr = va ∧
      q.tval = 0 ∧ q.tcause = BitVec.ofNat 64 (detail.toNat * 65536 + cause) ∧ q.handler = true ∧
      q.pc = r.tvec.toNat + 4 * cause ∧ q.g = r.g ∧ q.cond = c.task.leaveBarrier.regs.cond ∧ q.p = r.p
    r.Full a → r.Full d → r.bad a = false → r.handler = false → r.tvec ≠ 0 → r.poisonSr.getLsbD 16 = false →
    (va.toNat % n ≠ 0 →
      traps (.ld d a e sz h o) 3 0 ∧ traps (.st d a e sz h o) 3 0 ∧ traps (.ldp d a e sz o) 3 0 ∧ traps (.stp d a e sz o) 3 0) ∧
    (va.toNat % n = 0 →
      (s.uninjected c.team.vf →
        (s.xlate c.team.vf va.toNat .read c.task.via = .bad cause detail → traps (.ld d a e sz h o) cause detail) ∧
        (s.xlate c.team.vf va.toNat .store c.task.via = .bad cause detail → traps (.st d a e sz h o) cause detail)) ∧
      (c.team.carve.spadOk va.toNat n = false → traps (.ldp d a e sz o) 5 2 ∧ traps (.stp d a e sz o) 5 2)) ∧
    (∀ x, s.lookup c.team.vf va.toNat c.task.via = none → s.xlate c.team.vf va.toNat x c.task.via = .bad 4 0) ∧
    (∀ pg, s.lookup c.team.vf va.toNat c.task.via = some pg → pg.writable = false →
      s.xlate c.team.vf va.toNat .store c.task.via = .bad 5 1)

/-- TSET makes %ts the value of a full register and goes on. ABRT flags the team's open segment for abort and leaves the task as
it is. TSRD leaves gd pending with what its selector g[a] reads: 0 the least timestamp of the launch's uncommitted segments (all ones with
none), 1 how many closed segments of the team have not committed, 2 how many have, 3 whether the last one was LATE and, in bit 1, whether the
open segment holds an unapplied ordered atomic, and any other value all ones. SEAL writes the number of the open interval, goes on,
and requests a seal. SEALW goes on once every interval up to its 48-bit target is sealed, and before that stays at its
instruction. XWR, at an aperture page translated for it with data not poisoned and room in the hold queue, appends one write
with the interval's number and goes on. -/
def Obligations.SegmentInstructionResults : Prop :=
  ∀ (s : State) (c : Cur) (d a : Reg) (e : Bool) (z : BitVec 1) (o : BitVec 9), s.Issues c →
    let r := c.task.regs
    (r.Full a → ∃ q : Regs, exec (.tset a e) s = .next (c.putRegs s (q.advance 4)) ∧
      q = { r with ts := r.val a, poisonSr := q.poisonSr }) ∧
    (∀ g, c.team.openSeg = some g → Completes (exec .abrt s) fun t => s.SameMemory t ∧ ∃ c' : Cur, t.cur = some c' ∧
      c'.task = c.task ∧ c'.team.openSeg = some { g with abort := true }) ∧
    (r.Free d → r.Full a →
      let reads := fun (v : Word) => ∃ tk : Task, exec (.tsrd d a e) s = .next (c.put s tk) ∧ tk.regs = (r.mark d .pending).advance 4 ∧
        tk.fills = c.task.fills ++ if d = 0 then [] else [{ rd := d, src := .value v (r.bad a) }]
      let stamps := s.teams.flatMap fun t => if t.2.launch = c.team.launch then t.2.stamps else []
      (r.val a = 0 → stamps = [] → reads (BitVec.allOnes 64)) ∧
      (∀ t ∈ stamps, r.val a = 0 → (∀ u ∈ stamps, t ≤ u) → reads (BitVec.ofNat 64 t)) ∧
      (r.val a = 1 → reads (BitVec.ofNat 64 c.team.segs.length)) ∧
      (r.val a = 2 → reads (BitVec.ofNat 64 c.team.committed)) ∧
      (r.val a = 3 → ∃ v : Word, reads v ∧ v.toNat < 4 ∧ v.getLsbD 0 = c.team.lastLate ∧
        (v.getLsbD 1 = true ↔ ∃ x ∈ s.amoos, x.team = c.tid ∧ x.seq = c.team.openSeq ∧ x.applied = false)) ∧
      (3 < (r.val a).toNat → reads (BitVec.allOnes 64))) ∧
    (r.Free d → Completes (exec (.seal d) s) fun t => (t.sealDue = true ∨ t.sealPending = true) ∧ ∃ c' : Cur, t.cur = some c' ∧
      c'.task.regs = (r.write d (BitVec.ofNat 64 s.rin) false).advance 4) ∧
    (r.Full a → (r.val a).toNat % 2 ^ 48 ≤ s.sealed →
      exec (.sealw a e) s = .next (c.put s { c.task with arrived := none, regs := r.advance 4 })) ∧
    (r.Full a → s.sealed < (r.val a).toNat % 2 ^ 48 →
      exec (.sealw a e) s = .next (c.put s { c.task with arrived := some (.sealw ((r.val a).toNat % 2 ^ 48)) })) ∧
    ∀ (pg : TlbEntry) (p : Part),
      let n := if z = 0 then 4 else 8
      let va := (r.val a + o.signExtend 64 * BitVec.ofNat 64 n).toNat
      r.Full a → r.Full d → r.bad a = false → r.bad d = false → va % n = 0 → s.xlate c.team.vf va .aperture c.task.via = .ok pg →
      s.part c.team.vf = some p → p.egress.length < 1024 →
      Completes (exec (.xwr d a e z o) s) fun t => s.SameMemory t ∧
        (∃ p', t.part c.team.vf = some p' ∧ ∃ x : Xwr, p'.egress = p.egress ++ [x] ∧ x.addr = pg.pa va ∧ x.rin = s.rin ∧
          x.data = BitVec.ofNat 64 ((r.val d).toNat % 2 ^ (8 * n)) ∧ x.wide = decide (n = 8)) ∧
        ∃ c' : Cur, t.cur = some c' ∧ c'.task.regs = r.advance 4

/-- With the operands full, the address not poisoned, aligned to 16 bytes and inside the carve-out: SYARM writes the low 32 bits
of g[b] as the target, 0 as count and flags, keeps the generation, and goes on. SYWAIT stays while the generation equals its
operand and goes on once it differs. TLWAIT stays while the counter is below its operand and then goes on. MWAIT, at an
8-byte-aligned address translated for reading, waits for its line while the committed uint64 is below g[b]; it goes on once it is not,
or once a write of the line met it since. A wait that ends makes visible to the member's loads, global and scratchpad, what the commands
that it covers have written (a scratchpad byte that no uncovered command wrote reads as it stands), and changes nothing else (which commands a wait on a sync word or a memory counter covers: log 115). -/
def Obligations.SynchronisationResults : Prop :=
  ∀ (s : State) (c : Cur) (a b : Reg) (e f : Bool) (n : BitVec 4) (g : BitVec 13), s.Issues c →
    let r := c.task.regs
    let off := (r.val a).toNat
    let cv := c.team.carve
    let gen := c.task.spadLE cv (off + 8) 4
    let gone := fun (o : Out) (covers : CmdTag → Bool) => Completes o fun t => s.SameMemory t ∧ ∃ c' : Cur, t.cur = some c' ∧
      c'.task = { c.task with regs := r.advance 4, hid := stillHid covers c.task.hid } ∧
      (∀ x, (∀ h ∈ c.task.hid, covers h.tag = false → mapGet (c.task.spadKey cv x) h.old = none) →
        c'.task.coreByte cv x = (c.task.spadRead cv x, c.task.poisonS.contains (c.task.spadKey cv x))) ∧
      c'.team.segs = c.team.segs.map (fun x => x.acquire c.mem covers) ∧ c'.team.openSeg = c.team.openSeg.map fun x => x.acquire c.mem covers
    r.Full a → r.Full b →
    (r.bad a = false → off % 16 = 0 → cv.spadOk off 16 = true →
      (Completes (exec (.syarm a b e f) s) fun t => s.SameMemory t ∧ ∃ c' : Cur, t.cur = some c' ∧ c'.task.regs = r.advance 4 ∧
        c'.team.carve = cv ∧ c'.task.spadLE cv off 4 = (r.val b).toNat % 2 ^ 32 ∧ c'.task.spadLE cv (off + 4) 4 = 0 ∧
        c'.task.spadLE cv (off + 8) 4 = gen ∧ c'.task.spadLE cv (off + 12) 4 = 0 ∧
        ∀ x, x < off ∨ off + 16 ≤ x → c'.task.spadRead cv x = c.task.spadRead cv x) ∧
      (gen = (r.val b).toNat % 2 ^ 32 → exec (.sywait a b e f) s = .next s) ∧
      (gen ≠ (r.val b).toNat % 2 ^ 32 → gone (exec (.sywait a b e f) s) fun x => x.passed && x.sync == some off) ∧
      (gen = g.toNat → exec (.sywaitImm a e g) s = .next s) ∧
      (gen ≠ g.toNat → gone (exec (.sywaitImm a e g) s) fun x => x.passed && x.sync == some off)) ∧
    ((c.task.timeline n).count.toNat < (r.val a).toNat → exec (.tlwait n a e) s = .next s) ∧
    ((r.val a).toNat ≤ (c.task.timeline n).count.toNat →
      gone (exec (.tlwait n a e) s) fun x => x.tl == n.toNat && decide (x.num ≤ (r.val a).toNat)) ∧
    ∀ pg : TlbEntry, r.bad a = false → off % 8 = 0 → s.xlate c.team.vf off .read c.task.via = .ok pg →
      (s.pageLE pg off 8 < (r.val b).toNat → s.waitMet (.task c.tid c.mem) = false → Completes (exec (.mwait a b e f) s) fun t =>
        s.SameMemory t ∧ (∃ c' : Cur, t.cur = some c' ∧ c'.task = c.task ∧ c'.team = c.team) ∧
        ∃ w ∈ t.waits, w.who = .task c.tid c.mem) ∧
      ((r.val b).toNat ≤ s.pageLE pg off 8 ∨ s.waitMet (.task c.tid c.mem) = true →
        gone (exec (.mwait a b e f) s) fun x => x.added && x.ctr == some off)

/-- At a member outside a handler with no fill pending, no thicket phase or graph running and fewer than four uncommitted
segments: CMT or HALT marks the arrival and, while another counted member has not arrived at a closing instruction, changes
nothing else. When every counted member stands at CMT, the open segment joins the closed ones, unchanged, with the greatest
member timestamp; every member that has not retired goes on past its CMT with %ts back at the work identifier, %seq one up
and %retry 0; a new empty segment with that number opens. When all stand at HALT they enter RETIRING and no segment opens. No
byte of committed memory changes. That the barrier completes without the members that have retired is the model's reading (log 26: R48
and R51 speak of every member). -/
def Obligations.ClosingInstructions : Prop :=
  ∀ (s : State) (c : Cur) (g : Seg), s.Issues c →
    c.task.regs.handler = false → c.task.fillsPending = false → c.task.phasePending = false → c.task.gsq.running = false →
    s.fifth c.team = false → c.team.openSeg = some g →
    let at_ := fun (x : Arrival) => c.put s { c.task with arrived := some x }
    let team := fun (x : Arrival) => ({ c.team with members := c.team.members.set c.mem { c.task with arrived := some x } } : Team)
    ((team .cmt).allAt Arrival.closing = false → exec .cmt s = .next (at_ .cmt)) ∧
    ((team .halt).allAt Arrival.closing = false → exec .halt s = .next (at_ .halt)) ∧
    ((∀ tk ∈ (team .cmt).members, tk.retired = false → tk.arrived = some .cmt) →
      Completes (exec .cmt s) fun t => s.SameMemory t ∧ ∃ tm g', mapGet c.tid t.teams = some tm ∧
        tm.segs.map Seg.plain = (c.team.segs ++ [{ g with ts := BitVec.ofNat 64 (team .cmt).openTs }]).map Seg.plain ∧
        tm.openSeg = some g' ∧ g'.seq = g.seq + 1 ∧ g'.fin = [] ∧ g'.reads = [] ∧ g'.marked = [] ∧ g'.abort = false ∧
        tm.members.length = c.team.members.length ∧
        ∀ (m : Nat) (tk : Task), (team .cmt).members[m]? = some tk → ∃ tk', tm.members[m]? = some tk' ∧
          (tk.retired = true → tk' = tk) ∧ (tk.retired = false → tk'.arrived = none ∧ tk'.retry = 0 ∧
            tk'.regs.ts = c.team.wid ∧ tk'.regs.seq = tk.regs.seq + 1 ∧ tk'.regs.pc = (tk.regs.advance 4).pc ∧
            tk.regs.SameGeneral tk'.regs [] ∧ tk'.regs.dgs = tk.regs.dgs)) ∧
    ((∀ tk ∈ (team .halt).members, tk.retired = false → tk.arrived = some .halt) →
      Completes (exec .halt s) fun t => s.SameMemory t ∧ ∃ tm, mapGet c.tid t.teams = some tm ∧
        tm.segs.map Seg.plain = (c.team.segs ++ [{ g with ts := BitVec.ofNat 64 (team .halt).openTs }]).map Seg.plain ∧
        tm.openSeg = none ∧ tm.members.length = c.team.members.length ∧
        ∀ (m : Nat) (tk : Task), (team .halt).members[m]? = some tk → ∃ tk', tm.members[m]? = some tk' ∧
          (tk.retired = true → tk' = tk) ∧ (tk.retired = false → tk'.slot = .retiring ∧ tk'.arrived = some .halt ∧
            tk'.regs = tk.regs))

/-- At a member outside a handler, with gd free, the header's two lines translated for reading at a 64-byte-aligned full address,
and every other counted member standing at CMT: the closing barrier submits the 128 header bytes that the member sees. An
accepted launch stands in the pool, its number is noted in the closed segment, and gd is written 0; a rejected header writes
2; a full pool writes 1 for LNCH, and for LNCHW makes the team save its context to submit again later. In all but that last
case the member goes on into a new segment. That the barrier completes without the members that have retired is the model's reading (log 26),
and so are the reading of the header in the closing segment's view (log 95) and that the status stands in gd as the barrier closes
(log 81). -/
def Obligations.LaunchInstructions : Prop :=
  ∀ (s : State) (c : Cur) (g : Seg) (d a : Reg) (e : Bool) (pg pg2 : TlbEntry), s.Issues c →
    c.task.regs.handler = false → c.task.fillsPending = false → c.task.phasePending = false → c.task.gsq.running = false →
    s.fifth c.team = false → c.team.openSeg = some g →
    let r := c.task.regs
    let va := r.val a
    let via := c.task.via
    let s1 := (s.cache c.team.vf pg via).cache c.team.vf pg2 via
    let arrives := fun (wait : Bool) =>
      ({ c.team with members := c.team.members.set c.mem (c.task.arrive (.lnch d va wait (c.task.regs.condOf d))) } : Team)
    let closed := fun (wait : Bool) => ({ arrives wait with
      segs := c.team.segs ++ [{ g with ts := BitVec.ofNat 64 (arrives wait).openTs }], openSeg := none } : Team)
    let s2 := fun (wait : Bool) => (s1.setTeam c.tid (arrives wait)).setTeam c.tid (closed wait)
    let answer := fun (wait : Bool) => ((s2 wait).headerRead c.team.vf via va.toNat).submit c.team.vf
      ((s2 wait).headerBytes (closed wait) c.mem via va.toNat) ((s2 wait).origin c.tid (closed wait) g.seq)
    let gives := fun (o : Out) (v : Word) => Completes o fun t => s.SameMemory t ∧ ∃ c' : Cur, t.cur = some c' ∧
      c'.task.regs.val d = (if d = 0 then 0 else v) ∧ c'.task.regs.condOf d = .full ∧ c'.task.regs.seq = r.seq + 1 ∧ c'.task.arrived = none ∧
      c'.team.openSeg.isSome = true
    let launched := fun (o : Out) (l : Nat) => Completes o fun t => (∃ x, mapGet l t.launches = some x ∧ x.stage = .pooled ∧
      x.parent = some (c.tid, g.seq)) ∧ ∃ tm gs x, mapGet c.tid t.teams = some tm ∧ tm.segs = gs ++ [x] ∧ x.launches = [l]
    r.Free d → r.Full a → r.bad a = false → va.toNat % 64 = 0 → s.xlate c.team.vf va.toNat .read via = .ok pg →
    (s.cache c.team.vf pg via).xlate c.team.vf (va.toNat + 64) .read via = .ok pg2 →
    (∀ (m : Nat) (tk : Task), m ≠ c.mem → c.team.members[m]? = some tk → tk.retired = false → tk.arrived = some .cmt) →
    (∀ s' l, answer false = .accepted s' l → gives (exec (.lnch d a e) s) 0 ∧ launched (exec (.lnch d a e) s) l) ∧
    (∀ s' l, answer true = .accepted s' l → gives (exec (.lnchw d a e) s) 0 ∧ launched (exec (.lnchw d a e) s) l) ∧
    (answer false = .rejected → gives (exec (.lnch d a e) s) 2) ∧ (answer true = .rejected → gives (exec (.lnchw d a e) s) 2) ∧
    (answer false = .full → gives (exec (.lnch d a e) s) 1) ∧
    (answer true = .full → Completes (exec (.lnchw d a e) s) fun t => ∃ tm, mapGet c.tid t.teams = some tm ∧ tm.st = .saving)

/-- At a member outside a handler, an arrival at BARR, BARR.CARVE or YIELD before the last only marks itself. The last arrival at BARR
publishes the versions of the open segment (what the engines of a member wrote and it has not waited for stays hidden from it: log 115),
flips every member's exchange banks and lets every member that has not retired go on. At BARR.CARVE, when every counted member brought the
same word and it is a valid carve-out (bits [63:32] zero, the program's granules unchanged, a sum of at most 64, the kernel's .sync offsets
covered), the carve-out becomes that word's too, and every byte of a spad granule that stays one is as before, every byte of a new one zero: with another count of granules the
exchange region is the two highest of the new ones, its lit bank the lower one (log 7); with the same count the banks flip as at BARR. With any other word among them, or an invalid one, it acts as BARR, the carve-out stays, and
every counted member traps PROT 0x0006 at its instruction (%taddr 0 and %tval the word that it brought are the model's choice: log 27). At
YIELD every member goes on and the team then saves its context with its segment open. A handler traps ILL 0x0002 at each, whatever
BARR.CARVE's operand holds, which fails the task. That a barrier completes without the members that have retired is the model's reading
(log 26: R157 speaks of every member). -/
def Obligations.TeamBarriers : Prop :=
  ∀ (s : State) (c : Cur) (a : Reg) (e : Bool), s.Issues c →
    let w := c.task.regs.val a
    let at_ := fun (x : Arrival) => c.put s { c.task with arrived := some x }
    let team := fun (x : Arrival) => ({ c.team with members := c.team.members.set c.mem { c.task with arrived := some x } } : Team)
    let past := fun (t : State) (f : Task → Task → Prop) => ∃ tm, mapGet c.tid t.teams = some tm ∧
      ∀ (m : Nat) (tk : Task), (team .barr).members[m]? = some tk → ∃ tk', tm.members[m]? = some tk' ∧ f tk tk' ∧
        (tk.retired = false → tk'.arrived = none ∧ tk'.regs = tk.regs.advance 4)
    (c.task.regs.handler = true → exec .barr s = .next (s.failTask c.tid c.mem 1 2 (BitVec.ofNat 64 c.task.regs.pc)) ∧
      exec .yield s = .next (s.failTask c.tid c.mem 1 2 (BitVec.ofNat 64 c.task.regs.pc)) ∧
      exec (.barrCarve a e) s = .next (s.failTask c.tid c.mem 1 2 (BitVec.ofNat 64 c.task.regs.pc))) ∧
    (c.task.regs.handler = false →
      ((team .barr).allAt (fun x => x == .barr) = false → exec .barr s = .next (at_ .barr)) ∧
      ((team .yield).allAt (fun x => x == .yield) = false → exec .yield s = .next (at_ .yield)) ∧
      ((team .barr).allAt (fun x => x == .barr) = true → Completes (exec .barr s) fun t => s.SameMemory t ∧
        (past t fun tk tk' => tk'.shadowSel = !tk.shadowSel) ∧ ∃ tm, mapGet c.tid t.teams = some tm ∧
          tm.openSeg = c.team.openSeg.map Seg.publish ∧
          ∀ g, c.team.openSeg = some g → g.publish.pub = g.fin ∧ g.publish.fin = g.fin ∧ g.publish.own = g.own) ∧
      ((team .yield).allAt (fun x => x == .yield) = true → Completes (exec .yield s) fun t => s.SameMemory t ∧
        ∃ tm, mapGet c.tid t.teams = some tm ∧ tm.st = .saving ∧ tm.openSeg = c.team.openSeg ∧
          ∀ (m : Nat) (tk : Task), (team .yield).members[m]? = some tk → ∃ tk', tm.members[m]? = some tk' ∧
            (tk.retired = false → tk'.arrived = none ∧ tk'.regs = tk.regs.advance 4)) ∧
      (c.task.phasePending = false → c.task.regs.Full a → c.task.regs.bad a = false →
        (∃ tk ∈ (team (.carve w)).members, tk.retired = false ∧ ∀ x, tk.arrived ≠ some (.carve x)) →
        exec (.barrCarve a e) s = .next (at_ (.carve w))) ∧
      let v : Carve :=
        { prog := bitsOf w.toNat 7 0, spad := bitsOf w.toNat 15 8, replay := bitsOf w.toNat 23 16, dcache := bitsOf w.toNat 31 24 }
      let valid := w.toNat < 2 ^ 32 ∧ v.prog = c.team.carve.prog ∧ v.prog + v.spad + v.replay + v.dcache ≤ 64 ∧
        ∀ l, s.launchOf c.team = some l → ∀ x ∈ l.syncs, x.1 < v.spad * 65536
      let same := ∀ tk ∈ (team (.carve w)).members, tk.retired = false → tk.arrived = some (.carve w)
      (c.task.phasePending = false → c.task.regs.Full a → c.task.regs.bad a = false → (¬ valid ∨ ¬ same) →
        (∀ tk ∈ (team (.carve w)).members, tk.retired = false →
          (∃ x, tk.arrived = some (.carve x)) ∧ tk.regs.tvec ≠ 0 ∧ tk.regs.poisonSr.getLsbD 16 = false) →
        Completes (exec (.barrCarve a e) s) fun t => s.SameMemory t ∧ ∃ tm, mapGet c.tid t.teams = some tm ∧ tm.carve = c.team.carve ∧
          tm.openSeg = c.team.openSeg.map Seg.publish ∧
          ∀ (m : Nat) (tk : Task), (team (.carve w)).members[m]? = some tk → ∃ tk', tm.members[m]? = some tk' ∧
            tk'.shadowSel = (!tk.shadowSel) ∧ tk'.spad = tk.spad ∧ tk'.bank0 = tk.bank0 ∧ tk'.bank1 = tk.bank1 ∧
            (tk.retired = true → tk'.regs = tk.regs ∧ tk'.arrived = tk.arrived) ∧
            (tk.retired = false → tk'.arrived = none ∧ tk.regs.Trapped tk'.regs 5 ∧ tk.regs.SameGeneral tk'.regs [] ∧
              tk'.regs.tcause = BitVec.ofNat 64 (6 * 65536 + 5) ∧ tk'.regs.epc = BitVec.ofNat 64 tk.regs.pc ∧ tk'.regs.taddr = 0 ∧
              ∀ x, tk.arrived = some (.carve x) → tk'.regs.tval = x)) ∧
      (c.task.phasePending = false → c.task.regs.Full a → c.task.regs.bad a = false → valid → same →
        Completes (exec (.barrCarve a e) s) fun t => s.SameMemory t ∧
          ∃ tm, mapGet c.tid t.teams = some tm ∧ tm.carve = v ∧
            tm.openSeg = c.team.openSeg.map Seg.publish ∧
            ∀ (m : Nat) (tk : Task), (team (.carve w)).members[m]? = some tk → ∃ tk', tm.members[m]? = some tk' ∧
              (tk.retired = false → tk'.arrived = none ∧ tk'.regs = tk.regs.advance 4) ∧
              (c.team.carve.spad = v.spad → tk'.shadowSel = !tk.shadowSel ∧ tk'.spad = tk.spad ∧ tk'.bank0 = tk.bank0 ∧
                tk'.bank1 = tk.bank1) ∧
              (c.team.carve.spad ≠ v.spad → tk'.shadowSel = true ∧ ∀ k, k < v.spad * Config.granule →
                (k < c.team.carve.spad * Config.granule → memRead (tk'.flatSpad v) k = memRead (tk.flatSpad c.team.carve) k) ∧
                (c.team.carve.spad * Config.granule ≤ k →
                  (∀ y ∈ tk.flatSpad c.team.carve, y.1 < c.team.carve.spad * Config.granule) → memRead (tk'.flatSpad v) k = 0))))

/-- With both sources full and spill space at hand, HPUSH of a key that is not all ones appends (key, payload) for the heap of
its bush to the pushes of the open segment and goes on; a key of all ones is discarded. HPOP of g1 to g62 marks gd and g(d+1) pending and
leaves every other register: when the heap has no entry that no uncommitted pop holds, the fill brings payload 0 and key all ones and %ts
stays. Else it takes an entry that stands among the first 16 in key order: the fill brings its payload and key, the open segment holds the
pop, and %ts becomes the key. Which of the 16 is free (log 3): the statement holds for each choice. That %ts holds the key from issue on,
before the fill arrives, is the model's reading (log 81). The words of HPOP of g0 and g63 are refused with DETAIL 0x0002. -/
def Obligations.WorkHeapInstructions : Prop :=
  (∀ (s : State) (c : Cur) (p : Part) (g : Seg) (d a b : Reg) (e f : Bool), s.Issues c → s.part c.team.vf = some p →
    c.team.openSeg = some g →
    let r := c.task.regs
    let h := bushOf c.task.core
    let avail := ((s.popsAt c.team.vf h).foldl (fun l x => l.erase x) (p.heap h)).foldl (fun l x => heapInsert x l) []
    (r.Full a → r.Full b → r.val a = BitVec.allOnes 64 →
      exec (.hpush a b e f) s = .next (c.put s { c.task with regs := r.advance 4 })) ∧
    (r.Full a → r.Full b → r.val a ≠ BitVec.allOnes 64 → s.spillFull c.team.vf p h = false →
      Completes (exec (.hpush a b e f) s) fun t => s.SameMemory t ∧ ∃ c' : Cur, t.cur = some c' ∧
        c'.task = { c.task with regs := r.advance 4 } ∧
        ∃ g', c'.team.openSeg = some g' ∧ g'.pushes = g.pushes ++ [(h, (r.val a, r.val b))] ∧ g'.fin = g.fin) ∧
    (d ≠ 0 → d ≠ 63 → r.Free d → r.Free (d + 1) →
      let pops := fun (tk : Task) (v k : Word) => tk.regs.condOf d = .pending ∧ tk.regs.condOf (d + 1) = .pending ∧
        r.SameGeneral tk.regs [d, d + 1] ∧ (∀ n, tk.regs.val n = r.val n) ∧ tk.regs.pc = (r.advance 4).pc ∧
        tk.regs.loops = (r.advance 4).loops ∧ r.SamePreds tk.regs [] ∧
        tk.fills = c.task.fills ++ [{ rd := d, src := .pair v k }] ∧ c.task.SameUnits tk
      (avail = [] → ∃ tk : Task, exec (.hpop d) s = .next (c.put s tk) ∧ pops tk 0 (BitVec.allOnes 64) ∧ tk.regs.ts = r.ts) ∧
      (avail ≠ [] → ∃ k pay, (k, pay) ∈ avail.take 16 ∧ Completes (exec (.hpop d) s) fun t => s.SameMemory t ∧
        ∃ c' : Cur, t.cur = some c' ∧ pops c'.task pay k ∧ c'.task.regs.ts = k ∧
          ∃ g', c'.team.openSeg = some g' ∧ g'.pops = g.pops ++ [(h, (k, pay))] ∧ g'.fin = g.fin))) ∧
  decodeWord 0xC4000001#32 none = .error 2 ∧ decodeWord 0xC7F00001#32 none = .error 2

/-- When the closed segment of a team that commits next (in a DISJOINT launch the oldest, else the oldest of the smallest timestamp: log 62) is
due (its launch DISJOINT, or the segment at the frontier, or late), is not flagged for
abort, holds no unapplied ordered atomic, has no engine command left, consumes no poison, is refused no line and needs no log
space: SEGMENT_COMMIT answers a next state in which the segment is gone from the team and one more counts as committed. If it
has no counter adds, every byte that the segment wrote reads as its version and every other byte of device memory as before. A segment that
wrote one line and nothing else appends the line's pre-image to the umbra log when the line is of a tracked page and this is its first write
of the interval, and else nothing. -/
def Obligations.SegmentCommitResult : Prop :=
  ∀ (s : State) (team : Nat) (tm : Team) (g : Seg) (l : Launch),
    mapGet team s.teams = some tm → s.launchOf tm = some l → tm.nextCommit l.hdr.disjoint = some g →
    (l.hdr.disjoint = true ∨ s.atFrontier tm.launch g.ts.toNat = true ∨ ∃ t, l.maxTs = some t ∧ g.ts.toNat < t) →
    g.abort = false → (∀ x ∈ s.amoos, x.team = team → x.seq = g.seq → x.applied = true) → s.failing tm = false →
    (∀ tk ∈ tm.members, tk.segBusy g.seq = false) → (l.hdr.disjoint = true → l.taken team (verLines g.fin) = none) →
    g.poisoned = none → s.logFull (s.performCommit team tm g l) tm.vf = false →
    Completes (exec (.segmentCommit team) s) fun t =>
      (∃ tm', mapGet team t.teams = some tm' ∧ tm'.segs.map (·.seq) = (tm.segs.map (·.seq)).filter (· ≠ g.seq) ∧
        tm'.committed = tm.committed + 1 ∧ tm'.members.length = tm.members.length) ∧
      (g.adds = [] → ∀ a, memRead t.mem a = (mapGet a g.fin).getD (memRead s.mem a)) ∧
      ∀ line, verLines g.fin = [line] → g.pushes = [] → g.pops = [] → g.adds = [] →
        s.Logs t tm.vf (64 * line) (s.lineFree tm.vf g line).isNone

/-- For a team with a flagged segment g, no older one flagged. In a swap ABORT_RESTORE only gives every
fill that waits for an ordered atomic, an append or a port its value, so that the swap can complete. Else, while a fill has still to land, or an
MMA that takes values from a port to complete, it stops what the aborted segments do, and waits. Once neither is so, it opens g
again with no version, read mark, heap entry or launch, the closed segments before it stay, and every member that had not
retired when g opened has the registers of its snapshot and a %retry one greater. No byte of committed memory changes. -/
def Obligations.AbortReturnsToSnapshot : Prop :=
  ∀ (s : State) (team : Nat) (tm : Team) (g : Seg) (later : List Seg), mapGet team s.teams = some tm →
    fromAborted tm.uncommitted = g :: later →
    let s1 := s.abortStop team tm (g :: later)
    let waits := fun (tk : Task) => tk.fillsPending || tk.mmaOpen ((g :: later).map (·.seq))
    (tm.swaps ≠ [] → Completes (exec (.abortRestore team) s) fun t => s.SameMemory t ∧ ∃ tm', mapGet team t.teams = some tm' ∧
      tm'.swaps = tm.swaps ∧ tm'.segs = tm.segs ∧ tm'.openSeg = tm.openSeg ∧ ∀ (m : Nat) (tk : Task), tm.members[m]? = some tk →
        ∃ tk', tm'.members[m]? = some tk' ∧ tk'.regs = tk.regs ∧
          (tk.slot ≠ .gone → ∀ x ∈ tk'.fills, x.src ≠ .amoo ∧ x.src ≠ .append ∧ ∀ n, x.src ≠ .stk n)) ∧
    (tm.swaps = [] → ∀ tm1, mapGet team s1.teams = some tm1 →
      (tm1.members.any waits = true → exec (.abortRestore team) s = .next s1 ∧ s.SameMemory s1) ∧
      (tm1.members.any waits = false →
        Completes (exec (.abortRestore team) s) fun t => s.SameMemory t ∧ ∃ tm' g', mapGet team t.teams = some tm' ∧
          tm'.openSeg = some g' ∧ g'.seq = g.seq ∧ g'.fin = [] ∧ g'.pub = [] ∧ g'.reads = [] ∧ g'.marked = [] ∧ g'.pushes = [] ∧ g'.pops = [] ∧
          g'.launches = [] ∧ g'.abort = false ∧ tm'.segs = beforeAborted tm.segs ∧ tm'.members.length = tm.members.length ∧
          ∀ (m : Nat) (x : Snap) (tk : Task), g.snaps[m]? = some x → x.regs.seq = g.seq → tm.members[m]? = some tk →
            ∃ tk', tm'.members[m]? = some tk' ∧ tk'.regs = x.regs ∧ tk'.retry = x.retry + 1 ∧ tk'.fills = [] ∧
              tk'.arrived = none))

/-- With gd free, the four registers from ga on full and not poisoned, and the words in the ranges of their tables (reserved bits
0; scratchpad ranges, sync word and exchange offset inside the carve-out; STRM lengths multiples of 64, weight-store ranges
inside the banks): the command with these words waits for its append on the named counter, gd is pending, and the task goes
on. For GTX the check of its descriptor is the model's gtxCheck. A CPY.S2S whose byte count has more than 32 bits traps PROT
0x0005 with the word's number 2. -/
def Obligations.CopyAndStreamCommandsIssue : Prop :=
  ∀ (s : State) (c : Cur) (a d : Reg) (tl : BitVec 4) (e : Bool), s.Issues c →
    c.task.regs.Free d → c.task.regs.Full a → c.task.regs.Full (a + 1) → c.task.regs.Full (a + 2) → c.task.regs.Full (a + 3) →
    c.task.regs.bad a = false → c.task.regs.bad (a + 1) = false → c.task.regs.bad (a + 2) = false →
    c.task.regs.bad (a + 3) = false → a.toNat ≤ 60 →
    let w0 := c.task.regs.val a
    let w1 := c.task.regs.val (a + 1)
    let w2 := c.task.regs.val (a + 2)
    let w3 := c.task.regs.val (a + 3)
    let cv := c.team.carve
    let sync := bitsOf w3.toNat 3 1 = 0 ∧ (bitAt w3.toNat 0 = true ∨ cv.spadOk (bitsOf w3.toNat 21 4 * 16) 16 = true)
    let n := w2.toNat
    let issued := fun i kind => c.issued s (exec i s) a d tl kind 0
    (n < 2 ^ 32 → sync →
      issued (.cpyG2g a d tl e) .cpyG2g ∧
      (cv.spadOk w1.toNat n = true → issued (.cpyG2s a d tl e) .cpyG2s) ∧
      (cv.spadOk w0.toNat n = true → issued (.cpyS2g a d tl e) .cpyS2g) ∧
      (cv.spadOk w0.toNat n = true → cv.spadOk w1.toNat n = true → issued (.cpyS2s a d tl e) .cpyS2s) ∧
      (bitsOf w1.toNat 47 22 = 0 → bitsOf w1.toNat 63 54 = 0 → bitsOf w1.toNat 53 48 < 4 ^ c.team.size.toNat →
        bitsOf w1.toNat 21 0 + n ≤ 65536 → cv.exchange = true →
        issued (.pxcp a d tl e) .pxcp ∧ (cv.spadOk w0.toNat n = true → issued (.pxst a d tl e) .pxst))) ∧
    (sync → bitsOf n 31 22 = 0 → bitsOf n 47 41 = 0 → bitsOf n 63 50 = 0 → w0.toNat % gthSize w2 = 0 → 1 ≤ gthCount w2 →
      gthCount w2 ≤ 256 → w1.toNat % 4 = 0 → cv.spadOk w1.toNat (4 * gthCount w2) = true →
      cv.spadOk (bitsOf n 21 0) (gthCount w2 * gthSize w2) = true → issued (.gth a d tl e) .gth) ∧
    (gtxCheck c s w0 w1 w2 w3 = none → (c.grid s w0).2.2 = false → issued (.gtx a d tl e) .gtx) ∧
    (n < 16 → w3 = 0 → w1.toNat % 64 = 0 →
      issued (.strmInG a d tl e) .strmInG ∧ issued (.strmOutG a d tl e) .strmOutG ∧
      (cv.spadOk w0.toNat w1.toNat = true → issued (.strmInS a d tl e) .strmInS ∧ issued (.strmOutS a d tl e) .strmOutS) ∧
      (∀ p, s.part c.team.vf = some p → w0.toNat + w1.toNat ≤ p.desc.wbanks.length * weightBankBytes →
        issued (.strmInW a d tl e) .strmInW)) ∧
    (2 ^ 32 ≤ n → exec (.cpyS2s a d tl e) s = c.trapOffset s 5 5 0 2)

/-- With no graph running, gd free, the four registers full and not poisoned, and the check of the command passed on the issued
view of slots, rows and scale sets (mxCheck): MLDB, MLDB.T, MMA, MMAT, MDRN, MCLR, MSCL and MZB each leave their command
waiting for its append on tl8, gd pending, and go on. While the graph sequencer runs each of the eight waits in place. For MCLR and MZB the
conditions are written out: row or slot range inside the engine, no reserved bit, the other words 0, and for MZB a known
operand format. -/
def Obligations.MatrixCommandsIssue : Prop :=
  ∀ (s : State) (c : Cur) (a d : Reg) (e : Bool) (q : BitVec 2), s.Issues c →
    c.task.regs.Free d → c.task.regs.Full a → c.task.regs.Full (a + 1) → c.task.regs.Full (a + 2) → c.task.regs.Full (a + 3) →
    c.task.regs.bad a = false → c.task.regs.bad (a + 1) = false → c.task.regs.bad (a + 2) = false →
    c.task.regs.bad (a + 3) = false → a.toNat ≤ 60 →
    let w0 := c.task.regs.val a
    let w1 := c.task.regs.val (a + 1)
    let w2 := c.task.regs.val (a + 2)
    let w3 := c.task.regs.val (a + 3)
    let ok := fun kind (x : BitVec 3) => mxCheck (c.mxEnv s) kind x (s.loadCode c w0 w1) w0 w1 w2 w3 = none
    let issued := fun i kind x => c.issued s (exec i s) a d 8 kind x
    (c.task.gsq.running = true → exec (.mldb a d e) s = .next s ∧ exec (.mldbT a d e) s = .next s ∧ exec (.mma a d e q) s = .next s ∧
      exec (.mmat a d e q) s = .next s ∧ exec (.mdrn a d e) s = .next s ∧ exec (.mclr a d e) s = .next s ∧
      exec (.mscl a d e) s = .next s ∧ exec (.mzb a d e) s = .next s) ∧
    (c.task.gsq.running = false →
      (ok .mldb 0 → issued (.mldb a d e) .mldb 0) ∧ (ok .mldbT 0 → issued (.mldbT a d e) .mldbT 0) ∧
      (ok .mma (q.setWidth 3) → issued (.mma a d e q) .mma (q.setWidth 3)) ∧
      (ok .mmat (q.setWidth 3) → issued (.mmat a d e q) .mmat (q.setWidth 3)) ∧
      (ok .mdrn 0 → issued (.mdrn a d e) .mdrn 0) ∧ (ok .mscl 0 → issued (.mscl a d e) .mscl 0) ∧
      (w1 = 0 → w2 = 0 → w3 = 0 →
        (bitsOf w0.toNat 15 9 = 0 → bitsOf w0.toNat 63 26 = 0 → bitsOf w0.toNat 8 0 + bitsOf w0.toNat 25 16 + 1 ≤ 512 →
          issued (.mclr a d e) .mclr 0) ∧
        (bitAt w0.toNat 7 = false → bitsOf w0.toNat 19 15 = 0 → bitsOf w0.toNat 63 25 = 0 →
          bitsOf w0.toNat 6 0 + bitsOf w0.toNat 14 8 + 1 ≤ 128 → operandOk (bitsOf w0.toNat 23 20) (bitAt w0.toNat 24) = true →
          issued (.mzb a d e) .mzb 0)))

/-- When the first command that waits finds room in its chain (fewer than 64 commands), and for a STRM.OUT no token stands at its
port, ENG_COMMAND_APPEND puts it at the end of the chain with number issued + 1, counts it as issued, takes it off the
waiting ones, and every fill of its destination that waits for an append takes that number. Counter, registers and memories
stay. -/
def Obligations.AppendNumbersTheCommand : Prop :=
  ∀ (s : State) (c : Cur) (x : Append) (xs : List Append), s.Issues c → c.task.appends = x :: xs →
    (c.task.timeline x.tl).cmds.length < 64 →
    (x.cmd.kind.isOut = true → (c.task.snk (BitVec.ofNat 4 (x.cmd.w2.toNat % 16))).fifo = []) →
    let t0 := c.task.timeline x.tl
    ∃ tk : Task, exec .engCommandAppend s = .next (c.put s tk) ∧ tk.appends = xs ∧ tk.regs = c.task.regs ∧
      (tk.timeline x.tl).issued = t0.issued + 1 ∧ (tk.timeline x.tl).count = t0.count ∧
      (tk.timeline x.tl).cmds = t0.cmds ++ [{ x.cmd with num := (t0.issued + 1).toNat }] ∧
      (∀ n, n ≠ x.tl → tk.timeline n = c.task.timeline n) ∧
      tk.fills = c.task.fills.map (fun f => if f.rd = x.rd ∧ f.src = .append then { f with src := .value (t0.issued + 1) false } else f) ∧
      tk.spad = c.task.spad ∧ tk.fi = c.task.fi ∧ tk.fo = c.task.fo ∧ tk.mxe = c.task.mxe

/-- With gd free: MCHK writes the error count (saturated at 0xFFFF) above the rerun count (saturated at 2^32 - 1), with bit 48
set when a row holds a saturated entry; MSIG writes SIG. With ga full and not poisoned, GSQ writes 1 to gd while the
sequencer runs, and else writes 0 and starts it at the section address g[a], at its first tile and node; an address of 0
starts nothing. -/
def Obligations.MatrixStatusAndSequencerStart : Prop :=
  ∀ (s : State) (c : Cur) (d a : Reg) (e : Bool), s.Issues c → c.task.regs.Free d →
    let x := c.task.mxe
    (∃ v : Word, exec (.mchk d) s = c.writes s 4 d v false ∧ v.toNat % 2 ^ 32 = min x.rerun (2 ^ 32 - 1) ∧
      v.toNat / 2 ^ 32 % 2 ^ 16 = min x.err 0xFFFF ∧ v.toNat < 2 ^ 49 ∧
      (v.getLsbD 48 = true ↔ ∃ r ∈ x.rows, true ∈ r.2.sat)) ∧
    exec (.msig d) s = c.writes s 4 d x.sig false ∧
    (c.task.regs.Full a → c.task.regs.bad a = false →
      (c.task.gsq.running = true → exec (.gsq d a e) s = c.writes s 4 d 1 false) ∧
      (c.task.gsq.running = false → ∃ tk : Task, exec (.gsq d a e) s = .next (c.put s tk) ∧
        tk.regs = (c.task.regs.write d 0 false).advance 4 ∧ tk.gsq.sect = c.task.regs.val a ∧ tk.gsq.tile = 0 ∧ tk.gsq.node = 0 ∧
        (tk.gsq.running = true ↔ c.task.regs.val a ≠ 0) ∧ tk.mxe = x ∧ tk.tl = c.task.tl))

/-- THST writes state, active plane, filled planes, rounds and the accumulators' flags. THWT waits while the thicket is LOADING
or RUNNING. ACZ clears an accumulator; ACRD leaves gd pending with two lanes and advances the cursor by one modulo 8; STK
leaves gd pending on its port. MRK puts a CKPT behind the injections of every source port of the filled planes of a running, unmarked
thicket, and leaves every other port. CFG of a
valid block, none of its bytes poisoned, whose cells nothing holds loads it at a thicket that is IDLE or COMPLETE, CFG.KILL at any: the thicket is LOADING
with the block's place and size, takes the next number of its counter, and gd receives it. CFSW of a valid block starts to
fill an inactive plane. -/
def Obligations.FabricControlResults : Prop :=
  ∀ (s : State) (c : Cur) (d a : Reg) (e : Bool) (t n : BitVec 2) (k : BitVec 4), s.Issues c →
    let r := c.task.regs
    let x := c.task.th t
    let tl : BitVec 4 := 10 + t.setWidth 4
    let off := (r.val a).toNat
    let b := readBlock c.task.prog off
    let loads := fun (o : Out) => Completes o fun u => s.SameMemory u ∧ ∃ c' : Cur, u.cur = some c' ∧
      (c'.task.th t).st = .loading ∧ (c'.task.th t).x0 = b.x0 ∧ (c'.task.th t).y0 = b.y0 ∧ (c'.task.th t).w = b.w ∧
      (c'.task.th t).h = b.h ∧ (c'.task.th t).num = ((c.task.timeline tl).issued + 1).toNat ∧
      (c'.task.timeline tl).issued = (c.task.timeline tl).issued + 1 ∧
      c'.task.regs = (r.write d ((c.task.timeline tl).issued + 1) false).advance 4
    let two : Word := ((c.task.fa.get k.toFin).lanes.getD (2 * (c.task.fa.get k.toFin).cursor + 1) 0) ++
      ((c.task.fa.get k.toFin).lanes.getD (2 * (c.task.fa.get k.toFin).cursor) 0)
    (r.Free d →
      (∃ v : Word, exec (.thst d t) s = c.writes s 4 d v false ∧
        v.toNat % 64 = (match x.st with | .idle => 0 | .loading => 1 | .running => 2 | .complete => 3 | .saved => 4) ∧
        v.toNat / 64 % 4 = x.active.toNat ∧ v.toNat / 2 ^ 8 % 16 = x.filled.toNat ∧ v.toNat / 2 ^ 16 % 2 ^ 16 = x.rounds % 2 ^ 16 ∧
        ∀ j : BitVec 4, v.getLsbD (32 + j.toNat) = (c.task.fa.get j.toFin).sat) ∧
      (∃ tk : Task, exec (.acrd d k) s = .next (c.put s tk) ∧ tk.regs = (r.mark d .pending).advance 4 ∧
        (tk.fa.get k.toFin).cursor = ((c.task.fa.get k.toFin).cursor + 1) % 8 ∧
        (tk.fa.get k.toFin).lanes = (c.task.fa.get k.toFin).lanes ∧
        tk.fills = c.task.fills ++ if d = 0 then [] else [{ rd := d, src := .value two (c.task.fa.get k.toFin).poison }]) ∧
      (∃ tk : Task, exec (.stk d k) s = .next (c.put s tk) ∧ tk.regs = (r.mark d .pending).advance 4 ∧
        tk.fills = c.task.fills ++ [{ rd := d, src := .stk k }] ∧ tk.fo = c.task.fo)) ∧
    ((x.st = .loading ∨ x.st = .running) → exec (.thwt t) s = .next s) ∧
    ((x.st = .idle ∨ x.st = .complete ∨ x.st = .saved) → exec (.thwt t) s = c.passes s) ∧
    (∃ tk : Task, exec (.acz k) s = .next (c.put s tk) ∧ tk.regs = r.advance 4 ∧ tk.fa.get k.toFin = Acc.start ∧
      ∀ j, j ≠ k → tk.fa.get j.toFin = c.task.fa.get j.toFin) ∧
    ((x.st ≠ .running ∨ x.marking = true) → exec (.mrk t) s = c.passes s) ∧
    (x.st = .running → x.marking = false → ∃ tk : Task, exec (.mrk t) s = .next (c.put s tk) ∧ tk.regs = r.advance 4 ∧
      (tk.th t).marking = true ∧ ∀ j : BitVec 4,
        (j.toNat ∈ x.markPorts → (tk.src j).inject = (c.task.src j).inject ++ [(t.toNat, controlToken .ckpt 0)]) ∧
        (j.toNat ∉ x.markPorts → tk.src j = c.task.src j)) ∧
    (∀ ps, r.Free d → r.Full a → r.bad a = false → off % 16 = 0 → c.task.progBad off (max 16 b.len) = false →
      validate b (c.cfgEnv s t none b.x0 b.y0 (c.task.takenOver t b.cells) []) off c.regionSize = .ok ps →
      b.cells.any (c.cfgEnv s t none b.x0 b.y0 (c.task.takenOver t b.cells) []).held = false →
      ((x.st = .idle ∨ x.st = .complete) → loads (exec (.cfg d a e t) s)) ∧ loads (exec (.cfgKill d a e t) s)) ∧
    (∀ ps, r.Full a → r.bad a = false → x.st ≠ .idle → x.st ≠ .saved → n ≠ x.active → x.loading = none → off % 16 = 0 → b.w = x.w →
      b.h = x.h → c.task.progBad off (max 16 b.len) = false → validate b (c.cfgEnv s t (some n.toNat) x.x0 x.y0 [] (x.placed n.toNat)) off c.regionSize = .ok ps →
      ∃ tk : Task, exec (.cfsw a e n t) s = .next (c.put s tk) ∧ tk.regs = r.advance 4 ∧
        ∃ z, (tk.th t).loading = some (n, z) ∧ z.1 = ps.map fun y => (y.key, y.pat))

/-- SYNC_WORD_ARRIVAL for an unstalled CPY at the head of its context: the bytes up to the destination's next 64-byte boundary are copied
and the position advances. CPY.S2S (not over itself) copies scratchpad bytes; CPY.G2S writes into the scratchpad what the member sees of a
page, CPY.S2G makes scratchpad bytes versions of the command's segment, with their poison, and CPY.G2G does so with what the member sees,
where the formats ask for no conversion: each global range in one page without units that the caches hold, a global source flit within one
line. A sync word that the command names, outside the scratchpad bytes written, takes them as one arrival (syncStep: COUNT rises, and at
TARGET wraps into GEN).
COPY_COMMAND_COMPLETE at a command with every byte landed: it leaves the chain and the counter rises by one when the number
is the counter's next; a memory counter it names, on a page that it may write, is one greater on committed memory when the
destination is not global, log space is at hand and the count is not 0, and the first write of the interval to the line of a tracked page is
logged. PAGE_WALK for a sprig keeps the entry that a walk finds in the
sprig's cache, so that its accesses use it. -/
def Obligations.CopyEvents : Prop :=
  (∀ (s : State) (c : Cur) (t : BitVec 4) (x : Cmd) (rest : List Cmd), s.Issues c → (c.task.timeline t).cmds = x :: rest →
    (∀ y ∈ rest, y.num ≠ x.num) → (x.cancelled = false → s.debugHeld c.team.vf = false) →
    let cv := c.team.carve
    let dst := x.w1.toNat + x.pos
    let src := x.w0.toNat + x.pos
    let n := min (x.w2.toNat % 2 ^ 32 - x.pos) (64 - dst % 64)
    let count := x.w2.toNat % 2 ^ 32
    let vf := c.team.vf
    let via := c.task.ctxVia t
    let moves := fun (y : Cmd) (f : Cur → Prop) => Completes (exec (.syncWordArrival t) s) fun u => s.SameMemory u ∧
      ∃ c' : Cur, u.cur = some c' ∧ c'.task.regs = c.task.regs ∧ (c'.task.timeline t).cmds = y :: rest ∧ f c'
    let lands := fun (b : Nat → Byte) (c' : Cur) =>
      (bitAt x.w3.toNat 0 = true → (∀ i, i < n → c'.task.spadRead cv (dst + i) = b i) ∧
        ∀ a, a < dst ∨ dst + n ≤ a → c'.task.spadRead cv a = c.task.spadRead cv a) ∧
      (bitAt x.w3.toNat 0 = false →
        let w := bitsOf x.w3.toNat 21 4 * 16
        let old := c.task.syncFields cv w
        (w + 16 ≤ dst ∨ dst + n ≤ w) →
          c'.task.syncFields cv w = syncStep (c.task.spadLE cv w 4) (old.1) (old.2.1) (old.2.2) n ∧
          ∀ i, i < n → c'.task.spadRead cv (dst + i) = b i)
    (x.stall = none → x.cancelled = false → x.pos < count →
      (x.kind = .cpyS2s → x.overlaps = false →
        moves { x with pos := x.pos + n } (lands fun i => c.task.spadRead cv (src + i))) ∧
      (∀ a : TlbEntry, s.plainRange vf via a x.w0.toNat count → src % 64 + n ≤ 64 →
        s.markWait c.team c.mem x.seg (a.pa src) n = false → s.uninjected vf →
        let seen := s.viewBytes c.team c.mem (a.pa src) n
        (x.kind = .cpyG2s → moves { x with pos := x.pos + n } (lands fun i => seen.1.getD i 0)) ∧
        ∀ b : TlbEntry, s.plainRange vf via b x.w1.toNat count → b.writable = true → x.acked = x.pos →
          (a.fmt = b.fmt ∨ a.fmt = 15 ∨ b.fmt = 15) → count % max 1 (fmtWidth a.fmt / 8) = 0 → count % max 1 (fmtWidth b.fmt / 8) = 0 →
          (let s1 := (s.segRead c.tid c.mem x.seg a src n).1
            ∀ tm, mapGet c.tid s1.teams = some tm → s1.StoreFits c.tid c.mem tm x.seg dst (b.pa dst) seen.1 seen.2) →
          x.kind = .cpyG2g → moves { x with pos := x.pos + n, acked := x.pos + n } fun c' => c.Stores c' x.seg (b.pa dst) seen.1 seen.2) ∧
      ∀ b : TlbEntry, s.plainRange vf via b x.w1.toNat count → b.writable = true → x.acked = x.pos → x.kind = .cpyS2g →
        let bs := c.task.spadBytes cv src n
        s.StoreFits c.tid c.mem c.team x.seg dst (b.pa dst) bs.1 bs.2 →
        moves { x with pos := x.pos + n, acked := x.pos + n } fun c' => c.Stores c' x.seg (b.pa dst) bs.1 bs.2) ∧
    (x.kind.isCpy = true → x.cancelled = false → x.w2.toNat % 2 ^ 32 ≤ x.pos →
      (bitsOf x.w3.toNat 63 22 = 0 → Completes (exec (.copyCommandComplete t) s) fun u => s.SameMemory u ∧
        ∃ c' : Cur, u.cur = some c' ∧ (c'.task.timeline t).cmds = rest ∧
          (x.num = (c.task.timeline t).count.toNat + 1 → (c.task.timeline t).done = [] →
            (c'.task.timeline t).count = (c.task.timeline t).count + 1)) ∧
      (∀ pg, bitsOf x.w3.toNat 63 22 ≠ 0 → x.kind.globalDst = false → x.w2.toNat % 2 ^ 32 ≠ 0 → x.stall = none →
        let va := bitsOf x.w3.toNat 63 22 * 128
        let pa := pg.pa va
        s.lookup vf va via = some pg → pg.kind = 0 → pg.writable = true → s.stalled c.team.vf pa pg.tracked = false →
        Completes (exec (.copyCommandComplete t) s) fun u => s.SameMemoryBut u pa 8 ∧
          memReadLE u.mem pa 8 = (s.pageLE pg va 8 + 1) % 2 ^ 64 ∧ s.Logs u vf pa pg.tracked ∧
          ∃ c' : Cur, u.cur = some c' ∧ (c'.task.timeline t).cmds = rest))) ∧
  ∀ (s : State) (vf : BitVec 6) (miss : Miss) (wr : Bool) (p : Part) (e : TlbEntry), s.part vf.toNat = some p →
    walk s.mem p.regs.ptroot miss.va.toNat = some e → (wr = true → e.writable = true) → p.cached [miss.sprig.toNat] miss.va.toNat = none →
    Completes (exec (.pageWalk vf miss wr) s) fun u => s.SameMemory u ∧
      u.lookup vf.toNat miss.va.toNat [miss.sprig.toNat] = some e ∧
      ∃ p', u.part vf.toNat = some p' ∧ (miss.sprig.toNat, e) ∈ p'.tlb

/-- GTX_COMPLETE for an unstalled transfer at the head of its context that names no sync word and no counter: it starts, a global
destination when the page of every destination point is held in the caches, may be written, has no units and the transfer's format or RAW;
then it reads its source region one byte after another; then each destination point takes its value, in the scratchpad or as a version of
the command's segment, or stays where SKIP leaves it; and with every point done the command leaves the chain. GTH_REPLY, when every index is
clean and every element can be read: the elements' bytes stand at its destination offset in order and the command leaves the chain.
STRM_IN_COMPLETE and STRM_OUT_COMPLETE, when the port's current command has met end-of-stream and nothing of it waits: the command leaves
the chain of tl14. PX_FLIT_LAND for an unstalled PXST or PXCP at the head of tl9 that names no sync word, to a member in no swap: the bytes
up to the next 64-byte boundary of the receiver's bank, of PXCP's those that can be read (in one page without units that the caches hold,
those that the member sees), have arrived, and the position advances by them. PX_ACK advances the acknowledged bytes by one flit while some
have arrived and are not acknowledged; once all are, and when it names no memory counter, the command leaves the chain of tl9 and its bytes
stand in the receiver's shadow bank. No committed memory changes. That a command goes on in such steps is the model's choice (log 67). -/
def Obligations.TransferStreamAndExchangeEvents : Prop :=
  (∀ (s : State) (c : Cur) (x : Cmd) (n : BitVec 4) (rest : List Cmd), s.Issues c → s.debugHeld c.team.vf = false →
    let cv := c.team.carve
    let quiet := bitAt x.w3.toNat 0 = true ∧ bitsOf x.w3.toNat 63 22 = 0
    let gone := fun (t : BitVec 4) (c' : Cur) => (c'.task.timeline t).cmds = (c.task.timeline t).cmds.filter fun y => y.num ≠ x.num
    (∀ (t : BitVec 4) (w : StencilTable), (c.task.timeline t).cmds = x :: rest → (∀ y ∈ rest, y.num ≠ x.num) → x.kind = .gtx →
      x.stall = none → x.cancelled = false → x.tab = some w → quiet →
      let g := readGrid x.buf
      let vf := c.team.vf
      let via := c.task.ctxVia t
      let span := gridSpan g.sn g.ws g.sp1 g.sp2
      let point := g.pointAt x.pos
      let at_ := g.dstAt point
      let goes := fun (y : Cmd) (f : Cur → Prop) => Completes (exec (.gtxComplete t) s) fun u => s.SameMemory u ∧ ∃ c' : Cur,
        u.cur = some c' ∧ (c'.task.timeline t).cmds = y :: rest ∧ c'.task.regs = c.task.regs ∧ f c'
      let sameSpad := fun (c' : Cur) => ∀ a, c'.task.spadRead cv a = c.task.spadRead cv a
      let same := fun (c' : Cur) => sameSpad c' ∧ ∀ q, c'.team.seg q = c.team.seg q
      (x.pos < g.count → x.started = false →
        (g.global = true → ∀ k, k < g.count → ∃ e : TlbEntry, s.plainRange vf via e (g.dstAt (g.pointAt k)) 1 ∧ e.writable = true ∧
          (e.fmt = g.dfmt ∨ e.fmt = 15)) → goes { x with started := true } same) ∧
      (x.pos < g.count → x.started = true → x.src.length < span →
        let a := g.sbase + x.src.length
        goes { x with src := x.src ++ [(c.task.spadRead cv a, c.task.poisonS.contains (c.task.spadKey cv a))] } same) ∧
      (x.pos < g.count → x.started = true → span ≤ x.src.length →
        (g.value w x.src point = none → goes { x with pos := x.pos + 1 } same) ∧
        ∀ bs bad, g.value w x.src point = some (bs, bad) →
          (g.global = false → goes { x with pos := x.pos + 1 } fun c' => (∀ q, c'.team.seg q = c.team.seg q) ∧
            (∀ i, i < bs.length → c'.task.spadRead cv (at_ + i) = bs.getD i 0) ∧
            ∀ a, a < at_ ∨ at_ + bs.length ≤ a → c'.task.spadRead cv a = c.task.spadRead cv a) ∧
          ∀ e : TlbEntry, g.global = true → s.plainRange vf via e at_ (max 1 bs.length) → e.writable = true →
            s.StoreFits c.tid c.mem c.team x.seg at_ (e.pa at_) bs bad →
            goes { x with pos := x.pos + 1 } fun c' => sameSpad c' ∧ c.Stores c' x.seg (e.pa at_) bs bad) ∧
      (g.count ≤ x.pos → Completes (exec (.gtxComplete t) s) fun u => s.SameMemory u ∧ ∃ c' : Cur, u.cur = some c' ∧ gone t c' ∧
        same c')) ∧
    (∀ (t : BitVec 4) (s1 : State) (bs : List Byte) (bad : Bool), (c.task.timeline t).cmds = x :: rest → x.kind = .gth →
      x.stall = none → x.cancelled = false → x.started = false →
      (c.task.spadBytes cv x.w1.toNat (4 * gthCount x.w2)).2 = false → quiet →
      s.gthRead c.tid c.mem c.team.vf t x (tabulate (gthCount x.w2) fun i => (x.w0.toNat + gthSize x.w2 *
        leNat (((c.task.spadBytes cv x.w1.toNat (4 * gthCount x.w2)).1.drop (4 * i)).take 4)) % 2 ^ 64) = .ok s1 bs bad →
      Completes (exec (.gthReply t) s) fun u => s.SameMemory u ∧ ∃ c' : Cur, u.cur = some c' ∧ gone t c' ∧
        ∀ i, i < bs.length → c'.task.spadRead cv (bitsOf x.w2.toNat 21 0 + i) = bs.getD i 0) ∧
    (c.task.portCmd false n.toNat = some x → x.acked ≠ 0 → c.task.portHead n = none → (∀ h ∈ (c.task.src n).phases, h.2.back = 0) →
      Completes (exec (.strmInComplete n) s) fun u => s.SameMemory u ∧ ∃ c' : Cur, u.cur = some c' ∧ gone 14 c' ∧
        c'.task.regs = c.task.regs) ∧
    (c.task.portCmd true n.toNat = some x → x.acked ≠ 0 → (c.task.snk n).fifo = [] →
      Completes (exec (.strmOutComplete n) s) fun u => s.SameMemory u ∧ ∃ c' : Cur, u.cur = some c' ∧ gone 14 c' ∧
        c'.task.regs = c.task.regs)) ∧
  ∀ (s : State) (c : Cur) (x : Cmd) (rest : List Cmd) (old : Task), s.Issues c → (c.task.timeline 9).cmds = x :: rest →
    (∀ y ∈ rest, y.num ≠ x.num) → x.stall = none → x.cancelled = false → s.debugHeld c.team.vf = false →
    let count := x.w2.toNat % 2 ^ 32
    let flit := fun (p : Nat) => min (count - p) (64 - (bitsOf x.w1.toNat 21 0 + p) % 64)
    let src := x.w0.toNat + x.pos
    let r := bitsOf x.w1.toNat 53 48
    let mine := fun (y : PxByte) => y.sender = c.mem ∧ y.num = x.num
    let lands := fun (b : List Byte × Bool) => Completes (exec .pxFlitLand s) fun u => s.SameMemory u ∧ ∃ tm tk c',
      mapGet c.tid u.teams = some tm ∧ tm.members[r]? = some tk ∧ u.cur = some c' ∧ c'.task.regs = c.task.regs ∧
      (c'.task.timeline 9).cmds = { x with pos := x.pos + flit x.pos } :: rest ∧
      tk.px = old.px ++ tabulate b.1.length fun i =>
        { sender := c.mem, num := x.num, off := bitsOf x.w1.toNat 21 0 + x.pos + i, val := b.1.getD i 0, bad := b.2, hit := false }
    c.team.members[r]? = some old →
    (x.kind = .pxst → x.pos < count → bitAt x.w3.toNat 0 = true → c.team.swapping r = false →
      lands (c.task.spadBytes c.team.carve src (flit x.pos))) ∧
    (∀ s1 bs bad, x.kind = .pxcp → x.pos < count → bitAt x.w3.toNat 0 = true → c.team.swapping r = false →
      s.pxcpRead c.tid c.mem c.team.vf x (flit x.pos) = .ok s1 bs bad → lands (bs, bad)) ∧
    (∀ e : TlbEntry, x.kind = .pxcp → x.pos < count → s.plainRange c.team.vf (c.task.ctxVia 9) e x.w0.toNat count →
      src % 64 + flit x.pos ≤ 64 → s.markWait c.team c.mem x.seg (e.pa src) (flit x.pos) = false → s.uninjected c.team.vf →
      let seen := s.viewBytes c.team c.mem (e.pa src) (flit x.pos)
      ∃ s1, s.pxcpRead c.tid c.mem c.team.vf x (flit x.pos) = .ok s1 seen.1 seen.2) ∧
    ((x.kind = .pxst ∨ x.kind = .pxcp) →
      (x.acked < x.pos → x.acked < count → Completes (exec .pxAck s) fun u => s.SameMemory u ∧ ∃ c' : Cur, u.cur = some c' ∧
        (c'.task.timeline 9).cmds = { x with acked := x.acked + flit x.acked } :: rest) ∧
      (count ≤ x.acked → bitsOf x.w3.toNat 63 22 = 0 → Completes (exec .pxAck s) fun u => s.SameMemory u ∧ ∃ tm tk c',
        mapGet c.tid u.teams = some tm ∧ tm.members[r]? = some tk ∧ u.cur = some c' ∧ (c'.task.timeline 9).cmds = rest ∧
        (∀ y ∈ tk.px, ¬mine y) ∧
        (∀ before b after, old.px = before ++ b :: after → mine b → b.hit = false → (∀ y ∈ after, mine y → y.off ≠ b.off) →
          memRead tk.shadow b.off = b.val) ∧
        ∀ a, (∀ y ∈ old.px, mine y → y.hit = false → y.off ≠ a) → memRead tk.shadow a = memRead old.shadow a))

/-- MXE_COMMAND_COMPLETE at an unstalled, live command with no section counter: MCLR clears its rows, MSCL sets its scale set from 128
scratchpad bytes, MZB makes its slots zero slots, MDRN closes its VALID rows and, without MX and with a pitch of at least a row, writes
each row's converted bytes at its pitch, an MMA with every tile done and no EOS to skip at its port changes no row, and a scratchpad or
weight-store load with every access done sets its slots; each leaves the chain of tl8, and rows and slots not named are as before.
MXE_TILE_EXECUTE of an MMA with A from scratchpad, VALID slots and rows and no upset of the unit whose checks pass: rows outside the tile
are as before (a first tile with CLR clears the command's rows), the position rises by one, and in a LINEAR run of a floating accumulator
each entry is the ascending fold of its products, each addition rounded. GSQ_APPEND, when its two reads are answered, not poisoned, and the node passes
its checks: the node's command joins tl8's chain with the next number. That a command goes on in such steps, and by
which event an error falsifies a tile, is the model's choice (log 67, log 70). -/
def Obligations.MatrixEvents : Prop :=
  ∀ (s : State) (c : Cur), s.Issues c → s.debugHeld c.team.vf = false →
    let m := c.task.mxe
    let cv := c.team.carve
    (∀ (x : Cmd) (rest : List Cmd), (c.task.timeline 8).cmds = x :: rest → (∀ y ∈ rest, y.num ≠ x.num) → x.cancelled = false →
      x.stall = none →
      (mapGet x.num c.task.gsq.adds = none →
        let done := fun (f : Task → Prop) => Completes (exec .mxeCommandComplete s) fun u => s.SameMemory u ∧ ∃ c' : Cur,
          u.cur = some c' ∧ (c'.task.timeline 8).cmds = rest ∧ c'.task.regs = c.task.regs ∧ f c'.task
        let rows := fun (tk : Task) (rs : List Nat) (f : Row → Row) => ∀ r, tk.mxe.row r = if r ∈ rs then f (m.row r) else m.row r
        let slots := fun (tk : Task) (ss : List Nat) (f : Nat → Slot) =>
          ∀ n, mapGet n tk.mxe.slots = if n ∈ ss then some (f (n - ss.headD 0)) else mapGet n m.slots
        (x.kind = .mclr → done fun tk => rows tk (span (drnRow x.w0) (drnM x.w0)) fun _ => Row.clear) ∧
        (x.kind = .mscl → done fun tk =>
          let bs := c.task.spadBytes cv x.w0.toNat 128
          ∃ z, (if bitAt x.w1.toNat 0 then tk.mxe.cs1 = some z ∧ tk.mxe.cs0 = m.cs0 else tk.mxe.cs0 = some z ∧ tk.mxe.cs1 = m.cs1) ∧
            z.poison = bs.2 ∧ ∀ n, n < 32 → z.vals.getD n 0 = BitVec.ofNat 32 (c.task.spadLE cv (x.w0.toNat + 4 * n) 4)) ∧
        (x.kind = .mzb → done fun tk => slots tk (span (mSlot x.w0) (mCnt x.w0)) fun _ => zeroSlot x.w0) ∧
        (x.kind = .mdrn → (∀ r ∈ span (drnRow x.w1) (drnM x.w1), (m.row r).valid = true) →
          let set := if bitAt x.w1.toNat 40 then m.cs1 else m.cs0
          (bitAt x.w1.toNat 39 = true → set ≠ none) → done fun tk =>
          rows tk (span (drnRow x.w1) (drnM x.w1)) Row.close ∧
          let n := 4 * fmtWidth (drnFmt x.w1)
          (bitAt x.w1.toNat 41 = false → n ≤ x.w2.toNat → ∀ i, i < drnM x.w1 → ∀ j, j < n →
            tk.spadRead cv (x.w0.toNat + i * x.w2.toNat + j) =
              (drnRowBytes x (m.row (drnRow x.w1 + i)).close (if bitAt x.w1.toNat 39 then set else none)).1.getD j 0)) ∧
        ((x.kind = .mma ∨ x.kind = .mmat) → x.tiles ≤ x.pos → (mmaPort x.w0 = false ∨ c.task.mxeSkip (mmaFo x) 0 = none) →
          done fun tk => rows tk [] id) ∧
        ((x.kind = .mldb ∨ x.kind = .mldbT) → ldbSpace x.w1 ≠ 0 → (ldbRuns x (ldbFmt x.w1) (ldbMx x.w1)).length ≤ x.pos →
          ldbTern x (ldbFmt x.w1) (x.buf.drop 1) = none → done fun tk =>
          slots tk (span (mSlot x.w1) (mCnt x.w1)) (ldbSlot x (ldbFmt x.w1) (ldbMx x.w1) (x.buf.drop 1) x.bad))) ∧
      ((x.kind = .mma ∨ x.kind = .mmat) → mmaPort x.w0 = false → x.pos < x.tiles → ∀ b : Slot,
        let it := ceilDiv (mmaM x.w1) 32
        let i := x.pos % it
        let rs := span (mmaRow x.w1) (mmaM x.w1)
        let k := passLen b.fmt
        let acc := mmaAcc x.w1
        let shape := if acc = 2 then 0 else x.q.toNat % 4
        let m0 := if x.pos = 0 && mmaClr x.w1 then m.clearRows rs else m
        let a := tabulate (tileRows (mmaM x.w1) i) fun r => c.task.aRow cv x k (32 * i + r) (x.pos / it)
        let trs := span (mmaRow x.w1 + 32 * i) a.length
        let before := trs.map fun r => (m0.row r).open_ shape acc
        let bv := tabulate k fun y => tabulate 32 fun n => b.value y n
        (∀ n ∈ span (mSlot x.w1) (mCnt x.w1), m.slot n ≠ none) → m.slot (mSlot x.w1 + x.pos / it) = some b →
        (∀ r ∈ rs, (m.row r).valid = true) → m.upset = 0 →
        tileOk (a.map (·.1)) bv before (tileAdd shape acc bv b.poison before a) (tileTol shape acc k) = true →
        Completes (exec .mxeTileExecute s) fun u => s.SameMemory u ∧ ∃ c' : Cur, u.cur = some c' ∧ c'.task.regs = c.task.regs ∧
          (∃ y, (c'.task.timeline 8).cmds = y :: rest ∧ y.pos = x.pos + 1 ∧ y.started = true) ∧
          (∀ r, r ∉ trs → c'.task.mxe.row r = m0.row r) ∧
          (shape = 0 → acc < 2 → ∀ r, r < a.length → (m0.row (mmaRow x.w1 + 32 * i + r)).vals.length = 32 → ∀ n, n < 32 →
            (c'.task.mxe.row (mmaRow x.w1 + 32 * i + r)).vals.getD n 0 =
              (List.range k).foldl (fun v y => accAdd (accFormat acc) v
                (numMul ((c.task.aRow cv x k (32 * i + r) (x.pos / it)).1.getD y (.fin false 0 0)) (b.value y n)))
                ((m0.row (mmaRow x.w1 + 32 * i + r)).vals.getD n 0)))) ∧
    ∀ (s1 s2 : State) (hb nb : List Byte) (h : Nat × Nat × Word × Word) (kind : CmdKind),
      let g := c.task.gsq
      let walker := Cmd.new .mclr 0 0 0 0 0 c.team.openSeq [] none
      let w := fun i => nodeWord nb g.tile i
      let q : BitVec 3 := BitVec.ofNat 3 (nb.getD 1 0).toNat
      g.running = true → (∀ p, s.part c.team.vf = some p → p.stalled = []) → (c.task.timeline 8).cmds.length < Config.chainSize →
      c.task.appends = [] → g.sect.toNat % 64 = 0 → s.engRead c.tid c.mem 8 walker g.sect.toNat 64 = .ok s1 hb false →
      sectionOf g.sect hb = some h →
      s1.engRead c.tid c.mem 8 walker ((g.sect.toNat + 64 * (g.node + 1)) % 2 ^ 64) 64 = .ok s2 nb false →
      nodeKind (nb.getD 0 0).toNat = some kind →
      (nb.getD 1 0).toNat < (if kind = .mma || kind = .mmat then 4 else 1) → leNat ((nb.drop 2).take 6) = 0 →
      mxCheck (c.mxEnv s2) kind q (s2.loadCode c (w 0) (w 1)) (w 0) (w 1) (w 2) (w 3) = none →
      Completes (exec .gsqAppend s) fun u => ∃ (c' : Cur) (y : Cmd), u.cur = some c' ∧ c'.task.regs = c.task.regs ∧
        (c'.task.timeline 8).cmds = (c.task.timeline 8).cmds ++ [y] ∧
        (c'.task.timeline 8).issued = (c.task.timeline 8).issued + 1 ∧ y.num = ((c.task.timeline 8).issued + 1).toNat ∧
        y.kind = kind ∧ y.q = q ∧ y.w0 = w 0 ∧ y.w1 = w 1 ∧ y.w2 = w 2 ∧ y.w3 = w 3

/-- In a LOADING thicket the load's end makes it RUNNING. In a moving one whose sink points have all counted EOS the phase's end
makes it COMPLETE and its number passes on the counter 10 + t; DISC then counts the tokens still inside it and in its edge ports, which is the model's reading
(log 25: R214 speaks of tokens that reach a completed thicket). A filled plane is written at every element where it is
inactive. A port between records that no debug stop holds injects a due ROUND, and a BAL once it
has delivered an interval's data tokens, noting its position under the number. The count of a thicket in which nothing moves, that
nothing holds back and that is not complete begins with the first such cycle, ends at a movement or a condition that holds it back, and at
65,536 cycles stops the thicket with REGION pending. A region error whose source ports hold their tokens, at a
balance point not yet replayed, restores every element's latch and corrects the launch; otherwise the thicket stops with
REGION pending and the launch is tainted. Once the deadline's cycles have passed since the markers entered, the thicket is
SAVED: at its checked point, or empty, with TIMEOUT pending for a save that the program asked for; a region error that is not answered yet
comes first. What numbers a BAL is the
model's choice (log 112). -/
def Obligations.RegionControllerEvents : Prop :=
  ∀ (s : State) (c : Cur) (t : BitVec 2), s.Issues c →
    let x := c.task.th t
    (x.st = .loading → c.Becomes s (exec (.thicketLoadComplete t) s) fun tk => (tk.th t).st = .running ∧ (tk.th t).loadEnd = s.clk ∧
      ∀ k e, x.elem k = some e → ∃ e', (tk.th t).elem k = some e' ∧ e'.pats = e.pats ∧ e'.own = e.own) ∧
    (x.moves = true → x.incomplete = 0 → c.Becomes s (exec (.thicketPhaseComplete t) s) fun tk => (tk.th t).st = .complete ∧
      (tk.th t).disc = x.disc + c.task.inThicket x ∧
      (x.num = (c.task.timeline (10 + t.setWidth 4)).count.toNat + 1 → (c.task.timeline (10 + t.setWidth 4)).done = [] →
        (tk.timeline (10 + t.setWidth 4)).count = (c.task.timeline (10 + t.setWidth 4)).count + 1)) ∧
    (∀ n pats noRound, x.loading = some (n, pats, noRound) → x.st ≠ .loading → x.st ≠ .saved →
      c.Becomes s (exec (.cfswPlaneFilled t) s) fun tk => (tk.th t).loading = none ∧ (tk.th t).filled.getLsbD n.toNat = true ∧
        ∀ k e, x.elem k = some e → ∃ e', (tk.th t).elem k = some e' ∧ e'.active = e.active ∧
          (e.active ≠ n → mapGet n.toNat e'.pats = some ((mapGet k pats).getD nonePattern)) ∧ (e.active = n → e' = e)) ∧
    (∀ n : BitVec 4, let h := (c.task.src n).phase t.toNat
      x.moves = true → n.toNat ∈ x.sources → h.eos = false → c.task.portHead n = none → (c.task.src n).inject = [] →
      s.portHeld c.team c.task n = false →
      (c.task.roundDue n t.toNat = true → h.tail = true → c.Becomes s (exec (.roundInject t n) s) fun tk =>
        (tk.src n).inject = [(t.toNat, controlToken .round 0)] ∧ (tk.src n).phases = (c.task.src n).phases) ∧
      (∀ i, x.interval = some i → i ≤ h.since → c.Becomes s (exec (.balInject t n) s) fun tk =>
        let h' := (tk.src n).phase t.toNat
        (tk.src n).inject = [(t.toNat, controlToken .bal 0)] ∧ h'.since = 0 ∧ h'.balSeq = c.task.balsPassed n t.toNat + 1 ∧
        mapGet h'.balSeq h'.posAt = some ((c.task.src n).positionOf t.toNat) ∧ h'.rounds = h.rounds ∧ h'.start = h.start)) ∧
    (x.st = .running → x.err = none → x.incomplete ≠ 0 → (x.stopped = false ∨ c.task.regs.handler = false) → c.task.causes = [] →
      s.debugHeld c.team.vf = false → c.task.countHeld t x = false →
      (x.stopped = true ∨ c.injects s t = false ∧ ∀ e ∈ x.elems, s.elemMoves c t e.1 e.2 = false) →
      (x.calm = none → c.Becomes s (exec (.quiesce t) s) fun tk => (tk.th t).calm = some s.clk ∧ (tk.th t).stopped = x.stopped ∧
        tk.causes = []) ∧
      ∀ since, x.calm = some since →
        ((s.clk - since).toNat < 65536 → exec (.quiesce t) s = .next s) ∧
        (65536 ≤ (s.clk - since).toNat → c.Becomes s (exec (.quiesce t) s) fun tk => (tk.th t).stopped = true ∧ (tk.th t).calm = none ∧
          tk.causes = [{ cause := 10, detail := BitVec.ofNat 16 (t.toNat * 2 ^ 14 + 1), taddr := 0,
                         tval := BitVec.ofNat 64 x.incomplete }])) ∧
    (∀ since, x.calm = some since → (c.task.countHeld t x = true ∨
        x.stopped = false ∧ (c.injects s t = true ∨ ∃ e ∈ x.elems, s.elemMoves c t e.1 e.2 = true)) →
      c.Becomes s (exec (.quiesce t) s) fun tk => (tk.th t).calm = none ∧ (tk.th t).stopped = x.stopped ∧ tk.causes = c.task.causes) ∧
    (∀ k imb, x.err = some (k, imb) → x.st = .running → x.stopped = false →
      (x.lastFix ≠ some x.checked → c.task.holdsSince t = true → (c.Becomes s (exec (.regionContainment t) s) fun tk =>
          (tk.th t).err = none ∧ (tk.th t).lastFix = some x.checked ∧
          ∀ q e, x.elem q = some e → (tk.th t).elem q = some (e.restore x.checked)) ∧
        Completes (exec (.regionContainment t) s) fun u => ∀ l, s.launchOf c.team = some l →
          mapGet c.team.launch u.launches = some { l with corrected := true }) ∧
      (x.lastFix = some x.checked ∨ c.task.holdsSince t = false → (c.Becomes s (exec (.regionContainment t) s) fun tk =>
          (tk.th t).stopped = true ∧ tk.causes = c.task.causes ++
            [regionCause t (if x.lastFix = some x.checked then 4 else if imb then 2 else 3) (x.errVal k imb)]) ∧
        Completes (exec (.regionContainment t) s) fun u => ∀ l, s.launchOf c.team = some l →
          mapGet c.team.launch u.launches = some { l with tainted := true })) ∧
    (x.err ≠ none → x.stopped = false → exec (.markerDeadlineExpire t) s = .next s) ∧
    (x.st = .running → x.marking = true → c.markerOver s = true → (x.err = none ∨ x.stopped = true) → c.Becomes s (exec (.markerDeadlineExpire t) s) fun tk => (tk.th t).st = .saved ∧
      (c.task.holdsSince t = true → (tk.th t).marking = false ∧
        ∀ q e, x.elem q = some e → (tk.th t).elem q = some (e.restore x.checked)) ∧
      (c.task.holdsSince t = false → (∀ q e, x.elem q = some e → (tk.th t).elem q = some e.cleared) ∧
        (tk.th t).disc = x.disc + c.task.inThicket x ∧
        (c.team.st = .running → (tk.th t).marking = false ∧ ∃ z : Cause, tk.causes = c.task.causes ++ [z] ∧ z.cause = 13 ∧
          z.detail = BitVec.ofNat 16 (t.toNat * 2 ^ 14 + 1) ∧ z.taddr = 0 ∧ z.tval = BitVec.ofNat 64 (c.task.inThicket x)) ∧
        (c.team.st ≠ .running → (tk.th t).marking = true ∧ tk.causes = c.task.causes)))

/-- At a moving, unsaved element that records nothing: LINK_REQUEST sends a request for an empty stream input, or for a delivery to the
accumulator that its oldest entry, else its active pattern, names; LINK_TOKEN_TRANSFER puts a recorded token, else the token that the
requested producer gives, into the empty latch, and delivers an entry to the accumulator it asked, each valid lane added; NON_DATA_ALIGN,
with one kind of ROUND, BAL or EOS at every aligned input, empties those latches and emits one token of the kind, to each side of FILT.
ELEMENT_CKPT_RECORD at a recording element takes an arriving token as channel state, or a CKPT into an empty latch, and ELEMENT_CKPT_SAVE
saves an element with its CKPT on every input, and the thicket once every element is done and no port or accumulator has its CKPT to take. TXQ_REPLY reads the
oldest unanswered request, and answered requests at the front leave. -/
def Obligations.LinkEvents : Prop :=
  ∀ (s : State) (c : Cur) (t : BitVec 2) (p : Place) (e : Elem), s.Issues c → (c.task.th t).elem (placeKey p) = some e →
    (c.task.th t).moves = true →
    let x := c.task.th t
    (e.recording x.marking = false → e.saved = false → pOpc e.pat ≠ 0 →
      (∀ i : BitVec 2, i ≠ 3 → streamSel (e.sel i.toNat) = true → (e.input i.toNat).latch = none →
        ((e.input i.toNat).chan = [] → (e.input i.toNat).req = false → c.Fires s (exec (.linkRequest t p i) s) t p e fun e' _ =>
          e' = e.modInput i.toNat fun n => { n with req := true }) ∧
        (∀ k ks, (e.input i.toNat).chan = k :: ks → c.Fires s (exec (.linkTokenTransfer t p i) s) t p e fun e' _ =>
          e' = e.modInput i.toNat fun n => { n with latch := some k, chan := ks }) ∧
        (∀ s1 k, (e.input i.toNat).chan = [] → (e.input i.toNat).req = true →
          s.supply c.tid c.mem t (placeKey p) i.toNat = .got s1 k → c.Fires s (exec (.linkTokenTransfer t p i) s) t p e fun e' _ =>
          (e'.input i.toNat).latch = some k ∧ (e'.input i.toNat).req = false)) ∧
      (∀ n, keyClass (placeKey p) = 0 → 16 ≤ n →
        (e.snkReq = [] → e.sinks.head? = some n → c.Fires s (exec (.linkRequest t p 3) s) t p e fun e' _ =>
          e' = { e with snkReq := [n] }) ∧
        (∀ x es, e.snkReq = [n] → e.giveSink n = some (x, es) → x.tok.kind = .data →
          c.Fires s (exec (.linkTokenTransfer t p 3) s) t p e fun e' tk => e'.out = es ∧ e'.snkReq = [] ∧
          let f : BitVec 4 := BitVec.ofNat 4 n
          ∀ i, i < 16 → (tk.fa.get f.toFin).lanes.getD i 0 =
            if x.tok.vmask.getLsbD i then (accLane (pFmt x.pat) ((c.task.fa.get f.toFin).lanes.getD i 0).toNat (x.tok.val 32 i)).1
            else (c.task.fa.get f.toFin).lanes.getD i 0))) ∧
    (e.recording x.marking = false → e.saved = false → pOpc e.pat ≠ 0 → e.fault = none → e.pend = [] → e.pendPlane = none →
      (terminal e.pat = true ∨ e.room (placeKey p) = true) → holdsBack e.pat e = false → wrongKind e.pat e = false →
      (∀ i ∈ streams e.pat, heldInput e.pat i = true → ∀ y, (e.input i).latch = some y → y.kind.dataClass = true) →
      ∀ k ks, e.marks e.pat = some (k :: ks) → (k.kind = .eos ∨ k.kind = .round ∨ k.kind = .bal) → (∀ y ∈ ks, y.kind = k.kind) →
      cntFails e.pat e k = false → c.Becomes s (exec (.nonDataAlign t p) s) fun tk => ∃ e', (tk.th t).elem (placeKey p) = some e' ∧
        (∀ i ∈ alignedInputs e.pat, (e'.input i).latch = none) ∧
        (e.own = .none → terminal e.pat = false →
          let mark := controlToken k.kind k.sbx.toNat
          e.EmitsTo e' [mark] (if pOpc e.pat = 0x22 then some mark else none)) ∧
        e'.rounds = e.rounds + b2n (k.kind = .round) ∧ e'.balSeq = e.balSeq + b2n (k.kind = .bal)) ∧
    (∀ (i : BitVec 2) (s1 : State) (k : Token), e.recording x.marking = true → (e.input i.toNat).ckpt = false →
      (e.input i.toNat).req = true → streamSel (e.sel i.toNat) = true →
      s.supply c.tid c.mem t (placeKey p) i.toNat = .got s1 k → c.Fires s (exec (.elementCkptRecord t p i) s) t p e fun e' _ =>
        (e'.input i.toNat).req = false ∧
        (if k.kind = .ckpt ∧ (e.input i.toNat).latch = none ∧ (e.input i.toNat).chan = [] then (e'.input i.toNat).latch = some k
         else (e'.input i.toNat).chan = (e.input i.toNat).chan ++ [k])) ∧
    (x.marking = true → e.saved = false → e.ckptReady = true → e.pendPlane = none →
      c.Fires s (exec (.elementCkptSave t p) s) t p e fun e' tk => e'.saved = true ∧ e'.own = e.own ∧ e'.bank = e.bank ∧
        ((tk.th t).elems.all (fun y => y.2.ckptDone && !tk.ckptOwed y.1 y.2) = true → (tk.th t).st = .saved)) ∧
    ∀ (n : BitVec 2) (reqs : List (Token × Option Token)) (k : Token) (s1 : State) (bs : List Byte) (bad : Bool),
      placeKey p = 80 + n.toNat → e.own = .txq reqs → reqs.find? (fun q => q.2.isNone) = some (k, none) → e.saved = false →
      e.recording x.marking = false → k.poison = false → e.pendPlane = none →
      (∀ q, s.part c.team.vf = some q → q.stalled = []) →
      s.txqReply c.tid c.mem (t.toNat * 4 + n.toNat) c.team.openSeq.toNat (2 ^ (pAux e.pat % 4)) k = .ok s1 bs bad →
      c.Becomes s (exec (.txqReply t n) s) fun tk => ∃ e', (tk.th t).elem (placeKey p) = some e' ∧
        e'.own = .txq ((answerFirst { k with sbx := 0, payload := BitVec.ofNat 512 (leNat bs), poison := bad } reqs).dropWhile fun q => q.2.isSome)

/-- For VADD, VSUB, VMUL, VFMA, VFMS, VMIN, VMAX, VABS, VNEG and VCLP in the pattern's format (floating operands exactly, then
rounded once; INT32 through integers, wrapped, or saturated under MODE 1), VAND, VOR, VXOR, VSHL, VSHR and VSAR on 32-bit
lanes with shift counts mod 32, VCMP (all ones or zero) and VSEL (b where a is not zero, else c): an element that may fire
with its operands consumes its stream inputs, and emits one DATA token with a's HEAD, TAIL and RMASK, whose valid lanes are
those valid in every connected operand and hold the result; invalid lanes hold zero. Registers and memory are as before. -/
def Obligations.ElementLaneResults : Prop :=
  ∀ (s : State) (c : Cur) (t : BitVec 2) (p : Place) (e : Elem) (x y z : Token), s.Issues c → c.Operands s p e .data x y z →
    let P := e.pat
    let g := pFmt P
    let lanes := fun (o : Out) (opc w : Nat) (f : Nat → Nat → Nat → Nat) => c.MayFire t p e opc →
      c.Fires s o t p e fun e' _ => e.ConsumesAll e' x ∧ ∃ r : Token, e.Emits e' [r] ∧ r.kind = .data ∧ r.head = x.head ∧
        r.tail = x.tail ∧ r.rmask = x.rmask ∧ r.Lanes w (maskOf P x y z) fun v => f (x.val w v) (y.val w v) (z.val w v)
    let value := fun (fl : Machine.Num → Machine.Num → Machine.Num → Machine.Num) (int : Int → Int → Int → Int) (u v w : Nat) =>
      let n := int (signedOf 32 u) (signedOf 32 v) (signedOf 32 w)
      if g = 10 then wrapOf 32 (if pMode P = 1 then satSigned 32 n else n)
      else roundNum g (pRm P) (pOvf P) (fl (decodeNum g u) (decodeNum g v) (decodeNum g w))
    let down := decide (pRm P = 3)
    lanes (exec (.vadd t p) s) 0x01 (fmtWidth g) (value (fun u v _ => numAdd down u v) fun u v _ => u + v) ∧
    lanes (exec (.vsub t p) s) 0x02 (fmtWidth g) (value (fun u v _ => numAdd down u (numNeg v)) fun u v _ => u - v) ∧
    lanes (exec (.vmul t p) s) 0x03 (fmtWidth g) (value (fun u v _ => numMul u v) fun u v _ => u * v) ∧
    lanes (exec (.vfma t p) s) 0x04 (fmtWidth g) (value (fun u v w => numAdd down (numMul u v) w) fun u v w => u * v + w) ∧
    lanes (exec (.vfms t p) s) 0x05 (fmtWidth g) (value (fun u v w => numAdd down (numMul u v) (numNeg w)) fun u v w => u * v - w) ∧
    lanes (exec (.vmin t p) s) 0x06 (fmtWidth g) (value (fun u v _ => numMin u v) fun u v _ => min u v) ∧
    lanes (exec (.vmax t p) s) 0x07 (fmtWidth g) (value (fun u v _ => numMax u v) fun u v _ => max u v) ∧
    lanes (exec (.vabs t p) s) 0x08 (fmtWidth g) (value (fun u _ _ => numAbs u) fun u _ _ => u.natAbs) ∧
    lanes (exec (.vneg t p) s) 0x09 (fmtWidth g) (value (fun u _ _ => numNeg u) fun u _ _ => -u) ∧
    lanes (exec (.vclp t p) s) 0x19 (fmtWidth g) (value (fun u v w => numMin (numMax u v) w) fun u v w => min (max u v) w) ∧
    lanes (exec (.vand t p) s) 0x0D 32 (fun u v _ => u &&& v) ∧
    lanes (exec (.vor t p) s) 0x0E 32 (fun u v _ => u ||| v) ∧
    lanes (exec (.vxor t p) s) 0x0F 32 (fun u v _ => u ^^^ v) ∧
    lanes (exec (.vshl t p) s) 0x10 32 (fun u v _ => u * 2 ^ (v % 32)) ∧
    lanes (exec (.vshr t p) s) 0x11 32 (fun u v _ => u / 2 ^ (v % 32)) ∧
    lanes (exec (.vsar t p) s) 0x12 32 (fun u v _ => wrapOf 32 (signedOf 32 u / 2 ^ (v % 32))) ∧
    lanes (exec (.vcmp t p) s) 0x13 (fmtWidth g) (fun u v _ => if vcmpCond g (pMode P) u v then 2 ^ fmtWidth g - 1 else 0) ∧
    lanes (exec (.vsel t p) s) 0x14 (fmtWidth g) (fun u v w => if u ≠ 0 then v else w)

/-- VCVT rounds each valid value once into the target format, laid out in order over as many tokens as it takes; VQNT (without
MX) divides it by the scale and VDQN multiplies by it, each rounded once; in MX, VQNT collects the values of a record and
emits its full or final groups. VLUT fills its table from 16-lane tokens of b and, once full, maps each valid lane of a
through it. VRED adds its tree result of a token to those before and emits them when they fill a token or the record ends.
VSCN emits the running result at each valid value, restarting at a record's head and at reset lanes, and keeps it. VRNG emits
16 bytes of SHAKE256 of key, counter and tail for each valid counter, in two tokens. That the results of VQNT and VDQN are laid out over
tokens as R198 lays out VCVT's, and how VQNT's MX groups gather and flush, is the model's reading (log 82). -/
def Obligations.ElementConversionResults : Prop :=
  ∀ (s : State) (c : Cur) (t : BitVec 2) (p : Place) (e : Elem) (x y z : Token), s.Issues c →
    let P := e.pat
    let g := pFmt P
    let w := fmtWidth g
    let d := pAux P % 16
    let n := 512 / w
    let fires := fun (o : Out) (opc : Nat) (post : Elem → Prop) => c.MayFire t p e opc → c.Operands s p e .data x y z →
      c.Fires s o t p e fun e' _ => e.ConsumesAll e' x ∧ post e'
    let laid := fun (f : Nat → Nat) (ok : Nat → Bool) (e' : Elem) => ∃ ts : List Token, e.Emits e' ts ∧
      ∀ i, i < valsPerToken g → x.ok w i = true → ok i = true → tokenVal ts (fmtWidth d) i = f i % 2 ^ fmtWidth d
    let scale := fun (i : Nat) => decodeNum 1 (if pMode P = 1 then y.val 32 (i * w / 32) else pK P % 2 ^ 32)
    let paired := fun (i : Nat) => decide (pMode P ≠ 1) || y.ok w i
    let mx := fun (i : Nat) => decodeMx g (x.sbx.toNat / 256 ^ (i / 32)) (x.val w i)
    fires (exec (.vcvt t p) s) 0x0A (laid (fun i =>
      if 6 ≤ g && g ≤ 8 then roundNum d (pRm P) (pOvf P) (mx i)
      else if g = d then convertNum g d (pRm P) (pOvf P) (x.val w i)
      else roundNum d (pRm P) (pOvf P) (decodeNum g (x.val w i))) fun _ => true) ∧
    (pMode P ≠ 2 → fires (exec (.vqnt t p) s) 0x0B
      (laid (fun i => roundDiv d (pRm P) (pOvf P) (decodeNum g (x.val w i)) (scale i)) paired)) ∧
    (pMode P = 2 → ∀ old h, (e.own = .vals old h ∨ e.own = .none ∧ old = [] ∧ h = false) →
      let r := mxTokens P x.rmask (if old.isEmpty then x.head else h) x.tail x.tail (x.poison || e.dirty) 8
        (old ++ tabulate (valsPerToken g) fun i => (x.val w i, x.ok w i))
      fires (exec (.vqnt t p) s) 0x0B fun e' => e.Emits e' r.1 ∧ ∃ h', e'.own = .vals r.2 h') ∧
    fires (exec (.vdqn t p) s) 0x0C (laid (fun i => roundNum d (pRm P) false
      (if pMode P = 2 then mx i else numMul (decodeNum g (x.val w i)) (scale i))) paired) ∧
    (∀ tab, (e.own = .lut tab ∨ e.own = .none ∧ tab = []) → c.MayFire t p e 0x15 →
      (tab.length < 256 → e.b.latch = some y → y.kind = .data → c.Fires s (exec (.vlut t p) s) t p e fun e' _ =>
        e.Consumes e' false true false ∧ e.Emits e' [] ∧ e'.own = .lut (tab ++ tabulate 16 fun i => BitVec.ofNat 32 (y.val 32 i))) ∧
      (256 ≤ tab.length → e.b.latch = none → c.Offers s p e 0 .data x → c.Fires s (exec (.vlut t p) s) t p e fun e' _ =>
        ∃ r : Token, e.Emits e' [r] ∧ r.head = x.head ∧ r.tail = x.tail ∧ r.Lanes 32 x.vmask fun v => (tab.getD (if pMode P = 1
          then (clampInt 0 255 (signedOf 32 (x.val 32 v))).toNat else x.val 32 v % 256) 0).toNat)) ∧
    (∀ old h, (e.own = .red old h ∨ e.own = .none ∧ old = []) →
      let vals := old ++ [pairTree (redOp P) (if n = 8 then 3 else 4)
        (tabulate n fun v => if x.ok w v then x.val w v else redIdentity P)]
      fires (exec (.vred t p) s) 0x16 fun e' => if n ≤ vals.length ∨ x.tail = true then
          ∃ r : Token, e.Emits e' [r] ∧ r.tail = x.tail ∧ e'.own = .red [] false ∧ ∀ i, i < n → r.val w i = vals.getD i 0 % 2 ^ w
        else e.Emits e' [] ∧ ∃ h', e'.own = .red vals h') ∧
    (∀ q0, (e.own = .scn (some q0) ∨ (e.own = .none ∨ e.own = .scn none) ∧ q0 = redIdentity P) →
      fires (exec (.vscn t p) s) 0x17 fun e' => ∃ (q : Nat → Nat) (r : Token), e.Emits e' [r] ∧ r.vmask = x.vmask ∧ q 0 = q0 ∧
        e'.own = .scn (some (q n)) ∧ ∀ v, v < n →
          let b := if (v = 0 ∧ x.head = true) ∨ x.rmask.getLsbD (v * w / 32) = true then redIdentity P else q v
          q (v + 1) = (if x.ok w v then redOp P b (x.val w v) else b) ∧ r.val w v = if x.ok w v then q (v + 1) % 2 ^ w else 0) ∧
    fires (exec (.vrng t p) s) 0x18 fun e' => ∃ r0 r1 : Token, e.Emits e' [r0, r1] ∧ r0.head = x.head ∧ r0.tail = false ∧
      r1.head = false ∧ r1.tail = x.tail ∧ ∀ j, j < 8 → x.ok 64 j = true →
        (if j < 4 then r0 else r1).val 128 (j % 4) = leNat (shake256 16 (leBytes 16 (y.payload.toNat % 2 ^ 128) ++
          leBytes 8 (x.val 64 j) ++ leBytes 4 (y.val 32 4) ++ leBytes 4 (y.val 32 5))) % 2 ^ 128

/-- PASS forwards a, forming RMASK from b under .RST. DUP emits a and keeps it until its last copy. HOLD emits the held payload
for each token of b, taking a new one at b's head under MODE 0. FILT sends the true lanes to the main side and the others to
the second. JOIN .ORD merges disjoint lanes, .FAIR forwards whole records from the input whose turn it is. RECI forwards the
back edge first, and admits an entry below its limit. LEAV sends true lanes out and the others round again, or gives RECI a
credit when none stays. RATE attaches scale bytes to each token that needs them. CTRN takes a block and emits it transposed.
SWIN emits the windows that end in the rows its pixels complete. TSEL adds the lanes that one quarter of the TERN token's valid
values selects. -/
def Obligations.ElementRoutingResults : Prop :=
  ∀ (s : State) (c : Cur) (t : BitVec 2) (p : Place) (e : Elem) (x y z : Token), s.Issues c →
    let P := e.pat
    let may := c.MayFire t p e
    let fires := fun (o : Out) (opc : Nat) (post : Elem → Task → Prop) => may opc → c.Operands s p e .data x y z →
      c.Fires s o t p e fun e' tk => e.ConsumesAll e' x ∧ post e' tk
    let has := fun (r : Token) (vm : BitVec 16) => r.head = x.head ∧ r.tail = x.tail ∧ r.rmask = x.rmask ∧ r.Lanes 32 vm (x.val 32)
    fires (exec (.pass t p) s) 0x20 (fun e' _ => ∃ r : Token, e.Emits e' [r] ∧ r.payload = x.payload ∧ r.vmask = x.vmask ∧
      r.head = x.head ∧ r.tail = x.tail ∧ r.sbx = x.sbx ∧
      if pMode P = 1 then ∀ i, i < 16 → r.rmask.getLsbD i = decide (y.val 32 i ≠ 0) else r.rmask = x.rmask) ∧
    (∀ left, (e.own = .dup left ∨ e.own = .none ∧ left = pAux P + 1) → may 0x21 → c.Operands s p e .data x y z →
      c.Fires s (exec (.dup t p) s) t p e fun e' _ => e.Emits e' [x] ∧ (if 1 < left then e'.a = e.a ∧ e'.own = .dup (left - 1)
        else e'.a = (if streamSel (pSel P 0) then { e.a with latch := none } else e.a) ∧ e'.own = .none)) ∧
    (may 0x26 → c.Offers s p e 1 .data y →
      let out := fun (h : Token) (take : Bool) => c.Fires s (exec (.hold t p) s) t p e fun e' _ =>
        e.Consumes e' take (streamSel (pSel P 1)) false ∧ e'.own = .hold h ∧ ∃ r : Token, e.Emits e' [r] ∧ r.payload = h.payload ∧
          r.vmask = h.vmask &&& y.vmask ∧ r.head = y.head ∧ r.tail = y.tail ∧ r.rmask = y.rmask
      (∀ h, e.own = .hold h → (pMode P ≠ 0 ∨ y.head = false) → out h false) ∧
      (e.own = .none ∨ (∃ h, e.own = .hold h) ∧ pMode P = 0 ∧ y.head = true → c.Offers s p e 0 .data x →
        out x (streamSel (pSel P 0)))) ∧
    fires (exec (.filt t p) s) 0x22 (fun e' _ => ∃ r0 r1 : Token, e.EmitsTo e' [r0] (some r1) ∧
      has r0 (x.vmask &&& condMask y) ∧ has r1 (x.vmask &&& ~~~(condMask y))) ∧
    (pMode P = 0 → x.vmask &&& y.vmask = 0 → fires (exec (.join t p) s) 0x23 fun e' _ => ∃ r : Token, e.Emits e' [r] ∧
      r.head = x.head ∧ r.tail = x.tail ∧ r.Lanes 32 (x.vmask ||| y.vmask) fun v =>
        if x.vmask.getLsbD (v * 32 / 32) then x.val 32 v else y.val 32 v) ∧
    (∀ ptr inRec i, pMode P ≠ 0 → (e.own = .fair ptr inRec ∨ e.own = .none ∧ ptr = 0 ∧ inRec = none) → i < 3 →
      let has := fun (j : Nat) => pSel P j ≠ 0 ∧ ∃ k, e.head j = some k ∧ k.kind = .data
      (∀ j, j < 3 → ∀ k, e.head j = some k → k.kind ≠ .scale ∧ k.kind ≠ .state) → has i → e.head i = some x →
      (inRec = some i ∨ inRec = none ∧ ∃ k, k < 3 ∧ i = (ptr + k) % 3 ∧ ∀ j, j < k → ¬ has ((ptr + j) % 3)) → may 0x23 →
      c.Fires s (exec (.join t p) s) t p e fun e' _ => e.Consumes e' (i = 0) (i = 1) (i = 2) ∧
        (∃ r : Token, e.Emits e' [r] ∧ r.payload = x.payload ∧ r.vmask = x.vmask ∧ r.head = x.head ∧ r.tail = x.tail) ∧
        ∃ ptr', e'.own = .fair ptr' (if (if inRec = none then x.head && !x.tail else !x.tail) then some i else none)) ∧
    (∀ occ, (e.own = .reci occ ∨ e.own = .none ∧ occ = 0) → may 0x24 →
      (c.Offers s p e 1 .data y → c.Fires s (exec (.reci t p) s) t p e fun e' _ => e.Consumes e' false true false ∧ e.Emits e' [y] ∧
        e'.own = e.own) ∧
      (e.b.latch = none → streamSel (pSel P 1) = true → occ ≤ pAux P % 16 → c.Offers s p e 0 .data x →
        c.Fires s (exec (.reci t p) s) t p e fun e' _ => e.Consumes e' true false false ∧ e.Emits e' [x] ∧ e'.own = .reci (occ + 1))) ∧
    fires (exec (.leav t p) s) 0x25 (fun e' tk =>
      let go := x.vmask &&& condMask y
      let stay := x.vmask &&& ~~~(condMask y)
      (∃ ts alt, e.EmitsTo e' ts alt ∧ (if go = 0 then ts = [] else ∃ r : Token, ts = [r] ∧ has r go) ∧
        (if stay = 0 then alt = none else ∃ r : Token, alt = some r ∧ has r stay)) ∧
      ∀ q n, pK P % 64 ≠ placeKey p → (c.task.th t).elem (pK P % 64) = some q → q.own = .reci n → ∃ q' : Elem,
        (tk.th t).elem (pK P % 64) = some q' ∧ q'.own = .reci (if stay = 0 then n - 1 else n)) ∧
    (∀ cur pos, (e.own = .rate cur pos ∨ e.own = .none ∧ cur = none ∧ pos = 0) → may 0x27 → c.Offers s p e 0 .data x →
      let m := if pMode P = 1 then 1 else if pFmt P = 8 then 4 else 2
      let out := fun (bytes : Nat) (takeB : Bool) => c.Fires s (exec (.rate t p) s) t p e fun e' _ => e.Consumes e' true takeB false ∧
        ∃ r : Token, e.Emits e' [r] ∧ r.payload = x.payload ∧ r.head = x.head ∧ r.tail = x.tail ∧ r.sbx = BitVec.ofNat 32 bytes
      (pMode P = 1 → x.head = false → out 0 false) ∧
      ((pMode P ≠ 1 ∨ x.head = true) → (∀ k, cur = some k → out (k.payload.toNat / 256 ^ pos % 256 ^ m) false) ∧
        ∀ k, cur = none → e.b.latch = some k → k.kind = .scale → out (k.payload.toNat % 256 ^ m) true)) ∧
    (∀ buf, (e.own = .ctrn buf ∨ e.own = .none ∧ buf = []) → x.vmask = 0xFFFF → fires (exec (.ctrn t p) s) 0x28 fun e' _ =>
      if buf.length + 1 < ctrnTokens P then e.Emits e' [] ∧ e'.own = .ctrn (buf ++ [x])
      else e.Emits e' (transpose P (buf ++ [x])) ∧ e'.own = .ctrn []) ∧
    (∀ pix, (e.own = .swin pix ∨ e.own = .none ∧ pix = []) → fires (exec (.swin t p) s) 0x29 fun e' _ =>
      let w := fmtWidth (pFmt P)
      let new := (((List.range (512 / w)).map fun v => (x.val w v, x.ok w v)).filter (·.2)).map (·.1)
      let width := pK P % 4096 + 1
      e'.own = .swin (pix ++ new) ∧ e.Emits e' (((List.range ((pix ++ new).length / width)).filter fun r => pix.length / width ≤ r).flatMap
        fun r => (List.range width).flatMap fun i => swinRecord P x.rmask (pix ++ new) width r i (x.poison || e.dirty))) ∧
    ∀ f, (e.own = .tsel f ∨ e.own = .none ∧ f = 0) →
      let tern := fun (k : Nat) => if x.ok 2 (64 * f + k) then x.val 2 (64 * f + k) else 0
      (∀ k, k < 64 → tern k ≠ 2) → may 0x39 →
      c.Offers s p e 0 .data x → c.Offers s p e 1 .data y → c.Fires s (exec (.tsel t p) s) t p e fun e' _ =>
      let sel := fun (k : Nat) => if tern k = 1 then signedOf 8 (y.val 8 k)
        else if tern k = 3 then -(signedOf 8 (y.val 8 k)) else 0
      e.Consumes e' (f = 3 && streamSel (pSel P 0)) (streamSel (pSel P 1)) false ∧ e'.own = .tsel ((f + 1) % 4) ∧
        ∃ r : Token, e.Emits e' [r] ∧ r.Lanes 32 (x.vmask &&& y.vmask) fun v =>
          wrapOf 32 (sel (4 * v) + sel (4 * v + 1) + sel (4 * v + 2) + sel (4 * v + 3))

/-- SPAD .FIFO emits its oldest token, the payload read from the window, when an entry is free, else accepts one into the window; .RD
reads each aligned lane inside its window and .WR writes it, discarding the others. TXQ queues a request of aligned addresses. SINK
discards data and CNT forwards and counts it. DDAI loads a due half of a STATE pair, or both halves from a constant or an accumulator,
else runs one step of its token: bank lanes take the integrator's result, and the last step consumes the token and emits the increments or
a STATE pair. DDAL collects converted values and emits a pair for every 16; DDAO pairs two STATE tokens into values. INCS adds increments
with its carried remainder and clamps, emitting after the last step. LREC keeps and emits h at each valid lane. Where a FIFO's tokens
stand in its window is the model's choice (log 19). -/
def Obligations.ElementStateResults : Prop :=
  ∀ (s : State) (c : Cur) (t : BitVec 2) (p : Place) (e : Elem) (x y z : Token), s.Issues c →
    let P := e.pat
    let v := c.team.carve
    let may := c.MayFire t p e
    let fires := fun (o : Out) (opc : Nat) (post : Elem → Task → Prop) => may opc → c.Operands s p e .data x y z →
      c.Fires s o t p e fun e' tk => e.ConsumesAll e' x ∧ post e' tk
    let base := pK P / 65536 * Config.granule
    let size := (pAux P % 4 + 1) * Config.granule
    let inside := fun (i : Nat) => x.ok 32 i && decide (x.val 32 i % 4 = 0) && decide (x.val 32 i + 4 ≤ size)
    (∀ toks tail, pMode P = 0 → (e.own = .fifo toks tail ∨ e.own = .none ∧ toks = [] ∧ tail = 0) → may 0x2A →
      (∀ k ks, toks = k :: ks → e.room (placeKey p) = true → c.Fires s (exec (.spad t p) s) t p e fun e' _ =>
        e.Consumes e' false false false ∧ e'.own = .fifo ks tail ∧ ∃ r : Token, e.Emits e' [r] ∧ r.kind = k.kind ∧ r.head = k.head ∧
          r.tail = k.tail ∧ r.vmask = k.vmask ∧ r.rmask = k.rmask ∧ ∀ i, i < 16 →
            r.val 32 i = c.task.spadLE v (base + (tail - toks.length) % (size / 64) * 64 + 4 * i) 4) ∧
      ((toks = [] ∨ e.room (placeKey p) = false) → toks.length < size / 64 → c.Operands s p e .data x y z →
        c.Fires s (exec (.spad t p) s) t p e fun e' tk => e.ConsumesAll e' x ∧ e.Emits e' [] ∧ e'.own = .fifo (toks ++ [x]) (tail + 1) ∧
          ∀ i, i < 16 → tk.spadLE v (base + tail % (size / 64) * 64 + 4 * i) 4 = x.val 32 i)) ∧
    (pMode P = 1 → fires (exec (.spad t p) s) 0x2A fun e' tk => ∃ r : Token, e.Emits e' [r] ∧ r.head = x.head ∧ r.tail = x.tail ∧
      (∀ i, i < 16 → r.val 32 i = if inside i then c.task.spadLE v (base + x.val 32 i) 4 else 0) ∧
      (tk.th t).disc = (c.task.th t).disc + ((List.range 16).filter fun i => x.ok 32 i && !inside i).length) ∧
    (1 < pMode P → fires (exec (.spad t p) s) 0x2A fun e' tk => e.Emits e' [] ∧
      (∀ i, i < 16 → inside i = true → y.ok 32 i = true →
        (∀ j, i < j → j < 16 → inside j = true → y.ok 32 j = true → x.val 32 j ≠ x.val 32 i) →
        tk.spadLE v (base + x.val 32 i) 4 = y.val 32 i) ∧
      (tk.th t).disc = (c.task.th t).disc + ((List.range 16).filter fun i => x.ok 32 i && y.ok 32 i && !inside i).length) ∧
    (∀ reqs, (e.own = .txq reqs ∨ e.own = .none ∧ reqs = []) → (∀ j, j < 8 → x.ok 64 j = true → x.val 64 j % 2 ^ (pAux P % 4) = 0) →
      fires (exec (.txq t p) s) 0x2B fun e' _ => e.Emits e' [] ∧ e'.own = .txq (reqs ++ [(x, none)])) ∧
    fires (exec (.sink t p) s) 0x2C (fun e' _ => e.Emits e' [] ∧ e'.own = e.own) ∧
    (∀ d n, (e.own = .cnt d n ∨ e.own = .none ∧ d = 0 ∧ n = 0) → fires (exec (.cnt t p) s) 0x2D fun e' _ =>
      e.Emits e' [x] ∧ e'.own = .cnt (d + 1) n) ∧
    (∀ step count dzs loaded, (e.own = .ddai step count dzs loaded ∨ e.own = .none ∧ step = 0 ∧ count = 0 ∧ dzs = [] ∧ loaded = false) →
      let due := pSel P 2 ≠ 0 ∧ step = 0 ∧ loaded = false ∧ (count = 0 ∨ pAux P ≠ 0 ∧ count % pAux P = 0)
      may 0x30 → c.Offers s p e 0 .data x →
      (due → streamSel (pSel P 2) = true → ∀ k, e.c.latch = some k → k.kind = .state → c.Fires s (exec (.ddai t p) s) t p e fun e' _ =>
        let upper := decide (k.sbx.toNat % 2 = 1)
        e.Consumes e' false false true ∧ e.Emits e' [] ∧ e'.own = .ddai step count dzs upper ∧ ∀ i, i < 16 →
          (laneOf e'.bank i).y = if decide (8 ≤ i) = upper then signedOf 48 (k.val 64 (i % 8)) else (laneOf e.bank i).y) ∧
      (due → streamSel (pSel P 2) = false → ∀ k, c.Offers s p e 2 .state k → c.Fires s (exec (.ddai t p) s) t p e fun e' _ =>
        e.Consumes e' false false false ∧ e.Emits e' [] ∧ e'.own = .ddai step count dzs true ∧ ∀ i, i < 16 →
          (laneOf e'.bank i).y = signedOf 48 (k.val 64 (i % 8))) ∧
      (¬ due → c.Offers s p e 1 .data y → ∀ n, stepCount x = some n → (pSel P 1 = 0 ∨ stepCount y = some n) →
        let k := pK P
        let inc := fun (q : Token) (i : Nat) => (incrAt q step i).1
        let dy := fun (i : Nat) => (if pSel P 1 ≠ 0 then inc y i else 0) + (if bitAt (pMode P) 0 then (laneOf e.bank i).dz else 0)
        let run := fun (i : Nat) => integrate (bitsOf k 13 8) (bitsOf k 21 16) (bitAt k (32 + i)) (laneOf e.bank i).y
          (laneOf e.bank i).rem (inc x i) (dy i)
        (∀ i, i < 16 → (incrAt x step i).2 = false ∧ (pSel P 1 ≠ 0 → (incrAt y step i).2 = false) ∧ run i ≠ none) →
        c.Fires s (exec (.ddai t p) s) t p e fun e' _ =>
          (∀ i, i < 16 → run i = some ((laneOf e'.bank i).dz, (laneOf e'.bank i).rem, (laneOf e'.bank i).y)) ∧
          let dz := tabulate 16 fun i => (laneOf e'.bank i).dz
          if step + 1 < n then e.Consumes e' false false false ∧ e.Emits e' [] ∧ e'.own = .ddai (step + 1) count (dzs ++ [dz]) false
          else e.Consumes e' true (streamSel (pSel P 1)) false ∧ e'.own = .ddai 0 (count + 1) [] false ∧ ∃ bad,
            e.Emits e' (if bitAt (pMode P) 1 then statePair (tabulate 16 fun i => (laneOf e'.bank i).y) bad
              else [incrToken x (dzs ++ [dz]) bad]))) ∧
    (∀ old, (e.own = .ddal old ∨ e.own = .none ∧ old = []) →
      let w := fmtWidth (pFmt P)
      let val := fun (i : Nat) => ddalY (pRm P) (pAux P % 64) (decodeNum (pFmt P) (x.val w i)) (decodeNum 1 (pK P % 2 ^ 32))
      (∀ i, i < 512 / w → val i ≠ none) → fires (exec (.ddal t p) s) 0x31 fun e' _ =>
        let r := ddalPairs (x.poison || e.dirty) 3 (old ++ tabulate (512 / w) fun i => (val i).getD 0)
        e.Emits e' r.1 ∧ e'.own = .ddal r.2) ∧
    (may 0x32 → c.Operands s p e .state x y z →
      (e.own = .none → c.Fires s (exec (.ddao t p) s) t p e fun e' _ => e.ConsumesAll e' x ∧ e.Emits e' [] ∧ e'.own = .ddao x) ∧
      ∀ h, e.own = .ddao h → c.Fires s (exec (.ddao t p) s) t p e fun e' _ => e.ConsumesAll e' x ∧ e'.own = .none ∧
        ∃ ts : List Token, e.Emits e' ts ∧ ∀ i, i < 16 → tokenVal ts (fmtWidth (pFmt P)) i = ddaoZ (pFmt P) (pRm P) (pOvf P)
          (pAux P % 64) (signedOf 48 ((if i < 8 then h else x).val 64 (i % 8))) (decodeNum 1 (pK P % 2 ^ 32)) %
          2 ^ fmtWidth (pFmt P)) ∧
    (∀ q step outs, (e.own = .incs q step outs ∨ e.own = .none ∧ q = [] ∧ step = 0 ∧ outs = []) → may 0x33 →
      c.Offers s p e 0 .data x → c.Offers s p e 1 .data y → ∀ n, stepCount x = some n → (pSel P 1 = 0 ∨ stepCount y = some n) →
      let src := fun (i : Nat) => bitsOf (pK P) (4 * i + 3) (4 * i)
      let sgn := fun (m : Nat) (a : Int) => if bitAt (pMode P) m then -a else a
      let u := fun (i : Nat) => sgn 0 (incrAt x step (src i)).1 + (if pSel P 1 ≠ 0 then sgn 1 (incrAt y step i).1 else 0) + q.getD i 0
      (∀ i, i < 16 → (incrAt x step i).2 = false ∧ (pSel P 1 ≠ 0 → (incrAt y step i).2 = false) ∧
        (bitAt (pMode P) 2 = true ∨ -7 ≤ u i ∧ u i ≤ 7)) →
      c.Fires s (exec (.incs t p) s) t p e fun e' _ =>
        let o := tabulate 16 fun i => clampInt (-7) 7 (u i)
        let left := tabulate 16 fun i => u i - clampInt (-7) 7 (u i)
        if step + 1 < n then e.Consumes e' false false false ∧ e.Emits e' [] ∧ e'.own = .incs left (step + 1) (outs ++ [o])
        else e.Consumes e' (streamSel (pSel P 0)) (streamSel (pSel P 1)) false ∧ e'.own = .incs left 0 [] ∧
          ∃ bad, e.Emits e' [incrToken x (outs ++ [o]) bad]) ∧
    ∀ h, (e.own = .lrec h ∨ e.own = .none ∧ h = List.replicate 16 0) → fires (exec (.lrec t p) s) 0x38 fun e' _ =>
      let vm := maskOf P x y z
      let next := fun (i : Nat) => if vm.getLsbD i then
        lrecStep (pRm P) (h.getD i 0) (x.val 32 i) (y.val 32 i) (z.val 32 i) (x.rmask.getLsbD i) else h.getD i 0
      e'.own = .lrec (tabulate 16 next) ∧ ∃ r : Token, e.Emits e' [r] ∧ r.head = x.head ∧ r.tail = x.tail ∧ r.Lanes 32 vm next

/-- A record with a reserved OP or a non-zero reserved field answers 0x07, and a record that fails a check answers the code of the
first one that it fails, in the port's order, and changes no team. A BIND that passes them answers 0 and stages a new team, every
member LOADING on its core with the start registers, or the saved team of its work identifier with its registers; a RESUME that finds no
place for a member's thickets answers 0x09. MOVE starts to save the running team that stands on the named group, ahead of a swap of it that
is decided in the same cycle, and WITHDRAW unbinds a staged one. A staged slot whose program is loaded
becomes READY with the launch's image; a team whose members are all READY on empty running slots runs; a team whose fills have
landed and whose thickets are saved is unbound with its context. A member that may leave its slot does, when no digest is to be
compared; a finished team retires with its digest and its members' signature, or has DIGEST pending when a bound record differs;
a team staged longer than the watchdog is unbound and counted. That the checks fall in the order of their codes' table, and
which launch an index names, is the model's choice (log 39). -/
def Obligations.BindingEvents : Prop :=
  (∀ (s : State) (die : BitVec 4) (rec : BitVec 128), die.toNat < 12 →
    let r := bindRec rec
    let d := die.toNat
    let base := 64 * d + r.core
    let code := fun (o : Out) (k : Nat) (post : State → Prop) => Completes o fun u =>
      (u.slotTable d).code = k ∧ (u.slotTable d).bindLo = rec.setWidth 64 ∧ post u
    let same := fun (u : State) => u.teams = s.teams
    (r.op = 3 ∨ r.op = 0 ∧ r.zero ≠ 0 → code (exec (.bind die rec) s) 7 same) ∧
    (r.op = 1 → r.zero ≠ 0 → code (exec (.move die rec) s) 7 same) ∧
    (r.op = 2 → r.zero ≠ 0 → code (exec (.withdraw die rec) s) 7 same) ∧
    (r.zero = 0 → s.bindLaunch d r = none → (r.op = 0 → code (exec (.bind die rec) s) 4 same) ∧
      (r.op = 1 → code (exec (.move die rec) s) 4 same) ∧ (r.op = 2 → code (exec (.withdraw die rec) s) 4 same)) ∧
    ∀ n l, r.zero = 0 → s.bindLaunch d r = some (n, l) →
      let away := match s.part l.vf with
        | none => true
        | some q => (r.cores d).any fun x => !q.desc.sprigs.any fun y => y.toNat = x / 4
      let fails := fun (traced : Bool) => if l.hdr.hasWid r.wid = false then 4 else if l.stage = .held then 6
        else if r.resume ≠ s.savedContext n r.wid then 5 else if traced = true then 8
        else if r.tsz ≠ l.hdr.team ∨ r.core % teamSize r.tsz ≠ 0 then 3 else if away = true then 2 else 0
      (r.op = 0 → let k := fails (s.traceRefuses l 0 d r.core r.wid)
        (k ≠ 0 → code (exec (.bind die rec) s) k same) ∧
        (k = 0 → ((r.cores d).any fun x => s.stagedAt x || s.swappingAt x) = true → code (exec (.bind die rec) s) 1 same) ∧
        (k = 0 → ((r.cores d).any fun x => s.stagedAt x || s.swappingAt x) = false →
          (r.resume = false → code (exec (.bind die rec) s) 0 fun u =>
            ∃ tm, mapGet s.nextTeam u.teams = some tm ∧ tm.st = .staged ∧ tm.wid = r.wid ∧ tm.launch = n ∧
              tm.members.length = teamSize r.tsz ∧ ∀ i, i < teamSize r.tsz → ∃ tk, tm.members[i]? = some tk ∧ tk.core = base + i ∧
                tk.slot = .loading ∧ tk.regs = Regs.start l.hdr.entry r.wid l.hdr.args) ∧
          (∀ t tm, r.resume = true → s.teamOf n r.wid .saved = some (t, tm) →
            (∃ tk ∈ (tm.restage base s.clk.toNat).members, tk.slot ≠ .gone ∧ s.placed tk tk.core = none) →
            code (exec (.bind die rec) s) 9 same) ∧
          (∀ t tm, r.resume = true → s.teamOf n r.wid .saved = some (t, tm) →
            (∀ tk ∈ (tm.restage base s.clk.toNat).members, tk.slot ≠ .gone → (s.placed tk tk.core).isSome = true) →
            code (exec (.bind die rec) s) 0 fun u => ∃ tm', mapGet t u.teams = some tm' ∧ tm'.st = .staged ∧
              ∀ (i : Nat) (tk : Task), tm.members[i]? = some tk → tm'.members[i]? =
                some { tk with core := base + (if tm.table then tk.core % teamSize tm.size else i),
                               slot := if tk.slot = .gone then .gone else .loading }))) ∧
      (r.op = 1 → let k := fails (s.traceRefuses l 2 d r.core r.wid)
        (k ≠ 0 → code (exec (.move die rec) s) k same) ∧
        (k = 0 → s.teamThere d r n .running = none → code (exec (.move die rec) s) 1 same) ∧
        ∀ t tm, k = 0 → s.teamThere d r n .running = some (t, tm) → mapGet t s.teams = some tm →
          ((tm.swaps ≠ [] ∧ tm.swapFrom ≠ some s.clk ∨ ∃ tk ∈ tm.members, tk.slot ≠ .running ∧ tk.slot ≠ .retiring) →
            code (exec (.move die rec) s) 1 same) ∧
          ((tm.swaps = [] ∨ tm.swapFrom = some s.clk) → (∀ tk ∈ tm.members, tk.slot = .running ∨ tk.slot = .retiring) →
            code (exec (.move die rec) s) 0 fun u => ∃ tm', mapGet t u.teams = some tm' ∧ tm'.st = .saving ∧ tm'.swaps = [] ∧ ∀ (i : Nat) (tk : Task), tm.members[i]? = some tk → ∃ tk',
              tm'.members[i]? = some tk' ∧ tk'.slot = .saving ∧ tk'.regs.pc = tk.regs.pc ∧ (∀ x, tk'.regs.val x = tk.regs.val x))) ∧
      (r.op = 2 → let k := fails false
        (k ≠ 0 → code (exec (.withdraw die rec) s) k same) ∧
        (k = 0 → s.teamThere d r n .staged = none → code (exec (.withdraw die rec) s) 1 same) ∧
        ∀ t tm, k = 0 → s.teamThere d r n .staged = some (t, tm) → code (exec (.withdraw die rec) s) 0 fun u =>
          (tm.resumed = false → mapGet t u.teams = none) ∧
          (tm.resumed = true → ∃ tm', mapGet t u.teams = some tm' ∧ tm'.st = .saved))) ∧
  (∀ (s : State) (core : BitVec 10) (t : Nat) (tm : Team), mapGet t s.teams = some tm →
    s.teams.find? (fun x => x.2.st = .staged && x.2.members.any fun tk => tk.core = core.toNat && tk.slot = .loading) = some (t, tm) →
    ∀ img bad, (tm.resumed = false → ∃ l, s.launchOf tm = some l ∧ s.image tm.vf l.hdr.kptr.toNat tm.carve.prog = some (img, bad)) →
    Completes (exec (.programLoadComplete core) s) fun u => ∃ tm', mapGet t u.teams = some tm' ∧ ∀ (i : Nat) (tk : Task),
      tm.members[i]? = some tk → tk.core = core.toNat → tk.slot = .loading → ∃ tk', tm'.members[i]? = some tk' ∧ tk'.slot = .ready ∧
        tk'.regs = tk.regs ∧ (tm.resumed = false → tk'.prog = img ∧ (s.uninjected tm.vf → tk'.poisonProg = bad))) ∧
  ∀ (s : State) (t : Nat) (tm : Team) (l : Launch), mapGet t s.teams = some tm → s.launchOf tm = some l →
    (tm.st = .staged → (∀ tk ∈ tm.members, tk.slot = .gone ∧ tm.resumed = true ∨ tk.slot = .ready ∧ s.runningAt tk.core = false) →
      Completes (exec (.teamStart t) s) fun u => ∃ tm', mapGet t u.teams = some tm' ∧ tm'.st = .running ∧ ∀ (i : Nat) (tk : Task),
        tm.members[i]? = some tk → ∃ tk', tm'.members[i]? = some tk' ∧ tk'.regs = tk.regs ∧
          tk'.slot = if tk.slot = .gone then .gone else if tm.resumed = true ∧ tk.arrived = some .halt then .retiring else .running) ∧
    (tm.st = .saving → s.failing tm = false →
      (∀ tk ∈ tm.members, (if tk.slot = .gone then tk else tk.markAll s.clk).settled = true) →
      Completes (exec (.contextSaveComplete t) s) fun u => ∃ tm', mapGet t u.teams = some tm' ∧ tm'.st = .saved ∧ tm'.resumed = true ∧
        (∀ tk ∈ tm'.members, tk.slot = .unbound ∨ tk.slot = .gone) ∧ tm'.members.map (·.regs) = tm.members.map (·.regs)) ∧
    (tm.st = .running → s.failing tm = false →
      (tm.finished = false → s.toCompare tm l = none → Completes (exec (.teamRetire t) s) fun u => ∃ tm', mapGet t u.teams = some tm' ∧
        ∀ (i : Nat) (tk : Task), tm.members[i]? = some tk →
          tm'.members[i]? = some (if tm.mayLeave tk then { tk with slot := .gone } else tk)) ∧
      (tm.finished = true → (∀ x, s.toCompare tm l = some x → x = tm.digest) → Completes (exec (.teamRetire t) s) fun u =>
        mapGet t u.teams = none ∧ ∃ l', mapGet tm.launch u.launches = some l' ∧
          mapGet tm.wid.toNat l'.retired = some (tm.digest, false) ∧ l'.sig = l.sig ||| tm.sig) ∧
      (∀ x, tm.finished = true → s.toCompare tm l = some x → x ≠ tm.digest → Completes (exec (.teamRetire t) s) fun u =>
        ∃ tm', mapGet t u.teams = some tm' ∧ tm'.compared = true ∧ ∀ (i : Nat) (tk : Task), tm.members[i]? = some tk → ∃ tk',
          tm'.members[i]? = some tk' ∧ tk'.causes = tk.causes ++ [Cause.mk 8 0 0 tm.digest])) ∧
    ∀ tk, tm.members.head? = some tk → tk.core < 768 → tm.st = .staged → (s.slotTable (tk.core / 64)).wdog < s.clk.toNat - tm.stagedFor →
      Completes (exec (.bindWatchdogExpire t) s) fun u =>
        (u.slotTable (tk.core / 64)).withdrawn = min 65535 ((s.slotTable (tk.core / 64)).withdrawn + 1) ∧
        (tm.resumed = false → mapGet t u.teams = none) ∧
        (tm.resumed = true → ∃ tm', mapGet t u.teams = some tm' ∧ tm'.st = .saved)

/-- A pooled launch whose parent segment has committed moves to the run list under an index that no other listed launch of its
partition has, READY when its dependency is met and else HELD, and a HELD one becomes READY when it is met, or once a write of the counter has met it
since. A READY launch of which
every work identifier has retired, with no record to compare, becomes COMPLETE: tainted, corrected or good. Its record is then
written, for the host or into the device ring, and its DONE counter, on a page that it may write, is greater by one; when that must wait, for
room in the ring or in the log, it stays COMPLETE with no record. A pooled launch with no work left, all of it abandoned or none at all,
completes without a run-list entry. SWAP_TICK counts a due tick of its bush and starts no swap while a seal is in progress; the count of a
pair of the bush, as it is next read, is halved by it (that the stored counts keep their value and are halved as they are read is the
model's form of R313: log 47); a tick that is not due changes nothing. SWAP_EXECUTE with both occupants settled and placeable exchanges their cores. GLINT_RECORD
appends the due record of its source, place and operation, or counts a dropped one when the buffer is full. Which free index a
launch takes is open, and the statement holds for each choice (log 101). -/
def Obligations.LaunchAndSwapEvents : Prop :=
  (∀ (s : State) (n : Nat) (l : Launch), mapGet n s.launches = some l →
    (∀ q, l.stage = .pooled → s.parentDone l = true → s.part l.vf = some q → l.hdr.work ≠ l.retired.length →
      (s.listed l.vf).length < q.desc.listSize → Completes (exec (.launchDispatch n) s) fun u => ∃ k, k < q.desc.listSize ∧
        (∀ y ∈ s.listed l.vf, y.2.lidx ≠ k) ∧
        mapGet n u.launches = some { l with lidx := k, stage := if s.depMet l then .ready else .held }) ∧
    (∀ q, l.stage = .pooled → s.parentDone l = true → s.part l.vf = some q → l.hdr.work = l.retired.length → s.recordOf l = none →
      Completes (exec (.launchDispatch n) s) fun u => ∃ x, mapGet n u.launches = some x ∧ x.stage = .complete ∧ x.retired = l.retired) ∧
    (l.stage = .held → (s.depMet l = true ∨ s.waitMet (.launch n) = true) → Completes (exec (.dependencyMet n) s) fun u =>
      mapGet n u.launches = some { l with stage := .ready }) ∧
    (l.stage = .ready → l.retired.length = l.hdr.work → l.posted = false → s.recordOf l = none →
      let done := { l with stage := .complete, verdict := if l.tainted then 2 else if l.corrected then 1 else 0,
                           status := if l.unrecorded then 3 else 0 }
      let bs := done.completion s.rin
      let waits := s.completionHeld done || s.logFull (s.addDone done) l.vf
      (waits = true → Completes (exec (.launchComplete n) s) fun u =>
        mapGet n u.launches = some done ∧ u.hostMem = s.hostMem ∧ s.SameMemory u) ∧
      (waits = false → Completes (exec (.launchComplete n) s) fun u =>
        mapGet n u.launches = some { done with posted := true, rinDone := s.rin } ∧
        (l.host = true → memReadBytes u.hostMem l.record.toNat bs.length = bs) ∧
        (∀ q, l.host = false → s.part l.vf = some q →
          memReadBytes u.hostMem (q.regs.dlbase.toNat + 64 * (q.regs.dltail.toNat % 4096)) bs.length = bs) ∧
        (l.hdr.done = 0 ∨ done.verdict = 2 → s.SameMemory u) ∧
        ∀ pg, l.hdr.done ≠ 0 → done.verdict ≠ 2 → s.lookup l.vf l.hdr.done.toNat [] = some pg → pg.kind = 0 → pg.writable = true →
          memReadLE u.mem (pg.pa l.hdr.done.toNat) 8 = (s.pageLE pg l.hdr.done.toNat 8 + 1) % 2 ^ 64))) ∧
  (∀ (s : State) (die : BitVec 4) (bush : BitVec 2),
    let b := 4 * die.toNat + bush.toNat
    let tick := (mapGet b s.swapTicks).getD 0 + 1
    (s.clk.toNat / 600000 < tick → exec (.swapTick die bush) s = .next s) ∧
    (tick ≤ s.clk.toNat / 600000 → Completes (exec (.swapTick die bush) s) fun u => s.SameMemory u ∧
      mapGet b u.swapTicks = some tick ∧ (s.sealing ≠ none → u.teams = s.teams) ∧
      ∀ t tm, mapGet t s.teams = some tm → ∃ tm' more, mapGet t u.teams = some tm' ∧ tm'.traffic = tm.traffic ∧
        tm'.swaps = tm.swaps ++ more ∧ ∀ (x y : Nat) (p q : Task) (k : Nat × Nat), tm.members[x]? = some p → tm.members[y]? = some q →
          p.core / 16 = b → q.core / 16 = b → k.2 < tick →
          countAfter k (u.halvings tm' x y) = countAfter k (s.halvings tm x y) / 2)) ∧
  (∀ (s : State) (t : Nat) (tm : Team) (a b : Nat) (rest : List (Nat × Nat)) (p0 q0 : Task), mapGet t s.teams = some tm →
    tm.st = .running → s.failing tm = false → tm.swaps = (a, b) :: rest → a ≠ b → tm.members[a]? = some p0 →
    tm.members[b]? = some q0 →
    let p := p0.markAll s.clk
    let q := q0.markAll s.clk
    p.settled = true → q.settled = true →
    Completes (exec (.swapExecute t) s) fun u => s.SameMemory u ∧ ∃ tm' p' q', mapGet t u.teams = some tm' ∧ tm'.swaps = rest ∧
      tm'.members[a]? = some p' ∧ tm'.members[b]? = some q' ∧ p'.regs = p0.regs ∧ q'.regs = q0.regs ∧
      (if (s.placed { p with core := q.core } q.core).isSome ∧ (s.placed { q with core := p.core } p.core).isSome
        then p'.core = q0.core ∧ q'.core = p0.core else p'.core = p0.core ∧ q'.core = q0.core)) ∧
  ∀ (s : State) (src : BitVec 2) (loc op : BitVec 32) (vf : Nat) (p : Part) (r : List Byte),
    s.parts.find? (fun q => q.2.dbg.glintDue.any (glintIs src.toNat loc.toNat op.toNat)) = some (vf, p) → s.part vf = some p →
    p.dbg.glintDue.find? (glintIs src.toNat loc.toNat op.toNat) = some r →
    Completes (exec (.glintRecord src loc op) s) fun u => s.SameMemory u ∧ u.cur = s.cur ∧ ∃ q, u.part vf = some q ∧
      q.dbg.glintDue = p.dbg.glintDue.erase r ∧
      (64 * (p.dbg.glint.length + 1) ≤ p.desc.glintSize → q.dbg.glint = p.dbg.glint ++ [r] ∧ q.dbg.glintDropped = p.dbg.glintDropped) ∧
      (p.desc.glintSize < 64 * (p.dbg.glint.length + 1) → q.dbg.glint = p.dbg.glint ∧
        q.dbg.glintDropped = p.dbg.glintDropped + 1)

/-- A seal falls due after the coordinator's period, or after the one in progress. PREPARE, with no swap in progress, opens the next
interval, records the sealed state and consumes poison that this holds. The first answer of a module, and at the coordinator of each of
the domain, is kept, a FAIL of this module only when its marker wave is late; at the coordinator none is kept once 6,000,000 cycles have
passed. COMMIT with every one that counts here READY and no poison consumed makes the interval the sealed one, with its copy,
and each partition's held writes and log records up to it go. An abort, by a FAIL answer or from the coordinator, or the coordinator's
timeout, ends the seal without it, counts a failure at every partition, and a lone waiting member takes SEAL-FAIL past its instruction. A
consumption of poison rolls back: the next interval is open, no seal or consumption is left, ordered entries are gone, every partition
awaits its acknowledgement, a line with one record above the seal holds its pre-image, and a line that is neither logged nor on an untracked
page that was written is as before. PRT_RCVST reads the last seal, the failed ones, the stall and the fill of the log. EINJ_ARM arms one
line. That cut and saving are one step, and when a FAIL may come, is the model's choice (log 51), as are the parts of the coordinator and
of the other modules (log 48). -/
def Obligations.RecoveryEvents : Prop :=
  ∀ (s : State),
    (s.power = .on → s.coordinates = true → s.sealPeriod ≤ (s.clk - s.sealClk).toNat → Completes (exec .periodicSealTimer s) fun u => u.sealClk = s.clk ∧
      (s.sealing = none → u.sealDue = true) ∧ (s.sealing ≠ none → u.sealPending = true)) ∧
    (s.power = .on → (s.sealDue = true ∨ s.coordinates = false) → s.sealing = none → (∀ t ∈ s.teams, t.2.swaps = []) →
      Completes (exec .prepare s) fun u => u.rin = s.rin + 1 ∧
      u.sealDue = false ∧ (∃ x, u.sealing = some x ∧ x.num = s.rin ∧ x.copy = s.sealRecord s.rin ∧ x.answered = []) ∧ u.mem = s.mem ∧
      u.teams = s.teams ∧ ((s.sealRecord s.rin).poisonAt = none → u.consumed = s.consumed) ∧
      ((s.sealRecord s.rin).poisonAt ≠ none → u.consumed ≠ none)) ∧
    (∀ t ∈ s.teams, t.2.swaps ≠ [] → exec .prepare s = .next s) ∧
    (∀ x, s.sealing = some x →
      (∀ (d : BitVec 8) (ok : Bool), (d.toNat = s.own ∨ s.coordinates = true ∧ d.toNat ∈ s.domain) → mapGet d.toNat x.answered = none →
        (s.coordinates = true → (s.clk - x.since).toNat ≤ 6000000) → (d.toNat = s.own → ok = true ∨ s.waveLate x = true) →
        Completes (exec (.ready d ok) s) fun u => ∃ x', u.sealing = some x' ∧ mapGet d.toNat x'.answered = some ok ∧ x'.num = x.num) ∧
      (∀ (d : BitVec 8) (ok : Bool), s.coordinates = true → 6000000 < (s.clk - x.since).toNat → exec (.ready d ok) s = .next s) ∧
      ((∀ d, d = s.own ∨ s.coordinates = true ∧ d ∈ s.domain → mapGet d x.answered = some true) → mapSorted s.parts = true → s.consumed = none →
        Completes (exec .commit s) fun u => u.sealed = x.num ∧ u.sealCopy = x.copy ∧ u.sealing = none ∧ u.mem = s.mem ∧
          ∀ vf q, mapGet vf s.parts = some q → ∃ q', mapGet vf u.parts = some q' ∧
            q'.egress = q.egress.filter (fun y => decide (x.num < y.rin)) ∧
            q'.log = q.log.filter fun y => decide (x.num < y.rin)) ∧
      ∀ i : Instr, (i = .abort ∧ (s.coordinates = false ∨ ∃ y ∈ x.answered, y.2 = false) ∨
          i = .sealTimeout ∧ s.coordinates = true ∧ 6000000 < (s.clk - x.since).toNat ∧
          ∃ d, (d = s.own ∨ d ∈ s.domain) ∧ mapGet d x.answered = none) → mapSorted s.parts = true →
        Completes (exec i s) fun u => u.sealing = none ∧ u.sealed = s.sealed ∧ u.rin = s.rin ∧ u.mem = s.mem ∧
          (∀ vf q, mapGet vf s.parts = some q → ∃ q', mapGet vf u.parts = some q' ∧ q'.regs.fails = min 255 (q.regs.fails + 1)) ∧
          ∀ t m tm tk, s.sealWaiters x.num = [(t, m)] → mapGet t s.teams = some tm → tm.members[m]? = some tk → s.failing tm = false →
            tk.regs.handler = false → tk.regs.tvec ≠ 0 → tk.regs.poisonSr.getLsbD 16 = false → ∃ tm' tk', mapGet t u.teams = some tm' ∧
              tm'.members[m]? = some tk' ∧ tk.regs.Trapped tk'.regs 11 ∧ tk'.regs.epc = BitVec.ofNat 64 (tk.regs.pc + 4) ∧
              tk'.regs.tval = BitVec.ofNat 64 x.num ∧ tk'.arrived = none) ∧
    (∀ c, s.consumed = some c → mapSorted s.parts = true → Completes (exec .rollback s) fun u => u.rin = s.rin + 1 ∧
      u.sealed = s.sealed ∧ u.consumed = none ∧ u.sealing = none ∧ u.amoos = [] ∧
      (∀ vf q, mapGet vf s.parts = some q → ∃ q', mapGet vf u.parts = some q' ∧ q'.awaitAck = true ∧ q'.rollbacks = q.rollbacks + 1 ∧
        (∀ y ∈ q'.egress, y.rin ≤ s.sealed) ∧ ∀ y ∈ q'.log, y.rin ≤ s.sealed) ∧
      let undone := fun (line : Nat) (r : LogRec) => (∃ q ∈ s.parts, r ∈ q.2.log) ∧ s.sealed < r.rin ∧ r.kind ≠ 1 ∧ r.line = line
      ∀ line, (∀ y ∈ s.loose, 64 * line + 64 ≤ y.1 ∨ y.1 + 2 ^ y.2 ≤ 64 * line) → (∀ y ∈ s.parts, ∀ r ∈ y.2.log, r.data.length = 64) →
        (∀ r, undone line r → (∀ r', undone line r' → r' = r) → ∀ i, i < 64 → memRead u.mem (64 * line + i) = r.data.getD i 0) ∧
        ((∀ r, ¬ undone line r) → ∀ i, i < 64 → memRead u.mem (64 * line + i) = memRead s.mem (64 * line + i))) ∧
    (∀ (vf : BitVec 6) (q : Part), s.part vf.toNat = some q →
      let v := (s.readReg vf.toNat .prtRcvst).toNat
      v / 2 ^ 16 = s.sealed % 2 ^ 48 ∧ v / 2 ^ 8 % 2 ^ 8 = q.regs.fails % 2 ^ 8 ∧ v % 2 ^ 7 = q.logFill ∧
        bitAt v 7 = decide (95 ≤ q.logFill)) ∧
    ∀ (vf : BitVec 6) (v : Word) (q : Part), bitAt v.toNat 0 = true → s.part vf.toNat = some q →
      Completes (exec (.einjArm vf v) s) fun u => ∃ q', u.part vf.toNat = some q' ∧ q'.regs.einjArm = true ∧
        q'.regs.einjLine = bitsOf v.toNat 51 6 ∧ q'.regs.einjMin = q.regs.einjr

/-- With the packet at a fetching queue's read position of the event's type and no reserved byte set: an accepted LAUNCH is in
the pool; COPY starts, and its bytes move as far as the log holds them: it is done when all have, and else goes on later (log 132); WAITV of
a launch whose record is written and not tainted, CAPTURE and COUNT are done (COUNT adds to its counter, on a page that may be written; on
one that may not it is done and adds nothing, by the model's choice: log 13), SEAL waits for a requested seal; a tainted WAITV halts its
queue. The first write of the interval by COPY or COUNT to the line of a tracked page is logged. A packet that
is done moves the read position and the packet number on, which starts over behind a packet that an enabling met. A doorbell writes the
tail, and a control write the enable and size; an enabling starts the packet number over, behind a packet in progress. An invalidation keeps bit 63 until its entries are gone. RETRY frees the stalled access, and FAIL removes the team.
VF_RBACK lets fetching resume. The other registers store what is written, within their limits (what a value outside them leaves is the
model's choice: log 103), and SLT_BIND_HI submits its record with what SLT_BIND_LO holds. A snapshot latches until one is armed again; debug stops and resumes; an attestation report uses one
leaf. What a snapshot latches is the model's choice (log 116). -/
def Obligations.HostEvents : Prop :=
  ∀ (s : State) (vf : BitVec 6) (p : Part), s.part vf.toNat = some p →
    let n := vf.toNat
    let changed := fun (i : Instr) (post : State → Part → Prop) => Completes (exec i s) fun u => ∃ p', u.part n = some p' ∧ post u p'
    (∀ q : BitVec 3,
      let x := p.queues.get q.toFin
      let queue := fun (i : Instr) (post : State → Queue → Prop) => changed i fun u p' => post u (p'.queues.get q.toFin)
      let done := fun (y : Queue) => y.head = x.head + 1 ∧ y.pseq = (if x.restart then 0 else x.pseq + 1) ∧ y.busy = false
      let turn := fun (k : Nat) => s.fetches p x = true ∧ s.packet x 0 1 = k ∧ s.packet x 1 1 ≤ 1 ∧ s.packet x 2 6 = 0
      let f : Fetched := Fetched.mk n q p x
      (∀ bs s1 l, turn 1 → s.packet x 8 8 % 64 = 0 → s.hostHeader n (s.packet x 8 8) = some bs →
        (s.headerRead n [] (s.packet x 8 8)).submit n bs (Origin.mk none q (x.pseq + 1) (BitVec.ofNat 64 (s.packet x 16 8)) true x.window) = .accepted s1 l →
        queue (.launchPacket vf q) fun u y => done y ∧ (x.restart = false → mapGet (x.pseq + 1) y.launches = some l) ∧
          ∃ z, mapGet l u.launches = some z ∧ z.stage = .pooled ∧ z.vf = n) ∧
      (turn 2 → x.busy = false → s.copyOk p x = true → queue (.copyPacket vf q) fun u y => y.busy = true ∧ s.SameMemory u) ∧
      (∀ s1 all, turn 2 → x.busy = true → s.copyBytes q f = (s1, all) → queue (.copyPacketDone vf q) fun u y => u.mem = s1.mem ∧
        (all = true → done y) ∧ (all = false → y.head = x.head ∧ y.busy = true)) ∧
      (turn 2 → x.busy = true → s.packet x 28 4 = 0 → x.copied = 0 → ∀ pg, s.lookup n (s.packet x 16 8) [] = some pg → pg.kind = 0 →
        pg.writable = true → s.stalled n (pg.pa (s.packet x 16 8)) pg.tracked = false → s.packet x 24 4 ≤ 64 - s.packet x 16 8 % 64 →
        Completes (exec (.copyPacketDone vf q) s) fun u => s.SameMemoryBut u (pg.pa (s.packet x 16 8)) (s.packet x 24 4) ∧
          (0 < s.packet x 24 4 → s.Logs u n (pg.pa (s.packet x 16 8)) pg.tracked) ∧
          ∀ i, i < s.packet x 24 4 → memRead u.mem (pg.pa (s.packet x 16 8) + i) = memRead s.hostMem (s.packet x 8 8 + i)) ∧
      (∀ m l, turn 3 → mapGet (s.packet x 8 8) x.launches = some m → m ≠ rejectedLaunch → mapGet m s.launches = some l →
        l.posted = true → (l.verdict ≠ 2 → queue (.waitv vf q) fun _ y => done y) ∧
        (l.verdict = 2 → queue (.waitv vf q) fun _ y => y.halted = true ∧ y.hstat = 2 ∧ y.head = x.head)) ∧
      (turn 4 → queue (.captureStart vf q) fun _ y => done y ∧ y.window = true) ∧
      (turn 5 → queue (.captureStop vf q) fun _ y => done y ∧ y.window = false) ∧
      (turn 6 → x.busy = false → queue (.sealPacket vf q) fun u y => y.busy = true ∧ y.waitRin = some s.rin ∧
        (s.sealing = none → u.sealDue = true) ∧ (s.sealing ≠ none → u.sealPending = true)) ∧
      (∀ pg, turn 7 → s.packet x 8 8 % 8 = 0 → s.lookup n (s.packet x 8 8) [] = some pg → pg.writable = false →
        queue (.countPacket vf q) fun u y => done y ∧ s.SameMemory u) ∧
      (∀ pg, turn 7 → s.packet x 8 8 % 8 = 0 → s.lookup n (s.packet x 8 8) [] = some pg → pg.kind = 0 → pg.writable = true →
        s.stalled n (pg.pa (s.packet x 8 8)) pg.tracked = false → p.regs.einjArm = false →
        (∀ i, i < 8 → pg.pa (s.packet x 8 8) + i ∉ s.poisonMem) → queue (.countPacket vf q) fun u y => done y ∧
          s.SameMemoryBut u (pg.pa (s.packet x 8 8)) 8 ∧ memReadLE u.mem (pg.pa (s.packet x 8 8)) 8 =
            (s.pageLE pg (s.packet x 8 8) 8 + s.packet x 16 8) % 2 ^ 64 ∧ s.Logs u n (pg.pa (s.packet x 8 8)) pg.tracked) ∧
      (∀ v, queue (.queueDoorbell vf q v) fun _ y => y = { x with tail := v }) ∧
      (∀ v, queue (.queueCtlWrite vf q v) fun _ y => y.ctlEnable = bitAt v.toNat 31 ∧ y.log2 = bitsOf v.toNat 4 0 ∧
        (x.halted = true → bitAt v.toNat 31 = true → y.halted = false ∧ y.head = x.head + 1) ∧
        (x.halted = false → y.halted = false ∧ y.head = x.head) ∧
        (bitAt v.toNat 31 = true → x.ctlEnable = false → if x.busy then y.restart = true else y.pseq = 0)) ∧
      ∀ v, queue (.registerWrite vf (.vfQbase q) v) fun _ y => y = { x with base := v }) ∧
    (changed (.tlbInvalidateAll vf) fun _ p' => bitAt p'.regs.tlbinv.toNat 63 = true ∧ bitAt p'.regs.tlbinv.toNat 0 = true) ∧
    (∀ v : Word, bitAt v.toNat 0 = false → changed (.tlbInvalidatePage vf v) fun _ p' => bitAt p'.regs.tlbinv.toNat 63 = true ∧
      bitAt p'.regs.tlbinv.toNat 0 = false ∧ bitsOf p'.regs.tlbinv.toNat 48 16 = bitsOf v.toNat 48 16) ∧
    (bitAt p.regs.tlbinv.toNat 63 = true → changed (.tlbInvalidateDone vf) fun _ p' => bitAt p'.regs.tlbinv.toNat 63 = false ∧
      (bitAt p.regs.tlbinv.toNat 0 = true → p'.tlb = []) ∧
      (bitAt p.regs.tlbinv.toNat 0 = false → ∀ via, p'.cached via (bitsOf p.regs.tlbinv.toNat 48 16 * 65536) = none)) ∧
    (∀ (num : BitVec 32) (z : Stall), s.stalledBy n num = some z →
      (z.txq = true → changed (.fqansRetry vf num) fun _ p' => p'.stalls = p.stalls.filter fun y => y ≠ z) ∧
      (∀ tm tk c, z.txq = false → s.task z.team z.member = some (tm, tk) → tk.cmd (BitVec.ofNat 4 z.tl) z.num = some c →
        c.kind.isOut = false → changed (.fqansRetry vf num) fun u p' => p'.stalls = p.stalls.filter (fun y => y ≠ z) ∧
          ∃ tm' tk', u.task z.team z.member = some (tm', tk') ∧
            tk'.cmd (BitVec.ofNat 4 z.tl) z.num = some { c with stall := none }) ∧
      (∀ tm, mapGet z.team s.teams = some tm → tm.vf = n → p.fqFull = false → s.failing tm = false → changed (.fqansFail vf num) fun u p' =>
        mapGet z.team u.teams = none ∧ p'.regs.fqtail = p.regs.fqtail + 1)) ∧
    (changed (.vfRback vf) fun _ p' => p'.awaitAck = false) ∧
    (∀ v : Word,
      let low := v.toNat % 2 ^ 32
      let reg := fun (r : RegName) (post : PartRegs → Prop) => changed (.registerWrite vf r v) fun _ p' => post p'.regs
      reg .vfPtroot (fun y => y = { p.regs with ptroot := v }) ∧ reg .vfFqbase (fun y => y = { p.regs with fqbase := v }) ∧
      reg .vfRbbase (fun y => y = { p.regs with rbbase := v }) ∧ reg .vfDlbase (fun y => y = { p.regs with dlbase := v }) ∧
      reg .vfDlhead (fun y => y = { p.regs with dlhead := v }) ∧ reg .vfFqhead (fun y => y.fqhead = v ∧
        (p.waitingRecs = [] → y = { p.regs with fqhead := v })) ∧
      reg .vfIntmask (fun y => y = { p.regs with intmask := v.setWidth 8 }) ∧
      reg .prtSeal (fun y => y = { p.regs with sealPeriod := if low < 60000 then 60000 else if 60000000 < low then 60000000 else low }) ∧
      reg .prtMkdl (fun y => y = { p.regs with mkdl := max 6000 low }) ∧
      reg .prtEinjr (fun y => y = { p.regs with einjr := v.toNat % 2 ^ 48 }) ∧
      reg .prtEinja (fun y => y.einjArm = bitAt v.toNat 0 ∧ y.einjLine = bitsOf v.toNat 51 6) ∧
      (∀ die : BitVec 4, die.toNat < 12 → (Completes (exec (.registerWrite vf (.sltWdog die) v) s) fun u =>
          (u.slotTable die.toNat).wdog = max 65536 low) ∧
        (Completes (exec (.registerWrite vf (.sltBindLo die) v) s) fun u => (u.slotTable die.toNat).bindLo = v) ∧
        let rec_ := v ++ (s.slotTable die.toNat).bindLo
        exec (.registerWrite vf (.sltBindHi die) v) s = (if (bindRec rec_).op = 1 then exec (.move die rec_) s
          else if (bindRec rec_).op = 2 then exec (.withdraw die rec_) s else exec (.bind die rec_) s)) ∧
      (∀ d : BitVec 8, v.toNat < 8 → Completes (exec (.registerWrite vf (.spanRoute d) v) s) fun u =>
        mapGet d.toNat u.spanRoute = some v.toNat) ∧
      (changed (.registerWrite vf .debugArm v) fun _ p' => p'.dbg.armed = bitAt v.toNat 0) ∧
      (changed (.registerWrite vf .snapArmBrk v) fun _ p' => p'.dbg.snapBrk = bitAt v.toNat 0 ∧
        p'.dbg.latched = if bitAt v.toNat 0 then none else p.dbg.latched) ∧
      (changed (.registerWrite vf .snapArmRegion v) fun _ p' => p'.dbg.snapRegion = bitAt v.toNat 0 ∧
        p'.dbg.latched = if bitAt v.toNat 0 then none else p.dbg.latched) ∧
      changed (.registerWrite vf .swapEnable v) fun _ p' => p'.swaps = bitAt v.toNat 0) ∧
    (changed (.snapshotTrigger vf) fun _ p' => p'.dbg.snapBrk = false ∧ p'.dbg.snapRegion = false ∧
      (∀ x, p.dbg.latched = some x → p'.dbg.latched = some x) ∧
      (p.dbg.latched = none → ∃ x, p'.dbg.latched = some x ∧ x.clk = s.clk ∧ x.regs = p.regs ∧ x.queues = p.queues ∧
        x.heaps = p.heaps ∧ x.egress = p.egress ∧ x.log = p.log ∧ x.tlb = p.tlb ∧ x.stalls = p.stalls ∧
        x.waitingRecs = p.waitingRecs ∧ (∀ y ∈ s.amoos, (y ∈ x.amoos ↔ ∃ tm, mapGet y.team s.teams = some tm ∧ tm.vf = n)) ∧
        x.teams = s.teams.filter (fun t => t.2.vf = n) ∧ x.launches = s.launches.filter fun l => l.2.vf = n)) ∧
    (changed (.debugStopRequest vf) fun _ p' => p'.dbg.stopReq = true) ∧
    (changed (.debugResume vf) fun _ p' => p'.dbg.stopReq = false) ∧
    ∀ nonce, s.power = .on → s.flash.leaf < Config.xmssLeaves → Completes (exec (.attestationReport nonce) s) fun u =>
      u.flash.leaf = s.flash.leaf + 1 ∧
      u.reports = s.reports ++ [s.flash.report nonce ++ Config.xmssSign s.flash.leaf (s.flash.report nonce)]

/-- A partition whose description keeps its limits, clashes with no other, takes nothing that bring-up mapped out and leaves the shares of
every port at 256 or less is made with empty queues; a destroyed one is gone with its teams, at work or not (log 58); a resized one has its
new sprigs, banks, pseudo-channel groups and L2 mode, and every value as before. A valid stencil table stands in its slot. A
refresh changes nothing. The clock steps by 25 MHz within 300 to 600. A junction trip removes partitions, teams and memory
and keeps flash and host memory. Bring-up with every step passing turns the module on with interval 1 open, and what the alternatives of
steps 3 to 5 found failing mapped out; after a trip the start records step 1 as failed. An uncorrectable error poisons its line, written
version, granule bytes, replay token, slot or row, upsets the run of the next tile (which run it falsifies: log 70), or is a region error of
a running thicket; that it poisons the 64 bytes around the hit is log 105. A peer's write of an aligned word lands in committed memory,
and its first write of the interval to the line appends the line's pre-image to the umbra log of the lowest partition, as for a tracked page
(log 60). Each log entry named is a choice of the model. -/
def Obligations.ModuleEvents : Prop :=
  ∀ (s : State),
    (∀ (vf : BitVec 6) (d : PartDesc),
      (s.power = .on → s.part vf.toNat = none → descOk d = true → mappedOut s.out d = false →
        (∀ q ∈ s.parts, descClash d q.2.desc = false) → sharesOk (d :: s.parts.map fun q => q.2.desc) = true →
        Completes (exec (.partitionCreate vf d) s) fun u => u.part vf.toNat = some (Part.start d s.rin) ∧ s.SameMemory u) ∧
      (Completes (exec (.partitionDestroy vf) s) fun u => u.part vf.toNat = none ∧ s.SameMemory u ∧
        ∀ t ∈ u.teams, t.2.vf ≠ vf.toNat) ∧
      (∀ p, s.part vf.toNat = some p → s.sealing = none →
        let new := { p.desc with sprigs := d.sprigs, wbanks := d.wbanks, hbmGroups := d.hbmGroups, sharedGroup := d.sharedGroup,
                                 logSize := some (logBytes p.desc) }
        descOk new = true → mappedOut s.out new = false → (∀ q ∈ s.parts, q.1 ≠ vf.toNat → descClash new q.2.desc = false) →
        s.outside vf.toNat d.sprigs = false → Completes (exec (.partitionResize vf d) s) fun u => s.SameMemory u ∧
          u.part vf.toNat = some { p with desc := new }) ∧
      (∀ p slot tab, s.part vf.toNat = some p → stencilOk tab = true → Completes (exec (.stencilTableInstall vf slot tab) s) fun u =>
        ∃ p', u.part vf.toNat = some p' ∧ mapGet slot.toNat p'.stencils = some tab)) ∧
    (Completes (exec .weightStoreRefresh s) fun u => u = s) ∧
    (∀ up, s.power = .on → Completes (exec (.thermalClockStep up) s) fun u => u.mem = s.mem ∧ u.clk = s.clk ∧
      u.mhz = if up then min 600 (s.mhz + 25) else max 300 (s.mhz - 25)) ∧
    (Completes (exec .junctionTrip s) fun u => u.power = .tripped ∧ u.parts = [] ∧ u.teams = [] ∧ u.mem = [] ∧ u.flash = s.flash ∧
      u.hostMem = s.hostMem) ∧
    (∀ fail alt, s.power = .off → (bringUp fail alt.fail [1, 2, 3, 4, 5, 6, 7, 8] s.flash).2 = true →
      Completes (exec (.powerOn fail alt) s) fun u => u.power = .on ∧ u.rin = 1 ∧ u.sealed = 0 ∧ u.parts = [] ∧
        u.pemap = u.flash.pemaps ∧ u.own = s.flash.domain ∧
        u.flash.status = (bringUp fail alt.fail [1, 2, 3, 4, 5, 6, 7, 8] s.flash).1.status ∧
        (u.flash.status.get 2 = 3 → u.out.groups = alt.out.groups) ∧ (u.flash.status.get 3 = 3 → u.out.banks = alt.out.banks) ∧
        (u.flash.status.get 4 = 3 → u.out.sprigs = alt.out.sprigs)) ∧
    (∀ fail alt, s.power = .tripped → Completes (exec (.powerOn fail alt) s) fun u => u.power = .stopped ∧
      u.flash.status.get 0 = 2) ∧
    (∀ a : BitVec 52, Completes (exec (.uncorrectableEccError (.memory a)) s) fun u => u.mem = s.mem ∧
      ∀ i, i < 64 → a.toNat / 64 * 64 + i ∈ u.poisonMem) ∧
    (∀ (vf : BitVec 6) (o : BitVec 30) (p : Part), s.part vf.toNat = some p →
      Completes (exec (.uncorrectableEccError (.weight vf o)) s) fun u => ∃ p', u.part vf.toNat = some p' ∧ p'.wstore = p.wstore ∧
        ∀ i, i < 64 → o.toNat / 64 * 64 + i ∈ p'.poisonW) ∧
    (∀ c : Cur, s.Issues c →
      (∀ twice, c.Becomes s (exec (.uncorrectableEccError (.tile twice)) s) fun tk => tk.mxe.upset = (if twice then 2 else 1) ∧
        tk.mxe.rows = c.task.mxe.rows ∧ tk.mxe.slots = c.task.mxe.slots) ∧
      (∀ (a : BitVec 52) (g : Seg), c.team.openSeg = some g →
        Completes (exec (.uncorrectableEccError (.version g.seq a)) s) fun u => s.SameMemory u ∧ ∃ (c' : Cur) (g' : Seg), u.cur = some c' ∧
          c'.team.openSeg = some g' ∧ g'.fin = g.fin ∧ ∀ i, i < 64 → (mapGet (a.toNat / 64 * 64 + i) g.fin).isSome = true →
            a.toNat / 64 * 64 + i ∈ g'.poison) ∧
      (∀ o : BitVec 16, c.team.carve.exchange = true → c.Becomes s (exec (.uncorrectableEccError (.shadow o)) s) fun tk =>
        tk.shadow = c.task.shadow ∧ ∀ i, i < 64 → (if c.task.shadowSel then 2 ^ 23 else 2 ^ 22) + (o.toNat / 64 * 64 + i) ∈ tk.poisonS) ∧
      (∀ o : BitVec 22, c.Becomes s (exec (.uncorrectableEccError (.program o)) s) fun tk => tk.prog = c.task.prog ∧
        ∀ i, i < 64 → tk.progBad (o.toNat / 64 * 64 + i) 1 = true) ∧
      (∀ (n : BitVec 4) (k : BitVec 10) (g : Nat) (y : Token), (c.task.src n).replay[k.toNat]? = some (g, y) →
        c.Becomes s (exec (.uncorrectableEccError (.replay n k)) s) fun tk =>
          (tk.src n).replay[k.toNat]? = some (g, { y with poison := true })) ∧
      (∀ o : BitVec 22, c.Becomes s (exec (.uncorrectableEccError (.scratch o)) s) fun tk => tk.spad = c.task.spad ∧
        ∀ i, i < 64 → c.task.spadKey c.team.carve (o.toNat / 64 * 64 + i) ∈ tk.poisonS) ∧
      (∀ (n : BitVec 7) (y : Slot), mapGet n.toNat c.task.mxe.slots = some y →
        c.Becomes s (exec (.uncorrectableEccError (.slot n)) s) fun tk =>
          mapGet n.toNat tk.mxe.slots = some { y with poison := true }) ∧
      (∀ n : BitVec 9, c.Becomes s (exec (.uncorrectableEccError (.row n)) s) fun tk =>
        tk.mxe.row n.toNat = { c.task.mxe.row n.toNat with poison := true }) ∧
      ∀ (t : BitVec 2) (p : Place) (e : Elem), (c.task.th t).st = .running → (c.task.th t).elem (placeKey p) = some e →
        (c.task.th t).err = none → c.Becomes s (exec (.uncorrectableEccError (.element t p)) s) fun tk =>
          (tk.th t).err = some (placeKey p, false)) ∧
    ∀ (a : BitVec 52) (v : Word) (wide : Bool),
      let n := if wide then 8 else 4
      s.power = .on → a.toNat % n = 0 → s.stalled ((s.parts.map (·.1)).headD 0) a.toNat true = false →
      Completes (exec (.peerWriteArrival a v wide) s) fun u => s.SameMemoryBut u a.toNat n ∧
        s.Logs u ((s.parts.map (·.1)).headD 0) a.toNat true ∧
        memReadLE u.mem a.toNat n = v.toNat % 2 ^ (8 * n)
end

