-- ==== Sys2Proof/Laws/Memory.lean ====
section
/-! SUPPORT. Sparse maps and byte memories: a read after a write, and the canonical form that every operation keeps. -/

set_option Elab.async false

namespace Sys2Proof.Machine

/-! ## Sparse maps -/

@[simp] theorem mapGet_mapSet_same (k : Nat) (x : α) (m : List (Nat × α)) : mapGet k (mapSet k x m) = some x := by
  induction m with
  | nil => simp [mapSet, mapGet]
  | cons h t ih =>
    obtain ⟨j, y⟩ := h
    unfold mapSet
    split
    · simp [mapGet]
    · split
      · simp [mapGet]
      · rename_i h1 h2
        simp [mapGet, Ne.symm h2, ih]

theorem mapGet_mapSet_other {k j : Nat} (h : j ≠ k) (x : α) (m : List (Nat × α)) : mapGet j (mapSet k x m) = mapGet j m := by
  induction m with
  | nil => simp [mapSet, mapGet, Ne.symm h]
  | cons p t ih =>
    obtain ⟨i, y⟩ := p
    unfold mapSet
    split
    · simp [mapGet, Ne.symm h]
    · split
      · rename_i h1 h2
        subst h2
        simp [mapGet, Ne.symm h]
      · simp [mapGet, ih]

@[simp] theorem mapGet_mapErase_same (k : Nat) (m : List (Nat × α)) : mapGet k (mapErase k m) = none := by
  induction m with
  | nil => rfl
  | cons p t ih =>
    obtain ⟨i, y⟩ := p
    by_cases h : i = k
    · simpa [mapErase, h] using ih
    · simpa [mapErase, h, mapGet] using ih

theorem mapGet_mapErase_other {k j : Nat} (h : j ≠ k) (m : List (Nat × α)) : mapGet j (mapErase k m) = mapGet j m := by
  induction m with
  | nil => rfl
  | cons p t ih =>
    obtain ⟨i, y⟩ := p
    by_cases h1 : i = k
    · have h2 : ¬ i = j := fun e => h (e.symm.trans h1)
      simpa [mapErase, h1, mapGet, Ne.symm h] using ih
    · simp only [mapErase, ne_eq, h1, not_false_eq_true, decide_true, List.filter_cons_of_pos, mapGet] at *
      split
      · rfl
      · simpa using ih

/-- The keys of a sorted map lie above a bound. -/
def keysAbove (b : Nat) (m : List (Nat × α)) : Prop := ∀ p ∈ m, b < p.1

theorem mapSorted_cons (j : Nat) (x : α) (m : List (Nat × α)) : mapSorted ((j, x) :: m) = true ↔ keysAbove j m ∧ mapSorted m = true := by
  induction m generalizing j x with
  | nil => simp [mapSorted, keysAbove]
  | cons p t ih =>
    obtain ⟨k, y⟩ := p
    simp only [mapSorted, Bool.and_eq_true, decide_eq_true_eq]
    constructor
    · rintro ⟨h1, h2⟩
      refine ⟨?_, h2⟩
      intro q hq
      rcases List.mem_cons.mp hq with rfl | hq
      · exact h1
      · exact Nat.lt_trans h1 (((ih k y).mp h2).1 q hq)
    · rintro ⟨h1, h2⟩
      exact ⟨h1 (k, y) (by simp), h2⟩

theorem mem_mapSet {k : Nat} {x : α} {m : List (Nat × α)} {p : Nat × α} (h : p ∈ mapSet k x m) : p = (k, x) ∨ p ∈ m := by
  induction m with
  | nil => simpa [mapSet] using h
  | cons q t ih =>
    obtain ⟨j, y⟩ := q
    unfold mapSet at h
    split at h
    · simpa using h
    · split at h
      · rcases List.mem_cons.mp h with h | h
        · exact .inl h
        · exact .inr (List.mem_cons_of_mem _ h)
      · rcases List.mem_cons.mp h with h | h
        · exact .inr (h ▸ List.mem_cons_self)
        · rcases ih h with h | h
          · exact .inl h
          · exact .inr (List.mem_cons_of_mem _ h)

theorem mapSorted_mapSet (k : Nat) (x : α) (m : List (Nat × α)) (h : mapSorted m = true) : mapSorted (mapSet k x m) = true := by
  induction m with
  | nil => rfl
  | cons p t ih =>
    obtain ⟨j, y⟩ := p
    have hc := (mapSorted_cons j y t).mp h
    unfold mapSet
    split
    · rename_i hk
      refine (mapSorted_cons _ _ _).mpr ⟨?_, h⟩
      intro q hq
      rcases List.mem_cons.mp hq with rfl | hq
      · exact hk
      · exact Nat.lt_trans hk (hc.1 q hq)
    · split
      · rename_i hk
        subst hk
        exact (mapSorted_cons _ _ _).mpr hc
      · rename_i h1 h2
        refine (mapSorted_cons _ _ _).mpr ⟨?_, ih hc.2⟩
        intro q hq
        rcases mem_mapSet hq with rfl | hq
        · show j < k
          omega
        · exact hc.1 q hq

theorem mapSorted_filter (f : Nat × α → Bool) (m : List (Nat × α)) (h : mapSorted m = true) : mapSorted (m.filter f) = true := by
  induction m with
  | nil => rfl
  | cons p t ih =>
    obtain ⟨j, y⟩ := p
    have hc := (mapSorted_cons j y t).mp h
    by_cases hf : f (j, y) = true
    · rw [List.filter_cons_of_pos hf]
      exact (mapSorted_cons _ _ _).mpr ⟨fun q hq => hc.1 q (List.mem_filter.mp hq).1, ih hc.2⟩
    · rw [List.filter_cons_of_neg hf]
      exact ih hc.2

/-! ## Reads after writes -/

@[simp] theorem memRead_memWrite_same (m : Mem) (a : Nat) (b : Byte) : memRead (memWrite m a b) a = b := by
  unfold memWrite memRead
  split
  · rename_i h
    simp [h]
  · simp

theorem memRead_memWrite_other {a c : Nat} (h : c ≠ a) (m : Mem) (b : Byte) : memRead (memWrite m a b) c = memRead m c := by
  unfold memWrite memRead
  split
  · rw [mapGet_mapErase_other h]
  · rw [mapGet_mapSet_other h]

theorem memRead_memWriteBytes_outside (m : Mem) (a : Nat) (bs : List Byte) (c : Nat) (h : c < a ∨ a + bs.length ≤ c) :
    memRead (memWriteBytes m a bs) c = memRead m c := by
  induction bs generalizing m a with
  | nil => rfl
  | cons b bs ih =>
    simp only [List.length_cons] at h
    rw [memWriteBytes, ih _ _ (by omega), memRead_memWrite_other (by omega)]

theorem memRead_memWriteBytes_inside (m : Mem) (a : Nat) (bs : List Byte) (i : Nat) (h : i < bs.length) :
    memRead (memWriteBytes m a bs) (a + i) = bs.getD i 0 := by
  induction bs generalizing m a i with
  | nil => simp at h
  | cons b bs ih =>
    rw [memWriteBytes]
    cases i with
    | zero =>
      rw [Nat.add_zero, memRead_memWriteBytes_outside _ _ _ _ (by omega)]
      simp
    | succ i =>
      rw [show a + (i + 1) = a + 1 + i by omega, ih _ _ _ (by simpa using h)]
      rfl

/-! ## Little-endian numbers (R24) -/

@[simp] theorem leBytes_length (n v : Nat) : (leBytes n v).length = n := by
  induction n generalizing v with
  | zero => rfl
  | succ n ih => simp [leBytes, ih]

theorem leNat_leBytes (n v : Nat) : leNat (leBytes n v) = v % 256 ^ n := by
  induction n generalizing v with
  | zero => simp [leBytes, leNat, Nat.mod_one]
  | succ n ih =>
    rw [leBytes, leNat, ih, Nat.pow_succ, Nat.mul_comm (256 ^ n) 256, Nat.mod_mul]
    simp

theorem memReadBytes_memWriteBytes (m : Mem) (a : Nat) (bs : List Byte) : memReadBytes (memWriteBytes m a bs) a bs.length = bs := by
  induction bs generalizing m a with
  | nil => rfl
  | cons b bs ih =>
    rw [memWriteBytes, List.length_cons, memReadBytes, ih, memRead_memWriteBytes_outside _ _ _ _ (by omega)]
    simp

theorem memReadLE_memWriteBytes (m : Mem) (a n v : Nat) : memReadLE (memWriteBytes m a (leBytes n v)) a n = v % 256 ^ n := by
  have h := memReadBytes_memWriteBytes m a (leBytes n v)
  rw [leBytes_length] at h
  rw [memReadLE, h, leNat_leBytes]

/-! ## The canonical form -/

theorem Memory.wf_memWrite (m : Mem) (a : Nat) (b : Byte) (h : Memory.wf m = true) : Memory.wf (memWrite m a b) = true := by
  unfold Memory.wf memWrite at *
  simp only [Bool.and_eq_true, List.all_eq_true, decide_eq_true_eq, ne_eq] at *
  split
  · refine ⟨mapSorted_filter _ m h.1, ?_⟩
    intro p hp
    exact h.2 p (List.mem_filter.mp hp).1
  · rename_i hb
    refine ⟨mapSorted_mapSet a b m h.1, ?_⟩
    intro p hp
    rcases mem_mapSet hp with rfl | hp
    · exact hb
    · exact h.2 p hp

theorem Memory.wf_memWriteBytes (m : Mem) (a : Nat) (bs : List Byte) (h : Memory.wf m = true) :
    Memory.wf (memWriteBytes m a bs) = true := by
  induction bs generalizing m a with
  | nil => exact h
  | cons b bs ih => exact ih _ _ (Memory.wf_memWrite m a b h)

theorem Memory.wf_memWriteLE (m : Mem) (a n v : Nat) (h : Memory.wf m = true) : Memory.wf (memWriteLE m a n v) = true :=
  Memory.wf_memWriteBytes m a _ h

theorem Memory.wf_memFilter (m : Mem) (f : Nat → Bool) (h : Memory.wf m = true) : Memory.wf (memFilter m f) = true := by
  unfold Memory.wf memFilter at *
  simp only [Bool.and_eq_true, List.all_eq_true, decide_eq_true_eq, ne_eq] at *
  exact ⟨mapSorted_filter _ m h.1, fun p hp => h.2 p (List.mem_filter.mp hp).1⟩

theorem Memory.wf_reset : Memory.wf State.reset.mem = true := rfl

end Sys2Proof.Machine
end

