-- ==== Sys2Proof/Laws/State.lean ====
section
/-! SUPPORT. The fields that each update of the state leaves as they are, field by field, and the fields that it sets. -/

set_option Elab.async false

namespace Sys2Proof.Machine

/-! ## Updates of the state -/

/-! ### State.setTeam -/

@[simp] theorem State.setTeam_agenda (s : State) (t : Nat) (tm : Team) : (s.setTeam t tm).agenda = s.agenda := rfl
@[simp] theorem State.setTeam_focus (s : State) (t : Nat) (tm : Team) : (s.setTeam t tm).focus = s.focus := rfl
@[simp] theorem State.setTeam_fresh (s : State) (t : Nat) (tm : Team) : (s.setTeam t tm).fresh = s.fresh := rfl
@[simp] theorem State.setTeam_clk (s : State) (t : Nat) (tm : Team) : (s.setTeam t tm).clk = s.clk := rfl
@[simp] theorem State.setTeam_mem (s : State) (t : Nat) (tm : Team) : (s.setTeam t tm).mem = s.mem := rfl
@[simp] theorem State.setTeam_poisonMem (s : State) (t : Nat) (tm : Team) : (s.setTeam t tm).poisonMem = s.poisonMem := rfl
@[simp] theorem State.setTeam_prev (s : State) (t : Nat) (tm : Team) : (s.setTeam t tm).prev = s.prev := rfl
@[simp] theorem State.setTeam_loose (s : State) (t : Nat) (tm : Team) : (s.setTeam t tm).loose = s.loose := rfl
@[simp] theorem State.setTeam_hostMem (s : State) (t : Nat) (tm : Team) : (s.setTeam t tm).hostMem = s.hostMem := rfl
@[simp] theorem State.setTeam_out (s : State) (t : Nat) (tm : Team) : (s.setTeam t tm).out = s.out := rfl
@[simp] theorem State.setTeam_parts (s : State) (t : Nat) (tm : Team) : (s.setTeam t tm).parts = s.parts := rfl
@[simp] theorem State.setTeam_launches (s : State) (t : Nat) (tm : Team) : (s.setTeam t tm).launches = s.launches := rfl
@[simp] theorem State.setTeam_teams (s : State) (t : Nat) (tm : Team) : (s.setTeam t tm).teams = mapSet t tm s.teams := rfl
@[simp] theorem State.setTeam_amoos (s : State) (t : Nat) (tm : Team) : (s.setTeam t tm).amoos = s.amoos := rfl
@[simp] theorem State.setTeam_waits (s : State) (t : Nat) (tm : Team) : (s.setTeam t tm).waits = s.waits := rfl
@[simp] theorem State.setTeam_glints (s : State) (t : Nat) (tm : Team) : (s.setTeam t tm).glints = s.glints := rfl
@[simp] theorem State.setTeam_nextLaunch (s : State) (t : Nat) (tm : Team) : (s.setTeam t tm).nextLaunch = s.nextLaunch := rfl
@[simp] theorem State.setTeam_nextTeam (s : State) (t : Nat) (tm : Team) : (s.setTeam t tm).nextTeam = s.nextTeam := rfl
@[simp] theorem State.setTeam_rin (s : State) (t : Nat) (tm : Team) : (s.setTeam t tm).rin = s.rin := rfl
@[simp] theorem State.setTeam_sealed (s : State) (t : Nat) (tm : Team) : (s.setTeam t tm).sealed = s.sealed := rfl
@[simp] theorem State.setTeam_sealCopy (s : State) (t : Nat) (tm : Team) : (s.setTeam t tm).sealCopy = s.sealCopy := rfl
@[simp] theorem State.setTeam_sealing (s : State) (t : Nat) (tm : Team) : (s.setTeam t tm).sealing = s.sealing := rfl
@[simp] theorem State.setTeam_sealPending (s : State) (t : Nat) (tm : Team) : (s.setTeam t tm).sealPending = s.sealPending := rfl
@[simp] theorem State.setTeam_sealDue (s : State) (t : Nat) (tm : Team) : (s.setTeam t tm).sealDue = s.sealDue := rfl
@[simp] theorem State.setTeam_sealClk (s : State) (t : Nat) (tm : Team) : (s.setTeam t tm).sealClk = s.sealClk := rfl
@[simp] theorem State.setTeam_consumed (s : State) (t : Nat) (tm : Team) : (s.setTeam t tm).consumed = s.consumed := rfl
@[simp] theorem State.setTeam_own (s : State) (t : Nat) (tm : Team) : (s.setTeam t tm).own = s.own := rfl
@[simp] theorem State.setTeam_domain (s : State) (t : Nat) (tm : Team) : (s.setTeam t tm).domain = s.domain := rfl
@[simp] theorem State.setTeam_spanRoute (s : State) (t : Nat) (tm : Team) : (s.setTeam t tm).spanRoute = s.spanRoute := rfl
@[simp] theorem State.setTeam_spanDrop (s : State) (t : Nat) (tm : Team) : (s.setTeam t tm).spanDrop = s.spanDrop := rfl
@[simp] theorem State.setTeam_peerOut (s : State) (t : Nat) (tm : Team) : (s.setTeam t tm).peerOut = s.peerOut := rfl
@[simp] theorem State.setTeam_slt (s : State) (t : Nat) (tm : Team) : (s.setTeam t tm).slt = s.slt := rfl
@[simp] theorem State.setTeam_pemap (s : State) (t : Nat) (tm : Team) : (s.setTeam t tm).pemap = s.pemap := rfl
@[simp] theorem State.setTeam_swapAt (s : State) (t : Nat) (tm : Team) : (s.setTeam t tm).swapAt = s.swapAt := rfl
@[simp] theorem State.setTeam_swapTicks (s : State) (t : Nat) (tm : Team) : (s.setTeam t tm).swapTicks = s.swapTicks := rfl
@[simp] theorem State.setTeam_mhz (s : State) (t : Nat) (tm : Team) : (s.setTeam t tm).mhz = s.mhz := rfl
@[simp] theorem State.setTeam_power (s : State) (t : Nat) (tm : Team) : (s.setTeam t tm).power = s.power := rfl
@[simp] theorem State.setTeam_flash (s : State) (t : Nat) (tm : Team) : (s.setTeam t tm).flash = s.flash := rfl
@[simp] theorem State.setTeam_reports (s : State) (t : Nat) (tm : Team) : (s.setTeam t tm).reports = s.reports := rfl

/-! ### State.tick -/

@[simp] theorem State.tick_agenda (s : State) : (s.tick).agenda = s.agenda := rfl
@[simp] theorem State.tick_focus (s : State) : (s.tick).focus = s.focus := rfl
@[simp] theorem State.tick_fresh (s : State) : (s.tick).fresh = s.fresh + 1 := rfl
@[simp] theorem State.tick_clk (s : State) : (s.tick).clk = s.clk := rfl
@[simp] theorem State.tick_mem (s : State) : (s.tick).mem = s.mem := rfl
@[simp] theorem State.tick_poisonMem (s : State) : (s.tick).poisonMem = s.poisonMem := rfl
@[simp] theorem State.tick_prev (s : State) : (s.tick).prev = s.prev := rfl
@[simp] theorem State.tick_loose (s : State) : (s.tick).loose = s.loose := rfl
@[simp] theorem State.tick_hostMem (s : State) : (s.tick).hostMem = s.hostMem := rfl
@[simp] theorem State.tick_out (s : State) : (s.tick).out = s.out := rfl
@[simp] theorem State.tick_parts (s : State) : (s.tick).parts = s.parts := rfl
@[simp] theorem State.tick_launches (s : State) : (s.tick).launches = s.launches := rfl
@[simp] theorem State.tick_teams (s : State) : (s.tick).teams = s.teams := rfl
@[simp] theorem State.tick_amoos (s : State) : (s.tick).amoos = s.amoos := rfl
@[simp] theorem State.tick_waits (s : State) : (s.tick).waits = s.waits := rfl
@[simp] theorem State.tick_glints (s : State) : (s.tick).glints = s.glints := rfl
@[simp] theorem State.tick_nextLaunch (s : State) : (s.tick).nextLaunch = s.nextLaunch := rfl
@[simp] theorem State.tick_nextTeam (s : State) : (s.tick).nextTeam = s.nextTeam := rfl
@[simp] theorem State.tick_rin (s : State) : (s.tick).rin = s.rin := rfl
@[simp] theorem State.tick_sealed (s : State) : (s.tick).sealed = s.sealed := rfl
@[simp] theorem State.tick_sealCopy (s : State) : (s.tick).sealCopy = s.sealCopy := rfl
@[simp] theorem State.tick_sealing (s : State) : (s.tick).sealing = s.sealing := rfl
@[simp] theorem State.tick_sealPending (s : State) : (s.tick).sealPending = s.sealPending := rfl
@[simp] theorem State.tick_sealDue (s : State) : (s.tick).sealDue = s.sealDue := rfl
@[simp] theorem State.tick_sealClk (s : State) : (s.tick).sealClk = s.sealClk := rfl
@[simp] theorem State.tick_consumed (s : State) : (s.tick).consumed = s.consumed := rfl
@[simp] theorem State.tick_own (s : State) : (s.tick).own = s.own := rfl
@[simp] theorem State.tick_domain (s : State) : (s.tick).domain = s.domain := rfl
@[simp] theorem State.tick_spanRoute (s : State) : (s.tick).spanRoute = s.spanRoute := rfl
@[simp] theorem State.tick_spanDrop (s : State) : (s.tick).spanDrop = s.spanDrop := rfl
@[simp] theorem State.tick_peerOut (s : State) : (s.tick).peerOut = s.peerOut := rfl
@[simp] theorem State.tick_slt (s : State) : (s.tick).slt = s.slt := rfl
@[simp] theorem State.tick_pemap (s : State) : (s.tick).pemap = s.pemap := rfl
@[simp] theorem State.tick_swapAt (s : State) : (s.tick).swapAt = s.swapAt := rfl
@[simp] theorem State.tick_swapTicks (s : State) : (s.tick).swapTicks = s.swapTicks := rfl
@[simp] theorem State.tick_mhz (s : State) : (s.tick).mhz = s.mhz := rfl
@[simp] theorem State.tick_power (s : State) : (s.tick).power = s.power := rfl
@[simp] theorem State.tick_flash (s : State) : (s.tick).flash = s.flash := rfl
@[simp] theorem State.tick_reports (s : State) : (s.tick).reports = s.reports := rfl

/-! ### State.hostWrite -/

@[simp] theorem State.hostWrite_agenda (s : State) (a : Nat) (bs : List Byte) : (s.hostWrite a bs).agenda = s.agenda := rfl
@[simp] theorem State.hostWrite_focus (s : State) (a : Nat) (bs : List Byte) : (s.hostWrite a bs).focus = s.focus := rfl
@[simp] theorem State.hostWrite_fresh (s : State) (a : Nat) (bs : List Byte) : (s.hostWrite a bs).fresh = s.fresh := rfl
@[simp] theorem State.hostWrite_clk (s : State) (a : Nat) (bs : List Byte) : (s.hostWrite a bs).clk = s.clk := rfl
@[simp] theorem State.hostWrite_mem (s : State) (a : Nat) (bs : List Byte) : (s.hostWrite a bs).mem = s.mem := rfl
@[simp] theorem State.hostWrite_poisonMem (s : State) (a : Nat) (bs : List Byte) : (s.hostWrite a bs).poisonMem = s.poisonMem := rfl
@[simp] theorem State.hostWrite_prev (s : State) (a : Nat) (bs : List Byte) : (s.hostWrite a bs).prev = s.prev := rfl
@[simp] theorem State.hostWrite_loose (s : State) (a : Nat) (bs : List Byte) : (s.hostWrite a bs).loose = s.loose := rfl
@[simp] theorem State.hostWrite_hostMem (s : State) (a : Nat) (bs : List Byte) : (s.hostWrite a bs).hostMem = memWriteBytes s.hostMem a bs := rfl
@[simp] theorem State.hostWrite_out (s : State) (a : Nat) (bs : List Byte) : (s.hostWrite a bs).out = s.out := rfl
@[simp] theorem State.hostWrite_parts (s : State) (a : Nat) (bs : List Byte) : (s.hostWrite a bs).parts = s.parts := rfl
@[simp] theorem State.hostWrite_launches (s : State) (a : Nat) (bs : List Byte) : (s.hostWrite a bs).launches = s.launches := rfl
@[simp] theorem State.hostWrite_teams (s : State) (a : Nat) (bs : List Byte) : (s.hostWrite a bs).teams = s.teams := rfl
@[simp] theorem State.hostWrite_amoos (s : State) (a : Nat) (bs : List Byte) : (s.hostWrite a bs).amoos = s.amoos := rfl
@[simp] theorem State.hostWrite_waits (s : State) (a : Nat) (bs : List Byte) : (s.hostWrite a bs).waits = s.waits := rfl
@[simp] theorem State.hostWrite_glints (s : State) (a : Nat) (bs : List Byte) : (s.hostWrite a bs).glints = s.glints := rfl
@[simp] theorem State.hostWrite_nextLaunch (s : State) (a : Nat) (bs : List Byte) : (s.hostWrite a bs).nextLaunch = s.nextLaunch := rfl
@[simp] theorem State.hostWrite_nextTeam (s : State) (a : Nat) (bs : List Byte) : (s.hostWrite a bs).nextTeam = s.nextTeam := rfl
@[simp] theorem State.hostWrite_rin (s : State) (a : Nat) (bs : List Byte) : (s.hostWrite a bs).rin = s.rin := rfl
@[simp] theorem State.hostWrite_sealed (s : State) (a : Nat) (bs : List Byte) : (s.hostWrite a bs).sealed = s.sealed := rfl
@[simp] theorem State.hostWrite_sealCopy (s : State) (a : Nat) (bs : List Byte) : (s.hostWrite a bs).sealCopy = s.sealCopy := rfl
@[simp] theorem State.hostWrite_sealing (s : State) (a : Nat) (bs : List Byte) : (s.hostWrite a bs).sealing = s.sealing := rfl
@[simp] theorem State.hostWrite_sealPending (s : State) (a : Nat) (bs : List Byte) : (s.hostWrite a bs).sealPending = s.sealPending := rfl
@[simp] theorem State.hostWrite_sealDue (s : State) (a : Nat) (bs : List Byte) : (s.hostWrite a bs).sealDue = s.sealDue := rfl
@[simp] theorem State.hostWrite_sealClk (s : State) (a : Nat) (bs : List Byte) : (s.hostWrite a bs).sealClk = s.sealClk := rfl
@[simp] theorem State.hostWrite_consumed (s : State) (a : Nat) (bs : List Byte) : (s.hostWrite a bs).consumed = s.consumed := rfl
@[simp] theorem State.hostWrite_own (s : State) (a : Nat) (bs : List Byte) : (s.hostWrite a bs).own = s.own := rfl
@[simp] theorem State.hostWrite_domain (s : State) (a : Nat) (bs : List Byte) : (s.hostWrite a bs).domain = s.domain := rfl
@[simp] theorem State.hostWrite_spanRoute (s : State) (a : Nat) (bs : List Byte) : (s.hostWrite a bs).spanRoute = s.spanRoute := rfl
@[simp] theorem State.hostWrite_spanDrop (s : State) (a : Nat) (bs : List Byte) : (s.hostWrite a bs).spanDrop = s.spanDrop := rfl
@[simp] theorem State.hostWrite_peerOut (s : State) (a : Nat) (bs : List Byte) : (s.hostWrite a bs).peerOut = s.peerOut := rfl
@[simp] theorem State.hostWrite_slt (s : State) (a : Nat) (bs : List Byte) : (s.hostWrite a bs).slt = s.slt := rfl
@[simp] theorem State.hostWrite_pemap (s : State) (a : Nat) (bs : List Byte) : (s.hostWrite a bs).pemap = s.pemap := rfl
@[simp] theorem State.hostWrite_swapAt (s : State) (a : Nat) (bs : List Byte) : (s.hostWrite a bs).swapAt = s.swapAt := rfl
@[simp] theorem State.hostWrite_swapTicks (s : State) (a : Nat) (bs : List Byte) : (s.hostWrite a bs).swapTicks = s.swapTicks := rfl
@[simp] theorem State.hostWrite_mhz (s : State) (a : Nat) (bs : List Byte) : (s.hostWrite a bs).mhz = s.mhz := rfl
@[simp] theorem State.hostWrite_power (s : State) (a : Nat) (bs : List Byte) : (s.hostWrite a bs).power = s.power := rfl
@[simp] theorem State.hostWrite_flash (s : State) (a : Nat) (bs : List Byte) : (s.hostWrite a bs).flash = s.flash := rfl
@[simp] theorem State.hostWrite_reports (s : State) (a : Nat) (bs : List Byte) : (s.hostWrite a bs).reports = s.reports := rfl

/-! ### Cur.put -/

@[simp] theorem Cur.put_agenda (c : Cur) (s : State) (tk : Task) : (c.put s tk).agenda = s.agenda := rfl
@[simp] theorem Cur.put_focus (c : Cur) (s : State) (tk : Task) : (c.put s tk).focus = s.focus := rfl
@[simp] theorem Cur.put_fresh (c : Cur) (s : State) (tk : Task) : (c.put s tk).fresh = s.fresh := rfl
@[simp] theorem Cur.put_clk (c : Cur) (s : State) (tk : Task) : (c.put s tk).clk = s.clk := rfl
@[simp] theorem Cur.put_mem (c : Cur) (s : State) (tk : Task) : (c.put s tk).mem = s.mem := rfl
@[simp] theorem Cur.put_poisonMem (c : Cur) (s : State) (tk : Task) : (c.put s tk).poisonMem = s.poisonMem := rfl
@[simp] theorem Cur.put_prev (c : Cur) (s : State) (tk : Task) : (c.put s tk).prev = s.prev := rfl
@[simp] theorem Cur.put_loose (c : Cur) (s : State) (tk : Task) : (c.put s tk).loose = s.loose := rfl
@[simp] theorem Cur.put_hostMem (c : Cur) (s : State) (tk : Task) : (c.put s tk).hostMem = s.hostMem := rfl
@[simp] theorem Cur.put_out (c : Cur) (s : State) (tk : Task) : (c.put s tk).out = s.out := rfl
@[simp] theorem Cur.put_parts (c : Cur) (s : State) (tk : Task) : (c.put s tk).parts = s.parts := rfl
@[simp] theorem Cur.put_launches (c : Cur) (s : State) (tk : Task) : (c.put s tk).launches = s.launches := rfl
@[simp] theorem Cur.put_amoos (c : Cur) (s : State) (tk : Task) : (c.put s tk).amoos = s.amoos := rfl
@[simp] theorem Cur.put_waits (c : Cur) (s : State) (tk : Task) : (c.put s tk).waits = s.waits := rfl
@[simp] theorem Cur.put_glints (c : Cur) (s : State) (tk : Task) : (c.put s tk).glints = s.glints := rfl
@[simp] theorem Cur.put_nextLaunch (c : Cur) (s : State) (tk : Task) : (c.put s tk).nextLaunch = s.nextLaunch := rfl
@[simp] theorem Cur.put_nextTeam (c : Cur) (s : State) (tk : Task) : (c.put s tk).nextTeam = s.nextTeam := rfl
@[simp] theorem Cur.put_rin (c : Cur) (s : State) (tk : Task) : (c.put s tk).rin = s.rin := rfl
@[simp] theorem Cur.put_sealed (c : Cur) (s : State) (tk : Task) : (c.put s tk).sealed = s.sealed := rfl
@[simp] theorem Cur.put_sealCopy (c : Cur) (s : State) (tk : Task) : (c.put s tk).sealCopy = s.sealCopy := rfl
@[simp] theorem Cur.put_sealing (c : Cur) (s : State) (tk : Task) : (c.put s tk).sealing = s.sealing := rfl
@[simp] theorem Cur.put_sealPending (c : Cur) (s : State) (tk : Task) : (c.put s tk).sealPending = s.sealPending := rfl
@[simp] theorem Cur.put_sealDue (c : Cur) (s : State) (tk : Task) : (c.put s tk).sealDue = s.sealDue := rfl
@[simp] theorem Cur.put_sealClk (c : Cur) (s : State) (tk : Task) : (c.put s tk).sealClk = s.sealClk := rfl
@[simp] theorem Cur.put_consumed (c : Cur) (s : State) (tk : Task) : (c.put s tk).consumed = s.consumed := rfl
@[simp] theorem Cur.put_own (c : Cur) (s : State) (tk : Task) : (c.put s tk).own = s.own := rfl
@[simp] theorem Cur.put_domain (c : Cur) (s : State) (tk : Task) : (c.put s tk).domain = s.domain := rfl
@[simp] theorem Cur.put_spanRoute (c : Cur) (s : State) (tk : Task) : (c.put s tk).spanRoute = s.spanRoute := rfl
@[simp] theorem Cur.put_spanDrop (c : Cur) (s : State) (tk : Task) : (c.put s tk).spanDrop = s.spanDrop := rfl
@[simp] theorem Cur.put_peerOut (c : Cur) (s : State) (tk : Task) : (c.put s tk).peerOut = s.peerOut := rfl
@[simp] theorem Cur.put_slt (c : Cur) (s : State) (tk : Task) : (c.put s tk).slt = s.slt := rfl
@[simp] theorem Cur.put_pemap (c : Cur) (s : State) (tk : Task) : (c.put s tk).pemap = s.pemap := rfl
@[simp] theorem Cur.put_swapAt (c : Cur) (s : State) (tk : Task) : (c.put s tk).swapAt = s.swapAt := rfl
@[simp] theorem Cur.put_swapTicks (c : Cur) (s : State) (tk : Task) : (c.put s tk).swapTicks = s.swapTicks := rfl
@[simp] theorem Cur.put_mhz (c : Cur) (s : State) (tk : Task) : (c.put s tk).mhz = s.mhz := rfl
@[simp] theorem Cur.put_power (c : Cur) (s : State) (tk : Task) : (c.put s tk).power = s.power := rfl
@[simp] theorem Cur.put_flash (c : Cur) (s : State) (tk : Task) : (c.put s tk).flash = s.flash := rfl
@[simp] theorem Cur.put_reports (c : Cur) (s : State) (tk : Task) : (c.put s tk).reports = s.reports := rfl

/-! ### Cur.putRegs -/

@[simp] theorem Cur.putRegs_agenda (c : Cur) (s : State) (r : Regs) : (c.putRegs s r).agenda = s.agenda := rfl
@[simp] theorem Cur.putRegs_focus (c : Cur) (s : State) (r : Regs) : (c.putRegs s r).focus = s.focus := rfl
@[simp] theorem Cur.putRegs_fresh (c : Cur) (s : State) (r : Regs) : (c.putRegs s r).fresh = s.fresh := rfl
@[simp] theorem Cur.putRegs_clk (c : Cur) (s : State) (r : Regs) : (c.putRegs s r).clk = s.clk := rfl
@[simp] theorem Cur.putRegs_mem (c : Cur) (s : State) (r : Regs) : (c.putRegs s r).mem = s.mem := rfl
@[simp] theorem Cur.putRegs_poisonMem (c : Cur) (s : State) (r : Regs) : (c.putRegs s r).poisonMem = s.poisonMem := rfl
@[simp] theorem Cur.putRegs_prev (c : Cur) (s : State) (r : Regs) : (c.putRegs s r).prev = s.prev := rfl
@[simp] theorem Cur.putRegs_loose (c : Cur) (s : State) (r : Regs) : (c.putRegs s r).loose = s.loose := rfl
@[simp] theorem Cur.putRegs_hostMem (c : Cur) (s : State) (r : Regs) : (c.putRegs s r).hostMem = s.hostMem := rfl
@[simp] theorem Cur.putRegs_out (c : Cur) (s : State) (r : Regs) : (c.putRegs s r).out = s.out := rfl
@[simp] theorem Cur.putRegs_parts (c : Cur) (s : State) (r : Regs) : (c.putRegs s r).parts = s.parts := rfl
@[simp] theorem Cur.putRegs_launches (c : Cur) (s : State) (r : Regs) : (c.putRegs s r).launches = s.launches := rfl
@[simp] theorem Cur.putRegs_amoos (c : Cur) (s : State) (r : Regs) : (c.putRegs s r).amoos = s.amoos := rfl
@[simp] theorem Cur.putRegs_waits (c : Cur) (s : State) (r : Regs) : (c.putRegs s r).waits = s.waits := rfl
@[simp] theorem Cur.putRegs_glints (c : Cur) (s : State) (r : Regs) : (c.putRegs s r).glints = s.glints := rfl
@[simp] theorem Cur.putRegs_nextLaunch (c : Cur) (s : State) (r : Regs) : (c.putRegs s r).nextLaunch = s.nextLaunch := rfl
@[simp] theorem Cur.putRegs_nextTeam (c : Cur) (s : State) (r : Regs) : (c.putRegs s r).nextTeam = s.nextTeam := rfl
@[simp] theorem Cur.putRegs_rin (c : Cur) (s : State) (r : Regs) : (c.putRegs s r).rin = s.rin := rfl
@[simp] theorem Cur.putRegs_sealed (c : Cur) (s : State) (r : Regs) : (c.putRegs s r).sealed = s.sealed := rfl
@[simp] theorem Cur.putRegs_sealCopy (c : Cur) (s : State) (r : Regs) : (c.putRegs s r).sealCopy = s.sealCopy := rfl
@[simp] theorem Cur.putRegs_sealing (c : Cur) (s : State) (r : Regs) : (c.putRegs s r).sealing = s.sealing := rfl
@[simp] theorem Cur.putRegs_sealPending (c : Cur) (s : State) (r : Regs) : (c.putRegs s r).sealPending = s.sealPending := rfl
@[simp] theorem Cur.putRegs_sealDue (c : Cur) (s : State) (r : Regs) : (c.putRegs s r).sealDue = s.sealDue := rfl
@[simp] theorem Cur.putRegs_sealClk (c : Cur) (s : State) (r : Regs) : (c.putRegs s r).sealClk = s.sealClk := rfl
@[simp] theorem Cur.putRegs_consumed (c : Cur) (s : State) (r : Regs) : (c.putRegs s r).consumed = s.consumed := rfl
@[simp] theorem Cur.putRegs_own (c : Cur) (s : State) (r : Regs) : (c.putRegs s r).own = s.own := rfl
@[simp] theorem Cur.putRegs_domain (c : Cur) (s : State) (r : Regs) : (c.putRegs s r).domain = s.domain := rfl
@[simp] theorem Cur.putRegs_spanRoute (c : Cur) (s : State) (r : Regs) : (c.putRegs s r).spanRoute = s.spanRoute := rfl
@[simp] theorem Cur.putRegs_spanDrop (c : Cur) (s : State) (r : Regs) : (c.putRegs s r).spanDrop = s.spanDrop := rfl
@[simp] theorem Cur.putRegs_peerOut (c : Cur) (s : State) (r : Regs) : (c.putRegs s r).peerOut = s.peerOut := rfl
@[simp] theorem Cur.putRegs_slt (c : Cur) (s : State) (r : Regs) : (c.putRegs s r).slt = s.slt := rfl
@[simp] theorem Cur.putRegs_pemap (c : Cur) (s : State) (r : Regs) : (c.putRegs s r).pemap = s.pemap := rfl
@[simp] theorem Cur.putRegs_swapAt (c : Cur) (s : State) (r : Regs) : (c.putRegs s r).swapAt = s.swapAt := rfl
@[simp] theorem Cur.putRegs_swapTicks (c : Cur) (s : State) (r : Regs) : (c.putRegs s r).swapTicks = s.swapTicks := rfl
@[simp] theorem Cur.putRegs_mhz (c : Cur) (s : State) (r : Regs) : (c.putRegs s r).mhz = s.mhz := rfl
@[simp] theorem Cur.putRegs_power (c : Cur) (s : State) (r : Regs) : (c.putRegs s r).power = s.power := rfl
@[simp] theorem Cur.putRegs_flash (c : Cur) (s : State) (r : Regs) : (c.putRegs s r).flash = s.flash := rfl
@[simp] theorem Cur.putRegs_reports (c : Cur) (s : State) (r : Regs) : (c.putRegs s r).reports = s.reports := rfl

/-! ### State.modTeam -/

@[simp] theorem State.modTeam_agenda (s : State) (t : Nat) (f : Team → Team) : (s.modTeam t f).agenda = s.agenda := by unfold State.modTeam; split <;> rfl
@[simp] theorem State.modTeam_focus (s : State) (t : Nat) (f : Team → Team) : (s.modTeam t f).focus = s.focus := by unfold State.modTeam; split <;> rfl
@[simp] theorem State.modTeam_fresh (s : State) (t : Nat) (f : Team → Team) : (s.modTeam t f).fresh = s.fresh := by unfold State.modTeam; split <;> rfl
@[simp] theorem State.modTeam_clk (s : State) (t : Nat) (f : Team → Team) : (s.modTeam t f).clk = s.clk := by unfold State.modTeam; split <;> rfl
@[simp] theorem State.modTeam_mem (s : State) (t : Nat) (f : Team → Team) : (s.modTeam t f).mem = s.mem := by unfold State.modTeam; split <;> rfl
@[simp] theorem State.modTeam_poisonMem (s : State) (t : Nat) (f : Team → Team) : (s.modTeam t f).poisonMem = s.poisonMem := by unfold State.modTeam; split <;> rfl
@[simp] theorem State.modTeam_prev (s : State) (t : Nat) (f : Team → Team) : (s.modTeam t f).prev = s.prev := by unfold State.modTeam; split <;> rfl
@[simp] theorem State.modTeam_loose (s : State) (t : Nat) (f : Team → Team) : (s.modTeam t f).loose = s.loose := by unfold State.modTeam; split <;> rfl
@[simp] theorem State.modTeam_hostMem (s : State) (t : Nat) (f : Team → Team) : (s.modTeam t f).hostMem = s.hostMem := by unfold State.modTeam; split <;> rfl
@[simp] theorem State.modTeam_out (s : State) (t : Nat) (f : Team → Team) : (s.modTeam t f).out = s.out := by unfold State.modTeam; split <;> rfl
@[simp] theorem State.modTeam_parts (s : State) (t : Nat) (f : Team → Team) : (s.modTeam t f).parts = s.parts := by unfold State.modTeam; split <;> rfl
@[simp] theorem State.modTeam_launches (s : State) (t : Nat) (f : Team → Team) : (s.modTeam t f).launches = s.launches := by unfold State.modTeam; split <;> rfl
@[simp] theorem State.modTeam_amoos (s : State) (t : Nat) (f : Team → Team) : (s.modTeam t f).amoos = s.amoos := by unfold State.modTeam; split <;> rfl
@[simp] theorem State.modTeam_waits (s : State) (t : Nat) (f : Team → Team) : (s.modTeam t f).waits = s.waits := by unfold State.modTeam; split <;> rfl
@[simp] theorem State.modTeam_glints (s : State) (t : Nat) (f : Team → Team) : (s.modTeam t f).glints = s.glints := by unfold State.modTeam; split <;> rfl
@[simp] theorem State.modTeam_nextLaunch (s : State) (t : Nat) (f : Team → Team) : (s.modTeam t f).nextLaunch = s.nextLaunch := by unfold State.modTeam; split <;> rfl
@[simp] theorem State.modTeam_nextTeam (s : State) (t : Nat) (f : Team → Team) : (s.modTeam t f).nextTeam = s.nextTeam := by unfold State.modTeam; split <;> rfl
@[simp] theorem State.modTeam_rin (s : State) (t : Nat) (f : Team → Team) : (s.modTeam t f).rin = s.rin := by unfold State.modTeam; split <;> rfl
@[simp] theorem State.modTeam_sealed (s : State) (t : Nat) (f : Team → Team) : (s.modTeam t f).sealed = s.sealed := by unfold State.modTeam; split <;> rfl
@[simp] theorem State.modTeam_sealCopy (s : State) (t : Nat) (f : Team → Team) : (s.modTeam t f).sealCopy = s.sealCopy := by unfold State.modTeam; split <;> rfl
@[simp] theorem State.modTeam_sealing (s : State) (t : Nat) (f : Team → Team) : (s.modTeam t f).sealing = s.sealing := by unfold State.modTeam; split <;> rfl
@[simp] theorem State.modTeam_sealPending (s : State) (t : Nat) (f : Team → Team) : (s.modTeam t f).sealPending = s.sealPending := by unfold State.modTeam; split <;> rfl
@[simp] theorem State.modTeam_sealDue (s : State) (t : Nat) (f : Team → Team) : (s.modTeam t f).sealDue = s.sealDue := by unfold State.modTeam; split <;> rfl
@[simp] theorem State.modTeam_sealClk (s : State) (t : Nat) (f : Team → Team) : (s.modTeam t f).sealClk = s.sealClk := by unfold State.modTeam; split <;> rfl
@[simp] theorem State.modTeam_consumed (s : State) (t : Nat) (f : Team → Team) : (s.modTeam t f).consumed = s.consumed := by unfold State.modTeam; split <;> rfl
@[simp] theorem State.modTeam_own (s : State) (t : Nat) (f : Team → Team) : (s.modTeam t f).own = s.own := by unfold State.modTeam; split <;> rfl
@[simp] theorem State.modTeam_domain (s : State) (t : Nat) (f : Team → Team) : (s.modTeam t f).domain = s.domain := by unfold State.modTeam; split <;> rfl
@[simp] theorem State.modTeam_spanRoute (s : State) (t : Nat) (f : Team → Team) : (s.modTeam t f).spanRoute = s.spanRoute := by unfold State.modTeam; split <;> rfl
@[simp] theorem State.modTeam_spanDrop (s : State) (t : Nat) (f : Team → Team) : (s.modTeam t f).spanDrop = s.spanDrop := by unfold State.modTeam; split <;> rfl
@[simp] theorem State.modTeam_peerOut (s : State) (t : Nat) (f : Team → Team) : (s.modTeam t f).peerOut = s.peerOut := by unfold State.modTeam; split <;> rfl
@[simp] theorem State.modTeam_slt (s : State) (t : Nat) (f : Team → Team) : (s.modTeam t f).slt = s.slt := by unfold State.modTeam; split <;> rfl
@[simp] theorem State.modTeam_pemap (s : State) (t : Nat) (f : Team → Team) : (s.modTeam t f).pemap = s.pemap := by unfold State.modTeam; split <;> rfl
@[simp] theorem State.modTeam_swapAt (s : State) (t : Nat) (f : Team → Team) : (s.modTeam t f).swapAt = s.swapAt := by unfold State.modTeam; split <;> rfl
@[simp] theorem State.modTeam_swapTicks (s : State) (t : Nat) (f : Team → Team) : (s.modTeam t f).swapTicks = s.swapTicks := by unfold State.modTeam; split <;> rfl
@[simp] theorem State.modTeam_mhz (s : State) (t : Nat) (f : Team → Team) : (s.modTeam t f).mhz = s.mhz := by unfold State.modTeam; split <;> rfl
@[simp] theorem State.modTeam_power (s : State) (t : Nat) (f : Team → Team) : (s.modTeam t f).power = s.power := by unfold State.modTeam; split <;> rfl
@[simp] theorem State.modTeam_flash (s : State) (t : Nat) (f : Team → Team) : (s.modTeam t f).flash = s.flash := by unfold State.modTeam; split <;> rfl
@[simp] theorem State.modTeam_reports (s : State) (t : Nat) (f : Team → Team) : (s.modTeam t f).reports = s.reports := by unfold State.modTeam; split <;> rfl

/-! ### State.modTask -/

@[simp] theorem State.modTask_agenda (s : State) (t m : Nat) (f : Task → Task) : (s.modTask t m f).agenda = s.agenda := by simp [State.modTask]
@[simp] theorem State.modTask_focus (s : State) (t m : Nat) (f : Task → Task) : (s.modTask t m f).focus = s.focus := by simp [State.modTask]
@[simp] theorem State.modTask_fresh (s : State) (t m : Nat) (f : Task → Task) : (s.modTask t m f).fresh = s.fresh := by simp [State.modTask]
@[simp] theorem State.modTask_clk (s : State) (t m : Nat) (f : Task → Task) : (s.modTask t m f).clk = s.clk := by simp [State.modTask]
@[simp] theorem State.modTask_mem (s : State) (t m : Nat) (f : Task → Task) : (s.modTask t m f).mem = s.mem := by simp [State.modTask]
@[simp] theorem State.modTask_poisonMem (s : State) (t m : Nat) (f : Task → Task) : (s.modTask t m f).poisonMem = s.poisonMem := by simp [State.modTask]
@[simp] theorem State.modTask_prev (s : State) (t m : Nat) (f : Task → Task) : (s.modTask t m f).prev = s.prev := by simp [State.modTask]
@[simp] theorem State.modTask_loose (s : State) (t m : Nat) (f : Task → Task) : (s.modTask t m f).loose = s.loose := by simp [State.modTask]
@[simp] theorem State.modTask_hostMem (s : State) (t m : Nat) (f : Task → Task) : (s.modTask t m f).hostMem = s.hostMem := by simp [State.modTask]
@[simp] theorem State.modTask_out (s : State) (t m : Nat) (f : Task → Task) : (s.modTask t m f).out = s.out := by simp [State.modTask]
@[simp] theorem State.modTask_parts (s : State) (t m : Nat) (f : Task → Task) : (s.modTask t m f).parts = s.parts := by simp [State.modTask]
@[simp] theorem State.modTask_launches (s : State) (t m : Nat) (f : Task → Task) : (s.modTask t m f).launches = s.launches := by simp [State.modTask]
@[simp] theorem State.modTask_amoos (s : State) (t m : Nat) (f : Task → Task) : (s.modTask t m f).amoos = s.amoos := by simp [State.modTask]
@[simp] theorem State.modTask_waits (s : State) (t m : Nat) (f : Task → Task) : (s.modTask t m f).waits = s.waits := by simp [State.modTask]
@[simp] theorem State.modTask_glints (s : State) (t m : Nat) (f : Task → Task) : (s.modTask t m f).glints = s.glints := by simp [State.modTask]
@[simp] theorem State.modTask_nextLaunch (s : State) (t m : Nat) (f : Task → Task) : (s.modTask t m f).nextLaunch = s.nextLaunch := by simp [State.modTask]
@[simp] theorem State.modTask_nextTeam (s : State) (t m : Nat) (f : Task → Task) : (s.modTask t m f).nextTeam = s.nextTeam := by simp [State.modTask]
@[simp] theorem State.modTask_rin (s : State) (t m : Nat) (f : Task → Task) : (s.modTask t m f).rin = s.rin := by simp [State.modTask]
@[simp] theorem State.modTask_sealed (s : State) (t m : Nat) (f : Task → Task) : (s.modTask t m f).sealed = s.sealed := by simp [State.modTask]
@[simp] theorem State.modTask_sealCopy (s : State) (t m : Nat) (f : Task → Task) : (s.modTask t m f).sealCopy = s.sealCopy := by simp [State.modTask]
@[simp] theorem State.modTask_sealing (s : State) (t m : Nat) (f : Task → Task) : (s.modTask t m f).sealing = s.sealing := by simp [State.modTask]
@[simp] theorem State.modTask_sealPending (s : State) (t m : Nat) (f : Task → Task) : (s.modTask t m f).sealPending = s.sealPending := by simp [State.modTask]
@[simp] theorem State.modTask_sealDue (s : State) (t m : Nat) (f : Task → Task) : (s.modTask t m f).sealDue = s.sealDue := by simp [State.modTask]
@[simp] theorem State.modTask_sealClk (s : State) (t m : Nat) (f : Task → Task) : (s.modTask t m f).sealClk = s.sealClk := by simp [State.modTask]
@[simp] theorem State.modTask_consumed (s : State) (t m : Nat) (f : Task → Task) : (s.modTask t m f).consumed = s.consumed := by simp [State.modTask]
@[simp] theorem State.modTask_own (s : State) (t m : Nat) (f : Task → Task) : (s.modTask t m f).own = s.own := by simp [State.modTask]
@[simp] theorem State.modTask_domain (s : State) (t m : Nat) (f : Task → Task) : (s.modTask t m f).domain = s.domain := by simp [State.modTask]
@[simp] theorem State.modTask_spanRoute (s : State) (t m : Nat) (f : Task → Task) : (s.modTask t m f).spanRoute = s.spanRoute := by simp [State.modTask]
@[simp] theorem State.modTask_spanDrop (s : State) (t m : Nat) (f : Task → Task) : (s.modTask t m f).spanDrop = s.spanDrop := by simp [State.modTask]
@[simp] theorem State.modTask_peerOut (s : State) (t m : Nat) (f : Task → Task) : (s.modTask t m f).peerOut = s.peerOut := by simp [State.modTask]
@[simp] theorem State.modTask_slt (s : State) (t m : Nat) (f : Task → Task) : (s.modTask t m f).slt = s.slt := by simp [State.modTask]
@[simp] theorem State.modTask_pemap (s : State) (t m : Nat) (f : Task → Task) : (s.modTask t m f).pemap = s.pemap := by simp [State.modTask]
@[simp] theorem State.modTask_swapAt (s : State) (t m : Nat) (f : Task → Task) : (s.modTask t m f).swapAt = s.swapAt := by simp [State.modTask]
@[simp] theorem State.modTask_swapTicks (s : State) (t m : Nat) (f : Task → Task) : (s.modTask t m f).swapTicks = s.swapTicks := by simp [State.modTask]
@[simp] theorem State.modTask_mhz (s : State) (t m : Nat) (f : Task → Task) : (s.modTask t m f).mhz = s.mhz := by simp [State.modTask]
@[simp] theorem State.modTask_power (s : State) (t m : Nat) (f : Task → Task) : (s.modTask t m f).power = s.power := by simp [State.modTask]
@[simp] theorem State.modTask_flash (s : State) (t m : Nat) (f : Task → Task) : (s.modTask t m f).flash = s.flash := by simp [State.modTask]
@[simp] theorem State.modTask_reports (s : State) (t m : Nat) (f : Task → Task) : (s.modTask t m f).reports = s.reports := by simp [State.modTask]

/-! ### State.modCur -/

@[simp] theorem State.modCur_agenda (s : State) (f : Task → Task) : (s.modCur f).agenda = s.agenda := by unfold State.modCur; split <;> simp
@[simp] theorem State.modCur_focus (s : State) (f : Task → Task) : (s.modCur f).focus = s.focus := by unfold State.modCur; split <;> simp
@[simp] theorem State.modCur_fresh (s : State) (f : Task → Task) : (s.modCur f).fresh = s.fresh := by unfold State.modCur; split <;> simp
@[simp] theorem State.modCur_clk (s : State) (f : Task → Task) : (s.modCur f).clk = s.clk := by unfold State.modCur; split <;> simp
@[simp] theorem State.modCur_mem (s : State) (f : Task → Task) : (s.modCur f).mem = s.mem := by unfold State.modCur; split <;> simp
@[simp] theorem State.modCur_poisonMem (s : State) (f : Task → Task) : (s.modCur f).poisonMem = s.poisonMem := by unfold State.modCur; split <;> simp
@[simp] theorem State.modCur_prev (s : State) (f : Task → Task) : (s.modCur f).prev = s.prev := by unfold State.modCur; split <;> simp
@[simp] theorem State.modCur_loose (s : State) (f : Task → Task) : (s.modCur f).loose = s.loose := by unfold State.modCur; split <;> simp
@[simp] theorem State.modCur_hostMem (s : State) (f : Task → Task) : (s.modCur f).hostMem = s.hostMem := by unfold State.modCur; split <;> simp
@[simp] theorem State.modCur_out (s : State) (f : Task → Task) : (s.modCur f).out = s.out := by unfold State.modCur; split <;> simp
@[simp] theorem State.modCur_parts (s : State) (f : Task → Task) : (s.modCur f).parts = s.parts := by unfold State.modCur; split <;> simp
@[simp] theorem State.modCur_launches (s : State) (f : Task → Task) : (s.modCur f).launches = s.launches := by unfold State.modCur; split <;> simp
@[simp] theorem State.modCur_amoos (s : State) (f : Task → Task) : (s.modCur f).amoos = s.amoos := by unfold State.modCur; split <;> simp
@[simp] theorem State.modCur_waits (s : State) (f : Task → Task) : (s.modCur f).waits = s.waits := by unfold State.modCur; split <;> simp
@[simp] theorem State.modCur_glints (s : State) (f : Task → Task) : (s.modCur f).glints = s.glints := by unfold State.modCur; split <;> simp
@[simp] theorem State.modCur_nextLaunch (s : State) (f : Task → Task) : (s.modCur f).nextLaunch = s.nextLaunch := by unfold State.modCur; split <;> simp
@[simp] theorem State.modCur_nextTeam (s : State) (f : Task → Task) : (s.modCur f).nextTeam = s.nextTeam := by unfold State.modCur; split <;> simp
@[simp] theorem State.modCur_rin (s : State) (f : Task → Task) : (s.modCur f).rin = s.rin := by unfold State.modCur; split <;> simp
@[simp] theorem State.modCur_sealed (s : State) (f : Task → Task) : (s.modCur f).sealed = s.sealed := by unfold State.modCur; split <;> simp
@[simp] theorem State.modCur_sealCopy (s : State) (f : Task → Task) : (s.modCur f).sealCopy = s.sealCopy := by unfold State.modCur; split <;> simp
@[simp] theorem State.modCur_sealing (s : State) (f : Task → Task) : (s.modCur f).sealing = s.sealing := by unfold State.modCur; split <;> simp
@[simp] theorem State.modCur_sealPending (s : State) (f : Task → Task) : (s.modCur f).sealPending = s.sealPending := by unfold State.modCur; split <;> simp
@[simp] theorem State.modCur_sealDue (s : State) (f : Task → Task) : (s.modCur f).sealDue = s.sealDue := by unfold State.modCur; split <;> simp
@[simp] theorem State.modCur_sealClk (s : State) (f : Task → Task) : (s.modCur f).sealClk = s.sealClk := by unfold State.modCur; split <;> simp
@[simp] theorem State.modCur_consumed (s : State) (f : Task → Task) : (s.modCur f).consumed = s.consumed := by unfold State.modCur; split <;> simp
@[simp] theorem State.modCur_own (s : State) (f : Task → Task) : (s.modCur f).own = s.own := by unfold State.modCur; split <;> simp
@[simp] theorem State.modCur_domain (s : State) (f : Task → Task) : (s.modCur f).domain = s.domain := by unfold State.modCur; split <;> simp
@[simp] theorem State.modCur_spanRoute (s : State) (f : Task → Task) : (s.modCur f).spanRoute = s.spanRoute := by unfold State.modCur; split <;> simp
@[simp] theorem State.modCur_spanDrop (s : State) (f : Task → Task) : (s.modCur f).spanDrop = s.spanDrop := by unfold State.modCur; split <;> simp
@[simp] theorem State.modCur_peerOut (s : State) (f : Task → Task) : (s.modCur f).peerOut = s.peerOut := by unfold State.modCur; split <;> simp
@[simp] theorem State.modCur_slt (s : State) (f : Task → Task) : (s.modCur f).slt = s.slt := by unfold State.modCur; split <;> simp
@[simp] theorem State.modCur_pemap (s : State) (f : Task → Task) : (s.modCur f).pemap = s.pemap := by unfold State.modCur; split <;> simp
@[simp] theorem State.modCur_swapAt (s : State) (f : Task → Task) : (s.modCur f).swapAt = s.swapAt := by unfold State.modCur; split <;> simp
@[simp] theorem State.modCur_swapTicks (s : State) (f : Task → Task) : (s.modCur f).swapTicks = s.swapTicks := by unfold State.modCur; split <;> simp
@[simp] theorem State.modCur_mhz (s : State) (f : Task → Task) : (s.modCur f).mhz = s.mhz := by unfold State.modCur; split <;> simp
@[simp] theorem State.modCur_power (s : State) (f : Task → Task) : (s.modCur f).power = s.power := by unfold State.modCur; split <;> simp
@[simp] theorem State.modCur_flash (s : State) (f : Task → Task) : (s.modCur f).flash = s.flash := by unfold State.modCur; split <;> simp
@[simp] theorem State.modCur_reports (s : State) (f : Task → Task) : (s.modCur f).reports = s.reports := by unfold State.modCur; split <;> simp

/-! ### State.modPart -/

@[simp] theorem State.modPart_agenda (s : State) (vf : Nat) (f : Part → Part) : (s.modPart vf f).agenda = s.agenda := by unfold State.modPart; split <;> rfl
@[simp] theorem State.modPart_focus (s : State) (vf : Nat) (f : Part → Part) : (s.modPart vf f).focus = s.focus := by unfold State.modPart; split <;> rfl
@[simp] theorem State.modPart_fresh (s : State) (vf : Nat) (f : Part → Part) : (s.modPart vf f).fresh = s.fresh := by unfold State.modPart; split <;> rfl
@[simp] theorem State.modPart_clk (s : State) (vf : Nat) (f : Part → Part) : (s.modPart vf f).clk = s.clk := by unfold State.modPart; split <;> rfl
@[simp] theorem State.modPart_mem (s : State) (vf : Nat) (f : Part → Part) : (s.modPart vf f).mem = s.mem := by unfold State.modPart; split <;> rfl
@[simp] theorem State.modPart_poisonMem (s : State) (vf : Nat) (f : Part → Part) : (s.modPart vf f).poisonMem = s.poisonMem := by unfold State.modPart; split <;> rfl
@[simp] theorem State.modPart_prev (s : State) (vf : Nat) (f : Part → Part) : (s.modPart vf f).prev = s.prev := by unfold State.modPart; split <;> rfl
@[simp] theorem State.modPart_loose (s : State) (vf : Nat) (f : Part → Part) : (s.modPart vf f).loose = s.loose := by unfold State.modPart; split <;> rfl
@[simp] theorem State.modPart_hostMem (s : State) (vf : Nat) (f : Part → Part) : (s.modPart vf f).hostMem = s.hostMem := by unfold State.modPart; split <;> rfl
@[simp] theorem State.modPart_out (s : State) (vf : Nat) (f : Part → Part) : (s.modPart vf f).out = s.out := by unfold State.modPart; split <;> rfl
@[simp] theorem State.modPart_launches (s : State) (vf : Nat) (f : Part → Part) : (s.modPart vf f).launches = s.launches := by unfold State.modPart; split <;> rfl
@[simp] theorem State.modPart_teams (s : State) (vf : Nat) (f : Part → Part) : (s.modPart vf f).teams = s.teams := by unfold State.modPart; split <;> rfl
@[simp] theorem State.modPart_amoos (s : State) (vf : Nat) (f : Part → Part) : (s.modPart vf f).amoos = s.amoos := by unfold State.modPart; split <;> rfl
@[simp] theorem State.modPart_waits (s : State) (vf : Nat) (f : Part → Part) : (s.modPart vf f).waits = s.waits := by unfold State.modPart; split <;> rfl
@[simp] theorem State.modPart_glints (s : State) (vf : Nat) (f : Part → Part) : (s.modPart vf f).glints = s.glints := by unfold State.modPart; split <;> rfl
@[simp] theorem State.modPart_nextLaunch (s : State) (vf : Nat) (f : Part → Part) : (s.modPart vf f).nextLaunch = s.nextLaunch := by unfold State.modPart; split <;> rfl
@[simp] theorem State.modPart_nextTeam (s : State) (vf : Nat) (f : Part → Part) : (s.modPart vf f).nextTeam = s.nextTeam := by unfold State.modPart; split <;> rfl
@[simp] theorem State.modPart_rin (s : State) (vf : Nat) (f : Part → Part) : (s.modPart vf f).rin = s.rin := by unfold State.modPart; split <;> rfl
@[simp] theorem State.modPart_sealed (s : State) (vf : Nat) (f : Part → Part) : (s.modPart vf f).sealed = s.sealed := by unfold State.modPart; split <;> rfl
@[simp] theorem State.modPart_sealCopy (s : State) (vf : Nat) (f : Part → Part) : (s.modPart vf f).sealCopy = s.sealCopy := by unfold State.modPart; split <;> rfl
@[simp] theorem State.modPart_sealing (s : State) (vf : Nat) (f : Part → Part) : (s.modPart vf f).sealing = s.sealing := by unfold State.modPart; split <;> rfl
@[simp] theorem State.modPart_sealPending (s : State) (vf : Nat) (f : Part → Part) : (s.modPart vf f).sealPending = s.sealPending := by unfold State.modPart; split <;> rfl
@[simp] theorem State.modPart_sealDue (s : State) (vf : Nat) (f : Part → Part) : (s.modPart vf f).sealDue = s.sealDue := by unfold State.modPart; split <;> rfl
@[simp] theorem State.modPart_sealClk (s : State) (vf : Nat) (f : Part → Part) : (s.modPart vf f).sealClk = s.sealClk := by unfold State.modPart; split <;> rfl
@[simp] theorem State.modPart_consumed (s : State) (vf : Nat) (f : Part → Part) : (s.modPart vf f).consumed = s.consumed := by unfold State.modPart; split <;> rfl
@[simp] theorem State.modPart_own (s : State) (vf : Nat) (f : Part → Part) : (s.modPart vf f).own = s.own := by unfold State.modPart; split <;> rfl
@[simp] theorem State.modPart_domain (s : State) (vf : Nat) (f : Part → Part) : (s.modPart vf f).domain = s.domain := by unfold State.modPart; split <;> rfl
@[simp] theorem State.modPart_spanRoute (s : State) (vf : Nat) (f : Part → Part) : (s.modPart vf f).spanRoute = s.spanRoute := by unfold State.modPart; split <;> rfl
@[simp] theorem State.modPart_spanDrop (s : State) (vf : Nat) (f : Part → Part) : (s.modPart vf f).spanDrop = s.spanDrop := by unfold State.modPart; split <;> rfl
@[simp] theorem State.modPart_peerOut (s : State) (vf : Nat) (f : Part → Part) : (s.modPart vf f).peerOut = s.peerOut := by unfold State.modPart; split <;> rfl
@[simp] theorem State.modPart_slt (s : State) (vf : Nat) (f : Part → Part) : (s.modPart vf f).slt = s.slt := by unfold State.modPart; split <;> rfl
@[simp] theorem State.modPart_pemap (s : State) (vf : Nat) (f : Part → Part) : (s.modPart vf f).pemap = s.pemap := by unfold State.modPart; split <;> rfl
@[simp] theorem State.modPart_swapAt (s : State) (vf : Nat) (f : Part → Part) : (s.modPart vf f).swapAt = s.swapAt := by unfold State.modPart; split <;> rfl
@[simp] theorem State.modPart_swapTicks (s : State) (vf : Nat) (f : Part → Part) : (s.modPart vf f).swapTicks = s.swapTicks := by unfold State.modPart; split <;> rfl
@[simp] theorem State.modPart_mhz (s : State) (vf : Nat) (f : Part → Part) : (s.modPart vf f).mhz = s.mhz := by unfold State.modPart; split <;> rfl
@[simp] theorem State.modPart_power (s : State) (vf : Nat) (f : Part → Part) : (s.modPart vf f).power = s.power := by unfold State.modPart; split <;> rfl
@[simp] theorem State.modPart_flash (s : State) (vf : Nat) (f : Part → Part) : (s.modPart vf f).flash = s.flash := by unfold State.modPart; split <;> rfl
@[simp] theorem State.modPart_reports (s : State) (vf : Nat) (f : Part → Part) : (s.modPart vf f).reports = s.reports := by unfold State.modPart; split <;> rfl

/-! ### State.modLaunch -/

@[simp] theorem State.modLaunch_agenda (s : State) (l : Nat) (f : Launch → Launch) : (s.modLaunch l f).agenda = s.agenda := by unfold State.modLaunch; split <;> rfl
@[simp] theorem State.modLaunch_focus (s : State) (l : Nat) (f : Launch → Launch) : (s.modLaunch l f).focus = s.focus := by unfold State.modLaunch; split <;> rfl
@[simp] theorem State.modLaunch_fresh (s : State) (l : Nat) (f : Launch → Launch) : (s.modLaunch l f).fresh = s.fresh := by unfold State.modLaunch; split <;> rfl
@[simp] theorem State.modLaunch_clk (s : State) (l : Nat) (f : Launch → Launch) : (s.modLaunch l f).clk = s.clk := by unfold State.modLaunch; split <;> rfl
@[simp] theorem State.modLaunch_mem (s : State) (l : Nat) (f : Launch → Launch) : (s.modLaunch l f).mem = s.mem := by unfold State.modLaunch; split <;> rfl
@[simp] theorem State.modLaunch_poisonMem (s : State) (l : Nat) (f : Launch → Launch) : (s.modLaunch l f).poisonMem = s.poisonMem := by unfold State.modLaunch; split <;> rfl
@[simp] theorem State.modLaunch_prev (s : State) (l : Nat) (f : Launch → Launch) : (s.modLaunch l f).prev = s.prev := by unfold State.modLaunch; split <;> rfl
@[simp] theorem State.modLaunch_loose (s : State) (l : Nat) (f : Launch → Launch) : (s.modLaunch l f).loose = s.loose := by unfold State.modLaunch; split <;> rfl
@[simp] theorem State.modLaunch_hostMem (s : State) (l : Nat) (f : Launch → Launch) : (s.modLaunch l f).hostMem = s.hostMem := by unfold State.modLaunch; split <;> rfl
@[simp] theorem State.modLaunch_out (s : State) (l : Nat) (f : Launch → Launch) : (s.modLaunch l f).out = s.out := by unfold State.modLaunch; split <;> rfl
@[simp] theorem State.modLaunch_parts (s : State) (l : Nat) (f : Launch → Launch) : (s.modLaunch l f).parts = s.parts := by unfold State.modLaunch; split <;> rfl
@[simp] theorem State.modLaunch_teams (s : State) (l : Nat) (f : Launch → Launch) : (s.modLaunch l f).teams = s.teams := by unfold State.modLaunch; split <;> rfl
@[simp] theorem State.modLaunch_amoos (s : State) (l : Nat) (f : Launch → Launch) : (s.modLaunch l f).amoos = s.amoos := by unfold State.modLaunch; split <;> rfl
@[simp] theorem State.modLaunch_waits (s : State) (l : Nat) (f : Launch → Launch) : (s.modLaunch l f).waits = s.waits := by unfold State.modLaunch; split <;> rfl
@[simp] theorem State.modLaunch_glints (s : State) (l : Nat) (f : Launch → Launch) : (s.modLaunch l f).glints = s.glints := by unfold State.modLaunch; split <;> rfl
@[simp] theorem State.modLaunch_nextLaunch (s : State) (l : Nat) (f : Launch → Launch) : (s.modLaunch l f).nextLaunch = s.nextLaunch := by unfold State.modLaunch; split <;> rfl
@[simp] theorem State.modLaunch_nextTeam (s : State) (l : Nat) (f : Launch → Launch) : (s.modLaunch l f).nextTeam = s.nextTeam := by unfold State.modLaunch; split <;> rfl
@[simp] theorem State.modLaunch_rin (s : State) (l : Nat) (f : Launch → Launch) : (s.modLaunch l f).rin = s.rin := by unfold State.modLaunch; split <;> rfl
@[simp] theorem State.modLaunch_sealed (s : State) (l : Nat) (f : Launch → Launch) : (s.modLaunch l f).sealed = s.sealed := by unfold State.modLaunch; split <;> rfl
@[simp] theorem State.modLaunch_sealCopy (s : State) (l : Nat) (f : Launch → Launch) : (s.modLaunch l f).sealCopy = s.sealCopy := by unfold State.modLaunch; split <;> rfl
@[simp] theorem State.modLaunch_sealing (s : State) (l : Nat) (f : Launch → Launch) : (s.modLaunch l f).sealing = s.sealing := by unfold State.modLaunch; split <;> rfl
@[simp] theorem State.modLaunch_sealPending (s : State) (l : Nat) (f : Launch → Launch) : (s.modLaunch l f).sealPending = s.sealPending := by unfold State.modLaunch; split <;> rfl
@[simp] theorem State.modLaunch_sealDue (s : State) (l : Nat) (f : Launch → Launch) : (s.modLaunch l f).sealDue = s.sealDue := by unfold State.modLaunch; split <;> rfl
@[simp] theorem State.modLaunch_sealClk (s : State) (l : Nat) (f : Launch → Launch) : (s.modLaunch l f).sealClk = s.sealClk := by unfold State.modLaunch; split <;> rfl
@[simp] theorem State.modLaunch_consumed (s : State) (l : Nat) (f : Launch → Launch) : (s.modLaunch l f).consumed = s.consumed := by unfold State.modLaunch; split <;> rfl
@[simp] theorem State.modLaunch_own (s : State) (l : Nat) (f : Launch → Launch) : (s.modLaunch l f).own = s.own := by unfold State.modLaunch; split <;> rfl
@[simp] theorem State.modLaunch_domain (s : State) (l : Nat) (f : Launch → Launch) : (s.modLaunch l f).domain = s.domain := by unfold State.modLaunch; split <;> rfl
@[simp] theorem State.modLaunch_spanRoute (s : State) (l : Nat) (f : Launch → Launch) : (s.modLaunch l f).spanRoute = s.spanRoute := by unfold State.modLaunch; split <;> rfl
@[simp] theorem State.modLaunch_spanDrop (s : State) (l : Nat) (f : Launch → Launch) : (s.modLaunch l f).spanDrop = s.spanDrop := by unfold State.modLaunch; split <;> rfl
@[simp] theorem State.modLaunch_peerOut (s : State) (l : Nat) (f : Launch → Launch) : (s.modLaunch l f).peerOut = s.peerOut := by unfold State.modLaunch; split <;> rfl
@[simp] theorem State.modLaunch_slt (s : State) (l : Nat) (f : Launch → Launch) : (s.modLaunch l f).slt = s.slt := by unfold State.modLaunch; split <;> rfl
@[simp] theorem State.modLaunch_pemap (s : State) (l : Nat) (f : Launch → Launch) : (s.modLaunch l f).pemap = s.pemap := by unfold State.modLaunch; split <;> rfl
@[simp] theorem State.modLaunch_swapAt (s : State) (l : Nat) (f : Launch → Launch) : (s.modLaunch l f).swapAt = s.swapAt := by unfold State.modLaunch; split <;> rfl
@[simp] theorem State.modLaunch_swapTicks (s : State) (l : Nat) (f : Launch → Launch) : (s.modLaunch l f).swapTicks = s.swapTicks := by unfold State.modLaunch; split <;> rfl
@[simp] theorem State.modLaunch_mhz (s : State) (l : Nat) (f : Launch → Launch) : (s.modLaunch l f).mhz = s.mhz := by unfold State.modLaunch; split <;> rfl
@[simp] theorem State.modLaunch_power (s : State) (l : Nat) (f : Launch → Launch) : (s.modLaunch l f).power = s.power := by unfold State.modLaunch; split <;> rfl
@[simp] theorem State.modLaunch_flash (s : State) (l : Nat) (f : Launch → Launch) : (s.modLaunch l f).flash = s.flash := by unfold State.modLaunch; split <;> rfl
@[simp] theorem State.modLaunch_reports (s : State) (l : Nat) (f : Launch → Launch) : (s.modLaunch l f).reports = s.reports := by unfold State.modLaunch; split <;> rfl

/-! ### State.disarm -/

@[simp] theorem State.disarm_agenda (s : State) (vf : Nat) : (s.disarm vf).agenda = s.agenda := by simp [State.disarm]
@[simp] theorem State.disarm_focus (s : State) (vf : Nat) : (s.disarm vf).focus = s.focus := by simp [State.disarm]
@[simp] theorem State.disarm_fresh (s : State) (vf : Nat) : (s.disarm vf).fresh = s.fresh := by simp [State.disarm]
@[simp] theorem State.disarm_clk (s : State) (vf : Nat) : (s.disarm vf).clk = s.clk := by simp [State.disarm]
@[simp] theorem State.disarm_mem (s : State) (vf : Nat) : (s.disarm vf).mem = s.mem := by simp [State.disarm]
@[simp] theorem State.disarm_poisonMem (s : State) (vf : Nat) : (s.disarm vf).poisonMem = s.poisonMem := by simp [State.disarm]
@[simp] theorem State.disarm_prev (s : State) (vf : Nat) : (s.disarm vf).prev = s.prev := by simp [State.disarm]
@[simp] theorem State.disarm_loose (s : State) (vf : Nat) : (s.disarm vf).loose = s.loose := by simp [State.disarm]
@[simp] theorem State.disarm_hostMem (s : State) (vf : Nat) : (s.disarm vf).hostMem = s.hostMem := by simp [State.disarm]
@[simp] theorem State.disarm_out (s : State) (vf : Nat) : (s.disarm vf).out = s.out := by simp [State.disarm]
@[simp] theorem State.disarm_launches (s : State) (vf : Nat) : (s.disarm vf).launches = s.launches := by simp [State.disarm]
@[simp] theorem State.disarm_teams (s : State) (vf : Nat) : (s.disarm vf).teams = s.teams := by simp [State.disarm]
@[simp] theorem State.disarm_amoos (s : State) (vf : Nat) : (s.disarm vf).amoos = s.amoos := by simp [State.disarm]
@[simp] theorem State.disarm_waits (s : State) (vf : Nat) : (s.disarm vf).waits = s.waits := by simp [State.disarm]
@[simp] theorem State.disarm_glints (s : State) (vf : Nat) : (s.disarm vf).glints = s.glints := by simp [State.disarm]
@[simp] theorem State.disarm_nextLaunch (s : State) (vf : Nat) : (s.disarm vf).nextLaunch = s.nextLaunch := by simp [State.disarm]
@[simp] theorem State.disarm_nextTeam (s : State) (vf : Nat) : (s.disarm vf).nextTeam = s.nextTeam := by simp [State.disarm]
@[simp] theorem State.disarm_rin (s : State) (vf : Nat) : (s.disarm vf).rin = s.rin := by simp [State.disarm]
@[simp] theorem State.disarm_sealed (s : State) (vf : Nat) : (s.disarm vf).sealed = s.sealed := by simp [State.disarm]
@[simp] theorem State.disarm_sealCopy (s : State) (vf : Nat) : (s.disarm vf).sealCopy = s.sealCopy := by simp [State.disarm]
@[simp] theorem State.disarm_sealing (s : State) (vf : Nat) : (s.disarm vf).sealing = s.sealing := by simp [State.disarm]
@[simp] theorem State.disarm_sealPending (s : State) (vf : Nat) : (s.disarm vf).sealPending = s.sealPending := by simp [State.disarm]
@[simp] theorem State.disarm_sealDue (s : State) (vf : Nat) : (s.disarm vf).sealDue = s.sealDue := by simp [State.disarm]
@[simp] theorem State.disarm_sealClk (s : State) (vf : Nat) : (s.disarm vf).sealClk = s.sealClk := by simp [State.disarm]
@[simp] theorem State.disarm_consumed (s : State) (vf : Nat) : (s.disarm vf).consumed = s.consumed := by simp [State.disarm]
@[simp] theorem State.disarm_own (s : State) (vf : Nat) : (s.disarm vf).own = s.own := by simp [State.disarm]
@[simp] theorem State.disarm_domain (s : State) (vf : Nat) : (s.disarm vf).domain = s.domain := by simp [State.disarm]
@[simp] theorem State.disarm_spanRoute (s : State) (vf : Nat) : (s.disarm vf).spanRoute = s.spanRoute := by simp [State.disarm]
@[simp] theorem State.disarm_spanDrop (s : State) (vf : Nat) : (s.disarm vf).spanDrop = s.spanDrop := by simp [State.disarm]
@[simp] theorem State.disarm_peerOut (s : State) (vf : Nat) : (s.disarm vf).peerOut = s.peerOut := by simp [State.disarm]
@[simp] theorem State.disarm_slt (s : State) (vf : Nat) : (s.disarm vf).slt = s.slt := by simp [State.disarm]
@[simp] theorem State.disarm_pemap (s : State) (vf : Nat) : (s.disarm vf).pemap = s.pemap := by simp [State.disarm]
@[simp] theorem State.disarm_swapAt (s : State) (vf : Nat) : (s.disarm vf).swapAt = s.swapAt := by simp [State.disarm]
@[simp] theorem State.disarm_swapTicks (s : State) (vf : Nat) : (s.disarm vf).swapTicks = s.swapTicks := by simp [State.disarm]
@[simp] theorem State.disarm_mhz (s : State) (vf : Nat) : (s.disarm vf).mhz = s.mhz := by simp [State.disarm]
@[simp] theorem State.disarm_power (s : State) (vf : Nat) : (s.disarm vf).power = s.power := by simp [State.disarm]
@[simp] theorem State.disarm_flash (s : State) (vf : Nat) : (s.disarm vf).flash = s.flash := by simp [State.disarm]
@[simp] theorem State.disarm_reports (s : State) (vf : Nat) : (s.disarm vf).reports = s.reports := by simp [State.disarm]

/-- A walk that fires the error injection clears ARM, and any other changes nothing (R393; log 131). -/
theorem State.walked_cases (s : State) (vf va : Nat) (via : List Nat) : s.walked vf va via = s ∨ s.walked vf va via = s.disarm vf := by
  unfold State.walked
  split
  · exact .inl rfl
  · split
    · exact .inr rfl
    · exact .inl rfl

/-- A read that fires the error injection clears ARM, and any other changes nothing (R393). -/
theorem State.inject_cases (s : State) (vf pa : Nat) : s.inject vf pa = (s, false) ∨ s.inject vf pa = (s.disarm vf, true) := by
  unfold State.inject
  split
  · exact .inr rfl
  · exact .inl rfl

/-! ### State.walked -/

@[simp] theorem State.walked_agenda (s : State) (vf va : Nat) (via : List Nat) : (s.walked vf va via).agenda = s.agenda := by rcases s.walked_cases vf va via with h | h <;> simp [h]
@[simp] theorem State.walked_focus (s : State) (vf va : Nat) (via : List Nat) : (s.walked vf va via).focus = s.focus := by rcases s.walked_cases vf va via with h | h <;> simp [h]
@[simp] theorem State.walked_fresh (s : State) (vf va : Nat) (via : List Nat) : (s.walked vf va via).fresh = s.fresh := by rcases s.walked_cases vf va via with h | h <;> simp [h]
@[simp] theorem State.walked_clk (s : State) (vf va : Nat) (via : List Nat) : (s.walked vf va via).clk = s.clk := by rcases s.walked_cases vf va via with h | h <;> simp [h]
@[simp] theorem State.walked_mem (s : State) (vf va : Nat) (via : List Nat) : (s.walked vf va via).mem = s.mem := by rcases s.walked_cases vf va via with h | h <;> simp [h]
@[simp] theorem State.walked_poisonMem (s : State) (vf va : Nat) (via : List Nat) : (s.walked vf va via).poisonMem = s.poisonMem := by rcases s.walked_cases vf va via with h | h <;> simp [h]
@[simp] theorem State.walked_prev (s : State) (vf va : Nat) (via : List Nat) : (s.walked vf va via).prev = s.prev := by rcases s.walked_cases vf va via with h | h <;> simp [h]
@[simp] theorem State.walked_loose (s : State) (vf va : Nat) (via : List Nat) : (s.walked vf va via).loose = s.loose := by rcases s.walked_cases vf va via with h | h <;> simp [h]
@[simp] theorem State.walked_hostMem (s : State) (vf va : Nat) (via : List Nat) : (s.walked vf va via).hostMem = s.hostMem := by rcases s.walked_cases vf va via with h | h <;> simp [h]
@[simp] theorem State.walked_out (s : State) (vf va : Nat) (via : List Nat) : (s.walked vf va via).out = s.out := by rcases s.walked_cases vf va via with h | h <;> simp [h]
@[simp] theorem State.walked_launches (s : State) (vf va : Nat) (via : List Nat) : (s.walked vf va via).launches = s.launches := by rcases s.walked_cases vf va via with h | h <;> simp [h]
@[simp] theorem State.walked_teams (s : State) (vf va : Nat) (via : List Nat) : (s.walked vf va via).teams = s.teams := by rcases s.walked_cases vf va via with h | h <;> simp [h]
@[simp] theorem State.walked_amoos (s : State) (vf va : Nat) (via : List Nat) : (s.walked vf va via).amoos = s.amoos := by rcases s.walked_cases vf va via with h | h <;> simp [h]
@[simp] theorem State.walked_waits (s : State) (vf va : Nat) (via : List Nat) : (s.walked vf va via).waits = s.waits := by rcases s.walked_cases vf va via with h | h <;> simp [h]
@[simp] theorem State.walked_glints (s : State) (vf va : Nat) (via : List Nat) : (s.walked vf va via).glints = s.glints := by rcases s.walked_cases vf va via with h | h <;> simp [h]
@[simp] theorem State.walked_nextLaunch (s : State) (vf va : Nat) (via : List Nat) : (s.walked vf va via).nextLaunch = s.nextLaunch := by rcases s.walked_cases vf va via with h | h <;> simp [h]
@[simp] theorem State.walked_nextTeam (s : State) (vf va : Nat) (via : List Nat) : (s.walked vf va via).nextTeam = s.nextTeam := by rcases s.walked_cases vf va via with h | h <;> simp [h]
@[simp] theorem State.walked_rin (s : State) (vf va : Nat) (via : List Nat) : (s.walked vf va via).rin = s.rin := by rcases s.walked_cases vf va via with h | h <;> simp [h]
@[simp] theorem State.walked_sealed (s : State) (vf va : Nat) (via : List Nat) : (s.walked vf va via).sealed = s.sealed := by rcases s.walked_cases vf va via with h | h <;> simp [h]
@[simp] theorem State.walked_sealCopy (s : State) (vf va : Nat) (via : List Nat) : (s.walked vf va via).sealCopy = s.sealCopy := by rcases s.walked_cases vf va via with h | h <;> simp [h]
@[simp] theorem State.walked_sealing (s : State) (vf va : Nat) (via : List Nat) : (s.walked vf va via).sealing = s.sealing := by rcases s.walked_cases vf va via with h | h <;> simp [h]
@[simp] theorem State.walked_sealPending (s : State) (vf va : Nat) (via : List Nat) : (s.walked vf va via).sealPending = s.sealPending := by rcases s.walked_cases vf va via with h | h <;> simp [h]
@[simp] theorem State.walked_sealDue (s : State) (vf va : Nat) (via : List Nat) : (s.walked vf va via).sealDue = s.sealDue := by rcases s.walked_cases vf va via with h | h <;> simp [h]
@[simp] theorem State.walked_sealClk (s : State) (vf va : Nat) (via : List Nat) : (s.walked vf va via).sealClk = s.sealClk := by rcases s.walked_cases vf va via with h | h <;> simp [h]
@[simp] theorem State.walked_consumed (s : State) (vf va : Nat) (via : List Nat) : (s.walked vf va via).consumed = s.consumed := by rcases s.walked_cases vf va via with h | h <;> simp [h]
@[simp] theorem State.walked_own (s : State) (vf va : Nat) (via : List Nat) : (s.walked vf va via).own = s.own := by rcases s.walked_cases vf va via with h | h <;> simp [h]
@[simp] theorem State.walked_domain (s : State) (vf va : Nat) (via : List Nat) : (s.walked vf va via).domain = s.domain := by rcases s.walked_cases vf va via with h | h <;> simp [h]
@[simp] theorem State.walked_spanRoute (s : State) (vf va : Nat) (via : List Nat) : (s.walked vf va via).spanRoute = s.spanRoute := by rcases s.walked_cases vf va via with h | h <;> simp [h]
@[simp] theorem State.walked_spanDrop (s : State) (vf va : Nat) (via : List Nat) : (s.walked vf va via).spanDrop = s.spanDrop := by rcases s.walked_cases vf va via with h | h <;> simp [h]
@[simp] theorem State.walked_peerOut (s : State) (vf va : Nat) (via : List Nat) : (s.walked vf va via).peerOut = s.peerOut := by rcases s.walked_cases vf va via with h | h <;> simp [h]
@[simp] theorem State.walked_slt (s : State) (vf va : Nat) (via : List Nat) : (s.walked vf va via).slt = s.slt := by rcases s.walked_cases vf va via with h | h <;> simp [h]
@[simp] theorem State.walked_pemap (s : State) (vf va : Nat) (via : List Nat) : (s.walked vf va via).pemap = s.pemap := by rcases s.walked_cases vf va via with h | h <;> simp [h]
@[simp] theorem State.walked_swapAt (s : State) (vf va : Nat) (via : List Nat) : (s.walked vf va via).swapAt = s.swapAt := by rcases s.walked_cases vf va via with h | h <;> simp [h]
@[simp] theorem State.walked_swapTicks (s : State) (vf va : Nat) (via : List Nat) : (s.walked vf va via).swapTicks = s.swapTicks := by rcases s.walked_cases vf va via with h | h <;> simp [h]
@[simp] theorem State.walked_mhz (s : State) (vf va : Nat) (via : List Nat) : (s.walked vf va via).mhz = s.mhz := by rcases s.walked_cases vf va via with h | h <;> simp [h]
@[simp] theorem State.walked_power (s : State) (vf va : Nat) (via : List Nat) : (s.walked vf va via).power = s.power := by rcases s.walked_cases vf va via with h | h <;> simp [h]
@[simp] theorem State.walked_flash (s : State) (vf va : Nat) (via : List Nat) : (s.walked vf va via).flash = s.flash := by rcases s.walked_cases vf va via with h | h <;> simp [h]
@[simp] theorem State.walked_reports (s : State) (vf va : Nat) (via : List Nat) : (s.walked vf va via).reports = s.reports := by rcases s.walked_cases vf va via with h | h <;> simp [h]

/-! ### State.inject -/

@[simp] theorem State.inject_agenda (s : State) (vf pa : Nat) : (s.inject vf pa).1.agenda = s.agenda := by rcases s.inject_cases vf pa with h | h <;> simp [h]
@[simp] theorem State.inject_focus (s : State) (vf pa : Nat) : (s.inject vf pa).1.focus = s.focus := by rcases s.inject_cases vf pa with h | h <;> simp [h]
@[simp] theorem State.inject_fresh (s : State) (vf pa : Nat) : (s.inject vf pa).1.fresh = s.fresh := by rcases s.inject_cases vf pa with h | h <;> simp [h]
@[simp] theorem State.inject_clk (s : State) (vf pa : Nat) : (s.inject vf pa).1.clk = s.clk := by rcases s.inject_cases vf pa with h | h <;> simp [h]
@[simp] theorem State.inject_mem (s : State) (vf pa : Nat) : (s.inject vf pa).1.mem = s.mem := by rcases s.inject_cases vf pa with h | h <;> simp [h]
@[simp] theorem State.inject_poisonMem (s : State) (vf pa : Nat) : (s.inject vf pa).1.poisonMem = s.poisonMem := by rcases s.inject_cases vf pa with h | h <;> simp [h]
@[simp] theorem State.inject_prev (s : State) (vf pa : Nat) : (s.inject vf pa).1.prev = s.prev := by rcases s.inject_cases vf pa with h | h <;> simp [h]
@[simp] theorem State.inject_loose (s : State) (vf pa : Nat) : (s.inject vf pa).1.loose = s.loose := by rcases s.inject_cases vf pa with h | h <;> simp [h]
@[simp] theorem State.inject_hostMem (s : State) (vf pa : Nat) : (s.inject vf pa).1.hostMem = s.hostMem := by rcases s.inject_cases vf pa with h | h <;> simp [h]
@[simp] theorem State.inject_out (s : State) (vf pa : Nat) : (s.inject vf pa).1.out = s.out := by rcases s.inject_cases vf pa with h | h <;> simp [h]
@[simp] theorem State.inject_launches (s : State) (vf pa : Nat) : (s.inject vf pa).1.launches = s.launches := by rcases s.inject_cases vf pa with h | h <;> simp [h]
@[simp] theorem State.inject_teams (s : State) (vf pa : Nat) : (s.inject vf pa).1.teams = s.teams := by rcases s.inject_cases vf pa with h | h <;> simp [h]
@[simp] theorem State.inject_amoos (s : State) (vf pa : Nat) : (s.inject vf pa).1.amoos = s.amoos := by rcases s.inject_cases vf pa with h | h <;> simp [h]
@[simp] theorem State.inject_waits (s : State) (vf pa : Nat) : (s.inject vf pa).1.waits = s.waits := by rcases s.inject_cases vf pa with h | h <;> simp [h]
@[simp] theorem State.inject_glints (s : State) (vf pa : Nat) : (s.inject vf pa).1.glints = s.glints := by rcases s.inject_cases vf pa with h | h <;> simp [h]
@[simp] theorem State.inject_nextLaunch (s : State) (vf pa : Nat) : (s.inject vf pa).1.nextLaunch = s.nextLaunch := by rcases s.inject_cases vf pa with h | h <;> simp [h]
@[simp] theorem State.inject_nextTeam (s : State) (vf pa : Nat) : (s.inject vf pa).1.nextTeam = s.nextTeam := by rcases s.inject_cases vf pa with h | h <;> simp [h]
@[simp] theorem State.inject_rin (s : State) (vf pa : Nat) : (s.inject vf pa).1.rin = s.rin := by rcases s.inject_cases vf pa with h | h <;> simp [h]
@[simp] theorem State.inject_sealed (s : State) (vf pa : Nat) : (s.inject vf pa).1.sealed = s.sealed := by rcases s.inject_cases vf pa with h | h <;> simp [h]
@[simp] theorem State.inject_sealCopy (s : State) (vf pa : Nat) : (s.inject vf pa).1.sealCopy = s.sealCopy := by rcases s.inject_cases vf pa with h | h <;> simp [h]
@[simp] theorem State.inject_sealing (s : State) (vf pa : Nat) : (s.inject vf pa).1.sealing = s.sealing := by rcases s.inject_cases vf pa with h | h <;> simp [h]
@[simp] theorem State.inject_sealPending (s : State) (vf pa : Nat) : (s.inject vf pa).1.sealPending = s.sealPending := by rcases s.inject_cases vf pa with h | h <;> simp [h]
@[simp] theorem State.inject_sealDue (s : State) (vf pa : Nat) : (s.inject vf pa).1.sealDue = s.sealDue := by rcases s.inject_cases vf pa with h | h <;> simp [h]
@[simp] theorem State.inject_sealClk (s : State) (vf pa : Nat) : (s.inject vf pa).1.sealClk = s.sealClk := by rcases s.inject_cases vf pa with h | h <;> simp [h]
@[simp] theorem State.inject_consumed (s : State) (vf pa : Nat) : (s.inject vf pa).1.consumed = s.consumed := by rcases s.inject_cases vf pa with h | h <;> simp [h]
@[simp] theorem State.inject_own (s : State) (vf pa : Nat) : (s.inject vf pa).1.own = s.own := by rcases s.inject_cases vf pa with h | h <;> simp [h]
@[simp] theorem State.inject_domain (s : State) (vf pa : Nat) : (s.inject vf pa).1.domain = s.domain := by rcases s.inject_cases vf pa with h | h <;> simp [h]
@[simp] theorem State.inject_spanRoute (s : State) (vf pa : Nat) : (s.inject vf pa).1.spanRoute = s.spanRoute := by rcases s.inject_cases vf pa with h | h <;> simp [h]
@[simp] theorem State.inject_spanDrop (s : State) (vf pa : Nat) : (s.inject vf pa).1.spanDrop = s.spanDrop := by rcases s.inject_cases vf pa with h | h <;> simp [h]
@[simp] theorem State.inject_peerOut (s : State) (vf pa : Nat) : (s.inject vf pa).1.peerOut = s.peerOut := by rcases s.inject_cases vf pa with h | h <;> simp [h]
@[simp] theorem State.inject_slt (s : State) (vf pa : Nat) : (s.inject vf pa).1.slt = s.slt := by rcases s.inject_cases vf pa with h | h <;> simp [h]
@[simp] theorem State.inject_pemap (s : State) (vf pa : Nat) : (s.inject vf pa).1.pemap = s.pemap := by rcases s.inject_cases vf pa with h | h <;> simp [h]
@[simp] theorem State.inject_swapAt (s : State) (vf pa : Nat) : (s.inject vf pa).1.swapAt = s.swapAt := by rcases s.inject_cases vf pa with h | h <;> simp [h]
@[simp] theorem State.inject_swapTicks (s : State) (vf pa : Nat) : (s.inject vf pa).1.swapTicks = s.swapTicks := by rcases s.inject_cases vf pa with h | h <;> simp [h]
@[simp] theorem State.inject_mhz (s : State) (vf pa : Nat) : (s.inject vf pa).1.mhz = s.mhz := by rcases s.inject_cases vf pa with h | h <;> simp [h]
@[simp] theorem State.inject_power (s : State) (vf pa : Nat) : (s.inject vf pa).1.power = s.power := by rcases s.inject_cases vf pa with h | h <;> simp [h]
@[simp] theorem State.inject_flash (s : State) (vf pa : Nat) : (s.inject vf pa).1.flash = s.flash := by rcases s.inject_cases vf pa with h | h <;> simp [h]
@[simp] theorem State.inject_reports (s : State) (vf pa : Nat) : (s.inject vf pa).1.reports = s.reports := by rcases s.inject_cases vf pa with h | h <;> simp [h]

/-! ### State.leaveWait -/

@[simp] theorem State.leaveWait_agenda (s : State) (t m : Nat) : (s.leaveWait t m).agenda = s.agenda := rfl
@[simp] theorem State.leaveWait_focus (s : State) (t m : Nat) : (s.leaveWait t m).focus = s.focus := rfl
@[simp] theorem State.leaveWait_fresh (s : State) (t m : Nat) : (s.leaveWait t m).fresh = s.fresh := rfl
@[simp] theorem State.leaveWait_clk (s : State) (t m : Nat) : (s.leaveWait t m).clk = s.clk := rfl
@[simp] theorem State.leaveWait_mem (s : State) (t m : Nat) : (s.leaveWait t m).mem = s.mem := rfl
@[simp] theorem State.leaveWait_poisonMem (s : State) (t m : Nat) : (s.leaveWait t m).poisonMem = s.poisonMem := rfl
@[simp] theorem State.leaveWait_prev (s : State) (t m : Nat) : (s.leaveWait t m).prev = s.prev := rfl
@[simp] theorem State.leaveWait_loose (s : State) (t m : Nat) : (s.leaveWait t m).loose = s.loose := rfl
@[simp] theorem State.leaveWait_hostMem (s : State) (t m : Nat) : (s.leaveWait t m).hostMem = s.hostMem := rfl
@[simp] theorem State.leaveWait_out (s : State) (t m : Nat) : (s.leaveWait t m).out = s.out := rfl
@[simp] theorem State.leaveWait_launches (s : State) (t m : Nat) : (s.leaveWait t m).launches = s.launches := rfl
@[simp] theorem State.leaveWait_teams (s : State) (t m : Nat) : (s.leaveWait t m).teams = s.teams := rfl
@[simp] theorem State.leaveWait_amoos (s : State) (t m : Nat) : (s.leaveWait t m).amoos = s.amoos := rfl
@[simp] theorem State.leaveWait_glints (s : State) (t m : Nat) : (s.leaveWait t m).glints = s.glints := rfl
@[simp] theorem State.leaveWait_nextLaunch (s : State) (t m : Nat) : (s.leaveWait t m).nextLaunch = s.nextLaunch := rfl
@[simp] theorem State.leaveWait_nextTeam (s : State) (t m : Nat) : (s.leaveWait t m).nextTeam = s.nextTeam := rfl
@[simp] theorem State.leaveWait_rin (s : State) (t m : Nat) : (s.leaveWait t m).rin = s.rin := rfl
@[simp] theorem State.leaveWait_sealed (s : State) (t m : Nat) : (s.leaveWait t m).sealed = s.sealed := rfl
@[simp] theorem State.leaveWait_sealCopy (s : State) (t m : Nat) : (s.leaveWait t m).sealCopy = s.sealCopy := rfl
@[simp] theorem State.leaveWait_sealing (s : State) (t m : Nat) : (s.leaveWait t m).sealing = s.sealing := rfl
@[simp] theorem State.leaveWait_sealPending (s : State) (t m : Nat) : (s.leaveWait t m).sealPending = s.sealPending := rfl
@[simp] theorem State.leaveWait_sealDue (s : State) (t m : Nat) : (s.leaveWait t m).sealDue = s.sealDue := rfl
@[simp] theorem State.leaveWait_sealClk (s : State) (t m : Nat) : (s.leaveWait t m).sealClk = s.sealClk := rfl
@[simp] theorem State.leaveWait_consumed (s : State) (t m : Nat) : (s.leaveWait t m).consumed = s.consumed := rfl
@[simp] theorem State.leaveWait_own (s : State) (t m : Nat) : (s.leaveWait t m).own = s.own := rfl
@[simp] theorem State.leaveWait_domain (s : State) (t m : Nat) : (s.leaveWait t m).domain = s.domain := rfl
@[simp] theorem State.leaveWait_spanRoute (s : State) (t m : Nat) : (s.leaveWait t m).spanRoute = s.spanRoute := rfl
@[simp] theorem State.leaveWait_spanDrop (s : State) (t m : Nat) : (s.leaveWait t m).spanDrop = s.spanDrop := rfl
@[simp] theorem State.leaveWait_peerOut (s : State) (t m : Nat) : (s.leaveWait t m).peerOut = s.peerOut := rfl
@[simp] theorem State.leaveWait_slt (s : State) (t m : Nat) : (s.leaveWait t m).slt = s.slt := rfl
@[simp] theorem State.leaveWait_pemap (s : State) (t m : Nat) : (s.leaveWait t m).pemap = s.pemap := rfl
@[simp] theorem State.leaveWait_swapAt (s : State) (t m : Nat) : (s.leaveWait t m).swapAt = s.swapAt := rfl
@[simp] theorem State.leaveWait_swapTicks (s : State) (t m : Nat) : (s.leaveWait t m).swapTicks = s.swapTicks := rfl
@[simp] theorem State.leaveWait_mhz (s : State) (t m : Nat) : (s.leaveWait t m).mhz = s.mhz := rfl
@[simp] theorem State.leaveWait_power (s : State) (t m : Nat) : (s.leaveWait t m).power = s.power := rfl
@[simp] theorem State.leaveWait_flash (s : State) (t m : Nat) : (s.leaveWait t m).flash = s.flash := rfl
@[simp] theorem State.leaveWait_reports (s : State) (t m : Nat) : (s.leaveWait t m).reports = s.reports := rfl

/-! ### State.cache -/

@[simp] theorem State.cache_agenda (s : State) (vf : Nat) (e : TlbEntry) (via : List Nat) : (s.cache vf e via).agenda = s.agenda := by simp [State.cache]
@[simp] theorem State.cache_focus (s : State) (vf : Nat) (e : TlbEntry) (via : List Nat) : (s.cache vf e via).focus = s.focus := by simp [State.cache]
@[simp] theorem State.cache_fresh (s : State) (vf : Nat) (e : TlbEntry) (via : List Nat) : (s.cache vf e via).fresh = s.fresh := by simp [State.cache]
@[simp] theorem State.cache_clk (s : State) (vf : Nat) (e : TlbEntry) (via : List Nat) : (s.cache vf e via).clk = s.clk := by simp [State.cache]
@[simp] theorem State.cache_mem (s : State) (vf : Nat) (e : TlbEntry) (via : List Nat) : (s.cache vf e via).mem = s.mem := by simp [State.cache]
@[simp] theorem State.cache_poisonMem (s : State) (vf : Nat) (e : TlbEntry) (via : List Nat) : (s.cache vf e via).poisonMem = s.poisonMem := by simp [State.cache]
@[simp] theorem State.cache_prev (s : State) (vf : Nat) (e : TlbEntry) (via : List Nat) : (s.cache vf e via).prev = s.prev := by simp [State.cache]
@[simp] theorem State.cache_loose (s : State) (vf : Nat) (e : TlbEntry) (via : List Nat) : (s.cache vf e via).loose = s.loose := by simp [State.cache]
@[simp] theorem State.cache_hostMem (s : State) (vf : Nat) (e : TlbEntry) (via : List Nat) : (s.cache vf e via).hostMem = s.hostMem := by simp [State.cache]
@[simp] theorem State.cache_out (s : State) (vf : Nat) (e : TlbEntry) (via : List Nat) : (s.cache vf e via).out = s.out := by simp [State.cache]
@[simp] theorem State.cache_launches (s : State) (vf : Nat) (e : TlbEntry) (via : List Nat) : (s.cache vf e via).launches = s.launches := by simp [State.cache]
@[simp] theorem State.cache_teams (s : State) (vf : Nat) (e : TlbEntry) (via : List Nat) : (s.cache vf e via).teams = s.teams := by simp [State.cache]
@[simp] theorem State.cache_amoos (s : State) (vf : Nat) (e : TlbEntry) (via : List Nat) : (s.cache vf e via).amoos = s.amoos := by simp [State.cache]
@[simp] theorem State.cache_waits (s : State) (vf : Nat) (e : TlbEntry) (via : List Nat) : (s.cache vf e via).waits = s.waits := by simp [State.cache]
@[simp] theorem State.cache_glints (s : State) (vf : Nat) (e : TlbEntry) (via : List Nat) : (s.cache vf e via).glints = s.glints := by simp [State.cache]
@[simp] theorem State.cache_nextLaunch (s : State) (vf : Nat) (e : TlbEntry) (via : List Nat) : (s.cache vf e via).nextLaunch = s.nextLaunch := by simp [State.cache]
@[simp] theorem State.cache_nextTeam (s : State) (vf : Nat) (e : TlbEntry) (via : List Nat) : (s.cache vf e via).nextTeam = s.nextTeam := by simp [State.cache]
@[simp] theorem State.cache_rin (s : State) (vf : Nat) (e : TlbEntry) (via : List Nat) : (s.cache vf e via).rin = s.rin := by simp [State.cache]
@[simp] theorem State.cache_sealed (s : State) (vf : Nat) (e : TlbEntry) (via : List Nat) : (s.cache vf e via).sealed = s.sealed := by simp [State.cache]
@[simp] theorem State.cache_sealCopy (s : State) (vf : Nat) (e : TlbEntry) (via : List Nat) : (s.cache vf e via).sealCopy = s.sealCopy := by simp [State.cache]
@[simp] theorem State.cache_sealing (s : State) (vf : Nat) (e : TlbEntry) (via : List Nat) : (s.cache vf e via).sealing = s.sealing := by simp [State.cache]
@[simp] theorem State.cache_sealPending (s : State) (vf : Nat) (e : TlbEntry) (via : List Nat) : (s.cache vf e via).sealPending = s.sealPending := by simp [State.cache]
@[simp] theorem State.cache_sealDue (s : State) (vf : Nat) (e : TlbEntry) (via : List Nat) : (s.cache vf e via).sealDue = s.sealDue := by simp [State.cache]
@[simp] theorem State.cache_sealClk (s : State) (vf : Nat) (e : TlbEntry) (via : List Nat) : (s.cache vf e via).sealClk = s.sealClk := by simp [State.cache]
@[simp] theorem State.cache_consumed (s : State) (vf : Nat) (e : TlbEntry) (via : List Nat) : (s.cache vf e via).consumed = s.consumed := by simp [State.cache]
@[simp] theorem State.cache_own (s : State) (vf : Nat) (e : TlbEntry) (via : List Nat) : (s.cache vf e via).own = s.own := by simp [State.cache]
@[simp] theorem State.cache_domain (s : State) (vf : Nat) (e : TlbEntry) (via : List Nat) : (s.cache vf e via).domain = s.domain := by simp [State.cache]
@[simp] theorem State.cache_spanRoute (s : State) (vf : Nat) (e : TlbEntry) (via : List Nat) : (s.cache vf e via).spanRoute = s.spanRoute := by simp [State.cache]
@[simp] theorem State.cache_spanDrop (s : State) (vf : Nat) (e : TlbEntry) (via : List Nat) : (s.cache vf e via).spanDrop = s.spanDrop := by simp [State.cache]
@[simp] theorem State.cache_peerOut (s : State) (vf : Nat) (e : TlbEntry) (via : List Nat) : (s.cache vf e via).peerOut = s.peerOut := by simp [State.cache]
@[simp] theorem State.cache_slt (s : State) (vf : Nat) (e : TlbEntry) (via : List Nat) : (s.cache vf e via).slt = s.slt := by simp [State.cache]
@[simp] theorem State.cache_pemap (s : State) (vf : Nat) (e : TlbEntry) (via : List Nat) : (s.cache vf e via).pemap = s.pemap := by simp [State.cache]
@[simp] theorem State.cache_swapAt (s : State) (vf : Nat) (e : TlbEntry) (via : List Nat) : (s.cache vf e via).swapAt = s.swapAt := by simp [State.cache]
@[simp] theorem State.cache_swapTicks (s : State) (vf : Nat) (e : TlbEntry) (via : List Nat) : (s.cache vf e via).swapTicks = s.swapTicks := by simp [State.cache]
@[simp] theorem State.cache_mhz (s : State) (vf : Nat) (e : TlbEntry) (via : List Nat) : (s.cache vf e via).mhz = s.mhz := by simp [State.cache]
@[simp] theorem State.cache_power (s : State) (vf : Nat) (e : TlbEntry) (via : List Nat) : (s.cache vf e via).power = s.power := by simp [State.cache]
@[simp] theorem State.cache_flash (s : State) (vf : Nat) (e : TlbEntry) (via : List Nat) : (s.cache vf e via).flash = s.flash := by simp [State.cache]
@[simp] theorem State.cache_reports (s : State) (vf : Nat) (e : TlbEntry) (via : List Nat) : (s.cache vf e via).reports = s.reports := by simp [State.cache]

/-! ### State.consume -/

@[simp] theorem State.consume_agenda (s : State) (a b d : Nat) : (s.consume a b d).agenda = s.agenda := by unfold State.consume; split <;> rfl
@[simp] theorem State.consume_focus (s : State) (a b d : Nat) : (s.consume a b d).focus = s.focus := by unfold State.consume; split <;> rfl
@[simp] theorem State.consume_fresh (s : State) (a b d : Nat) : (s.consume a b d).fresh = s.fresh := by unfold State.consume; split <;> rfl
@[simp] theorem State.consume_clk (s : State) (a b d : Nat) : (s.consume a b d).clk = s.clk := by unfold State.consume; split <;> rfl
@[simp] theorem State.consume_mem (s : State) (a b d : Nat) : (s.consume a b d).mem = s.mem := by unfold State.consume; split <;> rfl
@[simp] theorem State.consume_poisonMem (s : State) (a b d : Nat) : (s.consume a b d).poisonMem = s.poisonMem := by unfold State.consume; split <;> rfl
@[simp] theorem State.consume_prev (s : State) (a b d : Nat) : (s.consume a b d).prev = s.prev := by unfold State.consume; split <;> rfl
@[simp] theorem State.consume_loose (s : State) (a b d : Nat) : (s.consume a b d).loose = s.loose := by unfold State.consume; split <;> rfl
@[simp] theorem State.consume_hostMem (s : State) (a b d : Nat) : (s.consume a b d).hostMem = s.hostMem := by unfold State.consume; split <;> rfl
@[simp] theorem State.consume_out (s : State) (a b d : Nat) : (s.consume a b d).out = s.out := by unfold State.consume; split <;> rfl
@[simp] theorem State.consume_parts (s : State) (a b d : Nat) : (s.consume a b d).parts = s.parts := by unfold State.consume; split <;> rfl
@[simp] theorem State.consume_launches (s : State) (a b d : Nat) : (s.consume a b d).launches = s.launches := by unfold State.consume; split <;> rfl
@[simp] theorem State.consume_teams (s : State) (a b d : Nat) : (s.consume a b d).teams = s.teams := by unfold State.consume; split <;> rfl
@[simp] theorem State.consume_amoos (s : State) (a b d : Nat) : (s.consume a b d).amoos = s.amoos := by unfold State.consume; split <;> rfl
@[simp] theorem State.consume_waits (s : State) (a b d : Nat) : (s.consume a b d).waits = s.waits := by unfold State.consume; split <;> rfl
@[simp] theorem State.consume_glints (s : State) (a b d : Nat) : (s.consume a b d).glints = s.glints := by unfold State.consume; split <;> rfl
@[simp] theorem State.consume_nextLaunch (s : State) (a b d : Nat) : (s.consume a b d).nextLaunch = s.nextLaunch := by unfold State.consume; split <;> rfl
@[simp] theorem State.consume_nextTeam (s : State) (a b d : Nat) : (s.consume a b d).nextTeam = s.nextTeam := by unfold State.consume; split <;> rfl
@[simp] theorem State.consume_rin (s : State) (a b d : Nat) : (s.consume a b d).rin = s.rin := by unfold State.consume; split <;> rfl
@[simp] theorem State.consume_sealed (s : State) (a b d : Nat) : (s.consume a b d).sealed = s.sealed := by unfold State.consume; split <;> rfl
@[simp] theorem State.consume_sealCopy (s : State) (a b d : Nat) : (s.consume a b d).sealCopy = s.sealCopy := by unfold State.consume; split <;> rfl
@[simp] theorem State.consume_sealing (s : State) (a b d : Nat) : (s.consume a b d).sealing = s.sealing := by unfold State.consume; split <;> rfl
@[simp] theorem State.consume_sealPending (s : State) (a b d : Nat) : (s.consume a b d).sealPending = s.sealPending := by unfold State.consume; split <;> rfl
@[simp] theorem State.consume_sealDue (s : State) (a b d : Nat) : (s.consume a b d).sealDue = s.sealDue := by unfold State.consume; split <;> rfl
@[simp] theorem State.consume_sealClk (s : State) (a b d : Nat) : (s.consume a b d).sealClk = s.sealClk := by unfold State.consume; split <;> rfl
@[simp] theorem State.consume_own (s : State) (a b d : Nat) : (s.consume a b d).own = s.own := by unfold State.consume; split <;> rfl
@[simp] theorem State.consume_domain (s : State) (a b d : Nat) : (s.consume a b d).domain = s.domain := by unfold State.consume; split <;> rfl
@[simp] theorem State.consume_spanRoute (s : State) (a b d : Nat) : (s.consume a b d).spanRoute = s.spanRoute := by unfold State.consume; split <;> rfl
@[simp] theorem State.consume_spanDrop (s : State) (a b d : Nat) : (s.consume a b d).spanDrop = s.spanDrop := by unfold State.consume; split <;> rfl
@[simp] theorem State.consume_peerOut (s : State) (a b d : Nat) : (s.consume a b d).peerOut = s.peerOut := by unfold State.consume; split <;> rfl
@[simp] theorem State.consume_slt (s : State) (a b d : Nat) : (s.consume a b d).slt = s.slt := by unfold State.consume; split <;> rfl
@[simp] theorem State.consume_pemap (s : State) (a b d : Nat) : (s.consume a b d).pemap = s.pemap := by unfold State.consume; split <;> rfl
@[simp] theorem State.consume_swapAt (s : State) (a b d : Nat) : (s.consume a b d).swapAt = s.swapAt := by unfold State.consume; split <;> rfl
@[simp] theorem State.consume_swapTicks (s : State) (a b d : Nat) : (s.consume a b d).swapTicks = s.swapTicks := by unfold State.consume; split <;> rfl
@[simp] theorem State.consume_mhz (s : State) (a b d : Nat) : (s.consume a b d).mhz = s.mhz := by unfold State.consume; split <;> rfl
@[simp] theorem State.consume_power (s : State) (a b d : Nat) : (s.consume a b d).power = s.power := by unfold State.consume; split <;> rfl
@[simp] theorem State.consume_flash (s : State) (a b d : Nat) : (s.consume a b d).flash = s.flash := by unfold State.consume; split <;> rfl
@[simp] theorem State.consume_reports (s : State) (a b d : Nat) : (s.consume a b d).reports = s.reports := by unfold State.consume; split <;> rfl

/-! ### State.raise -/

@[simp] theorem State.raise_agenda (s : State) (vf v : Nat) : (s.raise vf v).agenda = s.agenda := by simp [State.raise]
@[simp] theorem State.raise_focus (s : State) (vf v : Nat) : (s.raise vf v).focus = s.focus := by simp [State.raise]
@[simp] theorem State.raise_fresh (s : State) (vf v : Nat) : (s.raise vf v).fresh = s.fresh := by simp [State.raise]
@[simp] theorem State.raise_clk (s : State) (vf v : Nat) : (s.raise vf v).clk = s.clk := by simp [State.raise]
@[simp] theorem State.raise_mem (s : State) (vf v : Nat) : (s.raise vf v).mem = s.mem := by simp [State.raise]
@[simp] theorem State.raise_poisonMem (s : State) (vf v : Nat) : (s.raise vf v).poisonMem = s.poisonMem := by simp [State.raise]
@[simp] theorem State.raise_prev (s : State) (vf v : Nat) : (s.raise vf v).prev = s.prev := by simp [State.raise]
@[simp] theorem State.raise_loose (s : State) (vf v : Nat) : (s.raise vf v).loose = s.loose := by simp [State.raise]
@[simp] theorem State.raise_hostMem (s : State) (vf v : Nat) : (s.raise vf v).hostMem = s.hostMem := by simp [State.raise]
@[simp] theorem State.raise_out (s : State) (vf v : Nat) : (s.raise vf v).out = s.out := by simp [State.raise]
@[simp] theorem State.raise_launches (s : State) (vf v : Nat) : (s.raise vf v).launches = s.launches := by simp [State.raise]
@[simp] theorem State.raise_teams (s : State) (vf v : Nat) : (s.raise vf v).teams = s.teams := by simp [State.raise]
@[simp] theorem State.raise_amoos (s : State) (vf v : Nat) : (s.raise vf v).amoos = s.amoos := by simp [State.raise]
@[simp] theorem State.raise_waits (s : State) (vf v : Nat) : (s.raise vf v).waits = s.waits := by simp [State.raise]
@[simp] theorem State.raise_glints (s : State) (vf v : Nat) : (s.raise vf v).glints = s.glints := by simp [State.raise]
@[simp] theorem State.raise_nextLaunch (s : State) (vf v : Nat) : (s.raise vf v).nextLaunch = s.nextLaunch := by simp [State.raise]
@[simp] theorem State.raise_nextTeam (s : State) (vf v : Nat) : (s.raise vf v).nextTeam = s.nextTeam := by simp [State.raise]
@[simp] theorem State.raise_rin (s : State) (vf v : Nat) : (s.raise vf v).rin = s.rin := by simp [State.raise]
@[simp] theorem State.raise_sealed (s : State) (vf v : Nat) : (s.raise vf v).sealed = s.sealed := by simp [State.raise]
@[simp] theorem State.raise_sealCopy (s : State) (vf v : Nat) : (s.raise vf v).sealCopy = s.sealCopy := by simp [State.raise]
@[simp] theorem State.raise_sealing (s : State) (vf v : Nat) : (s.raise vf v).sealing = s.sealing := by simp [State.raise]
@[simp] theorem State.raise_sealPending (s : State) (vf v : Nat) : (s.raise vf v).sealPending = s.sealPending := by simp [State.raise]
@[simp] theorem State.raise_sealDue (s : State) (vf v : Nat) : (s.raise vf v).sealDue = s.sealDue := by simp [State.raise]
@[simp] theorem State.raise_sealClk (s : State) (vf v : Nat) : (s.raise vf v).sealClk = s.sealClk := by simp [State.raise]
@[simp] theorem State.raise_consumed (s : State) (vf v : Nat) : (s.raise vf v).consumed = s.consumed := by simp [State.raise]
@[simp] theorem State.raise_own (s : State) (vf v : Nat) : (s.raise vf v).own = s.own := by simp [State.raise]
@[simp] theorem State.raise_domain (s : State) (vf v : Nat) : (s.raise vf v).domain = s.domain := by simp [State.raise]
@[simp] theorem State.raise_spanRoute (s : State) (vf v : Nat) : (s.raise vf v).spanRoute = s.spanRoute := by simp [State.raise]
@[simp] theorem State.raise_spanDrop (s : State) (vf v : Nat) : (s.raise vf v).spanDrop = s.spanDrop := by simp [State.raise]
@[simp] theorem State.raise_peerOut (s : State) (vf v : Nat) : (s.raise vf v).peerOut = s.peerOut := by simp [State.raise]
@[simp] theorem State.raise_slt (s : State) (vf v : Nat) : (s.raise vf v).slt = s.slt := by simp [State.raise]
@[simp] theorem State.raise_pemap (s : State) (vf v : Nat) : (s.raise vf v).pemap = s.pemap := by simp [State.raise]
@[simp] theorem State.raise_swapAt (s : State) (vf v : Nat) : (s.raise vf v).swapAt = s.swapAt := by simp [State.raise]
@[simp] theorem State.raise_swapTicks (s : State) (vf v : Nat) : (s.raise vf v).swapTicks = s.swapTicks := by simp [State.raise]
@[simp] theorem State.raise_mhz (s : State) (vf v : Nat) : (s.raise vf v).mhz = s.mhz := by simp [State.raise]
@[simp] theorem State.raise_power (s : State) (vf v : Nat) : (s.raise vf v).power = s.power := by simp [State.raise]
@[simp] theorem State.raise_flash (s : State) (vf v : Nat) : (s.raise vf v).flash = s.flash := by simp [State.raise]
@[simp] theorem State.raise_reports (s : State) (vf v : Nat) : (s.raise vf v).reports = s.reports := by simp [State.raise]

/-! ## Updates of the registers -/

/-! ### Regs.write -/

@[simp] theorem Regs.write_p (r : Regs) (d : Reg) (v : Word) (b : Bool) : (r.write d v b).p = r.p := by unfold Regs.write; split <;> rfl
@[simp] theorem Regs.write_poisonP (r : Regs) (d : Reg) (v : Word) (b : Bool) : (r.write d v b).poisonP = r.poisonP := by unfold Regs.write; split <;> rfl
@[simp] theorem Regs.write_pc (r : Regs) (d : Reg) (v : Word) (b : Bool) : (r.write d v b).pc = r.pc := by unfold Regs.write; split <;> rfl
@[simp] theorem Regs.write_loops (r : Regs) (d : Reg) (v : Word) (b : Bool) : (r.write d v b).loops = r.loops := by unfold Regs.write; split <;> rfl
@[simp] theorem Regs.write_handler (r : Regs) (d : Reg) (v : Word) (b : Bool) : (r.write d v b).handler = r.handler := by unfold Regs.write; split <;> rfl
@[simp] theorem Regs.write_ts (r : Regs) (d : Reg) (v : Word) (b : Bool) : (r.write d v b).ts = r.ts := by unfold Regs.write; split <;> rfl
@[simp] theorem Regs.write_seq (r : Regs) (d : Reg) (v : Word) (b : Bool) : (r.write d v b).seq = r.seq := by unfold Regs.write; split <;> rfl
@[simp] theorem Regs.write_dgs (r : Regs) (d : Reg) (v : Word) (b : Bool) : (r.write d v b).dgs = r.dgs := by unfold Regs.write; split <;> rfl
@[simp] theorem Regs.write_tcause (r : Regs) (d : Reg) (v : Word) (b : Bool) : (r.write d v b).tcause = r.tcause := by unfold Regs.write; split <;> rfl
@[simp] theorem Regs.write_taddr (r : Regs) (d : Reg) (v : Word) (b : Bool) : (r.write d v b).taddr = r.taddr := by unfold Regs.write; split <;> rfl
@[simp] theorem Regs.write_tval (r : Regs) (d : Reg) (v : Word) (b : Bool) : (r.write d v b).tval = r.tval := by unfold Regs.write; split <;> rfl
@[simp] theorem Regs.write_epc (r : Regs) (d : Reg) (v : Word) (b : Bool) : (r.write d v b).epc = r.epc := by unfold Regs.write; split <;> rfl
@[simp] theorem Regs.write_tvec (r : Regs) (d : Reg) (v : Word) (b : Bool) : (r.write d v b).tvec = r.tvec := by unfold Regs.write; split <;> rfl
@[simp] theorem Regs.write_poisonSr (r : Regs) (d : Reg) (v : Word) (b : Bool) : (r.write d v b).poisonSr = r.poisonSr := by unfold Regs.write; split <;> rfl
@[simp] theorem Regs.write_glintK (r : Regs) (d : Reg) (v : Word) (b : Bool) : (r.write d v b).glintK = r.glintK := by unfold Regs.write; split <;> rfl
@[simp] theorem Regs.write_glintMark (r : Regs) (d : Reg) (v : Word) (b : Bool) : (r.write d v b).glintMark = r.glintMark := by unfold Regs.write; split <;> rfl

/-! ### Regs.mark -/

@[simp] theorem Regs.mark_g (r : Regs) (d : Reg) (k : RegCond) : (r.mark d k).g = r.g := by unfold Regs.mark; split <;> rfl
@[simp] theorem Regs.mark_poisonG (r : Regs) (d : Reg) (k : RegCond) : (r.mark d k).poisonG = r.poisonG := by unfold Regs.mark; split <;> rfl
@[simp] theorem Regs.mark_p (r : Regs) (d : Reg) (k : RegCond) : (r.mark d k).p = r.p := by unfold Regs.mark; split <;> rfl
@[simp] theorem Regs.mark_poisonP (r : Regs) (d : Reg) (k : RegCond) : (r.mark d k).poisonP = r.poisonP := by unfold Regs.mark; split <;> rfl
@[simp] theorem Regs.mark_pc (r : Regs) (d : Reg) (k : RegCond) : (r.mark d k).pc = r.pc := by unfold Regs.mark; split <;> rfl
@[simp] theorem Regs.mark_loops (r : Regs) (d : Reg) (k : RegCond) : (r.mark d k).loops = r.loops := by unfold Regs.mark; split <;> rfl
@[simp] theorem Regs.mark_handler (r : Regs) (d : Reg) (k : RegCond) : (r.mark d k).handler = r.handler := by unfold Regs.mark; split <;> rfl
@[simp] theorem Regs.mark_ts (r : Regs) (d : Reg) (k : RegCond) : (r.mark d k).ts = r.ts := by unfold Regs.mark; split <;> rfl
@[simp] theorem Regs.mark_seq (r : Regs) (d : Reg) (k : RegCond) : (r.mark d k).seq = r.seq := by unfold Regs.mark; split <;> rfl
@[simp] theorem Regs.mark_dgs (r : Regs) (d : Reg) (k : RegCond) : (r.mark d k).dgs = r.dgs := by unfold Regs.mark; split <;> rfl
@[simp] theorem Regs.mark_tcause (r : Regs) (d : Reg) (k : RegCond) : (r.mark d k).tcause = r.tcause := by unfold Regs.mark; split <;> rfl
@[simp] theorem Regs.mark_taddr (r : Regs) (d : Reg) (k : RegCond) : (r.mark d k).taddr = r.taddr := by unfold Regs.mark; split <;> rfl
@[simp] theorem Regs.mark_tval (r : Regs) (d : Reg) (k : RegCond) : (r.mark d k).tval = r.tval := by unfold Regs.mark; split <;> rfl
@[simp] theorem Regs.mark_epc (r : Regs) (d : Reg) (k : RegCond) : (r.mark d k).epc = r.epc := by unfold Regs.mark; split <;> rfl
@[simp] theorem Regs.mark_tvec (r : Regs) (d : Reg) (k : RegCond) : (r.mark d k).tvec = r.tvec := by unfold Regs.mark; split <;> rfl
@[simp] theorem Regs.mark_poisonSr (r : Regs) (d : Reg) (k : RegCond) : (r.mark d k).poisonSr = r.poisonSr := by unfold Regs.mark; split <;> rfl
@[simp] theorem Regs.mark_glintK (r : Regs) (d : Reg) (k : RegCond) : (r.mark d k).glintK = r.glintK := by unfold Regs.mark; split <;> rfl
@[simp] theorem Regs.mark_glintMark (r : Regs) (d : Reg) (k : RegCond) : (r.mark d k).glintMark = r.glintMark := by unfold Regs.mark; split <;> rfl

/-! ### Regs.setPred -/

@[simp] theorem Regs.setPred_g (r : Regs) (n : Pred) (v b : Bool) : (r.setPred n v b).g = r.g := by unfold Regs.setPred; split <;> rfl
@[simp] theorem Regs.setPred_cond (r : Regs) (n : Pred) (v b : Bool) : (r.setPred n v b).cond = r.cond := by unfold Regs.setPred; split <;> rfl
@[simp] theorem Regs.setPred_poisonG (r : Regs) (n : Pred) (v b : Bool) : (r.setPred n v b).poisonG = r.poisonG := by unfold Regs.setPred; split <;> rfl
@[simp] theorem Regs.setPred_pc (r : Regs) (n : Pred) (v b : Bool) : (r.setPred n v b).pc = r.pc := by unfold Regs.setPred; split <;> rfl
@[simp] theorem Regs.setPred_loops (r : Regs) (n : Pred) (v b : Bool) : (r.setPred n v b).loops = r.loops := by unfold Regs.setPred; split <;> rfl
@[simp] theorem Regs.setPred_handler (r : Regs) (n : Pred) (v b : Bool) : (r.setPred n v b).handler = r.handler := by unfold Regs.setPred; split <;> rfl
@[simp] theorem Regs.setPred_ts (r : Regs) (n : Pred) (v b : Bool) : (r.setPred n v b).ts = r.ts := by unfold Regs.setPred; split <;> rfl
@[simp] theorem Regs.setPred_seq (r : Regs) (n : Pred) (v b : Bool) : (r.setPred n v b).seq = r.seq := by unfold Regs.setPred; split <;> rfl
@[simp] theorem Regs.setPred_dgs (r : Regs) (n : Pred) (v b : Bool) : (r.setPred n v b).dgs = r.dgs := by unfold Regs.setPred; split <;> rfl
@[simp] theorem Regs.setPred_tcause (r : Regs) (n : Pred) (v b : Bool) : (r.setPred n v b).tcause = r.tcause := by unfold Regs.setPred; split <;> rfl
@[simp] theorem Regs.setPred_taddr (r : Regs) (n : Pred) (v b : Bool) : (r.setPred n v b).taddr = r.taddr := by unfold Regs.setPred; split <;> rfl
@[simp] theorem Regs.setPred_tval (r : Regs) (n : Pred) (v b : Bool) : (r.setPred n v b).tval = r.tval := by unfold Regs.setPred; split <;> rfl
@[simp] theorem Regs.setPred_epc (r : Regs) (n : Pred) (v b : Bool) : (r.setPred n v b).epc = r.epc := by unfold Regs.setPred; split <;> rfl
@[simp] theorem Regs.setPred_tvec (r : Regs) (n : Pred) (v b : Bool) : (r.setPred n v b).tvec = r.tvec := by unfold Regs.setPred; split <;> rfl
@[simp] theorem Regs.setPred_poisonSr (r : Regs) (n : Pred) (v b : Bool) : (r.setPred n v b).poisonSr = r.poisonSr := by unfold Regs.setPred; split <;> rfl
@[simp] theorem Regs.setPred_glintK (r : Regs) (n : Pred) (v b : Bool) : (r.setPred n v b).glintK = r.glintK := by unfold Regs.setPred; split <;> rfl
@[simp] theorem Regs.setPred_glintMark (r : Regs) (n : Pred) (v b : Bool) : (r.setPred n v b).glintMark = r.glintMark := by unfold Regs.setPred; split <;> rfl

/-! ### Regs.seqTo -/

@[simp] theorem Regs.seqTo_g (r : Regs) (pc : Nat) : (r.seqTo pc).g = r.g := by unfold Regs.seqTo; split <;> rfl
@[simp] theorem Regs.seqTo_cond (r : Regs) (pc : Nat) : (r.seqTo pc).cond = r.cond := by unfold Regs.seqTo; split <;> rfl
@[simp] theorem Regs.seqTo_poisonG (r : Regs) (pc : Nat) : (r.seqTo pc).poisonG = r.poisonG := by unfold Regs.seqTo; split <;> rfl
@[simp] theorem Regs.seqTo_p (r : Regs) (pc : Nat) : (r.seqTo pc).p = r.p := by unfold Regs.seqTo; split <;> rfl
@[simp] theorem Regs.seqTo_poisonP (r : Regs) (pc : Nat) : (r.seqTo pc).poisonP = r.poisonP := by unfold Regs.seqTo; split <;> rfl
@[simp] theorem Regs.seqTo_handler (r : Regs) (pc : Nat) : (r.seqTo pc).handler = r.handler := by unfold Regs.seqTo; split <;> rfl
@[simp] theorem Regs.seqTo_ts (r : Regs) (pc : Nat) : (r.seqTo pc).ts = r.ts := by unfold Regs.seqTo; split <;> rfl
@[simp] theorem Regs.seqTo_seq (r : Regs) (pc : Nat) : (r.seqTo pc).seq = r.seq := by unfold Regs.seqTo; split <;> rfl
@[simp] theorem Regs.seqTo_dgs (r : Regs) (pc : Nat) : (r.seqTo pc).dgs = r.dgs := by unfold Regs.seqTo; split <;> rfl
@[simp] theorem Regs.seqTo_tcause (r : Regs) (pc : Nat) : (r.seqTo pc).tcause = r.tcause := by unfold Regs.seqTo; split <;> rfl
@[simp] theorem Regs.seqTo_taddr (r : Regs) (pc : Nat) : (r.seqTo pc).taddr = r.taddr := by unfold Regs.seqTo; split <;> rfl
@[simp] theorem Regs.seqTo_tval (r : Regs) (pc : Nat) : (r.seqTo pc).tval = r.tval := by unfold Regs.seqTo; split <;> rfl
@[simp] theorem Regs.seqTo_epc (r : Regs) (pc : Nat) : (r.seqTo pc).epc = r.epc := by unfold Regs.seqTo; split <;> rfl
@[simp] theorem Regs.seqTo_tvec (r : Regs) (pc : Nat) : (r.seqTo pc).tvec = r.tvec := by unfold Regs.seqTo; split <;> rfl
@[simp] theorem Regs.seqTo_poisonSr (r : Regs) (pc : Nat) : (r.seqTo pc).poisonSr = r.poisonSr := by unfold Regs.seqTo; split <;> rfl
@[simp] theorem Regs.seqTo_glintK (r : Regs) (pc : Nat) : (r.seqTo pc).glintK = r.glintK := by unfold Regs.seqTo; split <;> rfl
@[simp] theorem Regs.seqTo_glintMark (r : Regs) (pc : Nat) : (r.seqTo pc).glintMark = r.glintMark := by unfold Regs.seqTo; split <;> rfl

/-! ### Regs.advance -/

@[simp] theorem Regs.advance_g (r : Regs) (n : Nat) : (r.advance n).g = r.g := by simp [Regs.advance]
@[simp] theorem Regs.advance_cond (r : Regs) (n : Nat) : (r.advance n).cond = r.cond := by simp [Regs.advance]
@[simp] theorem Regs.advance_poisonG (r : Regs) (n : Nat) : (r.advance n).poisonG = r.poisonG := by simp [Regs.advance]
@[simp] theorem Regs.advance_p (r : Regs) (n : Nat) : (r.advance n).p = r.p := by simp [Regs.advance]
@[simp] theorem Regs.advance_poisonP (r : Regs) (n : Nat) : (r.advance n).poisonP = r.poisonP := by simp [Regs.advance]
@[simp] theorem Regs.advance_handler (r : Regs) (n : Nat) : (r.advance n).handler = r.handler := by simp [Regs.advance]
@[simp] theorem Regs.advance_ts (r : Regs) (n : Nat) : (r.advance n).ts = r.ts := by simp [Regs.advance]
@[simp] theorem Regs.advance_seq (r : Regs) (n : Nat) : (r.advance n).seq = r.seq := by simp [Regs.advance]
@[simp] theorem Regs.advance_dgs (r : Regs) (n : Nat) : (r.advance n).dgs = r.dgs := by simp [Regs.advance]
@[simp] theorem Regs.advance_tcause (r : Regs) (n : Nat) : (r.advance n).tcause = r.tcause := by simp [Regs.advance]
@[simp] theorem Regs.advance_taddr (r : Regs) (n : Nat) : (r.advance n).taddr = r.taddr := by simp [Regs.advance]
@[simp] theorem Regs.advance_tval (r : Regs) (n : Nat) : (r.advance n).tval = r.tval := by simp [Regs.advance]
@[simp] theorem Regs.advance_epc (r : Regs) (n : Nat) : (r.advance n).epc = r.epc := by simp [Regs.advance]
@[simp] theorem Regs.advance_tvec (r : Regs) (n : Nat) : (r.advance n).tvec = r.tvec := by simp [Regs.advance]
@[simp] theorem Regs.advance_poisonSr (r : Regs) (n : Nat) : (r.advance n).poisonSr = r.poisonSr := by simp [Regs.advance]
@[simp] theorem Regs.advance_glintK (r : Regs) (n : Nat) : (r.advance n).glintK = r.glintK := by simp [Regs.advance]
@[simp] theorem Regs.advance_glintMark (r : Regs) (n : Nat) : (r.advance n).glintMark = r.glintMark := by simp [Regs.advance]

/-! ### Regs.jump -/

@[simp] theorem Regs.jump_g (r : Regs) (t : Nat) (b : Bool) : (r.jump t b).g = r.g := rfl
@[simp] theorem Regs.jump_cond (r : Regs) (t : Nat) (b : Bool) : (r.jump t b).cond = r.cond := rfl
@[simp] theorem Regs.jump_poisonG (r : Regs) (t : Nat) (b : Bool) : (r.jump t b).poisonG = r.poisonG := rfl
@[simp] theorem Regs.jump_p (r : Regs) (t : Nat) (b : Bool) : (r.jump t b).p = r.p := rfl
@[simp] theorem Regs.jump_poisonP (r : Regs) (t : Nat) (b : Bool) : (r.jump t b).poisonP = r.poisonP := rfl
@[simp] theorem Regs.jump_pc (r : Regs) (t : Nat) (b : Bool) : (r.jump t b).pc = t := rfl
@[simp] theorem Regs.jump_handler (r : Regs) (t : Nat) (b : Bool) : (r.jump t b).handler = r.handler := rfl
@[simp] theorem Regs.jump_ts (r : Regs) (t : Nat) (b : Bool) : (r.jump t b).ts = r.ts := rfl
@[simp] theorem Regs.jump_seq (r : Regs) (t : Nat) (b : Bool) : (r.jump t b).seq = r.seq := rfl
@[simp] theorem Regs.jump_dgs (r : Regs) (t : Nat) (b : Bool) : (r.jump t b).dgs = r.dgs := rfl
@[simp] theorem Regs.jump_tcause (r : Regs) (t : Nat) (b : Bool) : (r.jump t b).tcause = r.tcause := rfl
@[simp] theorem Regs.jump_taddr (r : Regs) (t : Nat) (b : Bool) : (r.jump t b).taddr = r.taddr := rfl
@[simp] theorem Regs.jump_tval (r : Regs) (t : Nat) (b : Bool) : (r.jump t b).tval = r.tval := rfl
@[simp] theorem Regs.jump_epc (r : Regs) (t : Nat) (b : Bool) : (r.jump t b).epc = r.epc := rfl
@[simp] theorem Regs.jump_tvec (r : Regs) (t : Nat) (b : Bool) : (r.jump t b).tvec = r.tvec := rfl
@[simp] theorem Regs.jump_poisonSr (r : Regs) (t : Nat) (b : Bool) : (r.jump t b).poisonSr = r.poisonSr := rfl
@[simp] theorem Regs.jump_glintK (r : Regs) (t : Nat) (b : Bool) : (r.jump t b).glintK = r.glintK := rfl
@[simp] theorem Regs.jump_glintMark (r : Regs) (t : Nat) (b : Bool) : (r.jump t b).glintMark = r.glintMark := rfl

/-! ### Regs.leave -/

@[simp] theorem Regs.leave_g (r : Regs) : (r.leave).g = r.g := rfl
@[simp] theorem Regs.leave_cond (r : Regs) : (r.leave).cond = r.cond := rfl
@[simp] theorem Regs.leave_poisonG (r : Regs) : (r.leave).poisonG = r.poisonG := rfl
@[simp] theorem Regs.leave_p (r : Regs) : (r.leave).p = r.p := rfl
@[simp] theorem Regs.leave_poisonP (r : Regs) : (r.leave).poisonP = r.poisonP := rfl
@[simp] theorem Regs.leave_pc (r : Regs) : (r.leave).pc = r.epc.toNat := rfl
@[simp] theorem Regs.leave_loops (r : Regs) : (r.leave).loops = r.loops := rfl
@[simp] theorem Regs.leave_handler (r : Regs) : (r.leave).handler = false := rfl
@[simp] theorem Regs.leave_ts (r : Regs) : (r.leave).ts = r.ts := rfl
@[simp] theorem Regs.leave_seq (r : Regs) : (r.leave).seq = r.seq := rfl
@[simp] theorem Regs.leave_dgs (r : Regs) : (r.leave).dgs = r.dgs := rfl
@[simp] theorem Regs.leave_tcause (r : Regs) : (r.leave).tcause = r.tcause := rfl
@[simp] theorem Regs.leave_taddr (r : Regs) : (r.leave).taddr = r.taddr := rfl
@[simp] theorem Regs.leave_tval (r : Regs) : (r.leave).tval = r.tval := rfl
@[simp] theorem Regs.leave_epc (r : Regs) : (r.leave).epc = r.epc := rfl
@[simp] theorem Regs.leave_tvec (r : Regs) : (r.leave).tvec = r.tvec := rfl
@[simp] theorem Regs.leave_poisonSr (r : Regs) : (r.leave).poisonSr = r.poisonSr := rfl
@[simp] theorem Regs.leave_glintK (r : Regs) : (r.leave).glintK = r.glintK := rfl
@[simp] theorem Regs.leave_glintMark (r : Regs) : (r.leave).glintMark = r.glintMark := rfl

/-! ### Regs.enter -/

@[simp] theorem Regs.enter_g (r : Regs) (k e : Nat) (d : BitVec 16) (a v : Word) : (r.enter k e d a v).g = r.g := rfl
@[simp] theorem Regs.enter_cond (r : Regs) (k e : Nat) (d : BitVec 16) (a v : Word) : (r.enter k e d a v).cond = r.cond := rfl
@[simp] theorem Regs.enter_poisonG (r : Regs) (k e : Nat) (d : BitVec 16) (a v : Word) : (r.enter k e d a v).poisonG = r.poisonG := rfl
@[simp] theorem Regs.enter_p (r : Regs) (k e : Nat) (d : BitVec 16) (a v : Word) : (r.enter k e d a v).p = r.p := rfl
@[simp] theorem Regs.enter_poisonP (r : Regs) (k e : Nat) (d : BitVec 16) (a v : Word) : (r.enter k e d a v).poisonP = r.poisonP := rfl
@[simp] theorem Regs.enter_pc (r : Regs) (k e : Nat) (d : BitVec 16) (a v : Word) : (r.enter k e d a v).pc = r.tvec.toNat + 4 * k := rfl
@[simp] theorem Regs.enter_loops (r : Regs) (k e : Nat) (d : BitVec 16) (a v : Word) : (r.enter k e d a v).loops = r.loops := rfl
@[simp] theorem Regs.enter_handler (r : Regs) (k e : Nat) (d : BitVec 16) (a v : Word) : (r.enter k e d a v).handler = true := rfl
@[simp] theorem Regs.enter_ts (r : Regs) (k e : Nat) (d : BitVec 16) (a v : Word) : (r.enter k e d a v).ts = r.ts := rfl
@[simp] theorem Regs.enter_seq (r : Regs) (k e : Nat) (d : BitVec 16) (a v : Word) : (r.enter k e d a v).seq = r.seq := rfl
@[simp] theorem Regs.enter_dgs (r : Regs) (k e : Nat) (d : BitVec 16) (a v : Word) : (r.enter k e d a v).dgs = r.dgs := rfl
@[simp] theorem Regs.enter_tcause (r : Regs) (k e : Nat) (d : BitVec 16) (a v : Word) : (r.enter k e d a v).tcause = BitVec.ofNat 64 (d.toNat * 65536 + k) := rfl
@[simp] theorem Regs.enter_taddr (r : Regs) (k e : Nat) (d : BitVec 16) (a v : Word) : (r.enter k e d a v).taddr = a := rfl
@[simp] theorem Regs.enter_tval (r : Regs) (k e : Nat) (d : BitVec 16) (a v : Word) : (r.enter k e d a v).tval = v := rfl
@[simp] theorem Regs.enter_epc (r : Regs) (k e : Nat) (d : BitVec 16) (a v : Word) : (r.enter k e d a v).epc = BitVec.ofNat 64 e := rfl
@[simp] theorem Regs.enter_tvec (r : Regs) (k e : Nat) (d : BitVec 16) (a v : Word) : (r.enter k e d a v).tvec = r.tvec := rfl
@[simp] theorem Regs.enter_glintK (r : Regs) (k e : Nat) (d : BitVec 16) (a v : Word) : (r.enter k e d a v).glintK = r.glintK := rfl
@[simp] theorem Regs.enter_glintMark (r : Regs) (k e : Nat) (d : BitVec 16) (a v : Word) : (r.enter k e d a v).glintMark = r.glintMark := rfl

/-! ## Updates of a task -/

/-! ### Task.past -/

@[simp] theorem Task.past_core (tk : Task) : (tk.past).core = tk.core := rfl
@[simp] theorem Task.past_slot (tk : Task) : (tk.past).slot = tk.slot := rfl
@[simp] theorem Task.past_regs (tk : Task) : (tk.past).regs = tk.regs.advance 4 := rfl
@[simp] theorem Task.past_retry (tk : Task) : (tk.past).retry = tk.retry := rfl
@[simp] theorem Task.past_tl (tk : Task) : (tk.past).tl = tk.tl := rfl
@[simp] theorem Task.past_fills (tk : Task) : (tk.past).fills = tk.fills := rfl
@[simp] theorem Task.past_appends (tk : Task) : (tk.past).appends = tk.appends := rfl
@[simp] theorem Task.past_fi (tk : Task) : (tk.past).fi = tk.fi := rfl
@[simp] theorem Task.past_fo (tk : Task) : (tk.past).fo = tk.fo := rfl
@[simp] theorem Task.past_fa (tk : Task) : (tk.past).fa = tk.fa := rfl
@[simp] theorem Task.past_thickets (tk : Task) : (tk.past).thickets = tk.thickets := rfl
@[simp] theorem Task.past_spad (tk : Task) : (tk.past).spad = tk.spad := rfl
@[simp] theorem Task.past_poisonS (tk : Task) : (tk.past).poisonS = tk.poisonS := rfl
@[simp] theorem Task.past_poisonProg (tk : Task) : (tk.past).poisonProg = tk.poisonProg := rfl
@[simp] theorem Task.past_hid (tk : Task) : (tk.past).hid = tk.hid := rfl
@[simp] theorem Task.past_bank0 (tk : Task) : (tk.past).bank0 = tk.bank0 := rfl
@[simp] theorem Task.past_bank1 (tk : Task) : (tk.past).bank1 = tk.bank1 := rfl
@[simp] theorem Task.past_shadowSel (tk : Task) : (tk.past).shadowSel = tk.shadowSel := rfl
@[simp] theorem Task.past_prog (tk : Task) : (tk.past).prog = tk.prog := rfl
@[simp] theorem Task.past_mxe (tk : Task) : (tk.past).mxe = tk.mxe := rfl
@[simp] theorem Task.past_gsq (tk : Task) : (tk.past).gsq = tk.gsq := rfl
@[simp] theorem Task.past_causes (tk : Task) : (tk.past).causes = tk.causes := rfl
@[simp] theorem Task.past_arrived (tk : Task) : (tk.past).arrived = tk.arrived := rfl
@[simp] theorem Task.past_px (tk : Task) : (tk.past).px = tk.px := rfl
@[simp] theorem Task.past_runFrom (tk : Task) : (tk.past).runFrom = tk.runFrom := rfl
@[simp] theorem Task.past_ranFor (tk : Task) : (tk.past).ranFor = tk.ranFor := rfl
@[simp] theorem Task.past_markClk (tk : Task) : (tk.past).markClk = tk.markClk := rfl
@[simp] theorem Task.past_entered (tk : Task) : (tk.past).entered = tk.entered := rfl

/-! ### Task.modTl -/

@[simp] theorem Task.modTl_core (tk : Task) (n : BitVec 4) (f : Timeline → Timeline) : (tk.modTl n f).core = tk.core := rfl
@[simp] theorem Task.modTl_slot (tk : Task) (n : BitVec 4) (f : Timeline → Timeline) : (tk.modTl n f).slot = tk.slot := rfl
@[simp] theorem Task.modTl_regs (tk : Task) (n : BitVec 4) (f : Timeline → Timeline) : (tk.modTl n f).regs = tk.regs := rfl
@[simp] theorem Task.modTl_retry (tk : Task) (n : BitVec 4) (f : Timeline → Timeline) : (tk.modTl n f).retry = tk.retry := rfl
@[simp] theorem Task.modTl_fills (tk : Task) (n : BitVec 4) (f : Timeline → Timeline) : (tk.modTl n f).fills = tk.fills := rfl
@[simp] theorem Task.modTl_appends (tk : Task) (n : BitVec 4) (f : Timeline → Timeline) : (tk.modTl n f).appends = tk.appends := rfl
@[simp] theorem Task.modTl_fi (tk : Task) (n : BitVec 4) (f : Timeline → Timeline) : (tk.modTl n f).fi = tk.fi := rfl
@[simp] theorem Task.modTl_fo (tk : Task) (n : BitVec 4) (f : Timeline → Timeline) : (tk.modTl n f).fo = tk.fo := rfl
@[simp] theorem Task.modTl_fa (tk : Task) (n : BitVec 4) (f : Timeline → Timeline) : (tk.modTl n f).fa = tk.fa := rfl
@[simp] theorem Task.modTl_thickets (tk : Task) (n : BitVec 4) (f : Timeline → Timeline) : (tk.modTl n f).thickets = tk.thickets := rfl
@[simp] theorem Task.modTl_spad (tk : Task) (n : BitVec 4) (f : Timeline → Timeline) : (tk.modTl n f).spad = tk.spad := rfl
@[simp] theorem Task.modTl_poisonS (tk : Task) (n : BitVec 4) (f : Timeline → Timeline) : (tk.modTl n f).poisonS = tk.poisonS := rfl
@[simp] theorem Task.modTl_poisonProg (tk : Task) (n : BitVec 4) (f : Timeline → Timeline) : (tk.modTl n f).poisonProg = tk.poisonProg := rfl
@[simp] theorem Task.modTl_hid (tk : Task) (n : BitVec 4) (f : Timeline → Timeline) : (tk.modTl n f).hid = tk.hid := rfl
@[simp] theorem Task.modTl_bank0 (tk : Task) (n : BitVec 4) (f : Timeline → Timeline) : (tk.modTl n f).bank0 = tk.bank0 := rfl
@[simp] theorem Task.modTl_bank1 (tk : Task) (n : BitVec 4) (f : Timeline → Timeline) : (tk.modTl n f).bank1 = tk.bank1 := rfl
@[simp] theorem Task.modTl_shadowSel (tk : Task) (n : BitVec 4) (f : Timeline → Timeline) : (tk.modTl n f).shadowSel = tk.shadowSel := rfl
@[simp] theorem Task.modTl_prog (tk : Task) (n : BitVec 4) (f : Timeline → Timeline) : (tk.modTl n f).prog = tk.prog := rfl
@[simp] theorem Task.modTl_mxe (tk : Task) (n : BitVec 4) (f : Timeline → Timeline) : (tk.modTl n f).mxe = tk.mxe := rfl
@[simp] theorem Task.modTl_gsq (tk : Task) (n : BitVec 4) (f : Timeline → Timeline) : (tk.modTl n f).gsq = tk.gsq := rfl
@[simp] theorem Task.modTl_causes (tk : Task) (n : BitVec 4) (f : Timeline → Timeline) : (tk.modTl n f).causes = tk.causes := rfl
@[simp] theorem Task.modTl_arrived (tk : Task) (n : BitVec 4) (f : Timeline → Timeline) : (tk.modTl n f).arrived = tk.arrived := rfl
@[simp] theorem Task.modTl_px (tk : Task) (n : BitVec 4) (f : Timeline → Timeline) : (tk.modTl n f).px = tk.px := rfl
@[simp] theorem Task.modTl_runFrom (tk : Task) (n : BitVec 4) (f : Timeline → Timeline) : (tk.modTl n f).runFrom = tk.runFrom := rfl
@[simp] theorem Task.modTl_ranFor (tk : Task) (n : BitVec 4) (f : Timeline → Timeline) : (tk.modTl n f).ranFor = tk.ranFor := rfl
@[simp] theorem Task.modTl_markClk (tk : Task) (n : BitVec 4) (f : Timeline → Timeline) : (tk.modTl n f).markClk = tk.markClk := rfl
@[simp] theorem Task.modTl_entered (tk : Task) (n : BitVec 4) (f : Timeline → Timeline) : (tk.modTl n f).entered = tk.entered := rfl

/-! ### Task.modSrc -/

@[simp] theorem Task.modSrc_core (tk : Task) (n : BitVec 4) (f : SrcPort → SrcPort) : (tk.modSrc n f).core = tk.core := rfl
@[simp] theorem Task.modSrc_slot (tk : Task) (n : BitVec 4) (f : SrcPort → SrcPort) : (tk.modSrc n f).slot = tk.slot := rfl
@[simp] theorem Task.modSrc_regs (tk : Task) (n : BitVec 4) (f : SrcPort → SrcPort) : (tk.modSrc n f).regs = tk.regs := rfl
@[simp] theorem Task.modSrc_retry (tk : Task) (n : BitVec 4) (f : SrcPort → SrcPort) : (tk.modSrc n f).retry = tk.retry := rfl
@[simp] theorem Task.modSrc_tl (tk : Task) (n : BitVec 4) (f : SrcPort → SrcPort) : (tk.modSrc n f).tl = tk.tl := rfl
@[simp] theorem Task.modSrc_fills (tk : Task) (n : BitVec 4) (f : SrcPort → SrcPort) : (tk.modSrc n f).fills = tk.fills := rfl
@[simp] theorem Task.modSrc_appends (tk : Task) (n : BitVec 4) (f : SrcPort → SrcPort) : (tk.modSrc n f).appends = tk.appends := rfl
@[simp] theorem Task.modSrc_fo (tk : Task) (n : BitVec 4) (f : SrcPort → SrcPort) : (tk.modSrc n f).fo = tk.fo := rfl
@[simp] theorem Task.modSrc_fa (tk : Task) (n : BitVec 4) (f : SrcPort → SrcPort) : (tk.modSrc n f).fa = tk.fa := rfl
@[simp] theorem Task.modSrc_thickets (tk : Task) (n : BitVec 4) (f : SrcPort → SrcPort) : (tk.modSrc n f).thickets = tk.thickets := rfl
@[simp] theorem Task.modSrc_spad (tk : Task) (n : BitVec 4) (f : SrcPort → SrcPort) : (tk.modSrc n f).spad = tk.spad := rfl
@[simp] theorem Task.modSrc_poisonS (tk : Task) (n : BitVec 4) (f : SrcPort → SrcPort) : (tk.modSrc n f).poisonS = tk.poisonS := rfl
@[simp] theorem Task.modSrc_poisonProg (tk : Task) (n : BitVec 4) (f : SrcPort → SrcPort) : (tk.modSrc n f).poisonProg = tk.poisonProg := rfl
@[simp] theorem Task.modSrc_hid (tk : Task) (n : BitVec 4) (f : SrcPort → SrcPort) : (tk.modSrc n f).hid = tk.hid := rfl
@[simp] theorem Task.modSrc_bank0 (tk : Task) (n : BitVec 4) (f : SrcPort → SrcPort) : (tk.modSrc n f).bank0 = tk.bank0 := rfl
@[simp] theorem Task.modSrc_bank1 (tk : Task) (n : BitVec 4) (f : SrcPort → SrcPort) : (tk.modSrc n f).bank1 = tk.bank1 := rfl
@[simp] theorem Task.modSrc_shadowSel (tk : Task) (n : BitVec 4) (f : SrcPort → SrcPort) : (tk.modSrc n f).shadowSel = tk.shadowSel := rfl
@[simp] theorem Task.modSrc_prog (tk : Task) (n : BitVec 4) (f : SrcPort → SrcPort) : (tk.modSrc n f).prog = tk.prog := rfl
@[simp] theorem Task.modSrc_mxe (tk : Task) (n : BitVec 4) (f : SrcPort → SrcPort) : (tk.modSrc n f).mxe = tk.mxe := rfl
@[simp] theorem Task.modSrc_gsq (tk : Task) (n : BitVec 4) (f : SrcPort → SrcPort) : (tk.modSrc n f).gsq = tk.gsq := rfl
@[simp] theorem Task.modSrc_causes (tk : Task) (n : BitVec 4) (f : SrcPort → SrcPort) : (tk.modSrc n f).causes = tk.causes := rfl
@[simp] theorem Task.modSrc_arrived (tk : Task) (n : BitVec 4) (f : SrcPort → SrcPort) : (tk.modSrc n f).arrived = tk.arrived := rfl
@[simp] theorem Task.modSrc_px (tk : Task) (n : BitVec 4) (f : SrcPort → SrcPort) : (tk.modSrc n f).px = tk.px := rfl
@[simp] theorem Task.modSrc_runFrom (tk : Task) (n : BitVec 4) (f : SrcPort → SrcPort) : (tk.modSrc n f).runFrom = tk.runFrom := rfl
@[simp] theorem Task.modSrc_ranFor (tk : Task) (n : BitVec 4) (f : SrcPort → SrcPort) : (tk.modSrc n f).ranFor = tk.ranFor := rfl
@[simp] theorem Task.modSrc_markClk (tk : Task) (n : BitVec 4) (f : SrcPort → SrcPort) : (tk.modSrc n f).markClk = tk.markClk := rfl
@[simp] theorem Task.modSrc_entered (tk : Task) (n : BitVec 4) (f : SrcPort → SrcPort) : (tk.modSrc n f).entered = tk.entered := rfl

/-! ### Task.modSnk -/

@[simp] theorem Task.modSnk_core (tk : Task) (n : BitVec 4) (f : SnkPort → SnkPort) : (tk.modSnk n f).core = tk.core := rfl
@[simp] theorem Task.modSnk_slot (tk : Task) (n : BitVec 4) (f : SnkPort → SnkPort) : (tk.modSnk n f).slot = tk.slot := rfl
@[simp] theorem Task.modSnk_regs (tk : Task) (n : BitVec 4) (f : SnkPort → SnkPort) : (tk.modSnk n f).regs = tk.regs := rfl
@[simp] theorem Task.modSnk_retry (tk : Task) (n : BitVec 4) (f : SnkPort → SnkPort) : (tk.modSnk n f).retry = tk.retry := rfl
@[simp] theorem Task.modSnk_tl (tk : Task) (n : BitVec 4) (f : SnkPort → SnkPort) : (tk.modSnk n f).tl = tk.tl := rfl
@[simp] theorem Task.modSnk_fills (tk : Task) (n : BitVec 4) (f : SnkPort → SnkPort) : (tk.modSnk n f).fills = tk.fills := rfl
@[simp] theorem Task.modSnk_appends (tk : Task) (n : BitVec 4) (f : SnkPort → SnkPort) : (tk.modSnk n f).appends = tk.appends := rfl
@[simp] theorem Task.modSnk_fi (tk : Task) (n : BitVec 4) (f : SnkPort → SnkPort) : (tk.modSnk n f).fi = tk.fi := rfl
@[simp] theorem Task.modSnk_fa (tk : Task) (n : BitVec 4) (f : SnkPort → SnkPort) : (tk.modSnk n f).fa = tk.fa := rfl
@[simp] theorem Task.modSnk_thickets (tk : Task) (n : BitVec 4) (f : SnkPort → SnkPort) : (tk.modSnk n f).thickets = tk.thickets := rfl
@[simp] theorem Task.modSnk_spad (tk : Task) (n : BitVec 4) (f : SnkPort → SnkPort) : (tk.modSnk n f).spad = tk.spad := rfl
@[simp] theorem Task.modSnk_poisonS (tk : Task) (n : BitVec 4) (f : SnkPort → SnkPort) : (tk.modSnk n f).poisonS = tk.poisonS := rfl
@[simp] theorem Task.modSnk_poisonProg (tk : Task) (n : BitVec 4) (f : SnkPort → SnkPort) : (tk.modSnk n f).poisonProg = tk.poisonProg := rfl
@[simp] theorem Task.modSnk_hid (tk : Task) (n : BitVec 4) (f : SnkPort → SnkPort) : (tk.modSnk n f).hid = tk.hid := rfl
@[simp] theorem Task.modSnk_bank0 (tk : Task) (n : BitVec 4) (f : SnkPort → SnkPort) : (tk.modSnk n f).bank0 = tk.bank0 := rfl
@[simp] theorem Task.modSnk_bank1 (tk : Task) (n : BitVec 4) (f : SnkPort → SnkPort) : (tk.modSnk n f).bank1 = tk.bank1 := rfl
@[simp] theorem Task.modSnk_shadowSel (tk : Task) (n : BitVec 4) (f : SnkPort → SnkPort) : (tk.modSnk n f).shadowSel = tk.shadowSel := rfl
@[simp] theorem Task.modSnk_prog (tk : Task) (n : BitVec 4) (f : SnkPort → SnkPort) : (tk.modSnk n f).prog = tk.prog := rfl
@[simp] theorem Task.modSnk_mxe (tk : Task) (n : BitVec 4) (f : SnkPort → SnkPort) : (tk.modSnk n f).mxe = tk.mxe := rfl
@[simp] theorem Task.modSnk_gsq (tk : Task) (n : BitVec 4) (f : SnkPort → SnkPort) : (tk.modSnk n f).gsq = tk.gsq := rfl
@[simp] theorem Task.modSnk_causes (tk : Task) (n : BitVec 4) (f : SnkPort → SnkPort) : (tk.modSnk n f).causes = tk.causes := rfl
@[simp] theorem Task.modSnk_arrived (tk : Task) (n : BitVec 4) (f : SnkPort → SnkPort) : (tk.modSnk n f).arrived = tk.arrived := rfl
@[simp] theorem Task.modSnk_px (tk : Task) (n : BitVec 4) (f : SnkPort → SnkPort) : (tk.modSnk n f).px = tk.px := rfl
@[simp] theorem Task.modSnk_runFrom (tk : Task) (n : BitVec 4) (f : SnkPort → SnkPort) : (tk.modSnk n f).runFrom = tk.runFrom := rfl
@[simp] theorem Task.modSnk_ranFor (tk : Task) (n : BitVec 4) (f : SnkPort → SnkPort) : (tk.modSnk n f).ranFor = tk.ranFor := rfl
@[simp] theorem Task.modSnk_markClk (tk : Task) (n : BitVec 4) (f : SnkPort → SnkPort) : (tk.modSnk n f).markClk = tk.markClk := rfl
@[simp] theorem Task.modSnk_entered (tk : Task) (n : BitVec 4) (f : SnkPort → SnkPort) : (tk.modSnk n f).entered = tk.entered := rfl

/-! ### Task.modTh -/

@[simp] theorem Task.modTh_core (tk : Task) (t : BitVec 2) (f : Thicket → Thicket) : (tk.modTh t f).core = tk.core := rfl
@[simp] theorem Task.modTh_slot (tk : Task) (t : BitVec 2) (f : Thicket → Thicket) : (tk.modTh t f).slot = tk.slot := rfl
@[simp] theorem Task.modTh_regs (tk : Task) (t : BitVec 2) (f : Thicket → Thicket) : (tk.modTh t f).regs = tk.regs := rfl
@[simp] theorem Task.modTh_retry (tk : Task) (t : BitVec 2) (f : Thicket → Thicket) : (tk.modTh t f).retry = tk.retry := rfl
@[simp] theorem Task.modTh_tl (tk : Task) (t : BitVec 2) (f : Thicket → Thicket) : (tk.modTh t f).tl = tk.tl := rfl
@[simp] theorem Task.modTh_fills (tk : Task) (t : BitVec 2) (f : Thicket → Thicket) : (tk.modTh t f).fills = tk.fills := rfl
@[simp] theorem Task.modTh_appends (tk : Task) (t : BitVec 2) (f : Thicket → Thicket) : (tk.modTh t f).appends = tk.appends := rfl
@[simp] theorem Task.modTh_fi (tk : Task) (t : BitVec 2) (f : Thicket → Thicket) : (tk.modTh t f).fi = tk.fi := rfl
@[simp] theorem Task.modTh_fo (tk : Task) (t : BitVec 2) (f : Thicket → Thicket) : (tk.modTh t f).fo = tk.fo := rfl
@[simp] theorem Task.modTh_fa (tk : Task) (t : BitVec 2) (f : Thicket → Thicket) : (tk.modTh t f).fa = tk.fa := rfl
@[simp] theorem Task.modTh_spad (tk : Task) (t : BitVec 2) (f : Thicket → Thicket) : (tk.modTh t f).spad = tk.spad := rfl
@[simp] theorem Task.modTh_poisonS (tk : Task) (t : BitVec 2) (f : Thicket → Thicket) : (tk.modTh t f).poisonS = tk.poisonS := rfl
@[simp] theorem Task.modTh_poisonProg (tk : Task) (t : BitVec 2) (f : Thicket → Thicket) : (tk.modTh t f).poisonProg = tk.poisonProg := rfl
@[simp] theorem Task.modTh_hid (tk : Task) (t : BitVec 2) (f : Thicket → Thicket) : (tk.modTh t f).hid = tk.hid := rfl
@[simp] theorem Task.modTh_bank0 (tk : Task) (t : BitVec 2) (f : Thicket → Thicket) : (tk.modTh t f).bank0 = tk.bank0 := rfl
@[simp] theorem Task.modTh_bank1 (tk : Task) (t : BitVec 2) (f : Thicket → Thicket) : (tk.modTh t f).bank1 = tk.bank1 := rfl
@[simp] theorem Task.modTh_shadowSel (tk : Task) (t : BitVec 2) (f : Thicket → Thicket) : (tk.modTh t f).shadowSel = tk.shadowSel := rfl
@[simp] theorem Task.modTh_prog (tk : Task) (t : BitVec 2) (f : Thicket → Thicket) : (tk.modTh t f).prog = tk.prog := rfl
@[simp] theorem Task.modTh_mxe (tk : Task) (t : BitVec 2) (f : Thicket → Thicket) : (tk.modTh t f).mxe = tk.mxe := rfl
@[simp] theorem Task.modTh_gsq (tk : Task) (t : BitVec 2) (f : Thicket → Thicket) : (tk.modTh t f).gsq = tk.gsq := rfl
@[simp] theorem Task.modTh_causes (tk : Task) (t : BitVec 2) (f : Thicket → Thicket) : (tk.modTh t f).causes = tk.causes := rfl
@[simp] theorem Task.modTh_arrived (tk : Task) (t : BitVec 2) (f : Thicket → Thicket) : (tk.modTh t f).arrived = tk.arrived := rfl
@[simp] theorem Task.modTh_px (tk : Task) (t : BitVec 2) (f : Thicket → Thicket) : (tk.modTh t f).px = tk.px := rfl
@[simp] theorem Task.modTh_runFrom (tk : Task) (t : BitVec 2) (f : Thicket → Thicket) : (tk.modTh t f).runFrom = tk.runFrom := rfl
@[simp] theorem Task.modTh_ranFor (tk : Task) (t : BitVec 2) (f : Thicket → Thicket) : (tk.modTh t f).ranFor = tk.ranFor := rfl
@[simp] theorem Task.modTh_markClk (tk : Task) (t : BitVec 2) (f : Thicket → Thicket) : (tk.modTh t f).markClk = tk.markClk := rfl
@[simp] theorem Task.modTh_entered (tk : Task) (t : BitVec 2) (f : Thicket → Thicket) : (tk.modTh t f).entered = tk.entered := rfl

/-! ### Task.modAcc -/

@[simp] theorem Task.modAcc_core (tk : Task) (n : BitVec 4) (f : Acc → Acc) : (tk.modAcc n f).core = tk.core := rfl
@[simp] theorem Task.modAcc_slot (tk : Task) (n : BitVec 4) (f : Acc → Acc) : (tk.modAcc n f).slot = tk.slot := rfl
@[simp] theorem Task.modAcc_regs (tk : Task) (n : BitVec 4) (f : Acc → Acc) : (tk.modAcc n f).regs = tk.regs := rfl
@[simp] theorem Task.modAcc_retry (tk : Task) (n : BitVec 4) (f : Acc → Acc) : (tk.modAcc n f).retry = tk.retry := rfl
@[simp] theorem Task.modAcc_tl (tk : Task) (n : BitVec 4) (f : Acc → Acc) : (tk.modAcc n f).tl = tk.tl := rfl
@[simp] theorem Task.modAcc_fills (tk : Task) (n : BitVec 4) (f : Acc → Acc) : (tk.modAcc n f).fills = tk.fills := rfl
@[simp] theorem Task.modAcc_appends (tk : Task) (n : BitVec 4) (f : Acc → Acc) : (tk.modAcc n f).appends = tk.appends := rfl
@[simp] theorem Task.modAcc_fi (tk : Task) (n : BitVec 4) (f : Acc → Acc) : (tk.modAcc n f).fi = tk.fi := rfl
@[simp] theorem Task.modAcc_fo (tk : Task) (n : BitVec 4) (f : Acc → Acc) : (tk.modAcc n f).fo = tk.fo := rfl
@[simp] theorem Task.modAcc_thickets (tk : Task) (n : BitVec 4) (f : Acc → Acc) : (tk.modAcc n f).thickets = tk.thickets := rfl
@[simp] theorem Task.modAcc_spad (tk : Task) (n : BitVec 4) (f : Acc → Acc) : (tk.modAcc n f).spad = tk.spad := rfl
@[simp] theorem Task.modAcc_poisonS (tk : Task) (n : BitVec 4) (f : Acc → Acc) : (tk.modAcc n f).poisonS = tk.poisonS := rfl
@[simp] theorem Task.modAcc_poisonProg (tk : Task) (n : BitVec 4) (f : Acc → Acc) : (tk.modAcc n f).poisonProg = tk.poisonProg := rfl
@[simp] theorem Task.modAcc_hid (tk : Task) (n : BitVec 4) (f : Acc → Acc) : (tk.modAcc n f).hid = tk.hid := rfl
@[simp] theorem Task.modAcc_bank0 (tk : Task) (n : BitVec 4) (f : Acc → Acc) : (tk.modAcc n f).bank0 = tk.bank0 := rfl
@[simp] theorem Task.modAcc_bank1 (tk : Task) (n : BitVec 4) (f : Acc → Acc) : (tk.modAcc n f).bank1 = tk.bank1 := rfl
@[simp] theorem Task.modAcc_shadowSel (tk : Task) (n : BitVec 4) (f : Acc → Acc) : (tk.modAcc n f).shadowSel = tk.shadowSel := rfl
@[simp] theorem Task.modAcc_prog (tk : Task) (n : BitVec 4) (f : Acc → Acc) : (tk.modAcc n f).prog = tk.prog := rfl
@[simp] theorem Task.modAcc_mxe (tk : Task) (n : BitVec 4) (f : Acc → Acc) : (tk.modAcc n f).mxe = tk.mxe := rfl
@[simp] theorem Task.modAcc_gsq (tk : Task) (n : BitVec 4) (f : Acc → Acc) : (tk.modAcc n f).gsq = tk.gsq := rfl
@[simp] theorem Task.modAcc_causes (tk : Task) (n : BitVec 4) (f : Acc → Acc) : (tk.modAcc n f).causes = tk.causes := rfl
@[simp] theorem Task.modAcc_arrived (tk : Task) (n : BitVec 4) (f : Acc → Acc) : (tk.modAcc n f).arrived = tk.arrived := rfl
@[simp] theorem Task.modAcc_px (tk : Task) (n : BitVec 4) (f : Acc → Acc) : (tk.modAcc n f).px = tk.px := rfl
@[simp] theorem Task.modAcc_runFrom (tk : Task) (n : BitVec 4) (f : Acc → Acc) : (tk.modAcc n f).runFrom = tk.runFrom := rfl
@[simp] theorem Task.modAcc_ranFor (tk : Task) (n : BitVec 4) (f : Acc → Acc) : (tk.modAcc n f).ranFor = tk.ranFor := rfl
@[simp] theorem Task.modAcc_markClk (tk : Task) (n : BitVec 4) (f : Acc → Acc) : (tk.modAcc n f).markClk = tk.markClk := rfl
@[simp] theorem Task.modAcc_entered (tk : Task) (n : BitVec 4) (f : Acc → Acc) : (tk.modAcc n f).entered = tk.entered := rfl

/-! ### Task.modCmd -/

@[simp] theorem Task.modCmd_core (tk : Task) (t : BitVec 4) (n : Nat) (f : Cmd → Cmd) : (tk.modCmd t n f).core = tk.core := rfl
@[simp] theorem Task.modCmd_slot (tk : Task) (t : BitVec 4) (n : Nat) (f : Cmd → Cmd) : (tk.modCmd t n f).slot = tk.slot := rfl
@[simp] theorem Task.modCmd_regs (tk : Task) (t : BitVec 4) (n : Nat) (f : Cmd → Cmd) : (tk.modCmd t n f).regs = tk.regs := rfl
@[simp] theorem Task.modCmd_retry (tk : Task) (t : BitVec 4) (n : Nat) (f : Cmd → Cmd) : (tk.modCmd t n f).retry = tk.retry := rfl
@[simp] theorem Task.modCmd_fills (tk : Task) (t : BitVec 4) (n : Nat) (f : Cmd → Cmd) : (tk.modCmd t n f).fills = tk.fills := rfl
@[simp] theorem Task.modCmd_appends (tk : Task) (t : BitVec 4) (n : Nat) (f : Cmd → Cmd) : (tk.modCmd t n f).appends = tk.appends := rfl
@[simp] theorem Task.modCmd_fi (tk : Task) (t : BitVec 4) (n : Nat) (f : Cmd → Cmd) : (tk.modCmd t n f).fi = tk.fi := rfl
@[simp] theorem Task.modCmd_fo (tk : Task) (t : BitVec 4) (n : Nat) (f : Cmd → Cmd) : (tk.modCmd t n f).fo = tk.fo := rfl
@[simp] theorem Task.modCmd_fa (tk : Task) (t : BitVec 4) (n : Nat) (f : Cmd → Cmd) : (tk.modCmd t n f).fa = tk.fa := rfl
@[simp] theorem Task.modCmd_thickets (tk : Task) (t : BitVec 4) (n : Nat) (f : Cmd → Cmd) : (tk.modCmd t n f).thickets = tk.thickets := rfl
@[simp] theorem Task.modCmd_spad (tk : Task) (t : BitVec 4) (n : Nat) (f : Cmd → Cmd) : (tk.modCmd t n f).spad = tk.spad := rfl
@[simp] theorem Task.modCmd_poisonS (tk : Task) (t : BitVec 4) (n : Nat) (f : Cmd → Cmd) : (tk.modCmd t n f).poisonS = tk.poisonS := rfl
@[simp] theorem Task.modCmd_poisonProg (tk : Task) (t : BitVec 4) (n : Nat) (f : Cmd → Cmd) : (tk.modCmd t n f).poisonProg = tk.poisonProg := rfl
@[simp] theorem Task.modCmd_hid (tk : Task) (t : BitVec 4) (n : Nat) (f : Cmd → Cmd) : (tk.modCmd t n f).hid = tk.hid := rfl
@[simp] theorem Task.modCmd_bank0 (tk : Task) (t : BitVec 4) (n : Nat) (f : Cmd → Cmd) : (tk.modCmd t n f).bank0 = tk.bank0 := rfl
@[simp] theorem Task.modCmd_bank1 (tk : Task) (t : BitVec 4) (n : Nat) (f : Cmd → Cmd) : (tk.modCmd t n f).bank1 = tk.bank1 := rfl
@[simp] theorem Task.modCmd_shadowSel (tk : Task) (t : BitVec 4) (n : Nat) (f : Cmd → Cmd) : (tk.modCmd t n f).shadowSel = tk.shadowSel := rfl
@[simp] theorem Task.modCmd_prog (tk : Task) (t : BitVec 4) (n : Nat) (f : Cmd → Cmd) : (tk.modCmd t n f).prog = tk.prog := rfl
@[simp] theorem Task.modCmd_mxe (tk : Task) (t : BitVec 4) (n : Nat) (f : Cmd → Cmd) : (tk.modCmd t n f).mxe = tk.mxe := rfl
@[simp] theorem Task.modCmd_gsq (tk : Task) (t : BitVec 4) (n : Nat) (f : Cmd → Cmd) : (tk.modCmd t n f).gsq = tk.gsq := rfl
@[simp] theorem Task.modCmd_causes (tk : Task) (t : BitVec 4) (n : Nat) (f : Cmd → Cmd) : (tk.modCmd t n f).causes = tk.causes := rfl
@[simp] theorem Task.modCmd_arrived (tk : Task) (t : BitVec 4) (n : Nat) (f : Cmd → Cmd) : (tk.modCmd t n f).arrived = tk.arrived := rfl
@[simp] theorem Task.modCmd_px (tk : Task) (t : BitVec 4) (n : Nat) (f : Cmd → Cmd) : (tk.modCmd t n f).px = tk.px := rfl
@[simp] theorem Task.modCmd_runFrom (tk : Task) (t : BitVec 4) (n : Nat) (f : Cmd → Cmd) : (tk.modCmd t n f).runFrom = tk.runFrom := rfl
@[simp] theorem Task.modCmd_ranFor (tk : Task) (t : BitVec 4) (n : Nat) (f : Cmd → Cmd) : (tk.modCmd t n f).ranFor = tk.ranFor := rfl
@[simp] theorem Task.modCmd_markClk (tk : Task) (t : BitVec 4) (n : Nat) (f : Cmd → Cmd) : (tk.modCmd t n f).markClk = tk.markClk := rfl
@[simp] theorem Task.modCmd_entered (tk : Task) (t : BitVec 4) (n : Nat) (f : Cmd → Cmd) : (tk.modCmd t n f).entered = tk.entered := rfl

/-! ### Task.complete -/

@[simp] theorem Task.complete_core (tk : Task) (t : BitVec 4) (n : Nat) : (tk.complete t n).core = tk.core := rfl
@[simp] theorem Task.complete_slot (tk : Task) (t : BitVec 4) (n : Nat) : (tk.complete t n).slot = tk.slot := rfl
@[simp] theorem Task.complete_regs (tk : Task) (t : BitVec 4) (n : Nat) : (tk.complete t n).regs = tk.regs := rfl
@[simp] theorem Task.complete_retry (tk : Task) (t : BitVec 4) (n : Nat) : (tk.complete t n).retry = tk.retry := rfl
@[simp] theorem Task.complete_fills (tk : Task) (t : BitVec 4) (n : Nat) : (tk.complete t n).fills = tk.fills := rfl
@[simp] theorem Task.complete_appends (tk : Task) (t : BitVec 4) (n : Nat) : (tk.complete t n).appends = tk.appends := rfl
@[simp] theorem Task.complete_fi (tk : Task) (t : BitVec 4) (n : Nat) : (tk.complete t n).fi = tk.fi := rfl
@[simp] theorem Task.complete_fo (tk : Task) (t : BitVec 4) (n : Nat) : (tk.complete t n).fo = tk.fo := rfl
@[simp] theorem Task.complete_fa (tk : Task) (t : BitVec 4) (n : Nat) : (tk.complete t n).fa = tk.fa := rfl
@[simp] theorem Task.complete_thickets (tk : Task) (t : BitVec 4) (n : Nat) : (tk.complete t n).thickets = tk.thickets := rfl
@[simp] theorem Task.complete_spad (tk : Task) (t : BitVec 4) (n : Nat) : (tk.complete t n).spad = tk.spad := rfl
@[simp] theorem Task.complete_poisonS (tk : Task) (t : BitVec 4) (n : Nat) : (tk.complete t n).poisonS = tk.poisonS := rfl
@[simp] theorem Task.complete_poisonProg (tk : Task) (t : BitVec 4) (n : Nat) : (tk.complete t n).poisonProg = tk.poisonProg := rfl
@[simp] theorem Task.complete_hid (tk : Task) (t : BitVec 4) (n : Nat) : (tk.complete t n).hid = tk.hid := rfl
@[simp] theorem Task.complete_bank0 (tk : Task) (t : BitVec 4) (n : Nat) : (tk.complete t n).bank0 = tk.bank0 := rfl
@[simp] theorem Task.complete_bank1 (tk : Task) (t : BitVec 4) (n : Nat) : (tk.complete t n).bank1 = tk.bank1 := rfl
@[simp] theorem Task.complete_shadowSel (tk : Task) (t : BitVec 4) (n : Nat) : (tk.complete t n).shadowSel = tk.shadowSel := rfl
@[simp] theorem Task.complete_prog (tk : Task) (t : BitVec 4) (n : Nat) : (tk.complete t n).prog = tk.prog := rfl
@[simp] theorem Task.complete_mxe (tk : Task) (t : BitVec 4) (n : Nat) : (tk.complete t n).mxe = tk.mxe := rfl
@[simp] theorem Task.complete_gsq (tk : Task) (t : BitVec 4) (n : Nat) : (tk.complete t n).gsq = tk.gsq := rfl
@[simp] theorem Task.complete_causes (tk : Task) (t : BitVec 4) (n : Nat) : (tk.complete t n).causes = tk.causes := rfl
@[simp] theorem Task.complete_arrived (tk : Task) (t : BitVec 4) (n : Nat) : (tk.complete t n).arrived = tk.arrived := rfl
@[simp] theorem Task.complete_px (tk : Task) (t : BitVec 4) (n : Nat) : (tk.complete t n).px = tk.px := rfl
@[simp] theorem Task.complete_runFrom (tk : Task) (t : BitVec 4) (n : Nat) : (tk.complete t n).runFrom = tk.runFrom := rfl
@[simp] theorem Task.complete_ranFor (tk : Task) (t : BitVec 4) (n : Nat) : (tk.complete t n).ranFor = tk.ranFor := rfl
@[simp] theorem Task.complete_markClk (tk : Task) (t : BitVec 4) (n : Nat) : (tk.complete t n).markClk = tk.markClk := rfl
@[simp] theorem Task.complete_entered (tk : Task) (t : BitVec 4) (n : Nat) : (tk.complete t n).entered = tk.entered := rfl

/-! ### Task.addCause -/

@[simp] theorem Task.addCause_core (tk : Task) (c : Cause) : (tk.addCause c).core = tk.core := rfl
@[simp] theorem Task.addCause_slot (tk : Task) (c : Cause) : (tk.addCause c).slot = tk.slot := rfl
@[simp] theorem Task.addCause_regs (tk : Task) (c : Cause) : (tk.addCause c).regs = tk.regs := rfl
@[simp] theorem Task.addCause_retry (tk : Task) (c : Cause) : (tk.addCause c).retry = tk.retry := rfl
@[simp] theorem Task.addCause_tl (tk : Task) (c : Cause) : (tk.addCause c).tl = tk.tl := rfl
@[simp] theorem Task.addCause_fills (tk : Task) (c : Cause) : (tk.addCause c).fills = tk.fills := rfl
@[simp] theorem Task.addCause_appends (tk : Task) (c : Cause) : (tk.addCause c).appends = tk.appends := rfl
@[simp] theorem Task.addCause_fi (tk : Task) (c : Cause) : (tk.addCause c).fi = tk.fi := rfl
@[simp] theorem Task.addCause_fo (tk : Task) (c : Cause) : (tk.addCause c).fo = tk.fo := rfl
@[simp] theorem Task.addCause_fa (tk : Task) (c : Cause) : (tk.addCause c).fa = tk.fa := rfl
@[simp] theorem Task.addCause_thickets (tk : Task) (c : Cause) : (tk.addCause c).thickets = tk.thickets := rfl
@[simp] theorem Task.addCause_spad (tk : Task) (c : Cause) : (tk.addCause c).spad = tk.spad := rfl
@[simp] theorem Task.addCause_poisonS (tk : Task) (c : Cause) : (tk.addCause c).poisonS = tk.poisonS := rfl
@[simp] theorem Task.addCause_poisonProg (tk : Task) (c : Cause) : (tk.addCause c).poisonProg = tk.poisonProg := rfl
@[simp] theorem Task.addCause_hid (tk : Task) (c : Cause) : (tk.addCause c).hid = tk.hid := rfl
@[simp] theorem Task.addCause_bank0 (tk : Task) (c : Cause) : (tk.addCause c).bank0 = tk.bank0 := rfl
@[simp] theorem Task.addCause_bank1 (tk : Task) (c : Cause) : (tk.addCause c).bank1 = tk.bank1 := rfl
@[simp] theorem Task.addCause_shadowSel (tk : Task) (c : Cause) : (tk.addCause c).shadowSel = tk.shadowSel := rfl
@[simp] theorem Task.addCause_prog (tk : Task) (c : Cause) : (tk.addCause c).prog = tk.prog := rfl
@[simp] theorem Task.addCause_mxe (tk : Task) (c : Cause) : (tk.addCause c).mxe = tk.mxe := rfl
@[simp] theorem Task.addCause_gsq (tk : Task) (c : Cause) : (tk.addCause c).gsq = tk.gsq := rfl
@[simp] theorem Task.addCause_causes (tk : Task) (c : Cause) : (tk.addCause c).causes = tk.causes ++ [c] := rfl
@[simp] theorem Task.addCause_arrived (tk : Task) (c : Cause) : (tk.addCause c).arrived = tk.arrived := rfl
@[simp] theorem Task.addCause_px (tk : Task) (c : Cause) : (tk.addCause c).px = tk.px := rfl
@[simp] theorem Task.addCause_runFrom (tk : Task) (c : Cause) : (tk.addCause c).runFrom = tk.runFrom := rfl
@[simp] theorem Task.addCause_ranFor (tk : Task) (c : Cause) : (tk.addCause c).ranFor = tk.ranFor := rfl
@[simp] theorem Task.addCause_markClk (tk : Task) (c : Cause) : (tk.addCause c).markClk = tk.markClk := rfl
@[simp] theorem Task.addCause_entered (tk : Task) (c : Cause) : (tk.addCause c).entered = tk.entered := rfl

/-! ### Task.resolve -/

@[simp] theorem Task.resolve_core (tk : Task) (d : Reg) (k : FillSrc) (v : Word) (b : Bool) : (tk.resolve d k v b).core = tk.core := rfl
@[simp] theorem Task.resolve_slot (tk : Task) (d : Reg) (k : FillSrc) (v : Word) (b : Bool) : (tk.resolve d k v b).slot = tk.slot := rfl
@[simp] theorem Task.resolve_regs (tk : Task) (d : Reg) (k : FillSrc) (v : Word) (b : Bool) : (tk.resolve d k v b).regs = tk.regs := rfl
@[simp] theorem Task.resolve_retry (tk : Task) (d : Reg) (k : FillSrc) (v : Word) (b : Bool) : (tk.resolve d k v b).retry = tk.retry := rfl
@[simp] theorem Task.resolve_tl (tk : Task) (d : Reg) (k : FillSrc) (v : Word) (b : Bool) : (tk.resolve d k v b).tl = tk.tl := rfl
@[simp] theorem Task.resolve_appends (tk : Task) (d : Reg) (k : FillSrc) (v : Word) (b : Bool) : (tk.resolve d k v b).appends = tk.appends := rfl
@[simp] theorem Task.resolve_fi (tk : Task) (d : Reg) (k : FillSrc) (v : Word) (b : Bool) : (tk.resolve d k v b).fi = tk.fi := rfl
@[simp] theorem Task.resolve_fo (tk : Task) (d : Reg) (k : FillSrc) (v : Word) (b : Bool) : (tk.resolve d k v b).fo = tk.fo := rfl
@[simp] theorem Task.resolve_fa (tk : Task) (d : Reg) (k : FillSrc) (v : Word) (b : Bool) : (tk.resolve d k v b).fa = tk.fa := rfl
@[simp] theorem Task.resolve_thickets (tk : Task) (d : Reg) (k : FillSrc) (v : Word) (b : Bool) : (tk.resolve d k v b).thickets = tk.thickets := rfl
@[simp] theorem Task.resolve_spad (tk : Task) (d : Reg) (k : FillSrc) (v : Word) (b : Bool) : (tk.resolve d k v b).spad = tk.spad := rfl
@[simp] theorem Task.resolve_poisonS (tk : Task) (d : Reg) (k : FillSrc) (v : Word) (b : Bool) : (tk.resolve d k v b).poisonS = tk.poisonS := rfl
@[simp] theorem Task.resolve_poisonProg (tk : Task) (d : Reg) (k : FillSrc) (v : Word) (b : Bool) : (tk.resolve d k v b).poisonProg = tk.poisonProg := rfl
@[simp] theorem Task.resolve_hid (tk : Task) (d : Reg) (k : FillSrc) (v : Word) (b : Bool) : (tk.resolve d k v b).hid = tk.hid := rfl
@[simp] theorem Task.resolve_bank0 (tk : Task) (d : Reg) (k : FillSrc) (v : Word) (b : Bool) : (tk.resolve d k v b).bank0 = tk.bank0 := rfl
@[simp] theorem Task.resolve_bank1 (tk : Task) (d : Reg) (k : FillSrc) (v : Word) (b : Bool) : (tk.resolve d k v b).bank1 = tk.bank1 := rfl
@[simp] theorem Task.resolve_shadowSel (tk : Task) (d : Reg) (k : FillSrc) (v : Word) (b : Bool) : (tk.resolve d k v b).shadowSel = tk.shadowSel := rfl
@[simp] theorem Task.resolve_prog (tk : Task) (d : Reg) (k : FillSrc) (v : Word) (b : Bool) : (tk.resolve d k v b).prog = tk.prog := rfl
@[simp] theorem Task.resolve_mxe (tk : Task) (d : Reg) (k : FillSrc) (v : Word) (b : Bool) : (tk.resolve d k v b).mxe = tk.mxe := rfl
@[simp] theorem Task.resolve_gsq (tk : Task) (d : Reg) (k : FillSrc) (v : Word) (b : Bool) : (tk.resolve d k v b).gsq = tk.gsq := rfl
@[simp] theorem Task.resolve_causes (tk : Task) (d : Reg) (k : FillSrc) (v : Word) (b : Bool) : (tk.resolve d k v b).causes = tk.causes := rfl
@[simp] theorem Task.resolve_arrived (tk : Task) (d : Reg) (k : FillSrc) (v : Word) (b : Bool) : (tk.resolve d k v b).arrived = tk.arrived := rfl
@[simp] theorem Task.resolve_px (tk : Task) (d : Reg) (k : FillSrc) (v : Word) (b : Bool) : (tk.resolve d k v b).px = tk.px := rfl
@[simp] theorem Task.resolve_runFrom (tk : Task) (d : Reg) (k : FillSrc) (v : Word) (b : Bool) : (tk.resolve d k v b).runFrom = tk.runFrom := rfl
@[simp] theorem Task.resolve_ranFor (tk : Task) (d : Reg) (k : FillSrc) (v : Word) (b : Bool) : (tk.resolve d k v b).ranFor = tk.ranFor := rfl
@[simp] theorem Task.resolve_markClk (tk : Task) (d : Reg) (k : FillSrc) (v : Word) (b : Bool) : (tk.resolve d k v b).markClk = tk.markClk := rfl
@[simp] theorem Task.resolve_entered (tk : Task) (d : Reg) (k : FillSrc) (v : Word) (b : Bool) : (tk.resolve d k v b).entered = tk.entered := rfl

/-! ### Task.pend -/

@[simp] theorem Task.pend_core (tk : Task) (d : Reg) (k : FillSrc) : (tk.pend d k).core = tk.core := by unfold Task.pend; split <;> rfl
@[simp] theorem Task.pend_slot (tk : Task) (d : Reg) (k : FillSrc) : (tk.pend d k).slot = tk.slot := by unfold Task.pend; split <;> rfl
@[simp] theorem Task.pend_retry (tk : Task) (d : Reg) (k : FillSrc) : (tk.pend d k).retry = tk.retry := by unfold Task.pend; split <;> rfl
@[simp] theorem Task.pend_tl (tk : Task) (d : Reg) (k : FillSrc) : (tk.pend d k).tl = tk.tl := by unfold Task.pend; split <;> rfl
@[simp] theorem Task.pend_appends (tk : Task) (d : Reg) (k : FillSrc) : (tk.pend d k).appends = tk.appends := by unfold Task.pend; split <;> rfl
@[simp] theorem Task.pend_fi (tk : Task) (d : Reg) (k : FillSrc) : (tk.pend d k).fi = tk.fi := by unfold Task.pend; split <;> rfl
@[simp] theorem Task.pend_fo (tk : Task) (d : Reg) (k : FillSrc) : (tk.pend d k).fo = tk.fo := by unfold Task.pend; split <;> rfl
@[simp] theorem Task.pend_fa (tk : Task) (d : Reg) (k : FillSrc) : (tk.pend d k).fa = tk.fa := by unfold Task.pend; split <;> rfl
@[simp] theorem Task.pend_thickets (tk : Task) (d : Reg) (k : FillSrc) : (tk.pend d k).thickets = tk.thickets := by unfold Task.pend; split <;> rfl
@[simp] theorem Task.pend_spad (tk : Task) (d : Reg) (k : FillSrc) : (tk.pend d k).spad = tk.spad := by unfold Task.pend; split <;> rfl
@[simp] theorem Task.pend_poisonS (tk : Task) (d : Reg) (k : FillSrc) : (tk.pend d k).poisonS = tk.poisonS := by unfold Task.pend; split <;> rfl
@[simp] theorem Task.pend_poisonProg (tk : Task) (d : Reg) (k : FillSrc) : (tk.pend d k).poisonProg = tk.poisonProg := by unfold Task.pend; split <;> rfl
@[simp] theorem Task.pend_hid (tk : Task) (d : Reg) (k : FillSrc) : (tk.pend d k).hid = tk.hid := by unfold Task.pend; split <;> rfl
@[simp] theorem Task.pend_bank0 (tk : Task) (d : Reg) (k : FillSrc) : (tk.pend d k).bank0 = tk.bank0 := by unfold Task.pend; split <;> rfl
@[simp] theorem Task.pend_bank1 (tk : Task) (d : Reg) (k : FillSrc) : (tk.pend d k).bank1 = tk.bank1 := by unfold Task.pend; split <;> rfl
@[simp] theorem Task.pend_shadowSel (tk : Task) (d : Reg) (k : FillSrc) : (tk.pend d k).shadowSel = tk.shadowSel := by unfold Task.pend; split <;> rfl
@[simp] theorem Task.pend_prog (tk : Task) (d : Reg) (k : FillSrc) : (tk.pend d k).prog = tk.prog := by unfold Task.pend; split <;> rfl
@[simp] theorem Task.pend_mxe (tk : Task) (d : Reg) (k : FillSrc) : (tk.pend d k).mxe = tk.mxe := by unfold Task.pend; split <;> rfl
@[simp] theorem Task.pend_gsq (tk : Task) (d : Reg) (k : FillSrc) : (tk.pend d k).gsq = tk.gsq := by unfold Task.pend; split <;> rfl
@[simp] theorem Task.pend_causes (tk : Task) (d : Reg) (k : FillSrc) : (tk.pend d k).causes = tk.causes := by unfold Task.pend; split <;> rfl
@[simp] theorem Task.pend_arrived (tk : Task) (d : Reg) (k : FillSrc) : (tk.pend d k).arrived = tk.arrived := by unfold Task.pend; split <;> rfl
@[simp] theorem Task.pend_px (tk : Task) (d : Reg) (k : FillSrc) : (tk.pend d k).px = tk.px := by unfold Task.pend; split <;> rfl
@[simp] theorem Task.pend_runFrom (tk : Task) (d : Reg) (k : FillSrc) : (tk.pend d k).runFrom = tk.runFrom := by unfold Task.pend; split <;> rfl
@[simp] theorem Task.pend_ranFor (tk : Task) (d : Reg) (k : FillSrc) : (tk.pend d k).ranFor = tk.ranFor := by unfold Task.pend; split <;> rfl
@[simp] theorem Task.pend_markClk (tk : Task) (d : Reg) (k : FillSrc) : (tk.pend d k).markClk = tk.markClk := by unfold Task.pend; split <;> rfl
@[simp] theorem Task.pend_entered (tk : Task) (d : Reg) (k : FillSrc) : (tk.pend d k).entered = tk.entered := by unfold Task.pend; split <;> rfl

/-! ## Updates of a team -/

/-! ### Team.modMember -/

@[simp] theorem Team.modMember_launch (tm : Team) (m : Nat) (f : Task → Task) : (tm.modMember m f).launch = tm.launch := rfl
@[simp] theorem Team.modMember_vf (tm : Team) (m : Nat) (f : Task → Task) : (tm.modMember m f).vf = tm.vf := rfl
@[simp] theorem Team.modMember_wid (tm : Team) (m : Nat) (f : Task → Task) : (tm.modMember m f).wid = tm.wid := rfl
@[simp] theorem Team.modMember_size (tm : Team) (m : Nat) (f : Task → Task) : (tm.modMember m f).size = tm.size := rfl
@[simp] theorem Team.modMember_st (tm : Team) (m : Nat) (f : Task → Task) : (tm.modMember m f).st = tm.st := rfl
@[simp] theorem Team.modMember_resumed (tm : Team) (m : Nat) (f : Task → Task) : (tm.modMember m f).resumed = tm.resumed := rfl
@[simp] theorem Team.modMember_members (tm : Team) (m : Nat) (f : Task → Task) : (tm.modMember m f).members = tm.members.modify m f := rfl
@[simp] theorem Team.modMember_segs (tm : Team) (m : Nat) (f : Task → Task) : (tm.modMember m f).segs = tm.segs := rfl
@[simp] theorem Team.modMember_openSeg (tm : Team) (m : Nat) (f : Task → Task) : (tm.modMember m f).openSeg = tm.openSeg := rfl
@[simp] theorem Team.modMember_committed (tm : Team) (m : Nat) (f : Task → Task) : (tm.modMember m f).committed = tm.committed := rfl
@[simp] theorem Team.modMember_lastLate (tm : Team) (m : Nat) (f : Task → Task) : (tm.modMember m f).lastLate = tm.lastLate := rfl
@[simp] theorem Team.modMember_carve (tm : Team) (m : Nat) (f : Task → Task) : (tm.modMember m f).carve = tm.carve := rfl
@[simp] theorem Team.modMember_traffic (tm : Team) (m : Nat) (f : Task → Task) : (tm.modMember m f).traffic = tm.traffic := rfl
@[simp] theorem Team.modMember_swaps (tm : Team) (m : Nat) (f : Task → Task) : (tm.modMember m f).swaps = tm.swaps := rfl
@[simp] theorem Team.modMember_swapFrom (tm : Team) (m : Nat) (f : Task → Task) : (tm.modMember m f).swapFrom = tm.swapFrom := rfl
@[simp] theorem Team.modMember_firstTick (tm : Team) (m : Nat) (f : Task → Task) : (tm.modMember m f).firstTick = tm.firstTick := rfl
@[simp] theorem Team.modMember_table (tm : Team) (m : Nat) (f : Task → Task) : (tm.modMember m f).table = tm.table := rfl
@[simp] theorem Team.modMember_stagedFor (tm : Team) (m : Nat) (f : Task → Task) : (tm.modMember m f).stagedFor = tm.stagedFor := rfl
@[simp] theorem Team.modMember_compared (tm : Team) (m : Nat) (f : Task → Task) : (tm.modMember m f).compared = tm.compared := rfl

/-! ### Team.modSeg -/

@[simp] theorem Team.modSeg_launch (tm : Team) (q : Word) (f : Seg → Seg) : (tm.modSeg q f).launch = tm.launch := rfl
@[simp] theorem Team.modSeg_vf (tm : Team) (q : Word) (f : Seg → Seg) : (tm.modSeg q f).vf = tm.vf := rfl
@[simp] theorem Team.modSeg_wid (tm : Team) (q : Word) (f : Seg → Seg) : (tm.modSeg q f).wid = tm.wid := rfl
@[simp] theorem Team.modSeg_size (tm : Team) (q : Word) (f : Seg → Seg) : (tm.modSeg q f).size = tm.size := rfl
@[simp] theorem Team.modSeg_st (tm : Team) (q : Word) (f : Seg → Seg) : (tm.modSeg q f).st = tm.st := rfl
@[simp] theorem Team.modSeg_resumed (tm : Team) (q : Word) (f : Seg → Seg) : (tm.modSeg q f).resumed = tm.resumed := rfl
@[simp] theorem Team.modSeg_members (tm : Team) (q : Word) (f : Seg → Seg) : (tm.modSeg q f).members = tm.members := rfl
@[simp] theorem Team.modSeg_committed (tm : Team) (q : Word) (f : Seg → Seg) : (tm.modSeg q f).committed = tm.committed := rfl
@[simp] theorem Team.modSeg_lastLate (tm : Team) (q : Word) (f : Seg → Seg) : (tm.modSeg q f).lastLate = tm.lastLate := rfl
@[simp] theorem Team.modSeg_carve (tm : Team) (q : Word) (f : Seg → Seg) : (tm.modSeg q f).carve = tm.carve := rfl
@[simp] theorem Team.modSeg_traffic (tm : Team) (q : Word) (f : Seg → Seg) : (tm.modSeg q f).traffic = tm.traffic := rfl
@[simp] theorem Team.modSeg_swaps (tm : Team) (q : Word) (f : Seg → Seg) : (tm.modSeg q f).swaps = tm.swaps := rfl
@[simp] theorem Team.modSeg_swapFrom (tm : Team) (q : Word) (f : Seg → Seg) : (tm.modSeg q f).swapFrom = tm.swapFrom := rfl
@[simp] theorem Team.modSeg_firstTick (tm : Team) (q : Word) (f : Seg → Seg) : (tm.modSeg q f).firstTick = tm.firstTick := rfl
@[simp] theorem Team.modSeg_table (tm : Team) (q : Word) (f : Seg → Seg) : (tm.modSeg q f).table = tm.table := rfl
@[simp] theorem Team.modSeg_stagedFor (tm : Team) (q : Word) (f : Seg → Seg) : (tm.modSeg q f).stagedFor = tm.stagedFor := rfl
@[simp] theorem Team.modSeg_compared (tm : Team) (q : Word) (f : Seg → Seg) : (tm.modSeg q f).compared = tm.compared := rfl

end Sys2Proof.Machine
end

