-- ==== Sys2Proof/Laws/Ops.lean ====
section
/-! SUPPORT. What each shared operation can do, said once: the task in focus, issue checks, registers, traps, address checks,
engine issue, element firings, packets. -/

set_option Elab.async false

namespace Sys2Proof.Machine

/-! ## The task in focus -/

/-- An operation on the task in focus acts on it, or leaves the state as it is. -/
theorem withCur_cases (s : State) (f : Cur → Out) : withCur s f = .next s ∨ ∃ c, s.Issues c ∧ withCur s f = f c := by
  unfold withCur
  split
  · exact .inl rfl
  · rename_i c hc
    split
    · rename_i h
      exact .inr ⟨c, ⟨hc, by simpa using h⟩, rfl⟩
    · exact .inl rfl

theorem withCur_issues {s : State} {c : Cur} (h : s.Issues c) (f : Cur → Out) : withCur s f = f c := by
  simp [withCur, h.1, h.2.1, h.2.2]

/-- What holds of a task in focus: its focus, team and place. -/
theorem cur_parts {s : State} {c : Cur} (h : s.cur = some c) :
    s.focus = some (c.tid, c.mem) ∧ mapGet c.tid s.teams = some c.team ∧ c.team.members[c.mem]? = some c.task := by
  unfold State.cur at h
  split at h
  · simp at h
  · rename_i t m hf
    split at h
    · simp at h
    · rename_i tm ht
      split at h
      · simp at h
      · rename_i tk hk
        cases h
        exact ⟨hf, ht, hk⟩

/-- The task in focus after it is replaced. -/
theorem cur_put {s : State} {c : Cur} (h : s.cur = some c) (tk : Task) :
    (c.put s tk).cur = some { c with team := { c.team with members := c.team.members.set c.mem tk }, task := tk } := by
  obtain ⟨hf, ht, hm⟩ := cur_parts h
  have hlt : c.mem < c.team.members.length := (List.getElem?_eq_some_iff.mp hm).1
  simp [State.cur, Cur.put, State.setTeam, hf, hlt]

theorem cur_putRegs {s : State} {c : Cur} (h : s.cur = some c) (r : Regs) :
    ∃ c' : Cur, (c.putRegs s r).cur = some c' ∧ c'.task = { c.task with regs := r } :=
  ⟨_, cur_put h _, rfl⟩

/-- Changing the task in focus replaces it. -/
theorem modCur_put {s : State} {c : Cur} (h : s.cur = some c) (f : Task → Task) : s.modCur f = c.put s (f c.task) := by
  obtain ⟨hf, ht, hm⟩ := cur_parts h
  obtain ⟨hlt, he⟩ := List.getElem?_eq_some_iff.mp hm
  have : c.team.members.modify c.mem f = c.team.members.set c.mem (f c.task) := by
    rw [List.modify_eq_set_getElem? ]
    simp [hm]
  simp [State.modCur, hf, State.modTask, State.modTeam, ht, Team.modMember, Cur.put, this]

/-! ## Issue checks (R33, R100, R133) -/

/-- Issue runs the body, waits, or takes EMPTY-READ. -/
theorem issue_cases (s : State) (ck : Regs → Ready) (b : Cur → Out) :
    issue s ck b = .next s ∨ ∃ c, s.Issues c ∧
      ((ck c.task.regs = .ok ∧ issue s ck b = b c) ∨ ∃ n v, ck c.task.regs = .empty n v ∧ issue s ck b = c.emptyRead s n v) := by
  rcases withCur_cases s (fun c => match ck c.task.regs with
    | .ok => b c
    | .wait => .next s
    | .empty n v => c.emptyRead s n v) with h | ⟨c, hc, h⟩
  · exact .inl h
  · cases hk : ck c.task.regs with
    | ok => exact .inr ⟨c, hc, .inl ⟨hk, h.trans (by rw [hk])⟩⟩
    | wait => exact .inl (h.trans (by rw [hk]))
    | empty n v => exact .inr ⟨c, hc, .inr ⟨n, v, hk, h.trans (by rw [hk])⟩⟩

theorem issue_ok {s : State} {c : Cur} (h : s.Issues c) {ck : Regs → Ready} (hk : ck c.task.regs = .ok) (b : Cur → Out) :
    issue s ck b = b c := by
  simp [issue, withCur_issues h, hk]

theorem issue_empty {s : State} {c : Cur} (h : s.Issues c) {ck : Regs → Ready} {n : Reg} {v : Bool}
    (hk : ck c.task.regs = .empty n v) (b : Cur → Out) : issue s ck b = c.emptyRead s n v := by
  simp [issue, withCur_issues h, hk]

@[simp] theorem Ready.ok_then (x : Ready) : Ready.then .ok x = x := rfl

theorem Ready.then_ok {x y : Ready} (hx : x = .ok) (hy : y = .ok) : x.then y = .ok := by subst hx hy; rfl

theorem dst_ok {r : Regs} {d : Reg} (h : r.Free d) : r.dst d = .ok := by
  simp only [Regs.dst, if_neg h]

theorem src_ok {r : Regs} {a : Reg} {e : Bool} (h : r.Full a) : r.src a e = .ok := by
  simp only [Regs.src, show r.condOf a = .full from h]

theorem dstRead_ok {r : Regs} {d : Reg} (h : r.Full d) : r.dstRead d = .ok := by
  simp only [Regs.dstRead, show r.condOf d = .full from h]

theorem free_of_full {r : Regs} {d : Reg} (h : r.Full d) : r.Free d := by
  simp [Regs.Free, show r.condOf d = .full from h]

/-- An instruction that computes one register goes on with its value. -/
theorem issueWrite_ok {s : State} {c : Cur} (h : s.Issues c) {ck : Regs → Ready} (hk : ck c.task.regs = .ok) (n : Nat) (d : Reg)
    (val : Regs → Word) (bad : Regs → Bool) :
    issueWrite s n d ck val bad = c.writes s n d (val c.task.regs) (bad c.task.regs) := by
  simp [issueWrite, issue_ok h hk, Cur.writes]

theorem execRR_ok {s : State} {c : Cur} {d a b : Reg} {e f : Bool} (h : s.Issues c) (hd : c.task.regs.Free d)
    (ha : c.task.regs.Full a) (hb : c.task.regs.Full b) (op : Word → Word → Word) :
    execRR d a b e f op s =
      c.writes s 4 d (op (c.task.regs.val a) (c.task.regs.val b)) (c.task.regs.bad a || c.task.regs.bad b) :=
  issueWrite_ok h (Ready.then_ok (dst_ok hd) (Ready.then_ok (src_ok ha) (src_ok hb))) 4 d _ _

theorem execR1_ok {s : State} {c : Cur} {d a : Reg} {e : Bool} (h : s.Issues c) (hd : c.task.regs.Free d)
    (ha : c.task.regs.Full a) (op : Word → Word) :
    execR1 d a e op s = c.writes s 4 d (op (c.task.regs.val a)) (c.task.regs.bad a) :=
  issueWrite_ok h (Ready.then_ok (dst_ok hd) (src_ok ha)) 4 d _ _

/-! ## Registers and predicates (R31–R33) -/

@[simp] theorem val_zero (r : Regs) : r.val 0 = 0 := rfl
@[simp] theorem pred_zero (r : Regs) : r.pred 0 = true := rfl

theorem val_write_same (r : Regs) {d : Reg} (h : d ≠ 0) (v : Word) (b : Bool) : (r.write d v b).val d = v := by
  unfold Regs.val Regs.write
  rw [if_neg h, if_neg h]
  exact Vector.getElem_set_self (hi := d.toFin.isLt) ..

theorem toFin_ne {n : Nat} {d x : BitVec n} (h : x ≠ d) : d.toNat ≠ x.toNat := by
  intro e
  exact h (BitVec.eq_of_toNat_eq e.symm)

theorem val_write_other (r : Regs) {d n : Reg} (h : n ≠ d) (v : Word) (b : Bool) : (r.write d v b).val n = r.val n := by
  have hd := toFin_ne h
  unfold Regs.val Regs.write
  split
  · rfl
  · split
    · rfl
    · exact Vector.getElem_set_ne (hi := d.toFin.isLt) n.toFin.isLt hd

theorem condOf_write_same (r : Regs) (d : Reg) (v : Word) (b : Bool) : (r.write d v b).condOf d = .full := by
  by_cases h : d = 0
  · simp [h, Regs.condOf]
  · unfold Regs.condOf Regs.write
    rw [if_neg h, if_neg h]
    exact Vector.getElem_set_self (hi := d.toFin.isLt) ..

theorem condOf_write_other (r : Regs) {d n : Reg} (h : n ≠ d) (v : Word) (b : Bool) :
    (r.write d v b).condOf n = r.condOf n := by
  have hd := toFin_ne h
  unfold Regs.condOf Regs.write
  split
  · rfl
  · split
    · rfl
    · exact Vector.getElem_set_ne (hi := d.toFin.isLt) n.toFin.isLt hd

/-! ## Traps (R353–R355) -/

/-- A synchronous trap is taken, or in a handler fails the task. -/
theorem trapAt_cases (c : Cur) (s : State) (k e : Nat) (d : BitVec 16) (a v : Word) :
    (c.task.regs.handler = true ∧ c.trapAt s k e d a v = .next (s.failTask c.tid c.mem k d a)) ∨
    (c.task.regs.handler = false ∧ c.trapAt s k e d a v = .next (s.takeTrap c k e d a v)) := by
  unfold Cur.trapAt
  cases c.task.regs.handler <;> simp

/-- A trap that names an offset enters the handler with it, or fails the task with no address in the record (R354, R357). -/
theorem trapOffset_cases (c : Cur) (s : State) (k : Nat) (d : BitVec 16) (a v : Word) :
    c.trapOffset s k d a v = .next (s.failTask c.tid c.mem k d 0) ∨
    c.trapOffset s k d a v = .next (s.takeTrap c k c.task.regs.pc d a v) := by
  unfold Cur.trapOffset
  split
  · exact .inl rfl
  · exact .inr rfl

/-- Outside a handler, with an unpoisoned non-zero vector, a trap enters the handler. -/
theorem takeTrap_enters {s : State} {c : Cur} (hp : c.task.regs.poisonSr.getLsbD 16 = false) (hv : c.task.regs.tvec ≠ 0)
    (k e : Nat) (d : BitVec 16) (a v : Word) :
    s.takeTrap c k e d a v =
      (c.put s { c.task.leaveBarrier with regs := c.task.leaveBarrier.regs.enter k e d a v, entered := none }).leaveWait c.tid c.mem := by
  unfold State.takeTrap
  rw [if_neg (by simpa using hp), if_neg hv]

/-! ## Address checks (R100, R139) -/

/-- A global access consumes poison, traps, or goes on with its page cached. -/
theorem access_cases (c : Cur) (s : State) (bad : Bool) (va al : Nat) (k : Access) (f : State → TlbEntry → Out) :
    (bad = true ∧ c.access s bad va al k f = .next (c.consumeAddr s)) ∨
    (va % al ≠ 0 ∧ c.access s bad va al k f = c.trap s 3 0 (BitVec.ofNat 64 va) 0) ∨
    (∃ cause d, s.xlate c.team.vf va k c.task.via = .bad cause d ∧
      c.access s bad va al k f = c.trap (s.walked c.team.vf va c.task.via) cause d (BitVec.ofNat 64 va) 0) ∨
    ∃ e, bad = false ∧ va % al = 0 ∧ s.xlate c.team.vf va k c.task.via = .ok e ∧
      c.access s bad va al k f = f (s.cache c.team.vf e c.task.via) e := by
  unfold Cur.access
  cases bad with
  | true => exact .inl ⟨rfl, rfl⟩
  | false =>
    by_cases h : va % al = 0
    · cases hx : s.xlate c.team.vf va k c.task.via with
      | bad cause d => exact .inr (.inr (.inl ⟨cause, d, rfl, by simp [h]⟩))
      | ok e => exact .inr (.inr (.inr ⟨e, rfl, h, rfl, by simp [h]⟩))
    · exact .inr (.inl ⟨h, by simp [h]⟩)

theorem access_ok {c : Cur} {s : State} {va al : Nat} {k : Access} {e : TlbEntry} (ha : va % al = 0)
    (hx : s.xlate c.team.vf va k c.task.via = .ok e) (f : State → TlbEntry → Out) :
    c.access s false va al k f = f (s.cache c.team.vf e c.task.via) e := by
  simp [Cur.access, ha, hx]

theorem spadAccess_ok {c : Cur} {s : State} {off al n : Nat} (ha : off % al = 0) (hc : c.team.carve.spadOk off n = true) (f : Out) :
    c.spadAccess s false off al n f = f := by
  simp [Cur.spadAccess, ha, hc]

/-! ## Versions (R141, R271) -/

/-- A store of versions waits, fails its team, or writes them and goes on. -/
theorem storeVersion_cases (s : State) (w : Option EngWrite) (t m : Nat) (q : Word) (va pa : Nat) (bs : List Byte) (bad : Bool) (k : State → Out) :
    s.storeVersion w t m q va pa bs bad k = .next s ∨
    s.storeVersion w t m q va pa bs bad k = .next (s.failFree t m) ∨
    s.storeVersion w t m q va pa bs bad k = k (s.segWrite w t m q va pa bs bad) := by
  unfold State.storeVersion
  split
  · exact .inl rfl
  · split
    · exact .inl rfl
    · dsimp only
      split
      · split
        · exact .inr (.inr rfl)
        · exact .inr (.inl rfl)
      · exact .inr (.inr rfl)

/-! ## Engine issue (R169, R173) -/

/-- With its registers ready and clean, no failing check and nothing poisoned to take, an engine instruction hands over its
command. -/
theorem engIssue_ok {s : State} {c : Cur} (h : s.Issues c) {a d : Reg} {tl : BitVec 4} {e : Bool} {kind : CmdKind} {q : BitVec 3}
    {check : Cur → State → Word → Word → Word → Word → EngCheck} {take : Cur → State → Word → List Byte × Option StencilTable × Bool}
    (hr : (c.task.regs.dst d).then (engSrc a e c.task.regs) = .ok)
    (hb : ([0, 1, 2, 3].any fun n => c.task.regs.bad (regAfter a n)) = false)
    (hc : check c s (c.task.regs.val (regAfter a 0)) (c.task.regs.val (regAfter a 1)) (c.task.regs.val (regAfter a 2))
      (c.task.regs.val (regAfter a 3)) = none)
    (ht : (take c s (c.task.regs.val (regAfter a 0))).2.2 = false) :
    ∃ tk, engIssue a d tl e kind q check take s = .next (c.put s tk) ∧ tk.tl = c.task.tl ∧ tk.spad = c.task.spad ∧
      tk.appends.length = c.task.appends.length + 1 := by
  have hi := issue_ok h (ck := fun r => (r.dst d).then (engSrc a e r)) hr
  unfold engIssue
  rw [hi]
  simp only [hb, hc, ht, Bool.false_eq_true, if_false]
  refine ⟨_, rfl, ?_, ?_, ?_⟩ <;> simp [Task.past]

/-! ## Log space (R380) -/

/-- A step that may append records is performed, or waits while records fill the log. -/
theorem State.orStall_cases (s after : State) (vf : Nat) :
    s.orStall after vf = .next after ∨ s.orStall after vf = .next (s.fillLog after vf) := by
  unfold State.orStall
  split
  · exact .inr rfl
  · exact .inl rfl

/-- With an empty log no step waits (log 132). -/
theorem State.logFull_empty {s : State} {vf : Nat} {p : Part} (hp : s.part vf = some p) (h : p.log = []) (after : State) :
    s.logFull after vf = false := by
  unfold State.logFull
  rw [hp]
  split
  · rename_i heq _
    cases heq
    simp [h]
  · rfl

/-! ## Hidden scratchpad bytes (R142) -/

/-- With nothing hidden, an LDP of the core reads the scratchpad as it stands. -/
theorem Task.coreBytes_plain {tk : Task} (h : tk.hid = []) (c : Carve) (off n : Nat) : tk.coreBytes c off n = tk.spadBytes c off n := by
  simp [Task.coreBytes, Task.spadBytes, Task.coreByte, h, tabulate, Function.comp_def]

/-! ## Host packets (R404–R406) -/

/-- A packet event leaves the state, halts the queue, or acts on the packet of its type. -/
theorem onPacket_cases (vf : BitVec 6) (q : BitVec 3) (k : Nat) (s : State) (f : Fetched → Out) :
    onPacket vf q k s f = .next s ∨ onPacket vf q k s f = .next (s.haltQueue vf.toNat q 1) ∨
    ∃ p, s.part vf.toNat = some p ∧ onPacket vf q k s f = f { vf := vf.toNat, q := q, part := p, queue := p.queues.get q.toFin } := by
  unfold onPacket
  split
  · exact .inl rfl
  · rename_i p hp
    dsimp only
    split
    · exact .inl rfl
    · split
      · exact .inr (.inl rfl)
      · split
        · exact .inl rfl
        · split
          · exact .inr (.inl rfl)
          · exact .inr (.inr ⟨p, hp, rfl⟩)

/-! ## Read marks (R265, R272) -/

/-- A read of the frontier segment waits for no mark. -/
theorem State.markWait_frontier {s : State} {tm : Team} {m : Nat} {seq : Word} {pa n : Nat}
    (h : s.atFrontier tm.launch (tm.segTs seq) = true) : s.markWait tm m seq pa n = false := by
  simp [State.markWait, h]

/-! ## Lists of numbers -/

@[simp] theorem tabulate_length (n : Nat) (f : Nat → α) : (tabulate n f).length = n := by simp [tabulate]

theorem tabulate_get (n : Nat) (f : Nat → α) (i : Nat) (h : i < n) (d : α) : (tabulate n f).getD i d = f i := by
  simp [tabulate, h]

end Sys2Proof.Machine
end

