-- ==== Sys2Proof/Laws/PerInstr.lean ====
section
/-! SUPPORT. A law of the syntax, instruction by instruction: an encoding has as many words as the instruction has (R83); the rows
that are events have no word. -/

namespace Sys2Proof.Laws.EncodeSize

/-- The encoding of an instruction is empty, or has the length of the instruction. -/
def Statement (i : Instr) : Prop := encode i = [] ∨ 4 * (encode i).length = i.size

end Sys2Proof.Laws.EncodeSize

namespace Sys2Proof

theorem Laws.EncodeSize.add (d a b : Reg) (e f : Bool) : Laws.EncodeSize.Statement (.add d a b e f) := .inr rfl
theorem Laws.EncodeSize.sub (d a b : Reg) (e f : Bool) : Laws.EncodeSize.Statement (.sub d a b e f) := .inr rfl
theorem Laws.EncodeSize.mul (d a b : Reg) (e f : Bool) : Laws.EncodeSize.Statement (.mul d a b e f) := .inr rfl
theorem Laws.EncodeSize.mulh (d a b : Reg) (e f : Bool) : Laws.EncodeSize.Statement (.mulh d a b e f) := .inr rfl
theorem Laws.EncodeSize.mulhu (d a b : Reg) (e f : Bool) : Laws.EncodeSize.Statement (.mulhu d a b e f) := .inr rfl
theorem Laws.EncodeSize.div (d a b : Reg) (e f : Bool) : Laws.EncodeSize.Statement (.div d a b e f) := .inr rfl
theorem Laws.EncodeSize.divu (d a b : Reg) (e f : Bool) : Laws.EncodeSize.Statement (.divu d a b e f) := .inr rfl
theorem Laws.EncodeSize.rem (d a b : Reg) (e f : Bool) : Laws.EncodeSize.Statement (.rem d a b e f) := .inr rfl
theorem Laws.EncodeSize.remu (d a b : Reg) (e f : Bool) : Laws.EncodeSize.Statement (.remu d a b e f) := .inr rfl
theorem Laws.EncodeSize.and (d a b : Reg) (e f : Bool) : Laws.EncodeSize.Statement (.and d a b e f) := .inr rfl
theorem Laws.EncodeSize.or (d a b : Reg) (e f : Bool) : Laws.EncodeSize.Statement (.or d a b e f) := .inr rfl
theorem Laws.EncodeSize.xor (d a b : Reg) (e f : Bool) : Laws.EncodeSize.Statement (.xor d a b e f) := .inr rfl
theorem Laws.EncodeSize.shl (d a b : Reg) (e f : Bool) : Laws.EncodeSize.Statement (.shl d a b e f) := .inr rfl
theorem Laws.EncodeSize.shr (d a b : Reg) (e f : Bool) : Laws.EncodeSize.Statement (.shr d a b e f) := .inr rfl
theorem Laws.EncodeSize.sar (d a b : Reg) (e f : Bool) : Laws.EncodeSize.Statement (.sar d a b e f) := .inr rfl
theorem Laws.EncodeSize.rol (d a b : Reg) (e f : Bool) : Laws.EncodeSize.Statement (.rol d a b e f) := .inr rfl
theorem Laws.EncodeSize.min (d a b : Reg) (e f : Bool) : Laws.EncodeSize.Statement (.min d a b e f) := .inr rfl
theorem Laws.EncodeSize.max (d a b : Reg) (e f : Bool) : Laws.EncodeSize.Statement (.max d a b e f) := .inr rfl
theorem Laws.EncodeSize.minu (d a b : Reg) (e f : Bool) : Laws.EncodeSize.Statement (.minu d a b e f) := .inr rfl
theorem Laws.EncodeSize.maxu (d a b : Reg) (e f : Bool) : Laws.EncodeSize.Statement (.maxu d a b e f) := .inr rfl
theorem Laws.EncodeSize.clz (d a : Reg) (e : Bool) : Laws.EncodeSize.Statement (.clz d a e) := .inr rfl
theorem Laws.EncodeSize.ctz (d a : Reg) (e : Bool) : Laws.EncodeSize.Statement (.ctz d a e) := .inr rfl
theorem Laws.EncodeSize.popc (d a : Reg) (e : Bool) : Laws.EncodeSize.Statement (.popc d a e) := .inr rfl
theorem Laws.EncodeSize.mov (d a : Reg) (e : Bool) : Laws.EncodeSize.Statement (.mov d a e) := .inr rfl
theorem Laws.EncodeSize.addi (d a : Reg) (e : Bool) (i : BitVec 13) : Laws.EncodeSize.Statement (.addi d a e i) := .inr rfl
theorem Laws.EncodeSize.andi (d a : Reg) (e : Bool) (i : BitVec 13) : Laws.EncodeSize.Statement (.andi d a e i) := .inr rfl
theorem Laws.EncodeSize.ori (d a : Reg) (e : Bool) (i : BitVec 13) : Laws.EncodeSize.Statement (.ori d a e i) := .inr rfl
theorem Laws.EncodeSize.xori (d a : Reg) (e : Bool) (i : BitVec 13) : Laws.EncodeSize.Statement (.xori d a e i) := .inr rfl
theorem Laws.EncodeSize.shli (d a : Reg) (e : Bool) (n : BitVec 6) : Laws.EncodeSize.Statement (.shli d a e n) := .inr rfl
theorem Laws.EncodeSize.shri (d a : Reg) (e : Bool) (n : BitVec 6) : Laws.EncodeSize.Statement (.shri d a e n) := .inr rfl
theorem Laws.EncodeSize.sari (d a : Reg) (e : Bool) (n : BitVec 6) : Laws.EncodeSize.Statement (.sari d a e n) := .inr rfl
theorem Laws.EncodeSize.roli (d a : Reg) (e : Bool) (n : BitVec 6) : Laws.EncodeSize.Statement (.roli d a e n) := .inr rfl
theorem Laws.EncodeSize.sext (d a : Reg) (e : Bool) (w : BitVec 6) : Laws.EncodeSize.Statement (.sext d a e w) := .inr rfl
theorem Laws.EncodeSize.zext (d a : Reg) (e : Bool) (w : BitVec 6) : Laws.EncodeSize.Statement (.zext d a e w) := .inr rfl
theorem Laws.EncodeSize.bfx (d a : Reg) (e : Bool) (l p : BitVec 6) : Laws.EncodeSize.Statement (.bfx d a e l p) := .inr rfl
theorem Laws.EncodeSize.bfi (d a : Reg) (e : Bool) (l p : BitVec 6) : Laws.EncodeSize.Statement (.bfi d a e l p) := .inr rfl
theorem Laws.EncodeSize.wfld (d a : Reg) (e : Bool) (i : BitVec 3) : Laws.EncodeSize.Statement (.wfld d a e i) := .inr rfl
theorem Laws.EncodeSize.wcmb (d a : Reg) (e : Bool) (i : BitVec 3) : Laws.EncodeSize.Statement (.wcmb d a e i) := .inr rfl
theorem Laws.EncodeSize.sel (d a b : Reg) (e f : Bool) (p : Pred) : Laws.EncodeSize.Statement (.sel d a b e f p) := .inr rfl
theorem Laws.EncodeSize.lea (d a b : Reg) (e f : Bool) (s : BitVec 3) : Laws.EncodeSize.Statement (.lea d a b e f s) := .inr rfl
theorem Laws.EncodeSize.li (d : Reg) (imm : BitVec 32) : Laws.EncodeSize.Statement (.li d imm) := .inr rfl
theorem Laws.EncodeSize.lui (d : Reg) (imm : BitVec 32) : Laws.EncodeSize.Statement (.lui d imm) := .inr rfl
theorem Laws.EncodeSize.cmp (p : Pred) (c : BitVec 3) (a b : Reg) (e f : Bool) :
    Laws.EncodeSize.Statement (.cmp p c a b e f) := .inr rfl
theorem Laws.EncodeSize.cmpi (p : Pred) (c : BitVec 3) (a : Reg) (e : Bool) (i : BitVec 13) :
    Laws.EncodeSize.Statement (.cmpi p c a e i) := .inr rfl
theorem Laws.EncodeSize.pand (d a b : Pred) : Laws.EncodeSize.Statement (.pand d a b) := .inr rfl
theorem Laws.EncodeSize.por (d a b : Pred) : Laws.EncodeSize.Statement (.por d a b) := .inr rfl
theorem Laws.EncodeSize.pxor (d a b : Pred) : Laws.EncodeSize.Statement (.pxor d a b) := .inr rfl
theorem Laws.EncodeSize.pnot (d a : Pred) : Laws.EncodeSize.Statement (.pnot d a) := .inr rfl
theorem Laws.EncodeSize.fset (d : Reg) (v : Bool) : Laws.EncodeSize.Statement (.fset d v) := .inr rfl
theorem Laws.EncodeSize.fchk (p : Pred) (a : Reg) : Laws.EncodeSize.Statement (.fchk p a) := .inr rfl
theorem Laws.EncodeSize.br (p : Pred) (n : Bool) (d : BitVec 22) : Laws.EncodeSize.Statement (.br p n d) := .inr rfl
theorem Laws.EncodeSize.jmp (d : BitVec 22) : Laws.EncodeSize.Statement (.jmp d) := .inr rfl
theorem Laws.EncodeSize.jal (r : Reg) (d : BitVec 20) : Laws.EncodeSize.Statement (.jal r d) := .inr rfl
theorem Laws.EncodeSize.jr (a : Reg) (e : Bool) : Laws.EncodeSize.Statement (.jr a e) := .inr rfl
theorem Laws.EncodeSize.ret : Laws.EncodeSize.Statement (.ret) := .inr rfl
theorem Laws.EncodeSize.loop (a : Reg) (e : Bool) (l : BitVec 13) : Laws.EncodeSize.Statement (.loop a e l) := .inr rfl
theorem Laws.EncodeSize.ld (t a : Reg) (e : Bool) (s h : BitVec 2) (o : BitVec 9) :
    Laws.EncodeSize.Statement (.ld t a e s h o) := .inr rfl
theorem Laws.EncodeSize.st (t a : Reg) (e : Bool) (s h : BitVec 2) (o : BitVec 9) :
    Laws.EncodeSize.Statement (.st t a e s h o) := .inr rfl
theorem Laws.EncodeSize.ldp (t a : Reg) (e : Bool) (s : BitVec 2) (o : BitVec 9) :
    Laws.EncodeSize.Statement (.ldp t a e s o) := .inr rfl
theorem Laws.EncodeSize.stp (t a : Reg) (e : Bool) (s : BitVec 2) (o : BitVec 9) :
    Laws.EncodeSize.Statement (.stp t a e s o) := .inr rfl
theorem Laws.EncodeSize.ldw (t a : Reg) (e : Bool) (s : BitVec 2) (o : BitVec 9) :
    Laws.EncodeSize.Statement (.ldw t a e s o) := .inr rfl
theorem Laws.EncodeSize.prf (a : Reg) (e : Bool) (h : BitVec 2) (o : BitVec 9) :
    Laws.EncodeSize.Statement (.prf a e h o) := .inr rfl
theorem Laws.EncodeSize.amo (d a b : Reg) (e f : Bool) (s : BitVec 2) (o : BitVec 4) :
    Laws.EncodeSize.Statement (.amo d a b e f s o) := .inr rfl
theorem Laws.EncodeSize.amoo (d a b : Reg) (e f : Bool) (s : BitVec 2) (o : BitVec 4) :
    Laws.EncodeSize.Statement (.amoo d a b e f s o) := .inr rfl
theorem Laws.EncodeSize.amof (d a b : Reg) (e f : Bool) (s : BitVec 2) (o : BitVec 4) :
    Laws.EncodeSize.Statement (.amof d a b e f s o) := .inr rfl
theorem Laws.EncodeSize.amop (d a b : Reg) (e f : Bool) (s : BitVec 2) (o : BitVec 4) :
    Laws.EncodeSize.Statement (.amop d a b e f s o) := .inr rfl
theorem Laws.EncodeSize.cas (d a b : Reg) (e f : Bool) (s : BitVec 2) : Laws.EncodeSize.Statement (.cas d a b e f s) := .inr rfl
theorem Laws.EncodeSize.disc (a b : Reg) (e f : Bool) : Laws.EncodeSize.Statement (.disc a b e f) := .inr rfl
theorem Laws.EncodeSize.tset (a : Reg) (e : Bool) : Laws.EncodeSize.Statement (.tset a e) := .inr rfl
theorem Laws.EncodeSize.cmt : Laws.EncodeSize.Statement (.cmt) := .inr rfl
theorem Laws.EncodeSize.abrt : Laws.EncodeSize.Statement (.abrt) := .inr rfl
theorem Laws.EncodeSize.tsrd (d a : Reg) (e : Bool) : Laws.EncodeSize.Statement (.tsrd d a e) := .inr rfl
theorem Laws.EncodeSize.seal (d : Reg) : Laws.EncodeSize.Statement (.seal d) := .inr rfl
theorem Laws.EncodeSize.sealw (a : Reg) (e : Bool) : Laws.EncodeSize.Statement (.sealw a e) := .inr rfl
theorem Laws.EncodeSize.xwr (t a : Reg) (e : Bool) (s : BitVec 1) (o : BitVec 9) :
    Laws.EncodeSize.Statement (.xwr t a e s o) := .inr rfl
theorem Laws.EncodeSize.barr : Laws.EncodeSize.Statement (.barr) := .inr rfl
theorem Laws.EncodeSize.barrCarve (a : Reg) (e : Bool) : Laws.EncodeSize.Statement (.barrCarve a e) := .inr rfl
theorem Laws.EncodeSize.syarm (a b : Reg) (e f : Bool) : Laws.EncodeSize.Statement (.syarm a b e f) := .inr rfl
theorem Laws.EncodeSize.sywait (a b : Reg) (e f : Bool) : Laws.EncodeSize.Statement (.sywait a b e f) := .inr rfl
theorem Laws.EncodeSize.sywaitImm (a : Reg) (e : Bool) (g : BitVec 13) :
    Laws.EncodeSize.Statement (.sywaitImm a e g) := .inr rfl
theorem Laws.EncodeSize.tlwait (n : BitVec 4) (a : Reg) (e : Bool) : Laws.EncodeSize.Statement (.tlwait n a e) := .inr rfl
theorem Laws.EncodeSize.mwait (a b : Reg) (e f : Bool) : Laws.EncodeSize.Statement (.mwait a b e f) := .inr rfl
theorem Laws.EncodeSize.hpush (a b : Reg) (e f : Bool) : Laws.EncodeSize.Statement (.hpush a b e f) := .inr rfl
theorem Laws.EncodeSize.hpop (d : Reg) : Laws.EncodeSize.Statement (.hpop d) := .inr rfl
theorem Laws.EncodeSize.lnch (d a : Reg) (e : Bool) : Laws.EncodeSize.Statement (.lnch d a e) := .inr rfl
theorem Laws.EncodeSize.lnchw (d a : Reg) (e : Bool) : Laws.EncodeSize.Statement (.lnchw d a e) := .inr rfl
theorem Laws.EncodeSize.yield : Laws.EncodeSize.Statement (.yield) := .inr rfl
theorem Laws.EncodeSize.halt : Laws.EncodeSize.Statement (.halt) := .inr rfl
theorem Laws.EncodeSize.cpyG2g (a d : Reg) (t : BitVec 4) (e : Bool) : Laws.EncodeSize.Statement (.cpyG2g a d t e) := .inr rfl
theorem Laws.EncodeSize.cpyG2s (a d : Reg) (t : BitVec 4) (e : Bool) : Laws.EncodeSize.Statement (.cpyG2s a d t e) := .inr rfl
theorem Laws.EncodeSize.cpyS2g (a d : Reg) (t : BitVec 4) (e : Bool) : Laws.EncodeSize.Statement (.cpyS2g a d t e) := .inr rfl
theorem Laws.EncodeSize.cpyS2s (a d : Reg) (t : BitVec 4) (e : Bool) : Laws.EncodeSize.Statement (.cpyS2s a d t e) := .inr rfl
theorem Laws.EncodeSize.gtx (a d : Reg) (t : BitVec 4) (e : Bool) : Laws.EncodeSize.Statement (.gtx a d t e) := .inr rfl
theorem Laws.EncodeSize.gth (a d : Reg) (t : BitVec 4) (e : Bool) : Laws.EncodeSize.Statement (.gth a d t e) := .inr rfl
theorem Laws.EncodeSize.pxst (a d : Reg) (t : BitVec 4) (e : Bool) : Laws.EncodeSize.Statement (.pxst a d t e) := .inr rfl
theorem Laws.EncodeSize.pxcp (a d : Reg) (t : BitVec 4) (e : Bool) : Laws.EncodeSize.Statement (.pxcp a d t e) := .inr rfl
theorem Laws.EncodeSize.strmInG (a d : Reg) (t : BitVec 4) (e : Bool) : Laws.EncodeSize.Statement (.strmInG a d t e) := .inr rfl
theorem Laws.EncodeSize.strmInS (a d : Reg) (t : BitVec 4) (e : Bool) : Laws.EncodeSize.Statement (.strmInS a d t e) := .inr rfl
theorem Laws.EncodeSize.strmInW (a d : Reg) (t : BitVec 4) (e : Bool) : Laws.EncodeSize.Statement (.strmInW a d t e) := .inr rfl
theorem Laws.EncodeSize.strmOutG (a d : Reg) (t : BitVec 4) (e : Bool) :
    Laws.EncodeSize.Statement (.strmOutG a d t e) := .inr rfl
theorem Laws.EncodeSize.strmOutS (a d : Reg) (t : BitVec 4) (e : Bool) :
    Laws.EncodeSize.Statement (.strmOutS a d t e) := .inr rfl
theorem Laws.EncodeSize.cfsw (a : Reg) (e : Bool) (n t : BitVec 2) : Laws.EncodeSize.Statement (.cfsw a e n t) := .inr rfl
theorem Laws.EncodeSize.thst (d : Reg) (t : BitVec 2) : Laws.EncodeSize.Statement (.thst d t) := .inr rfl
theorem Laws.EncodeSize.thwt (t : BitVec 2) : Laws.EncodeSize.Statement (.thwt t) := .inr rfl
theorem Laws.EncodeSize.acz (n : BitVec 4) : Laws.EncodeSize.Statement (.acz n) := .inr rfl
theorem Laws.EncodeSize.acrd (d : Reg) (n : BitVec 4) : Laws.EncodeSize.Statement (.acrd d n) := .inr rfl
theorem Laws.EncodeSize.mrk (t : BitVec 2) : Laws.EncodeSize.Statement (.mrk t) := .inr rfl
theorem Laws.EncodeSize.gsq (d a : Reg) (e : Bool) : Laws.EncodeSize.Statement (.gsq d a e) := .inr rfl
theorem Laws.EncodeSize.stk (d : Reg) (n : BitVec 4) : Laws.EncodeSize.Statement (.stk d n) := .inr rfl
theorem Laws.EncodeSize.cfg (d a : Reg) (e : Bool) (t : BitVec 2) : Laws.EncodeSize.Statement (.cfg d a e t) := .inr rfl
theorem Laws.EncodeSize.cfgKill (d a : Reg) (e : Bool) (t : BitVec 2) : Laws.EncodeSize.Statement (.cfgKill d a e t) := .inr rfl
theorem Laws.EncodeSize.mldb (a d : Reg) (e : Bool) : Laws.EncodeSize.Statement (.mldb a d e) := .inr rfl
theorem Laws.EncodeSize.mldbT (a d : Reg) (e : Bool) : Laws.EncodeSize.Statement (.mldbT a d e) := .inr rfl
theorem Laws.EncodeSize.mma (a d : Reg) (e : Bool) (s : BitVec 2) : Laws.EncodeSize.Statement (.mma a d e s) := .inr rfl
theorem Laws.EncodeSize.mmat (a d : Reg) (e : Bool) (s : BitVec 2) : Laws.EncodeSize.Statement (.mmat a d e s) := .inr rfl
theorem Laws.EncodeSize.mdrn (a d : Reg) (e : Bool) : Laws.EncodeSize.Statement (.mdrn a d e) := .inr rfl
theorem Laws.EncodeSize.mclr (a d : Reg) (e : Bool) : Laws.EncodeSize.Statement (.mclr a d e) := .inr rfl
theorem Laws.EncodeSize.mscl (a d : Reg) (e : Bool) : Laws.EncodeSize.Statement (.mscl a d e) := .inr rfl
theorem Laws.EncodeSize.mzb (a d : Reg) (e : Bool) : Laws.EncodeSize.Statement (.mzb a d e) := .inr rfl
theorem Laws.EncodeSize.mchk (d : Reg) : Laws.EncodeSize.Statement (.mchk d) := .inr rfl
theorem Laws.EncodeSize.msig (d : Reg) : Laws.EncodeSize.Statement (.msig d) := .inr rfl
theorem Laws.EncodeSize.nop : Laws.EncodeSize.Statement (.nop) := .inr rfl
theorem Laws.EncodeSize.trap (n : BitVec 6) : Laws.EncodeSize.Statement (.trap n) := .inr rfl
theorem Laws.EncodeSize.eret : Laws.EncodeSize.Statement (.eret) := .inr rfl
theorem Laws.EncodeSize.mfs (d : Reg) (s : BitVec 6) : Laws.EncodeSize.Statement (.mfs d s) := .inr rfl
theorem Laws.EncodeSize.mts (a : Reg) (e : Bool) (s : BitVec 6) : Laws.EncodeSize.Statement (.mts a e s) := .inr rfl
theorem Laws.EncodeSize.brk (n : BitVec 6) : Laws.EncodeSize.Statement (.brk n) := .inr rfl
theorem Laws.EncodeSize.glnt (a : Reg) (e : Bool) : Laws.EncodeSize.Statement (.glnt a e) := .inr rfl
theorem Laws.EncodeSize.dgst (d a : Reg) (e : Bool) : Laws.EncodeSize.Statement (.dgst d a e) := .inr rfl
theorem Laws.EncodeSize.fenceCore : Laws.EncodeSize.Statement (.fenceCore) := .inr rfl
theorem Laws.EncodeSize.fenceTeam : Laws.EncodeSize.Statement (.fenceTeam) := .inr rfl
theorem Laws.EncodeSize.fenceDevice : Laws.EncodeSize.Statement (.fenceDevice) := .inr rfl
theorem Laws.EncodeSize.fenceSystem : Laws.EncodeSize.Statement (.fenceSystem) := .inr rfl
theorem Laws.EncodeSize.fillArrive (d : Reg) : Laws.EncodeSize.Statement (.fillArrive d) := .inl rfl
theorem Laws.EncodeSize.engCommandAppend : Laws.EncodeSize.Statement (.engCommandAppend) := .inl rfl
theorem Laws.EncodeSize.trapEntry : Laws.EncodeSize.Statement (.trapEntry) := .inl rfl
theorem Laws.EncodeSize.syncWordArrival (t : BitVec 4) : Laws.EncodeSize.Statement (.syncWordArrival t) := .inl rfl
theorem Laws.EncodeSize.copyCommandComplete (t : BitVec 4) : Laws.EncodeSize.Statement (.copyCommandComplete t) := .inl rfl
theorem Laws.EncodeSize.strmInComplete (n : BitVec 4) : Laws.EncodeSize.Statement (.strmInComplete n) := .inl rfl
theorem Laws.EncodeSize.strmOutComplete (n : BitVec 4) : Laws.EncodeSize.Statement (.strmOutComplete n) := .inl rfl
theorem Laws.EncodeSize.gtxComplete (t : BitVec 4) : Laws.EncodeSize.Statement (.gtxComplete t) := .inl rfl
theorem Laws.EncodeSize.gthReply (t : BitVec 4) : Laws.EncodeSize.Statement (.gthReply t) := .inl rfl
theorem Laws.EncodeSize.pxFlitLand : Laws.EncodeSize.Statement (.pxFlitLand) := .inl rfl
theorem Laws.EncodeSize.pxAck : Laws.EncodeSize.Statement (.pxAck) := .inl rfl
theorem Laws.EncodeSize.txqReply (t : BitVec 2) (n : BitVec 2) : Laws.EncodeSize.Statement (.txqReply t n) := .inl rfl
theorem Laws.EncodeSize.pageWalk (vf : BitVec 6) (miss : Miss) (wr : Bool) : Laws.EncodeSize.Statement (.pageWalk vf miss wr) := .inl rfl
theorem Laws.EncodeSize.mxeTileExecute : Laws.EncodeSize.Statement (.mxeTileExecute) := .inl rfl
theorem Laws.EncodeSize.mxeCommandComplete : Laws.EncodeSize.Statement (.mxeCommandComplete) := .inl rfl
theorem Laws.EncodeSize.gsqAppend : Laws.EncodeSize.Statement (.gsqAppend) := .inl rfl
theorem Laws.EncodeSize.segmentCommit (team : Nat) : Laws.EncodeSize.Statement (.segmentCommit team) := .inl rfl
theorem Laws.EncodeSize.abortRestore (team : Nat) : Laws.EncodeSize.Statement (.abortRestore team) := .inl rfl
theorem Laws.EncodeSize.amooApply (k : Nat) : Laws.EncodeSize.Statement (.amooApply k) := .inl rfl
theorem Laws.EncodeSize.thicketLoadComplete (t : BitVec 2) : Laws.EncodeSize.Statement (.thicketLoadComplete t) := .inl rfl
theorem Laws.EncodeSize.thicketPhaseComplete (t : BitVec 2) : Laws.EncodeSize.Statement (.thicketPhaseComplete t) := .inl rfl
theorem Laws.EncodeSize.roundInject (t : BitVec 2) (n : BitVec 4) : Laws.EncodeSize.Statement (.roundInject t n) := .inl rfl
theorem Laws.EncodeSize.balInject (t : BitVec 2) (n : BitVec 4) : Laws.EncodeSize.Statement (.balInject t n) := .inl rfl
theorem Laws.EncodeSize.linkRequest (t : BitVec 2) (p : Place) (i : BitVec 2) :
    Laws.EncodeSize.Statement (.linkRequest t p i) := .inl rfl
theorem Laws.EncodeSize.linkTokenTransfer (t : BitVec 2) (p : Place) (i : BitVec 2) :
    Laws.EncodeSize.Statement (.linkTokenTransfer t p i) := .inl rfl
theorem Laws.EncodeSize.nonDataAlign (t : BitVec 2) (p : Place) : Laws.EncodeSize.Statement (.nonDataAlign t p) := .inl rfl
theorem Laws.EncodeSize.quiesce (t : BitVec 2) : Laws.EncodeSize.Statement (.quiesce t) := .inl rfl
theorem Laws.EncodeSize.regionContainment (t : BitVec 2) : Laws.EncodeSize.Statement (.regionContainment t) := .inl rfl
theorem Laws.EncodeSize.elementCkptRecord (t : BitVec 2) (p : Place) (i : BitVec 2) :
    Laws.EncodeSize.Statement (.elementCkptRecord t p i) := .inl rfl
theorem Laws.EncodeSize.elementCkptSave (t : BitVec 2) (p : Place) :
    Laws.EncodeSize.Statement (.elementCkptSave t p) := .inl rfl
theorem Laws.EncodeSize.markerDeadlineExpire (t : BitVec 2) : Laws.EncodeSize.Statement (.markerDeadlineExpire t) := .inl rfl
theorem Laws.EncodeSize.vadd (t : BitVec 2) (p : Place) : Laws.EncodeSize.Statement (.vadd t p) := .inl rfl
theorem Laws.EncodeSize.vsub (t : BitVec 2) (p : Place) : Laws.EncodeSize.Statement (.vsub t p) := .inl rfl
theorem Laws.EncodeSize.vmul (t : BitVec 2) (p : Place) : Laws.EncodeSize.Statement (.vmul t p) := .inl rfl
theorem Laws.EncodeSize.vfma (t : BitVec 2) (p : Place) : Laws.EncodeSize.Statement (.vfma t p) := .inl rfl
theorem Laws.EncodeSize.vfms (t : BitVec 2) (p : Place) : Laws.EncodeSize.Statement (.vfms t p) := .inl rfl
theorem Laws.EncodeSize.vmin (t : BitVec 2) (p : Place) : Laws.EncodeSize.Statement (.vmin t p) := .inl rfl
theorem Laws.EncodeSize.vmax (t : BitVec 2) (p : Place) : Laws.EncodeSize.Statement (.vmax t p) := .inl rfl
theorem Laws.EncodeSize.vabs (t : BitVec 2) (p : Place) : Laws.EncodeSize.Statement (.vabs t p) := .inl rfl
theorem Laws.EncodeSize.vneg (t : BitVec 2) (p : Place) : Laws.EncodeSize.Statement (.vneg t p) := .inl rfl
theorem Laws.EncodeSize.vcvt (t : BitVec 2) (p : Place) : Laws.EncodeSize.Statement (.vcvt t p) := .inl rfl
theorem Laws.EncodeSize.vqnt (t : BitVec 2) (p : Place) : Laws.EncodeSize.Statement (.vqnt t p) := .inl rfl
theorem Laws.EncodeSize.vdqn (t : BitVec 2) (p : Place) : Laws.EncodeSize.Statement (.vdqn t p) := .inl rfl
theorem Laws.EncodeSize.vand (t : BitVec 2) (p : Place) : Laws.EncodeSize.Statement (.vand t p) := .inl rfl
theorem Laws.EncodeSize.vor (t : BitVec 2) (p : Place) : Laws.EncodeSize.Statement (.vor t p) := .inl rfl
theorem Laws.EncodeSize.vxor (t : BitVec 2) (p : Place) : Laws.EncodeSize.Statement (.vxor t p) := .inl rfl
theorem Laws.EncodeSize.vshl (t : BitVec 2) (p : Place) : Laws.EncodeSize.Statement (.vshl t p) := .inl rfl
theorem Laws.EncodeSize.vshr (t : BitVec 2) (p : Place) : Laws.EncodeSize.Statement (.vshr t p) := .inl rfl
theorem Laws.EncodeSize.vsar (t : BitVec 2) (p : Place) : Laws.EncodeSize.Statement (.vsar t p) := .inl rfl
theorem Laws.EncodeSize.vcmp (t : BitVec 2) (p : Place) : Laws.EncodeSize.Statement (.vcmp t p) := .inl rfl
theorem Laws.EncodeSize.vsel (t : BitVec 2) (p : Place) : Laws.EncodeSize.Statement (.vsel t p) := .inl rfl
theorem Laws.EncodeSize.vclp (t : BitVec 2) (p : Place) : Laws.EncodeSize.Statement (.vclp t p) := .inl rfl
theorem Laws.EncodeSize.vlut (t : BitVec 2) (p : Place) : Laws.EncodeSize.Statement (.vlut t p) := .inl rfl
theorem Laws.EncodeSize.vred (t : BitVec 2) (p : Place) : Laws.EncodeSize.Statement (.vred t p) := .inl rfl
theorem Laws.EncodeSize.vscn (t : BitVec 2) (p : Place) : Laws.EncodeSize.Statement (.vscn t p) := .inl rfl
theorem Laws.EncodeSize.vrng (t : BitVec 2) (p : Place) : Laws.EncodeSize.Statement (.vrng t p) := .inl rfl
theorem Laws.EncodeSize.pass (t : BitVec 2) (p : Place) : Laws.EncodeSize.Statement (.pass t p) := .inl rfl
theorem Laws.EncodeSize.dup (t : BitVec 2) (p : Place) : Laws.EncodeSize.Statement (.dup t p) := .inl rfl
theorem Laws.EncodeSize.hold (t : BitVec 2) (p : Place) : Laws.EncodeSize.Statement (.hold t p) := .inl rfl
theorem Laws.EncodeSize.filt (t : BitVec 2) (p : Place) : Laws.EncodeSize.Statement (.filt t p) := .inl rfl
theorem Laws.EncodeSize.join (t : BitVec 2) (p : Place) : Laws.EncodeSize.Statement (.join t p) := .inl rfl
theorem Laws.EncodeSize.reci (t : BitVec 2) (p : Place) : Laws.EncodeSize.Statement (.reci t p) := .inl rfl
theorem Laws.EncodeSize.leav (t : BitVec 2) (p : Place) : Laws.EncodeSize.Statement (.leav t p) := .inl rfl
theorem Laws.EncodeSize.rate (t : BitVec 2) (p : Place) : Laws.EncodeSize.Statement (.rate t p) := .inl rfl
theorem Laws.EncodeSize.ctrn (t : BitVec 2) (p : Place) : Laws.EncodeSize.Statement (.ctrn t p) := .inl rfl
theorem Laws.EncodeSize.swin (t : BitVec 2) (p : Place) : Laws.EncodeSize.Statement (.swin t p) := .inl rfl
theorem Laws.EncodeSize.spad (t : BitVec 2) (p : Place) : Laws.EncodeSize.Statement (.spad t p) := .inl rfl
theorem Laws.EncodeSize.txq (t : BitVec 2) (p : Place) : Laws.EncodeSize.Statement (.txq t p) := .inl rfl
theorem Laws.EncodeSize.sink (t : BitVec 2) (p : Place) : Laws.EncodeSize.Statement (.sink t p) := .inl rfl
theorem Laws.EncodeSize.cnt (t : BitVec 2) (p : Place) : Laws.EncodeSize.Statement (.cnt t p) := .inl rfl
theorem Laws.EncodeSize.ddai (t : BitVec 2) (p : Place) : Laws.EncodeSize.Statement (.ddai t p) := .inl rfl
theorem Laws.EncodeSize.ddal (t : BitVec 2) (p : Place) : Laws.EncodeSize.Statement (.ddal t p) := .inl rfl
theorem Laws.EncodeSize.ddao (t : BitVec 2) (p : Place) : Laws.EncodeSize.Statement (.ddao t p) := .inl rfl
theorem Laws.EncodeSize.incs (t : BitVec 2) (p : Place) : Laws.EncodeSize.Statement (.incs t p) := .inl rfl
theorem Laws.EncodeSize.lrec (t : BitVec 2) (p : Place) : Laws.EncodeSize.Statement (.lrec t p) := .inl rfl
theorem Laws.EncodeSize.tsel (t : BitVec 2) (p : Place) : Laws.EncodeSize.Statement (.tsel t p) := .inl rfl
theorem Laws.EncodeSize.bind (die : BitVec 4) (rec : BitVec 128) : Laws.EncodeSize.Statement (.bind die rec) := .inl rfl
theorem Laws.EncodeSize.move (die : BitVec 4) (rec : BitVec 128) : Laws.EncodeSize.Statement (.move die rec) := .inl rfl
theorem Laws.EncodeSize.withdraw (die : BitVec 4) (rec : BitVec 128) : Laws.EncodeSize.Statement (.withdraw die rec) := .inl rfl
theorem Laws.EncodeSize.programLoadComplete (core : BitVec 10) :
    Laws.EncodeSize.Statement (.programLoadComplete core) := .inl rfl
theorem Laws.EncodeSize.teamStart (team : Nat) : Laws.EncodeSize.Statement (.teamStart team) := .inl rfl
theorem Laws.EncodeSize.contextSaveComplete (team : Nat) : Laws.EncodeSize.Statement (.contextSaveComplete team) := .inl rfl
theorem Laws.EncodeSize.teamRetire (team : Nat) : Laws.EncodeSize.Statement (.teamRetire team) := .inl rfl
theorem Laws.EncodeSize.bindWatchdogExpire (team : Nat) : Laws.EncodeSize.Statement (.bindWatchdogExpire team) := .inl rfl
theorem Laws.EncodeSize.launchDispatch (l : Nat) : Laws.EncodeSize.Statement (.launchDispatch l) := .inl rfl
theorem Laws.EncodeSize.dependencyMet (l : Nat) : Laws.EncodeSize.Statement (.dependencyMet l) := .inl rfl
theorem Laws.EncodeSize.launchComplete (l : Nat) : Laws.EncodeSize.Statement (.launchComplete l) := .inl rfl
theorem Laws.EncodeSize.swapTick (die : BitVec 4) (bush : BitVec 2) : Laws.EncodeSize.Statement (.swapTick die bush) := .inl rfl
theorem Laws.EncodeSize.swapExecute (team : Nat) : Laws.EncodeSize.Statement (.swapExecute team) := .inl rfl
theorem Laws.EncodeSize.glintRecord (src : BitVec 2) (loc op : BitVec 32) :
    Laws.EncodeSize.Statement (.glintRecord src loc op) := .inl rfl
theorem Laws.EncodeSize.periodicSealTimer : Laws.EncodeSize.Statement (.periodicSealTimer) := .inl rfl
theorem Laws.EncodeSize.prepare : Laws.EncodeSize.Statement (.prepare) := .inl rfl
theorem Laws.EncodeSize.ready (domain : BitVec 8) (ok : Bool) : Laws.EncodeSize.Statement (.ready domain ok) := .inl rfl
theorem Laws.EncodeSize.commit : Laws.EncodeSize.Statement (.commit) := .inl rfl
theorem Laws.EncodeSize.abort : Laws.EncodeSize.Statement (.abort) := .inl rfl
theorem Laws.EncodeSize.sealTimeout : Laws.EncodeSize.Statement (.sealTimeout) := .inl rfl
theorem Laws.EncodeSize.rollback : Laws.EncodeSize.Statement (.rollback) := .inl rfl
theorem Laws.EncodeSize.einjArm (vf : BitVec 6) (v : Word) : Laws.EncodeSize.Statement (.einjArm vf v) := .inl rfl
theorem Laws.EncodeSize.launchPacket (vf : BitVec 6) (q : BitVec 3) : Laws.EncodeSize.Statement (.launchPacket vf q) := .inl rfl
theorem Laws.EncodeSize.copyPacket (vf : BitVec 6) (q : BitVec 3) : Laws.EncodeSize.Statement (.copyPacket vf q) := .inl rfl
theorem Laws.EncodeSize.copyPacketDone (vf : BitVec 6) (q : BitVec 3) :
    Laws.EncodeSize.Statement (.copyPacketDone vf q) := .inl rfl
theorem Laws.EncodeSize.waitv (vf : BitVec 6) (q : BitVec 3) : Laws.EncodeSize.Statement (.waitv vf q) := .inl rfl
theorem Laws.EncodeSize.captureStart (vf : BitVec 6) (q : BitVec 3) : Laws.EncodeSize.Statement (.captureStart vf q) := .inl rfl
theorem Laws.EncodeSize.captureStop (vf : BitVec 6) (q : BitVec 3) : Laws.EncodeSize.Statement (.captureStop vf q) := .inl rfl
theorem Laws.EncodeSize.sealPacket (vf : BitVec 6) (q : BitVec 3) : Laws.EncodeSize.Statement (.sealPacket vf q) := .inl rfl
theorem Laws.EncodeSize.countPacket (vf : BitVec 6) (q : BitVec 3) : Laws.EncodeSize.Statement (.countPacket vf q) := .inl rfl
theorem Laws.EncodeSize.queueDoorbell (vf : BitVec 6) (q : BitVec 3) (v : Word) :
    Laws.EncodeSize.Statement (.queueDoorbell vf q v) := .inl rfl
theorem Laws.EncodeSize.queueCtlWrite (vf : BitVec 6) (q : BitVec 3) (v : Word) :
    Laws.EncodeSize.Statement (.queueCtlWrite vf q v) := .inl rfl
theorem Laws.EncodeSize.tlbInvalidateAll (vf : BitVec 6) : Laws.EncodeSize.Statement (.tlbInvalidateAll vf) := .inl rfl
theorem Laws.EncodeSize.tlbInvalidatePage (vf : BitVec 6) (v : Word) :
    Laws.EncodeSize.Statement (.tlbInvalidatePage vf v) := .inl rfl
theorem Laws.EncodeSize.tlbInvalidateDone (vf : BitVec 6) : Laws.EncodeSize.Statement (.tlbInvalidateDone vf) := .inl rfl
theorem Laws.EncodeSize.fqansRetry (vf : BitVec 6) (seq : BitVec 32) :
    Laws.EncodeSize.Statement (.fqansRetry vf seq) := .inl rfl
theorem Laws.EncodeSize.fqansFail (vf : BitVec 6) (seq : BitVec 32) : Laws.EncodeSize.Statement (.fqansFail vf seq) := .inl rfl
theorem Laws.EncodeSize.vfRback (vf : BitVec 6) : Laws.EncodeSize.Statement (.vfRback vf) := .inl rfl
theorem Laws.EncodeSize.registerWrite (vf : BitVec 6) (r : RegName) (v : Word) :
    Laws.EncodeSize.Statement (.registerWrite vf r v) := .inl rfl
theorem Laws.EncodeSize.snapshotTrigger (vf : BitVec 6) : Laws.EncodeSize.Statement (.snapshotTrigger vf) := .inl rfl
theorem Laws.EncodeSize.debugStopRequest (vf : BitVec 6) : Laws.EncodeSize.Statement (.debugStopRequest vf) := .inl rfl
theorem Laws.EncodeSize.debugResume (vf : BitVec 6) : Laws.EncodeSize.Statement (.debugResume vf) := .inl rfl
theorem Laws.EncodeSize.attestationReport (nonce : BitVec 256) :
    Laws.EncodeSize.Statement (.attestationReport nonce) := .inl rfl
theorem Laws.EncodeSize.partitionResize (vf : BitVec 6) (desc : PartDesc) :
    Laws.EncodeSize.Statement (.partitionResize vf desc) := .inl rfl
theorem Laws.EncodeSize.weightStoreRefresh : Laws.EncodeSize.Statement (.weightStoreRefresh) := .inl rfl
theorem Laws.EncodeSize.thermalClockStep (up : Bool) : Laws.EncodeSize.Statement (.thermalClockStep up) := .inl rfl
theorem Laws.EncodeSize.junctionTrip : Laws.EncodeSize.Statement (.junctionTrip) := .inl rfl
theorem Laws.EncodeSize.powerOn (fail : BitVec 8) (alt : Alternatives) : Laws.EncodeSize.Statement (.powerOn fail alt) := .inl rfl
theorem Laws.EncodeSize.unassignedWord (w : BitVec 32) (detail : BitVec 16) :
    Laws.EncodeSize.Statement (.unassignedWord w detail) := .inl rfl
theorem Laws.EncodeSize.cfswPlaneFilled (t : BitVec 2) : Laws.EncodeSize.Statement (.cfswPlaneFilled t) := .inl rfl
theorem Laws.EncodeSize.uncorrectableEccError (x : EccTarget) : Laws.EncodeSize.Statement (.uncorrectableEccError x) := .inl rfl
theorem Laws.EncodeSize.stencilTableInstall (vf : BitVec 6) (slot : BitVec 4) (tab : StencilTable) :
    Laws.EncodeSize.Statement (.stencilTableInstall vf slot tab) := .inl rfl
theorem Laws.EncodeSize.partitionCreate (vf : BitVec 6) (desc : PartDesc) :
    Laws.EncodeSize.Statement (.partitionCreate vf desc) := .inl rfl
theorem Laws.EncodeSize.partitionDestroy (vf : BitVec 6) : Laws.EncodeSize.Statement (.partitionDestroy vf) := .inl rfl
theorem Laws.EncodeSize.peerWriteArrival (addr : BitVec 52) (data : Word) (wide : Bool) :
    Laws.EncodeSize.Statement (.peerWriteArrival addr data wide) := .inl rfl

end Sys2Proof
end

