-- ==== Sys2Proof/Tests/Slice0.lean ====
section
/-! SUPPORT. Tests of the model: refused terms of WellFormed, words written out from the encoding tables, small steps, and a witness
for the hypotheses of every statement that has some. Expected values come from the spec's rules, tables and listings. -/

set_option Elab.async false

namespace Sys2Proof.Tests

open Sys2Proof Sys2Proof.Machine

/-! ## Well-formedness: an ill-formed term for each check -/

theorem test_wf_refuses_fields : ([
    .bfx 1 2 false 40 40, .bfi 1 2 false 40 40, .wfld 1 2 false 6, .wcmb 1 2 false 7, .cmp 1 7 2 3 false false, .cmpi 1 7 2 false 0,
    .loop 1 false 0, .ld 1 2 false 0 3 0, .st 1 2 false 0 3 0, .prf 1 false 3 0, .mfs 1 17, .mts 1 false 14, .mts 1 false 17,
    .hpop 0, .hpop 63] : List Instr).all (fun i => !i.wf) = true := by decide

theorem test_wf_refuses_atomics : ([
    .amo 1 2 3 false false 1 0, .amo 1 2 3 false false 2 9, .amoo 1 2 3 false false 0 0, .amoo 1 2 3 false false 3 9,
    .amof 1 2 3 false false 1 0, .amof 1 2 3 false false 2 15, .amop 1 2 3 false false 1 0, .amop 1 2 3 false false 2 9,
    .cas 1 2 3 false false 1] : List Instr).all (fun i => !i.wf) = true := by decide

theorem test_wf_refuses_engine_fields : ([
    .cpyG2g 61 1 0 false, .cpyG2g 1 1 4 false, .cpyG2s 1 1 5 false, .cpyS2g 1 1 8 false, .cpyS2s 1 1 15 false, .gtx 1 1 3 false,
    .gth 1 1 5 false, .pxst 1 1 8 false, .pxcp 1 1 10 false, .strmInG 1 1 13 false, .strmInS 1 1 15 false, .strmInW 61 1 14 false,
    .strmOutG 1 1 0 false, .strmOutS 62 1 14 false, .mldb 61 1 false, .mldbT 63 1 false, .mma 61 1 false 0, .mmat 62 1 false 0,
    .mdrn 61 1 false, .mclr 61 1 false, .mscl 61 1 false, .mzb 61 1 false] : List Instr).all (fun i => !i.wf) = true := by decide

/-! ## Words written out, field by field from bit 31, from the layouts of R84 and the function tables of R89 to R99 -/

/-- A word from its fields, the highest first: width and value. -/
def word (fields : List (Nat × Nat)) : BitVec 32 := BitVec.ofNat 32 (fields.foldl (fun n f => n * 2 ^ f.1 + f.2) 0)

/-- Each word decodes to its instruction, which is well-formed and encodes to the word. -/
def readsAll (l : List (Instr × List (Nat × Nat))) : Bool :=
  l.all fun x => decide (decodeWord (word x.2) none = .ok x.1) && decide (encode x.1 = [word x.2]) && x.1.wf

/-- The two LONG forms: rd in [25:20], [19:6] zero, fn in [5:0], the immediate in the second word (R84). -/
theorem test_decode_long_words :
    decodeBytes (leBytes 4 (word [(6, 0x12), (6, 11), (14, 0), (6, 0)]).toNat ++ leBytes 4 0xDEADBEEF) =
      .ok (.li 11 0xDEADBEEF, []) ∧
    decodeBytes (leBytes 4 (word [(6, 0x12), (6, 11), (14, 0), (6, 1)]).toNat ++ leBytes 4 0xDEADBEEF) =
      .ok (.lui 11 0xDEADBEEF, []) ∧
    decodeBytes (leBytes 4 (word [(6, 0x12), (6, 11), (14, 0), (6, 0)]).toNat) = .error 3 := by decide

theorem test_decode_register_words : readsAll [
    (.add 11 22 33 true false, [(6, 0b000001), (6, 0b001011), (6, 0b010110), (6, 0b100001), (1, 0b1), (1, 0), (6, 0)]),
    (.sub 11 22 33 true false, [(6, 0b000001), (6, 0b001011), (6, 0b010110), (6, 0b100001), (1, 0b1), (1, 0), (6, 0b000001)]),
    (.mul 11 22 33 true false, [(6, 0b000001), (6, 0b001011), (6, 0b010110), (6, 0b100001), (1, 0b1), (1, 0), (6, 0b000010)]),
    (.mulh 11 22 33 true false, [(6, 0b000001), (6, 0b001011), (6, 0b010110), (6, 0b100001), (1, 0b1), (1, 0), (6, 0b000011)]),
    (.mulhu 11 22 33 true false, [(6, 0b000001), (6, 0b001011), (6, 0b010110), (6, 0b100001), (1, 0b1), (1, 0), (6, 0b000100)]),
    (.div 11 22 33 true false, [(6, 0b000001), (6, 0b001011), (6, 0b010110), (6, 0b100001), (1, 0b1), (1, 0), (6, 0b000101)]),
    (.divu 11 22 33 true false, [(6, 0b000001), (6, 0b001011), (6, 0b010110), (6, 0b100001), (1, 0b1), (1, 0), (6, 0b000110)]),
    (.rem 11 22 33 true false, [(6, 0b000001), (6, 0b001011), (6, 0b010110), (6, 0b100001), (1, 0b1), (1, 0), (6, 0b000111)]),
    (.remu 11 22 33 true false, [(6, 0b000001), (6, 0b001011), (6, 0b010110), (6, 0b100001), (1, 0b1), (1, 0), (6, 0b001000)]),
    (.and 11 22 33 true false, [(6, 0b000001), (6, 0b001011), (6, 0b010110), (6, 0b100001), (1, 0b1), (1, 0), (6, 0b010000)]),
    (.or 11 22 33 true false, [(6, 0b000001), (6, 0b001011), (6, 0b010110), (6, 0b100001), (1, 0b1), (1, 0), (6, 0b010001)]),
    (.xor 11 22 33 true false, [(6, 0b000001), (6, 0b001011), (6, 0b010110), (6, 0b100001), (1, 0b1), (1, 0), (6, 0b010010)]),
    (.shl 11 22 33 true false, [(6, 0b000001), (6, 0b001011), (6, 0b010110), (6, 0b100001), (1, 0b1), (1, 0), (6, 0b011000)]),
    (.shr 11 22 33 true false, [(6, 0b000001), (6, 0b001011), (6, 0b010110), (6, 0b100001), (1, 0b1), (1, 0), (6, 0b011001)]),
    (.sar 11 22 33 true false, [(6, 0b000001), (6, 0b001011), (6, 0b010110), (6, 0b100001), (1, 0b1), (1, 0), (6, 0b011010)]),
    (.rol 11 22 33 true false, [(6, 0b000001), (6, 0b001011), (6, 0b010110), (6, 0b100001), (1, 0b1), (1, 0), (6, 0b011011)]),
    (.min 11 22 33 true false, [(6, 0b000001), (6, 0b001011), (6, 0b010110), (6, 0b100001), (1, 0b1), (1, 0), (6, 0b100000)]),
    (.max 11 22 33 true false, [(6, 0b000001), (6, 0b001011), (6, 0b010110), (6, 0b100001), (1, 0b1), (1, 0), (6, 0b100001)]),
    (.minu 11 22 33 true false, [(6, 0b000001), (6, 0b001011), (6, 0b010110), (6, 0b100001), (1, 0b1), (1, 0), (6, 0b100010)]),
    (.maxu 11 22 33 true false, [(6, 0b000001), (6, 0b001011), (6, 0b010110), (6, 0b100001), (1, 0b1), (1, 0), (6, 0b100011)]),
    (.clz 11 22 true, [(6, 0b000001), (6, 0b001011), (6, 0b010110), (6, 0), (1, 0b1), (7, 0b0101000)]),
    (.ctz 11 22 true, [(6, 0b000001), (6, 0b001011), (6, 0b010110), (6, 0), (1, 0b1), (7, 0b0101001)]),
    (.popc 11 22 true, [(6, 0b000001), (6, 0b001011), (6, 0b010110), (6, 0), (1, 0b1), (7, 0b0101010)]),
    (.mov 11 22 true, [(6, 0b000001), (6, 0b001011), (6, 0b010110), (6, 0), (1, 0b1), (7, 0b0110000)])] = true := by decide

theorem test_decode_immediate_words : readsAll [
    (.addi 11 22 true 4660, [(6, 0b000010), (6, 0b001011), (6, 0b010110), (1, 0b1), (13, 0b1001000110100)]),
    (.andi 11 22 true 4660, [(6, 0b000011), (6, 0b001011), (6, 0b010110), (1, 0b1), (13, 0b1001000110100)]),
    (.ori 11 22 true 4660, [(6, 0b000100), (6, 0b001011), (6, 0b010110), (1, 0b1), (13, 0b1001000110100)]),
    (.xori 11 22 true 4660, [(6, 0b000101), (6, 0b001011), (6, 0b010110), (1, 0b1), (13, 0b1001000110100)]),
    (.shli 11 22 true 5, [(6, 0b000110), (6, 0b001011), (6, 0b010110), (1, 0b1), (7, 0), (6, 0b000101)]),
    (.shri 11 22 true 5, [(6, 0b000111), (6, 0b001011), (6, 0b010110), (1, 0b1), (7, 0), (6, 0b000101)]),
    (.sari 11 22 true 5, [(6, 0b001000), (6, 0b001011), (6, 0b010110), (1, 0b1), (7, 0), (6, 0b000101)]),
    (.roli 11 22 true 5, [(6, 0b001001), (6, 0b001011), (6, 0b010110), (1, 0b1), (7, 0), (6, 0b000101)]),
    (.sext 11 22 true 31, [(6, 0b001010), (6, 0b001011), (6, 0b010110), (1, 0b1), (7, 0), (6, 0b011111)]),
    (.zext 11 22 true 31, [(6, 0b001011), (6, 0b001011), (6, 0b010110), (1, 0b1), (7, 0), (6, 0b011111)]),
    (.bfx 11 22 true 9 20, [(6, 0b001100), (6, 0b001011), (6, 0b010110), (1, 0b1), (1, 0), (6, 0b001001), (6, 0b010100)]),
    (.bfi 11 22 true 9 20, [(6, 0b001101), (6, 0b001011), (6, 0b010110), (1, 0b1), (1, 0), (6, 0b001001), (6, 0b010100)]),
    (.wfld 11 22 true 5, [(6, 0b001110), (6, 0b001011), (6, 0b010110), (1, 0b1), (10, 0), (3, 0b101)]),
    (.wcmb 11 22 true 5, [(6, 0b001111), (6, 0b001011), (6, 0b010110), (1, 0b1), (10, 0), (3, 0b101)]),
    (.sel 11 22 33 true false 3, [(6, 0b010000), (6, 0b001011), (6, 0b010110), (6, 0b100001), (1, 0b1), (1, 0), (3, 0), (3, 0b011)]),
    (.lea 11 22 33 true false 2, [(6, 0b010001), (6, 0b001011), (6, 0b010110), (6, 0b100001), (1, 0b1), (1, 0), (3, 0), (3, 0b010)])] = true := by decide

theorem test_decode_compare_words : readsAll [
    (.cmp 3 5 22 33 true false, [(6, 0b010011), (3, 0b011), (3, 0b101), (6, 0b010110), (6, 0b100001), (1, 0b1), (1, 0), (6, 0)]),
    (.cmpi 3 5 22 true 4660, [(6, 0b010100), (3, 0b011), (3, 0b101), (6, 0b010110), (1, 0b1), (13, 0b1001000110100)]),
    (.pand 3 6 1, [(6, 0b010101), (3, 0b011), (3, 0b110), (3, 0b001), (17, 0)]),
    (.por 3 6 1, [(6, 0b010101), (3, 0b011), (3, 0b110), (3, 0b001), (17, 0b00000000000000001)]),
    (.pxor 3 6 1, [(6, 0b010101), (3, 0b011), (3, 0b110), (3, 0b001), (17, 0b00000000000000010)]),
    (.pnot 3 6, [(6, 0b010101), (3, 0b011), (3, 0b110), (20, 0b00000000000000000011)]),
    (.fset 11 true, [(6, 0b010110), (6, 0b001011), (19, 0), (1, 0b1)]),
    (.fchk 3 22, [(6, 0b010111), (3, 0b011), (3, 0), (6, 0b010110), (14, 0)])] = true := by decide

theorem test_decode_flow_words : readsAll [
    (.br 3 true 11, [(6, 0b011000), (3, 0b011), (1, 0b1), (22, 0b0000000000000000001011)]),
    (.jmp 11, [(6, 0b011001), (4, 0), (22, 0b0000000000000000001011)]),
    (.jal 44 11, [(6, 0b011010), (6, 0b101100), (20, 0b00000000000000001011)]),
    (.jr 22 true, [(6, 0b011011), (6, 0), (6, 0b010110), (6, 0), (1, 0b1), (7, 0)]),
    (.ret, [(6, 0b011011), (26, 0b00000000000000000000000001)]),
    (.loop 22 true 341, [(6, 0b011100), (6, 0), (6, 0b010110), (1, 0b1), (13, 0b0000101010101)])] = true := by decide

theorem test_decode_memory_words : readsAll [
    (.ld 2 22 true 2 1 421, [(6, 0b100000), (6, 0b000010), (6, 0b010110), (1, 0b1), (2, 0b10), (2, 0b01), (9, 0b110100101)]),
    (.st 2 22 true 2 1 421, [(6, 0b100001), (6, 0b000010), (6, 0b010110), (1, 0b1), (2, 0b10), (2, 0b01), (9, 0b110100101)]),
    (.ldp 2 22 true 2 421, [(6, 0b100010), (6, 0b000010), (6, 0b010110), (1, 0b1), (2, 0b10), (2, 0), (9, 0b110100101)]),
    (.stp 2 22 true 2 421, [(6, 0b100011), (6, 0b000010), (6, 0b010110), (1, 0b1), (2, 0b10), (2, 0), (9, 0b110100101)]),
    (.ldw 2 22 true 2 421, [(6, 0b100100), (6, 0b000010), (6, 0b010110), (1, 0b1), (2, 0b10), (2, 0), (9, 0b110100101)]),
    (.prf 22 true 1 421, [(6, 0b100101), (6, 0), (6, 0b010110), (1, 0b1), (2, 0), (2, 0b01), (9, 0b110100101)]),
    (.amo 11 22 33 true false 2 8, [(6, 0b100110), (6, 0b001011), (6, 0b010110), (6, 0b100001), (1, 0b1), (1, 0), (2, 0b10), (4, 0b1000)]),
    (.amoo 11 22 33 true false 2 8, [(6, 0b100111), (6, 0b001011), (6, 0b010110), (6, 0b100001), (1, 0b1), (1, 0), (2, 0b10), (4, 0b1000)]),
    (.amof 11 22 33 true false 2 8, [(6, 0b101000), (6, 0b001011), (6, 0b010110), (6, 0b100001), (1, 0b1), (1, 0), (2, 0b10), (4, 0b1000)]),
    (.amop 11 22 33 true false 2 8, [(6, 0b101001), (6, 0b001011), (6, 0b010110), (6, 0b100001), (1, 0b1), (1, 0), (2, 0b10), (4, 0b1000)]),
    (.cas 11 22 33 true false 2, [(6, 0b101010), (6, 0b001011), (6, 0b010110), (6, 0b100001), (1, 0b1), (1, 0), (2, 0b10), (4, 0)]),
    (.disc 22 33 true false, [(6, 0b101011), (6, 0), (6, 0b010110), (6, 0b100001), (1, 0b1), (1, 0), (6, 0)])] = true := by decide

theorem test_decode_segment_words : readsAll [
    (.tset 22 true, [(6, 0b101100), (6, 0), (6, 0b010110), (6, 0), (1, 0b1), (7, 0)]),
    (.cmt, [(6, 0b101100), (26, 0b00000000000000000000000001)]),
    (.abrt, [(6, 0b101100), (26, 0b00000000000000000000000010)]),
    (.tsrd 11 22 true, [(6, 0b101100), (6, 0b001011), (6, 0b010110), (6, 0), (1, 0b1), (7, 0b0000011)]),
    (.seal 11, [(6, 0b101101), (6, 0b001011), (20, 0)]),
    (.sealw 22 true, [(6, 0b101101), (6, 0), (6, 0b010110), (6, 0), (1, 0b1), (7, 0b0000001)]),
    (.xwr 2 22 true 0 421, [(6, 0b101110), (6, 0b000010), (6, 0b010110), (1, 0b1), (1, 0b1), (1, 0), (2, 0), (9, 0b110100101)])] = true := by decide

theorem test_decode_sync_words : readsAll [
    (.barr, [(6, 0b101111), (26, 0)]),
    (.barrCarve 22 true, [(6, 0b101111), (6, 0), (6, 0b010110), (6, 0), (1, 0b1), (7, 0b0000001)]),
    (.syarm 22 33 true false, [(6, 0b101111), (6, 0), (6, 0b010110), (6, 0b100001), (1, 0b1), (1, 0), (6, 0b000010)]),
    (.sywait 22 33 true false, [(6, 0b101111), (6, 0), (6, 0b010110), (6, 0b100001), (1, 0b1), (1, 0), (6, 0b000011)]),
    (.sywaitImm 22 true 4097, [(6, 0b110000), (6, 0), (6, 0b010110), (1, 0b1), (13, 0b1000000000001)]),
    (.tlwait 5 22 true, [(6, 0b101111), (6, 0b000101), (6, 0b010110), (6, 0), (1, 0b1), (7, 0b0000100)]),
    (.mwait 22 33 true false, [(6, 0b101111), (6, 0), (6, 0b010110), (6, 0b100001), (1, 0b1), (1, 0), (6, 0b000101)])] = true := by decide

theorem test_decode_work_words : readsAll [
    (.hpush 22 33 true false, [(6, 0b110001), (6, 0), (6, 0b010110), (6, 0b100001), (1, 0b1), (1, 0), (6, 0)]),
    (.hpop 11, [(6, 0b110001), (6, 0b001011), (20, 0b00000000000000000001)]),
    (.lnch 11 22 true, [(6, 0b110001), (6, 0b001011), (6, 0b010110), (6, 0), (1, 0b1), (7, 0b0000010)]),
    (.lnchw 11 22 true, [(6, 0b110001), (6, 0b001011), (6, 0b010110), (6, 0), (1, 0b1), (7, 0b0000011)]),
    (.yield, [(6, 0b110001), (26, 0b00000000000000000000000100)]),
    (.halt, [(6, 0b110001), (26, 0b00000000000000000000000101)])] = true := by decide

theorem test_decode_engine_words : readsAll [
    (.cpyG2g 22 11 2 true, [(6, 0b110010), (6, 0), (6, 0b010110), (6, 0b001011), (4, 0b0010), (1, 0b1), (3, 0)]),
    (.cpyG2s 22 11 2 true, [(6, 0b110010), (6, 0b000001), (6, 0b010110), (6, 0b001011), (4, 0b0010), (1, 0b1), (3, 0)]),
    (.cpyS2g 22 11 2 true, [(6, 0b110010), (6, 0b000010), (6, 0b010110), (6, 0b001011), (4, 0b0010), (1, 0b1), (3, 0)]),
    (.cpyS2s 22 11 2 true, [(6, 0b110010), (6, 0b000011), (6, 0b010110), (6, 0b001011), (4, 0b0010), (1, 0b1), (3, 0)]),
    (.gtx 22 11 5 true, [(6, 0b110010), (6, 0b000100), (6, 0b010110), (6, 0b001011), (4, 0b0101), (1, 0b1), (3, 0)]),
    (.gth 22 11 7 true, [(6, 0b110010), (6, 0b000101), (6, 0b010110), (6, 0b001011), (4, 0b0111), (1, 0b1), (3, 0)]),
    (.pxst 22 11 9 true, [(6, 0b110010), (6, 0b000110), (6, 0b010110), (6, 0b001011), (4, 0b1001), (1, 0b1), (3, 0)]),
    (.pxcp 22 11 9 true, [(6, 0b110010), (6, 0b000111), (6, 0b010110), (6, 0b001011), (4, 0b1001), (1, 0b1), (3, 0)]),
    (.strmInG 22 11 14 true, [(6, 0b110010), (6, 0b001000), (6, 0b010110), (6, 0b001011), (4, 0b1110), (1, 0b1), (3, 0)]),
    (.strmInS 22 11 14 true, [(6, 0b110010), (6, 0b001001), (6, 0b010110), (6, 0b001011), (4, 0b1110), (1, 0b1), (3, 0)]),
    (.strmInW 22 11 14 true, [(6, 0b110010), (6, 0b001010), (6, 0b010110), (6, 0b001011), (4, 0b1110), (1, 0b1), (3, 0)]),
    (.strmOutG 22 11 14 true, [(6, 0b110010), (6, 0b001011), (6, 0b010110), (6, 0b001011), (4, 0b1110), (1, 0b1), (3, 0)]),
    (.strmOutS 22 11 14 true, [(6, 0b110010), (6, 0b001100), (6, 0b010110), (6, 0b001011), (4, 0b1110), (1, 0b1), (3, 0)])] = true := by decide

theorem test_decode_fabric_words : readsAll [
    (.cfsw 22 true 1 2, [(6, 0b110011), (6, 0), (6, 0b010110), (2, 0), (2, 0b01), (2, 0b10), (1, 0b1), (7, 0)]),
    (.thst 11 2, [(6, 0b110011), (6, 0b001011), (10, 0), (2, 0b10), (8, 0b00000001)]),
    (.thwt 2, [(6, 0b110011), (16, 0), (2, 0b10), (8, 0b00000010)]),
    (.acz 5, [(6, 0b110011), (14, 0), (4, 0b0101), (8, 0b00000011)]),
    (.acrd 11 5, [(6, 0b110011), (6, 0b001011), (8, 0), (4, 0b0101), (8, 0b00000100)]),
    (.mrk 2, [(6, 0b110011), (16, 0), (2, 0b10), (8, 0b00000101)]),
    (.gsq 11 22 true, [(6, 0b110011), (6, 0b001011), (6, 0b010110), (6, 0), (1, 0b1), (7, 0b0000110)]),
    (.stk 11 5, [(6, 0b110011), (6, 0b001011), (8, 0), (4, 0b0101), (8, 0b00000111)]),
    (.cfg 11 22 true 2, [(6, 0b110100), (6, 0b001011), (6, 0b010110), (1, 0b1), (11, 0), (2, 0b10)]),
    (.cfgKill 11 22 true 2, [(6, 0b110100), (6, 0b001011), (6, 0b010110), (1, 0b1), (11, 0b00000000001), (2, 0b10)])] = true := by decide

theorem test_decode_matrix_words : readsAll [
    (.mldb 22 11 true, [(6, 0b110101), (6, 0), (6, 0b010110), (6, 0b001011), (4, 0b1000), (1, 0b1), (3, 0)]),
    (.mldbT 22 11 true, [(6, 0b110101), (6, 0b000001), (6, 0b010110), (6, 0b001011), (4, 0b1000), (1, 0b1), (3, 0)]),
    (.mma 22 11 true 2, [(6, 0b110101), (6, 0b000010), (6, 0b010110), (6, 0b001011), (4, 0b1000), (1, 0b1), (1, 0), (2, 0b10)]),
    (.mmat 22 11 true 2, [(6, 0b110101), (6, 0b000011), (6, 0b010110), (6, 0b001011), (4, 0b1000), (1, 0b1), (1, 0), (2, 0b10)]),
    (.mdrn 22 11 true, [(6, 0b110101), (6, 0b000100), (6, 0b010110), (6, 0b001011), (4, 0b1000), (1, 0b1), (3, 0)]),
    (.mclr 22 11 true, [(6, 0b110101), (6, 0b000101), (6, 0b010110), (6, 0b001011), (4, 0b1000), (1, 0b1), (3, 0)]),
    (.mscl 22 11 true, [(6, 0b110101), (6, 0b000110), (6, 0b010110), (6, 0b001011), (4, 0b1000), (1, 0b1), (3, 0)]),
    (.mzb 22 11 true, [(6, 0b110101), (6, 0b000111), (6, 0b010110), (6, 0b001011), (4, 0b1000), (1, 0b1), (3, 0)]),
    (.mchk 11, [(6, 0b110110), (6, 0b001011), (20, 0)]),
    (.msig 11, [(6, 0b110110), (6, 0b001011), (20, 0b00000000000000000001)])] = true := by decide

theorem test_decode_system_words : readsAll [
    (.nop, [(6, 0b111110), (26, 0)]),
    (.trap 5, [(6, 0b111110), (14, 0), (6, 0b000101), (6, 0b000001)]),
    (.eret, [(6, 0b111110), (26, 0b00000000000000000000000010)]),
    (.mfs 11 16, [(6, 0b111110), (6, 0b001011), (8, 0), (6, 0b010000), (6, 0b000011)]),
    (.mts 22 true 15, [(6, 0b111110), (6, 0), (6, 0b010110), (1, 0b1), (1, 0), (6, 0b001111), (6, 0b000100)]),
    (.brk 5, [(6, 0b111110), (14, 0), (6, 0b000101), (6, 0b000101)]),
    (.glnt 22 true, [(6, 0b111110), (6, 0), (6, 0b010110), (1, 0b1), (13, 0b0000000000110)]),
    (.dgst 11 22 true, [(6, 0b111110), (6, 0b001011), (6, 0b010110), (1, 0b1), (13, 0b0000000000111)]),
    (.fenceCore, [(6, 0b111110), (26, 0b00000000000000000000001000)]),
    (.fenceTeam, [(6, 0b111110), (26, 0b00000000000000000001001000)]),
    (.fenceDevice, [(6, 0b111110), (26, 0b00000000000000000010001000)]),
    (.fenceSystem, [(6, 0b111110), (26, 0b00000000000000000011001000)])] = true := by decide
/-! ## A small world: one partition, one launch, one team -/

/-- The resources of the test partition. -/
def desc : PartDesc :=
  { sprigs := [0], wbanks := [1], hbmGroups := [0], share := 1, ports := [], sharedGroup := none, listSize := 4, logSize := some 4096,
    overflowBytes := 4096, heapSpill := 4096, detBytes := 4096, glintSize := 4096, kernels := [] }

/-- A leaf of 64 KiB: valid, leaf, writable, tracked, page frame 1. -/
def page : TlbEntry := { page := 1, size := 16, leaf := 0x1000F#64 }

def part : Part := { Part.start desc 1 with tlb := [(0, page)], regs := { (Part.start desc 1).regs with ptroot := 0x100000 } }

def launch : Launch := placeLaunch

/-- A running team of the launch with these members and its first segment open. -/
def teamOf (tks : List Task) : Team :=
  let tm := { placeTeam 0 [] with members := tks, carve := { prog := 1, spad := 4, replay := 1, dcache := 0 } }
  { tm with openSeg := some (tm.newSeg 0) }

/-- The module with one team, the focus on its member 0. -/
def world (tm : Team) : State :=
  { State.reset with power := .on, focus := some (0, 0), rin := 1, parts := [(0, part)], launches := [(0, launch)], teams := [(0, tm)],
                     nextLaunch := 1, nextTeam := 1 }

/-- Member 0 of a team, as the task in focus. -/
def curOf (tm : Team) (tk : Task) : Cur := { tid := 0, mem := 0, team := tm, task := tk }

/-- A task on core 0 with a vector table at offset 64 and g1 = 0x10000, g2 = 8, g3 = 5. -/
def tk0 : Task :=
  Task.start 0 .running { (((Regs.start 0 7 []).write 1 0x10000 false).write 2 8 false).write 3 5 false with tvec := 64 } 0 [] []

/-- The same task with other registers. -/
def withRegs (f : Regs → Regs) : Task := { tk0 with regs := f tk0.regs }

def alone (tk : Task) : Team := teamOf [tk]

theorem issues (tk : Task) : (world (alone tk)).Issues (curOf (alone tk) tk) := ⟨rfl, rfl, rfl⟩

theorem full_of {r : Regs} {n : Reg} (h : r.condOf n = .full) : r.Full n := h
theorem free_of {r : Regs} {n : Reg} (h : r.condOf n ≠ .pending) : r.Free n := h

/-- Whether an outcome is a next state of which a check holds. -/
def nextIs (o : Out) (f : State → Bool) : Bool :=
  match o with
  | .next t => f t
  | _ => false

theorem next_of {o : Out} (h : nextIs o (fun _ => true) = true) : ∃ t, o = .next t :=
  match o, h with
  | .next t, _ => ⟨t, rfl⟩

/-- A check of member 0's task in a next state. -/
def taskIs (o : Out) (f : Task → Bool) : Bool := nextIs o fun t => t.cur.any fun c => f c.task

/-- A run of an instruction at the test task: a check of what it leaves of the task. -/
def runs (i : Instr) (tk : Task) (f : Task → Bool) : Bool := taskIs (exec i (world (alone tk))) f

/-- A run that leaves a value in a register. -/
def leaves (i : Instr) (tk : Task) (d : Reg) (v : Word) : Bool := runs i tk fun t => t.regs.val d == v

/-! ## Witnesses: the core's registers and control -/

theorem wit_EncodeThenDecode : ∀ i ∈ ([.add 1 2 3 true false, .li 1 5, .hpop 62, .cpyG2g 60 0 3 true, .mts 1 false 16] : List Instr),
    i.wf = true ∧ encode i ≠ [] := by decide

theorem wit_DecodeThenEncode : decodeWord 0x04311080#32 none = .ok (.add 3 4 16 true false) ∧
    decodeWord 0x48900000#32 (some 64) = .ok (.li 9 64) := by decide

theorem wit_RefusedWordTrapsIll :
    (∃ (s : State) (c : Cur), s.Issues c ∧ c.task.regs.handler = false ∧ c.task.regs.tvec ≠ 0 ∧
      c.task.regs.poisonSr.getLsbD 16 = false) ∧
    (∃ (s : State) (c : Cur), s.cur = some c ∧ c.canIssue s = true ∧ c.task.trapDue = false ∧ c.fetch = some (0, .error 0) ∧
      c.task.progBad c.task.regs.pc 4 = false) ∧
    (0xFC000000#32).toNat / 2 ^ 26 = 0x3F ∧ (0x74000000#32).toNat / 2 ^ 26 = 0x1D :=
  ⟨⟨_, _, issues tk0, by decide, by decide, by decide⟩, ⟨_, _, (issues tk0).1, by decide, by decide, by decide, by decide⟩, by decide, by decide⟩

/-- A task whose program starts with ADD g4, g1, g2. -/
def tkAdd : Task := { tk0 with prog := memWriteBytes [] 0 (leBytes 4 0x04404200) }

theorem cur_refocused (tk : Task) :
    State.cur { world (alone tk) with agenda := [], focus := some (0, 0) } = some (curOf (alone tk) tk) := rfl

theorem wit_StepRunsTheDecodedInstruction :
    ∃ (s : State) (c : Cur), s.agenda = [.issue 0 0] ∧ s.power ≠ .tripped ∧ s.consumed = none ∧
      let s1 : State := { s with agenda := [], focus := some (0, 0) }
      s1.cur = some c ∧ c.canIssue s1 = true ∧ c.task.trapDue = false ∧
      decodeBytes (memReadBytes c.task.prog c.task.regs.pc (min 8 (c.regionSize - c.task.regs.pc))) =
        .ok (.add 4 1 2 false false, [0, 0, 0, 0]) ∧ c.task.progBad c.task.regs.pc (4 * (encode (.add 4 1 2 false false)).length) = false :=
  ⟨{ world (alone tkAdd) with agenda := [.issue 0 0] }, curOf (alone tkAdd) tkAdd, rfl, by decide, by rfl, cur_refocused tkAdd,
    by decide, by decide, by decide, by decide⟩

theorem wit_StepKeepsMemoryCanonical : ∃ s t : State, s.memOk = true ∧ step s = .next t :=
  have ⟨t, h⟩ := next_of (o := step { world (alone tkAdd) with agenda := [.issue 0 0] }) (by decide)
  ⟨_, t, by decide, h⟩

theorem wit_HardwiredRegisters : ∃ d n : Reg, d ≠ 0 ∧ n ≠ d := ⟨63, 1, by decide, by decide⟩

theorem wit_HardwiredPredicate : ∃ (s : State) (c : Cur), s.Issues c ∧ c.task.regs.Full 1 ∧ c.task.regs.Full 0 ∧ (7 : Pred) ≠ 0 :=
  ⟨_, _, issues tk0, full_of (by decide), full_of (by decide), by decide⟩

theorem wit_ArithmeticAndLogicResults : ∃ (s : State) (c : Cur), s.Issues c ∧ c.task.regs.Free 4 ∧ c.task.regs.Full 1 ∧
    c.task.regs.Full 2 :=
  ⟨_, _, issues tk0, free_of (by decide), full_of (by decide), full_of (by decide)⟩

/-- The corners of division: b = 0, and -2^63 by -1. -/
def tkDiv : Task := withRegs fun r => (r.write 4 0x8000000000000000 false).write 5 0xFFFFFFFFFFFFFFFF false

theorem wit_DivisionResults : ∃ (s : State) (c : Cur), s.Issues c ∧ c.task.regs.Free 6 ∧ c.task.regs.Full 4 ∧ c.task.regs.Full 5 ∧
    c.task.regs.Full 0 ∧ c.task.regs.val 0 = 0 ∧ (c.task.regs.val 5).toInt = -1 ∧ (c.task.regs.val 4).toInt = -2 ^ 63 ∧
    (c.task.regs.val 3 ≠ 0 ∧ ¬((c.task.regs.val 3).toInt = -1 ∧ (c.task.regs.val 4).toInt = -2 ^ 63)) :=
  ⟨_, _, issues tkDiv, free_of (by decide), full_of (by decide), full_of (by decide), full_of (by decide), by decide, by decide,
    by decide, by decide⟩

theorem wit_BitCountResults : ∃ (s : State) (c : Cur), s.Issues c ∧ c.task.regs.Free 6 ∧ c.task.regs.Full 0 :=
  ⟨_, _, issues tk0, free_of (by decide), full_of (by decide)⟩

theorem wit_ImmediateAndFieldResults : ∃ (s : State) (c : Cur), s.Issues c ∧ c.task.regs.Free 4 ∧ c.task.regs.Full 1 ∧
    c.task.regs.Full 4 ∧ c.task.regs.Full 63 ∧ c.task.regs.badPred 7 = false :=
  ⟨_, _, issues tk0, free_of (by decide), full_of (by decide), full_of (by decide), full_of (by decide), by decide⟩

/-- A task with g4 pending a fill and g5 void. -/
def tkEmpty : Task := withRegs fun r => (r.mark 4 .pending).mark 5 .void

theorem wit_CompareAndPredicateResults : ∃ (s : State) (c : Cur), s.Issues c ∧ c.task.regs.Full 1 ∧ c.task.regs.Full 2 ∧
    (6 : BitVec 3) ≠ 7 ∧ c.task.regs.condOf 4 = .pending ∧ c.task.regs.Free 5 ∧ c.task.regs.Free 0 :=
  ⟨_, _, issues tkEmpty, full_of (by decide), full_of (by decide), by decide, by decide, free_of (by decide), free_of (by decide)⟩

theorem wit_EmptyReadTraps : ∃ (s : State) (c : Cur), s.Issues c ∧ c.task.regs.condOf 4 = .pending ∧ c.task.regs.Free 6 ∧
    c.task.regs.handler = false ∧ c.task.regs.tvec ≠ 0 ∧ c.task.regs.poisonSr.getLsbD 16 = false ∧ c.task.regs.condOf 5 = .void ∧
    c.task.regs.Full 1 :=
  ⟨_, _, issues tkEmpty, by decide, free_of (by decide), by decide, by decide, by decide, by decide, full_of (by decide)⟩

theorem wit_RegisterInstructionFrame : ∃ (s t : State) (c : Cur), Instr.regDest (.add 4 1 2 false false) = some 4 ∧ s.cur = some c ∧
    exec (.add 4 1 2 false false) s = .next t ∧ t.cur.isSome = true :=
  ⟨_, _, _, rfl, (issues tk0).1, rfl, by decide⟩

/-- A task at the first and one with a branch near the last word of its region of 64 KiB. -/
def tkEnd : Task := withRegs fun r => { (r.write 57 0xFFFC false).write 4 0xFFFC false with pc := 0xFFF8 }

theorem wit_TransfersOfControl : ∃ (s : State) (c : Cur), s.Issues c ∧ 0xFFFC < c.team.carve.prog * 65536 ∧
    c.task.regs.badPred 0 = false ∧ (c.task.regs.pred 0 ^^ true) = false ∧ (c.task.regs.pred 0 ^^ false) = true ∧
    ((0xFFFC : Nat) : Int) = c.task.regs.pc + 4 * (1 : BitVec 22).toInt ∧ c.task.regs.Free 0 ∧
    ((0xFFFC : Nat) : Int) = c.task.regs.pc + 4 * (1 : BitVec 20).toInt ∧ c.task.regs.Full 4 ∧ c.task.regs.bad 4 = false ∧
    (c.task.regs.val 4).toNat = 0xFFFC ∧ 0xFFFC % 4 = 0 ∧ c.task.regs.Full 57 ∧ c.task.regs.bad 57 = false ∧
    (c.task.regs.val 57).toNat = 0xFFFC :=
  ⟨_, _, issues tkEnd, by decide, by decide, by decide, by decide, by decide, free_of (by decide), by decide, full_of (by decide),
    by decide, by decide, by decide, full_of (by decide), by decide, by decide⟩

/-- JR to 0xFFFE (misaligned), and a branch and RET to 0x10000, the first offset outside. -/
def tkOut : Task := withRegs fun r => { (r.write 57 0x10000 false).write 4 0xFFFE false with pc := 0xFFFC }

theorem wit_TransferTargetsAreChecked : ∃ (s : State) (c : Cur), s.Issues c ∧ c.task.regs.handler = false ∧ c.task.regs.tvec ≠ 0 ∧
    c.task.regs.poisonSr.getLsbD 16 = false ∧ c.task.regs.badPred 0 = false ∧ c.task.regs.bad 4 = false ∧
    c.task.regs.bad 57 = false ∧ c.task.regs.Full 4 ∧ c.task.regs.Full 57 ∧ c.task.regs.Free 6 ∧
    ((c.task.regs.val 4).toNat : Int) % 4 ≠ 0 ∧ ((c.task.regs.val 57).toNat : Int) % 4 = 0 ∧
    (c.team.carve.prog * 65536 : Nat) ≤ ((c.task.regs.val 57).toNat : Int) ∧
    (c.team.carve.prog * 65536 : Nat) ≤ (c.task.regs.pc + 4 * (1 : BitVec 22).toInt : Int) ∧
    (c.task.regs.pc + 4 * (-0x8000 : BitVec 20).toInt : Int) < 0 :=
  ⟨_, _, issues tkOut, by decide, by decide, by decide, by decide, by decide, by decide, full_of (by decide), full_of (by decide),
    free_of (by decide), by decide, by decide, by decide, by decide, by decide⟩

def loop (n : Nat) : LoopEntry := { start := 4 * n, stop := 40 - 4 * n, left := n + 1 }

/-- A task with n loops and the handler flag. -/
def tkLoop (n : Nat) (h : Bool) : Task := withRegs fun r => { r with loops := (List.range n).map loop, handler := h }

theorem wit_LoopInstruction :
    (∃ (s : State) (c : Cur), s.Issues c ∧ c.task.regs.Full 0 ∧ c.task.regs.bad 0 = false ∧ c.task.regs.handler = false ∧
      (c.task.regs.val 0).toNat % 2 ^ 32 = 0) ∧
    (∃ (s : State) (c : Cur), s.Issues c ∧ c.task.regs.Full 3 ∧ c.task.regs.bad 3 = false ∧ c.task.regs.handler = false ∧
      0 < (c.task.regs.val 3).toNat % 2 ^ 32 ∧ c.task.regs.loops.length < 4) ∧
    (∃ (s : State) (c : Cur), s.Issues c ∧ c.task.regs.Full 3 ∧ c.task.regs.bad 3 = false ∧ c.task.regs.handler = false ∧
      0 < (c.task.regs.val 3).toNat % 2 ^ 32 ∧ 4 ≤ c.task.regs.loops.length) ∧
    ∃ (s : State) (c : Cur), s.Issues c ∧ c.task.regs.Full 3 ∧ c.task.regs.bad 3 = false ∧ c.task.regs.handler = true :=
  ⟨⟨_, _, issues tk0, full_of (by decide), by decide, by decide, by decide⟩,
   ⟨_, _, issues (tkLoop 3 false), full_of (by decide), by decide, by decide, by decide, by decide⟩,
   ⟨_, _, issues (tkLoop 4 false), full_of (by decide), by decide, by decide, by decide, by decide⟩,
   ⟨_, _, issues (tkLoop 0 true), full_of (by decide), by decide, by decide⟩⟩

theorem wit_LoopStackRules : ∃ (r : Regs) (pc : Nat) (done rest : List LoopEntry) (x y : LoopEntry),
    (∀ z ∈ done, z.stop = pc ∧ z.left ≤ 1) ∧ done ≠ [] ∧ r.handler = false ∧ r.loops = done ++ x :: rest ∧ x.stop = pc ∧ 1 < x.left ∧
      y.stop ≠ pc ∧ (∀ z ∈ [y], ¬(z.start ≤ pc ∧ pc < z.stop)) ∧ x.start ≤ 8 ∧ 8 < x.stop :=
  ⟨{ tk0.regs with loops := [⟨8, 20, 1⟩, ⟨4, 20, 2⟩] }, 20, [⟨8, 20, 1⟩], [], ⟨4, 20, 2⟩, ⟨8, 16, 1⟩, by decide, by decide, rfl, rfl, rfl,
    by decide, by decide, by decide, by decide, by decide⟩

theorem wit_TrapEntryAndReturn :
    (∃ (s : State) (c : Cur), s.Issues c ∧ c.task.regs.handler = false ∧ c.task.regs.tvec ≠ 0 ∧
      c.task.regs.poisonSr.getLsbD 16 = false ∧ ∀ p, s.part c.team.vf = some p → p.dbg.armed = false ∧ p.dbg.snapBrk = false) ∧
    (∃ (s : State) (c : Cur), s.Issues c ∧ c.task.regs.tvec = 0 ∧ c.task.regs.poisonSr.getLsbD 16 = false) ∧
    ∃ (s : State) (c : Cur), s.Issues c ∧ c.task.regs.handler = true ∧ c.task.regs.poisonSr.getLsbD 15 = false ∧
      ∀ t : BitVec 2, (c.task.th t).planeAwaited = false :=
  ⟨⟨_, _, issues tk0, by decide, by decide, by decide, fun _ h => by cases h; decide⟩,
   ⟨_, _, issues (withRegs fun r => { r with tvec := 0 }), by decide, by decide⟩,
   ⟨_, _, issues (tkLoop 0 true), by decide, by decide, by decide⟩⟩

theorem wit_SystemInstructionResults : ∃ (s : State) (c : Cur), s.Issues c ∧ c.task.regs.Free 4 ∧ (16 : BitVec 6).toNat ≤ 16 ∧
    16 < (17 : BitVec 6).toNat ∧ (14 : BitVec 6).toNat ≤ 14 ∧ c.task.regs.Full 1 ∧ c.task.regs.Full 2 ∧
    c.task.exchangePending = false :=
  ⟨_, _, issues tk0, free_of (by decide), by decide, by decide, by decide, full_of (by decide), full_of (by decide), by decide⟩

/-- FENCE waits: an exchange of the core is under way, or an XWR of it is held. -/
theorem wit_SystemInstructionResults_fence :
    (∃ (s : State) (c : Cur), s.Issues c ∧ c.task.exchangePending = true) ∧
    ∃ (s : State) (c : Cur), s.Issues c ∧ c.task.exchangePending = false ∧ c.held s = true :=
  ⟨⟨_, _, issues { tk0 with tl := tk0.tl.set 9 { Timeline.start with issued := 1, cmds := [Cmd.new .pxst 0 0 0 0 0 0 [] none] } }, by decide⟩,
   { world (alone tk0) with parts := [(0, { part with egress := [⟨none, 0x10000, true, 5, 1, 0⟩] })] }, curOf (alone tk0) tk0, ⟨rfl, rfl, rfl⟩, by decide, by decide⟩

/-- A task with two causes pending. -/
def tkCause : Task := { tk0 with causes := [⟨13, 2, 0, 5⟩, ⟨7, 0x41, 0x20, 1⟩] }

theorem wit_AsynchronousTrapTakesLowestCause :
    (∃ (s : State) (c : Cur), s.Issues c ∧ c.task.regs.handler = false ∧ c.task.slot = .running ∧ c.live s = true ∧
      c.task.causes ≠ [] ∧ c.task.regs.tvec ≠ 0 ∧ c.task.regs.poisonSr.getLsbD 16 = false ∧
      ∀ p, s.part c.team.vf = some p → p.dbg.snapRegion = false) ∧
    (∃ (s : State) (c : Cur), s.Issues c ∧ c.task.slot = .running ∧ c.task.causes = []) ∧
    ∃ (s : State) (c : Cur), s.Issues c ∧ c.task.regs.handler = true :=
  ⟨⟨_, _, issues tkCause, by decide, by decide, by decide, by decide, by decide, by decide, fun _ h => by cases h; decide⟩,
   ⟨_, _, issues tk0, by decide, by decide⟩, ⟨_, _, issues (tkLoop 0 true), by decide⟩⟩

def tkFill : Task := { tkEmpty with fills := [{ rd := 5, src := .append }, { rd := 4, src := .value 9 true }] }

/-- A task whose HPOP of g4 has its payload and key on the way. -/
def tkPair : Task := { tkEmpty with fills := [{ rd := 5, src := .append }, { rd := 4, src := .pair 30 3 }] }

theorem wit_PendingFillArrives_pair : ∃ (s : State) (c : Cur), s.Issues c ∧ (∀ f ∈ [({ rd := 5, src := .append } : Fill)], f.rd ≠ 4) ∧
    c.task.fills = [{ rd := 5, src := .append }] ++ { rd := 4, src := .pair 30 3 } :: [] ∧ (4 : Reg) ≠ 0 ∧ (4 : Reg) + 1 ≠ 0 :=
  ⟨_, _, issues tkPair, by decide, rfl, by decide, by decide⟩

theorem wit_PendingFillArrives : ∃ (s : State) (c : Cur), s.Issues c ∧ (∀ f ∈ c.task.fills, f.rd ≠ 6) ∧ (4 : Reg) ≠ 0 ∧
    (∀ f ∈ [({ rd := 5, src := .append } : Fill)], f.rd ≠ 4) ∧
    c.task.fills = [{ rd := 5, src := .append }] ++ { rd := 4, src := .value 9 true } :: [] :=
  ⟨_, _, issues tkFill, by decide, by decide, by decide, rfl⟩

/-! ## Witnesses: memory, scratchpad, segments, barriers, launches, heaps -/

/-- A team whose open segment holds bytes of the line at 0x10000: member 0's own at 0x10000, published at 0x10001. A command wrote
0x10005, which its core has not seen. -/
def versions : Team :=
  let tm := alone tk0
  { tm with openSeg := some { tm.newSeg 1 with own := [[(0x10000, 5), (0x10005, 9)]], seen := [[(0x10000, 5)]], pub := [(0x10001, 6)],
                                               fin := [(0x10000, 5), (0x10001, 6), (0x10005, 9)] },
            segs := [{ tm.newSeg 0 with own := [[(0x10002, 7)]], seen := [[(0x10002, 7)]], fin := [(0x10002, 7), (0x10003, 8)] }] }

/-- A team whose only segment is the open one, with versions of the line at 0x10000. -/
def oneVersion : Team := { versions with segs := [] }

/-- The bytes of the eight-byte word at 0x10000, each 5. -/
def eight : List (Nat × Byte) := [(0x10000, 5), (0x10001, 5), (0x10002, 5), (0x10003, 5), (0x10004, 5), (0x10005, 5), (0x10006, 5), (0x10007, 5)]

/-- A team whose open segment wrote the whole word at 0x10000, so that a read of it needs no mark. -/
def wholeWord : Team :=
  let tm := alone tk0
  { tm with openSeg := some { tm.newSeg 1 with own := [eight], seen := [eight], fin := eight } }

theorem issues_wholeWord : (world wholeWord).Issues (curOf wholeWord tk0) := ⟨rfl, rfl, rfl⟩

theorem issues_versions : (world versions).Issues (curOf versions tk0) := ⟨rfl, rfl, rfl⟩

theorem wit_LoadViewOrder : ∃ g h : Seg, versions.openSeg = some g ∧
    (mapGet 0x10000 (g.own.getD 0 []) = some 5 ∧ mapGet 0x10000 (g.seen.getD 0 []) = some 5) ∧
    (mapGet 0x10005 (g.own.getD 0 []) = some 9 ∧ mapGet 0x10005 (g.seen.getD 0 []) = none) ∧
    (mapGet 0x10001 (g.own.getD 0 []) = none ∧ mapGet 0x10001 (g.seen.getD 0 []) = none ∧ mapGet 0x10001 g.pub = some 6 ∧
      g.hiddenOut 0 0x10001 = false) ∧
    (mapGet 0x10002 (g.own.getD 0 []) = none ∧ mapGet 0x10002 g.pub = none ∧ versions.segs = [] ++ h :: [] ∧
      mapGet 0x10002 (h.own.getD 0 []) = some 7) ∧
    (mapGet 0x10003 (h.own.getD 0 []) = none ∧ mapGet 0x10003 h.fin = some 8 ∧ h.hidden 0 0x10003 = false) ∧
    ∀ x ∈ versions.segs, mapGet 0x10004 (x.own.getD 0 []) = none ∧ mapGet 0x10004 x.fin = none :=
  ⟨_, _, rfl, ⟨by decide, by decide⟩, ⟨by decide, by decide⟩, by and_intros <;> decide, ⟨by decide, by decide, rfl, by decide⟩,
    by and_intros <;> decide, by decide⟩

theorem wit_GlobalLoadCompletes : ∃ (s : State) (c : Cur), s.Issues c ∧ c.task.regs.Free 4 ∧ c.task.regs.Full 1 ∧
    c.task.regs.bad 1 = false ∧ (c.task.regs.val 1 + (1 : BitVec 9).signExtend 64 * BitVec.ofNat 64 8).toNat % 8 = 0 ∧
    s.xlate c.team.vf 0x10008 .read c.task.via = .ok page ∧
    (s.cache c.team.vf page c.task.via).markWait c.team c.mem c.team.openSeq (page.pa 0x10008) 8 = false ∧
    s.uninjected c.team.vf :=
  ⟨_, _, issues tk0, free_of (by decide), full_of (by decide), by decide, by decide, by decide, State.markWait_frontier (by decide),
    fun _ h => by cases h; rfl⟩

theorem wit_GlobalStoreCompletes : ∃ (s : State) (c : Cur) (g : Seg), s.Issues c ∧ c.task.regs.Full 1 ∧ c.task.regs.Full 3 ∧
    c.task.regs.bad 1 = false ∧ (c.task.regs.val 1 + (0 : BitVec 9).signExtend 64 * BitVec.ofNat 64 4).toNat % 4 = 0 ∧
    s.xlate c.team.vf 0x10000 .store c.task.via = .ok page ∧ c.team.openSeg = some g ∧ c.mem < g.own.length ∧ c.mem < g.seen.length ∧
    (s.cache c.team.vf page c.task.via).StoreFits c.tid c.mem c.team g.seq 0x10000 (page.pa 0x10000) (leBytes 4 (c.task.regs.val 3).toNat)
      (c.task.regs.bad 3) :=
  ⟨_, _, _, issues_versions, full_of (by decide), full_of (by decide), by decide, by decide, by decide, rfl, by decide,
    by decide, ⟨by decide, .inl (by decide)⟩⟩

/-- The same where no version of the line exists: the version area has room. -/
theorem wit_GlobalStoreCompletes_new : ((world (alone tk0)).cache 0 page [0]).StoreFits 0 0 (alone tk0) 0 0x10000 0x10000 [5] false :=
  ⟨by decide, .inr fun p hp => by cases hp; decide⟩

theorem wit_AtomicResults : ∃ (s : State) (c : Cur) (g : Seg), s.Issues c ∧ c.task.regs.Free 4 ∧ c.task.regs.Full 1 ∧
    c.task.regs.Full 3 ∧ c.task.regs.bad 1 = false ∧ (c.task.regs.val 1).toNat % 8 = 0 ∧
    s.xlate c.team.vf 0x10000 .write c.task.via = .ok page ∧ s.uninjected c.team.vf ∧
    c.team.openSeg = some g ∧ c.mem < g.own.length ∧ c.mem < g.seen.length ∧
    (s.cache c.team.vf page c.task.via).markWait c.team c.mem g.seq 0x10000 8 = false ∧
    (∀ v poison tm2, mapGet c.tid ((s.cache c.team.vf page c.task.via).segRead c.tid c.mem g.seq page 0x10000 8).1.teams = some tm2 →
      ((s.cache c.team.vf page c.task.via).segRead c.tid c.mem g.seq page 0x10000 8).1.versionWait c.team g.seq 0x10000 = false ∧
      ((s.cache c.team.vf page c.task.via).segRead c.tid c.mem g.seq page 0x10000 8).1.StoreFits c.tid c.mem tm2 g.seq 0x10000 0x10000
        (leBytes 8 v) poison) ∧
    (s.cache c.team.vf page c.task.via).stalled c.team.vf 0x10000 page.tracked = false ∧ c.task.regs.bad 3 = false ∧
    ∀ i, i < 8 → s.poisonMem.contains (0x10000 + i) = false :=
  ⟨_, _, _, issues_wholeWord, free_of (by decide), full_of (by decide), full_of (by decide), by decide, by decide, by decide,
    fun _ h => by cases h; rfl, rfl, by decide, by decide, by decide,
    fun v poison tm2 h => by cases h; exact ⟨by decide, ⟨by decide, .inl (by decide)⟩⟩, by decide, by decide, fun _ _ => rfl⟩

/-- The world of a team with a DISJOINT launch, whose reads need no mark. -/
def unmarked (tm : Team) : State :=
  { world tm with launches := [(0, { launch with hdr := { launch.hdr with disjoint := true } })] }

def disjointWorld : State := unmarked (alone tk0)

/-- An ordered atomic of the test team's open segment. -/
def entry : Amoo :=
  { team := 0, member := 0, seq := 1, launch := 0, addr := 0x10000, wide := true, op := 0, operand := 3, rd := 4,
    applied := false }

theorem wit_OrderedAtomics :
    (∃ c : Cur, disjointWorld.Issues c ∧ c.task.regs.Free 4 ∧ c.task.regs.Full 1 ∧ c.task.regs.Full 3 ∧ c.task.regs.bad 1 = false ∧
      (c.task.regs.val 1).toNat % 4 = 0 ∧ disjointWorld.xlate c.team.vf 0x10000 .write c.task.via = .ok page ∧
      disjointWorld.disjoint c.team = true) ∧
    (∃ (s : State) (c : Cur), s.Issues c ∧ c.task.regs.Free 4 ∧ c.task.regs.Full 1 ∧ c.task.regs.Full 3 ∧ c.task.regs.bad 1 = false ∧
      (c.task.regs.val 1).toNat % 4 = 0 ∧ s.xlate c.team.vf 0x10000 .write c.task.via = .ok page ∧ s.disjoint c.team = false ∧
      (s.cache c.team.vf page c.task.via).atFrontier c.team.launch c.team.openTs = true) ∧
    ∃ (s : State) (tm : Team) (tk : Task) (g : Seg), s.amoos[0]? = some entry ∧ mapGet entry.team s.teams = some tm ∧
      entry.applied = false ∧ s.amooDue 0 entry tm = true ∧ s.uninjected tm.vf ∧ tm.members[entry.member]? = some tk ∧ tm.seg entry.seq = some g ∧
      ∀ va bad new, s.StoreFits entry.team entry.member tm entry.seq va entry.addr new bad :=
  ⟨⟨curOf (alone tk0) tk0, ⟨rfl, rfl, rfl⟩, free_of (by decide), full_of (by decide), full_of (by decide), by decide, by decide, by decide,
     by decide⟩,
   ⟨_, _, issues tk0, free_of (by decide), full_of (by decide), full_of (by decide), by decide, by decide, by decide, by decide,
     by decide⟩,
   { world oneVersion with amoos := [entry] }, oneVersion, tk0, _, rfl, rfl, rfl, by decide,
     (fun _ h => by cases h; rfl), rfl, rfl,
     fun _ _ _ => ⟨by decide, .inl (by decide)⟩⟩

/-- Scratchpad of 4 granules with an exchange region: g4 is the last dword below the limit, g5 the first above it. -/
def tkSpad : Task := withRegs fun r => (r.write 4 0x2FFF8 false).write 5 0x30000 false

theorem wit_ScratchpadResults : ∃ (s : State) (c : Cur) (p : Part), s.Issues c ∧ c.task.regs.Full 4 ∧ c.task.regs.bad 4 = false ∧
    c.task.regs.Free 6 ∧ (c.task.regs.val 4 + (0 : BitVec 9).signExtend 64 * BitVec.ofNat 64 8).toNat % 8 = 0 ∧
    c.team.carve.spadOk 0x2FFF8 8 = true ∧ c.task.regs.Full 3 ∧ s.part c.team.vf = some p ∧
    0x2FFF8 + 8 ≤ p.desc.wbanks.length * weightBankBytes ∧ s.refreshing p.desc 0x2FFF8 = false ∧ (c.task.regs.val 4).toNat % 4 = 0 :=
  ⟨_, _, _, issues tkSpad, full_of (by decide), by decide, free_of (by decide), by decide, by decide, full_of (by decide), rfl,
    by decide, by decide, by decide⟩

def tkDisc : Task := withRegs fun r => r.write 4 128 false

theorem wit_PrefetchAndDiscard :
    (∃ (s : State) (c : Cur), s.Issues c ∧ c.task.regs.condOf 4 = .pending ∧ c.task.regs.condOf 5 = .void) ∧
    ∃ (s : State) (c : Cur), s.Issues c ∧ c.task.regs.Full 1 ∧ c.task.regs.bad 1 = false ∧
    c.task.regs.Full 4 ∧ c.task.regs.bad 4 = false ∧ (c.task.regs.val 1).toNat % 64 = 0 ∧ (c.task.regs.val 4).toNat % 64 = 0 ∧
    s.discardLines c.team.vf c.task.via (c.task.regs.val 1).toNat ((c.task.regs.val 4).toNat / 64) =
      .ok [(0x10000, page.free), (0x10040, page.free)] ∧
    ∀ p, s.part c.team.vf = some p → p.fillOf (p.log.length + [((0x10000 : Nat), page.free), (0x10040, page.free)].length) < 95 :=
  ⟨⟨_, _, issues tkEmpty, by decide, by decide⟩,
   ⟨_, _, issues tkDisc, full_of (by decide), by decide, full_of (by decide), by decide, by decide, by decide, by decide,
     fun _ h => by cases h; decide⟩⟩

/-- The world with a page that may not be written. -/
def readOnly : State := { world (alone tk0) with parts := [(0, { part with tlb := [(0, { page with leaf := 0x10003 })] })] }

theorem wit_AddressTraps :
    (∃ (s : State) (c : Cur), s.Issues c ∧ c.task.regs.Full 1 ∧ c.task.regs.Full 3 ∧ c.task.regs.Full 2 ∧ c.task.regs.bad 1 = false ∧
      c.task.regs.handler = false ∧ c.task.regs.tvec ≠ 0 ∧ c.task.regs.poisonSr.getLsbD 16 = false ∧
      (c.task.regs.val 3 + (0 : BitVec 9).signExtend 64 * BitVec.ofNat 64 2).toNat % 2 ≠ 0 ∧
      (c.task.regs.val 2 + (0 : BitVec 9).signExtend 64 * BitVec.ofNat 64 8).toNat % 8 = 0 ∧
      s.uninjected c.team.vf ∧
      s.lookup c.team.vf (c.task.regs.val 2 + (0 : BitVec 9).signExtend 64 * BitVec.ofNat 64 8).toNat c.task.via = none ∧
      s.xlate c.team.vf 8 .read c.task.via = .bad 4 0 ∧ s.xlate c.team.vf 8 .store c.task.via = .bad 4 0) ∧
    (∃ (s : State) (c : Cur), s.Issues c ∧ c.task.regs.Full 5 ∧ c.task.regs.bad 5 = false ∧ c.team.carve.spadOk 0x30000 1 = false) ∧
    ∃ pg, readOnly.lookup 0 0x10000 [0] = some pg ∧ pg.writable = false ∧ readOnly.xlate 0 0x10000 .store [0] = .bad 5 1 :=
  ⟨⟨_, _, issues tk0, full_of (by decide), full_of (by decide), full_of (by decide), by decide, by decide, by decide, by decide, by decide,
     by decide, (fun _ h => by cases h; rfl), by decide, by decide, by decide⟩,
   ⟨_, _, issues tkSpad, full_of (by decide), by decide, by decide⟩, ⟨_, rfl, by decide, by decide⟩⟩

/-- The world with a host aperture page. -/
def aperture : State := { world (alone tk0) with parts := [(0, { part with tlb := [(0, { page with leaf := 0x11007 })] })] }

theorem wit_SegmentInstructionResults :
    (∃ (s : State) (c : Cur) (g : Seg), s.Issues c ∧ c.task.regs.Full 1 ∧ c.team.openSeg = some g ∧ c.task.regs.Free 4 ∧
      c.task.regs.Full 0 ∧ (c.task.regs.val 0).toNat % 2 ^ 48 ≤ s.sealed ∧ s.sealed < (c.task.regs.val 3).toNat % 2 ^ 48) ∧
    ∃ (c : Cur) (pg : TlbEntry) (p : Part), aperture.Issues c ∧ c.task.regs.Full 1 ∧ c.task.regs.Full 3 ∧ c.task.regs.bad 1 = false ∧
      c.task.regs.bad 3 = false ∧ (c.task.regs.val 1 + (0 : BitVec 9).signExtend 64 * BitVec.ofNat 64 8).toNat % 8 = 0 ∧
      aperture.xlate c.team.vf 0x10000 .aperture c.task.via = .ok pg ∧ aperture.part c.team.vf = some p ∧ p.egress.length < 1024 :=
  ⟨⟨_, _, _, issues tk0, full_of (by decide), rfl, free_of (by decide), full_of (by decide), by decide, by decide⟩,
   curOf (alone tk0) tk0, _, _, ⟨rfl, rfl, rfl⟩, full_of (by decide), full_of (by decide), by decide, by decide, by decide, rfl, rfl, by decide⟩

/-- TSRD's selectors: no uncommitted segment and one, each of 0 to 3, and one above. -/
theorem wit_SegmentInstructionResults_tsrd :
    (∃ (s : State) (c : Cur), s.Issues c ∧ c.task.regs.Free 4 ∧ c.task.regs.Full 0 ∧ c.task.regs.val 0 = 0 ∧
      (s.teams.flatMap fun t => if t.2.launch = c.team.launch then t.2.stamps else []) = []) ∧
    (∃ (s : State) (c : Cur), s.Issues c ∧ c.task.regs.Free 4 ∧ c.task.regs.Full 0 ∧ c.task.regs.val 0 = 0 ∧
      ∃ t ∈ (s.teams.flatMap fun t => if t.2.launch = c.team.launch then t.2.stamps else []),
        ∀ u ∈ (s.teams.flatMap fun t => if t.2.launch = c.team.launch then t.2.stamps else []), t ≤ u) ∧
    ∀ v ∈ ([1, 2, 3, 4] : List Word), let tk := withRegs fun r => r.write 5 v false
      (world (alone tk)).Issues (curOf (alone tk) tk) ∧ tk.regs.condOf 4 ≠ .pending ∧ tk.regs.condOf 5 = .full ∧ tk.regs.val 5 = v :=
  ⟨⟨world { alone tk0 with openSeg := none }, curOf { alone tk0 with openSeg := none } tk0, ⟨rfl, rfl, rfl⟩, free_of (by decide),
     full_of (by decide), by decide, by decide⟩,
   ⟨_, _, issues tk0, free_of (by decide), full_of (by decide), by decide, by decide⟩,
   fun v _ => ⟨issues _, by simp [withRegs, tk0, Task.start, Regs.start, Regs.write, Regs.condOf], by rfl, by rfl⟩⟩

/-- A task with GEN 5 in the sync word at offset 0x40, which g4 names. -/
def tkSync : Task := { withRegs fun r => r.write 4 0x40 false with spad := [(0x48, 5)] }

theorem wit_SynchronisationResults : ∃ (s : State) (c : Cur), s.Issues c ∧ c.task.regs.Full 4 ∧ c.task.regs.Full 3 ∧
    c.task.regs.Full 2 ∧ c.task.regs.bad 4 = false ∧ (c.task.regs.val 4).toNat % 16 = 0 ∧
    c.team.carve.spadOk (c.task.regs.val 4).toNat 16 = true ∧
    c.task.spadLE c.team.carve 0x48 4 = (c.task.regs.val 3).toNat % 2 ^ 32 ∧
    c.task.spadLE c.team.carve 0x48 4 ≠ (c.task.regs.val 2).toNat % 2 ^ 32 ∧ c.task.spadLE c.team.carve 0x48 4 = (5 : BitVec 13).toNat ∧
    c.task.spadLE c.team.carve 0x48 4 ≠ (6 : BitVec 13).toNat ∧
    (c.task.timeline 8).count.toNat < (c.task.regs.val 4).toNat ∧ (c.task.regs.val 0).toNat ≤ (c.task.timeline 8).count.toNat :=
  ⟨_, _, issues tkSync, full_of (by decide), full_of (by decide), full_of (by decide), by decide, by decide, by decide, by decide,
    by decide, by decide, by decide, by decide, by decide⟩

theorem wit_SynchronisationResults_mwait : ∃ (s : State) (c : Cur), s.Issues c ∧ c.task.regs.Full 1 ∧ c.task.regs.Full 3 ∧
    c.task.regs.bad 1 = false ∧ (c.task.regs.val 1).toNat % 8 = 0 ∧ s.xlate c.team.vf (c.task.regs.val 1).toNat .read c.task.via = .ok page ∧
    memReadLE s.mem (page.pa 0x10000) 8 < (c.task.regs.val 3).toNat ∧ (c.task.regs.val 0).toNat ≤ memReadLE s.mem (page.pa 0x10000) 8 :=
  ⟨_, _, issues tk0, full_of (by decide), full_of (by decide), by decide, by decide, by decide, by decide, by decide⟩

/-- MWAIT below its operand waits; one that a write of its line met goes on. -/
theorem wit_SynchronisationResults_waits : ∀ met : Bool, ∃ (s : State) (c : Cur), s.Issues c ∧ c.task.regs.Full 1 ∧ c.task.regs.Full 3 ∧
    c.task.regs.bad 1 = false ∧ s.xlate c.team.vf (c.task.regs.val 1).toNat .read c.task.via = .ok page ∧
    s.pageLE page (c.task.regs.val 1).toNat 8 < (c.task.regs.val 3).toNat ∧ s.waitMet (.task c.tid c.mem) = met := fun met =>
  ⟨{ world (alone tk0) with waits := [⟨.task 0 0, 0x10000, 5, met⟩] }, curOf (alone tk0) tk0, ⟨rfl, rfl, rfl⟩, full_of (by decide),
    full_of (by decide), by decide, by cases met <;> decide, by cases met <;> decide, by cases met <;> decide⟩

/-- A scratchpad byte that a command of tl0 wrote: a wait on tl1 leaves it hidden, and one on tl0 does not. -/
theorem wit_SynchronisationResults_hidden :
    let h : SpadHide := { tag := { tl := 0, num := 1, sync := none, ctr := none, passed := false, added := false }, old := [(0x48, (5, false))] }
    let covers := fun (tl : Nat) (x : CmdTag) => x.tl == tl && decide (x.num ≤ 1)
    covers 0 h.tag = true ∧ covers 1 h.tag = false ∧ mapGet 0x48 h.old ≠ none ∧ mapGet 0x49 h.old = none := by decide

/-- A team of two: member 1 has arrived, or not. -/
def pair (tk : Task) (x : Option Arrival) : Team := teamOf [tk, { tk0 with core := 1, arrived := x }]

theorem issues_pair (tk : Task) (x : Option Arrival) : (world (pair tk x)).Issues (curOf (pair tk x) tk) := ⟨rfl, rfl, rfl⟩

theorem wit_ClosingInstructions : ∃ g : Seg, (pair tk0 (some .cmt)).openSeg = some g ∧ tk0.regs.handler = false ∧
    tk0.fillsPending = false ∧ tk0.phasePending = false ∧ tk0.gsq.running = false ∧ (world (pair tk0 none)).fifth (pair tk0 none) = false ∧
    ({ pair tk0 none with members := (pair tk0 none).members.set 0 { tk0 with arrived := some .cmt } } : Team).allAt Arrival.closing
      = false ∧
    ({ pair tk0 none with members := (pair tk0 none).members.set 0 { tk0 with arrived := some .halt } } : Team).allAt Arrival.closing
      = false ∧
    (∀ tk ∈ (pair tk0 (some .cmt)).members.set 0 { tk0 with arrived := some .cmt }, tk.retired = false → tk.arrived = some .cmt) ∧
    ∀ tk ∈ (pair tk0 (some .halt)).members.set 0 { tk0 with arrived := some .halt }, tk.retired = false → tk.arrived = some .halt :=
  ⟨_, rfl, by decide, by decide, by decide, by decide, by decide, by decide, by decide, by decide, by decide⟩

/-- Whether a submission is accepted, rejected, or finds the pool full. -/
def accepted (x : Submit) : Bool :=
  match x with
  | .accepted _ _ => true
  | _ => false

theorem accepted_of {x : Submit} (h : accepted x = true) : ∃ s l, x = .accepted s l :=
  match x, h with
  | .accepted s l, _ => ⟨s, l, rfl⟩

/-- The world with a valid header at 0x10000: one program granule, one work identifier width of 1 bit, extent 2. -/
def headerWorld : State := { world (alone tk0) with mem := [(0x1000C, 1), (0x1000D, 1), (0x10010, 1), (0x10020, 2)] }

/-- The lone member's team as its barrier closes at LNCH or LNCHW of register 4 and the header at 0x10000. -/
def closedTeam (wait : Bool) : Team :=
  let tm := { alone tk0 with members := [tk0.arrive (.lnch 4 0x10000 wait (tk0.regs.condOf 4))] }
  { tm with segs := [{ (alone tk0).newSeg 0 with ts := BitVec.ofNat 64 tm.openTs }], openSeg := none }

/-- The module as that barrier submits. -/
def closedWorld (s : State) (wait : Bool) : State :=
  (((s.cache 0 page [0]).cache 0 page [0]).setTeam 0 { alone tk0 with members := (closedTeam wait).members }).setTeam 0 (closedTeam wait)

/-- What the barrier answers. -/
def launchAnswer (s : State) (wait : Bool) : Submit :=
  ((closedWorld s wait).headerRead 0 [0] 0x10000).submit 0 ((closedWorld s wait).headerBytes (closedTeam wait) 0 [0] 0x10000)
    ((closedWorld s wait).origin 0 (closedTeam wait) 0)

theorem wit_LaunchInstructions : ∃ (s : State) (c : Cur) (g : Seg), s.Issues c ∧ c.task.regs.handler = false ∧
    c.task.fillsPending = false ∧ c.task.phasePending = false ∧ c.task.gsq.running = false ∧ s.fifth c.team = false ∧
    c.team.openSeg = some g ∧ c.task.regs.Free 4 ∧ c.task.regs.Full 1 ∧ c.task.regs.bad 1 = false ∧
    (c.task.regs.val 1).toNat % 64 = 0 ∧ s.xlate c.team.vf (c.task.regs.val 1).toNat .read c.task.via = .ok page ∧
    (s.cache c.team.vf page c.task.via).xlate c.team.vf ((c.task.regs.val 1).toNat + 64) .read c.task.via = .ok page ∧
    (∀ (m : Nat) (tk : Task), m ≠ c.mem → c.team.members[m]? = some tk → tk.retired = false → tk.arrived = some .cmt) ∧
    (∃ s' l, launchAnswer s false = .accepted s' l) ∧ ∃ s' l, launchAnswer s true = .accepted s' l :=
  ⟨headerWorld, curOf (alone tk0) tk0, _, ⟨rfl, rfl, rfl⟩, by decide, by decide, by decide, by decide, by decide, rfl, free_of (by decide),
    full_of (by decide), by decide, by decide, by decide, by decide,
    fun m tk h he => by
      cases m with
      | zero => exact absurd rfl h
      | succ n => simp [curOf, alone, teamOf] at he,
    accepted_of (by decide), accepted_of (by decide)⟩

/-- The header of zeros is rejected. -/
theorem wit_LaunchInstructions_rejected : launchAnswer (world (alone tk0)) false = .rejected ∧
    launchAnswer (world (alone tk0)) true = .rejected := by decide

theorem some_of {x : Option α} {f : α → Bool} (h : x.any f = true) : ∃ a, x = some a ∧ f a = true :=
  match x, h with
  | some a, h => ⟨a, rfl, h⟩

/-- A launch that waits in the pool. -/
def waiting : Launch := { launch with stage := .pooled }

theorem submit_full {s : State} {vf : Nat} {bs : List Byte} {p : Part} {h : Header} (o : Origin) (hp : s.part vf = some p)
    (hh : parseHeader bs p.desc (s.kernelSyncs vf) = some h) (hd : h.dmode = 0)
    (hl : Config.poolSize ≤ (s.launches.filter fun l => l.2.vf == vf && l.2.stage == .pooled).length) : s.submit vf bs o = .full := by
  simp [State.submit, hp, hh, hd, hl]

theorem waiting_filter (n : Nat) : ((List.replicate n ((1 : Nat), waiting)).filter
    fun l => l.2.vf == 0 && l.2.stage == .pooled).length = n := by
  rw [List.filter_replicate_of_pos (by decide), List.length_replicate]

/-- The header's bytes as a member sees them. -/
def seen : List Byte := headerWorld.headerBytes (alone tk0) 0 [0] 0x10000

theorem seen_parses : ∃ h, parseHeader seen desc (fun _ _ => []) = some h ∧ decide (h.dmode = 0) = true := some_of (by decide)

theorem part_closed (wait : Bool) (ls : List (Nat × Launch)) :
    ((closedWorld { headerWorld with launches := ls } wait).headerRead 0 [0] 0x10000).part 0 = some part := rfl

theorem seen_closed (wait : Bool) (ls : List (Nat × Launch)) :
    (closedWorld { headerWorld with launches := ls } wait).headerBytes (closedTeam wait) 0 [0] 0x10000 = seen := by
  cases wait <;> rfl

theorem launchAnswer_full (wait : Bool) (ls : List (Nat × Launch))
    (hl : Config.poolSize ≤ (ls.filter fun l => l.2.vf == 0 && l.2.stage == .pooled).length) :
    launchAnswer { headerWorld with launches := ls } wait = .full := by
  obtain ⟨h, hh, hd⟩ := seen_parses
  have hs : ∀ (s : State) (bs : List Byte), bs = seen → s.part 0 = some part → s.launches = ls → ∀ o, s.submit 0 bs o = .full := by
    intro s bs hb hp he o
    have hn : s.kernelSyncs 0 = fun _ _ => [] := by funext a b; simp [State.kernelSyncs, hp, part, Part.start, desc]
    exact submit_full o hp (by rw [hb, hn]; exact hh) (of_decide_eq_true hd) (by rw [he]; exact hl)
  exact hs ((closedWorld { headerWorld with launches := ls } wait).headerRead 0 [0] 0x10000) _ (seen_closed wait ls) (part_closed wait ls) rfl _

/-- A pool of 4096 launches is full. -/
theorem wit_LaunchInstructions_full (wait : Bool) :
    launchAnswer { headerWorld with launches := List.replicate 4096 (1, waiting) } wait = .full :=
  launchAnswer_full wait _ (Nat.le_of_eq (waiting_filter Config.poolSize).symm)

theorem wit_TeamBarriers :
    ({ pair tk0 none with members := (pair tk0 none).members.set 0 { tk0 with arrived := some .barr } } : Team).allAt
      (fun x => x == .barr) = false ∧
    ({ pair tk0 none with members := (pair tk0 none).members.set 0 { tk0 with arrived := some .yield } } : Team).allAt
      (fun x => x == .yield) = false ∧
    ({ pair tk0 (some .barr) with members := (pair tk0 (some .barr)).members.set 0 { tk0 with arrived := some .barr } } : Team).allAt
      (fun x => x == .barr) = true ∧
    ({ pair tk0 (some .yield) with members := (pair tk0 (some .yield)).members.set 0 { tk0 with arrived := some .yield } } : Team).allAt
      (fun x => x == .yield) = true ∧ (tkLoop 0 true).regs.handler = true ∧ tk0.regs.Full 1 ∧ tk0.regs.bad 1 = false :=
  ⟨by decide, by decide, by decide, by decide, by decide, full_of (by decide), by decide⟩

/-- A task whose g4 holds a carve-out with the program's granule, 8 of scratchpad and no other. -/
def tkCarve : Task := withRegs fun r => r.write 4 0x0801 false

theorem wit_TeamBarriers_carve : ∃ (s : State) (c : Cur) (v : Carve), s.Issues c ∧ c.task.regs.Full 4 ∧ c.task.regs.bad 4 = false ∧
    c.task.regs.handler = false ∧ c.task.phasePending = false ∧
    (∀ tk ∈ c.team.members.set c.mem { c.task with arrived := some (.carve (c.task.regs.val 4)) },
      tk.retired = false → tk.arrived = some (.carve (c.task.regs.val 4))) ∧
    ({ c.team with members := c.team.members.set c.mem { c.task with arrived := some (.carve (c.task.regs.val 4)) } } : Team).agreed
      (c.task.regs.val 4) (((s.launchOf c.team).map (·.syncs)).getD []) = some v :=
  ⟨_, _, _, issues tkCarve, full_of (by decide), by decide, by decide, by decide, by decide, rfl⟩

/-- A BARR.CARVE whose other member has not come; and one that leaves the count of granules as it is. -/
theorem wit_TeamBarriers_carve_waits :
    (∃ tk ∈ (pair tkCarve none).members.set 0 { tkCarve with arrived := some (.carve 0x0801) },
      tk.retired = false ∧ ∀ x, tk.arrived ≠ some (.carve x)) ∧
    (let tk := withRegs fun r => r.write 4 0x0401 false
     ({ alone tk with members := [{ tk with arrived := some (.carve 0x0401) }] } : Team).agreed 0x0401 [] = some (carveOf 0x0401) ∧
       (alone tk).carve.spad = (carveOf 0x0401).spad) ∧
    (alone tkCarve).carve.spad ≠ (carveOf 0x0801).spad ∧
    ∀ y ∈ tkCarve.flatSpad (alone tkCarve).carve, y.1 < (alone tkCarve).carve.spad * Config.granule :=
  ⟨⟨_, List.mem_cons_of_mem _ (List.mem_singleton.2 rfl), rfl, fun _ h => by cases h⟩, by decide, by decide, by decide⟩

/-- A BARR.CARVE of an invalid word (bit 32 set), and one whose other member brought another word: every member is to trap. -/
theorem wit_TeamBarriers_carve_refused :
    (let w : Word := 0x100000801
     let tk := withRegs fun r => r.write 4 w false
     let tks := (alone tk).members.set 0 { tk with arrived := some (.carve w) }
     (world (alone tk)).Issues (curOf (alone tk) tk) ∧ tk.regs.val 4 = w ∧ ¬ w.toNat < 2 ^ 32 ∧ ∀ x ∈ tks, x.retired = false →
       x.arrived = some (.carve w) ∧ x.regs.tvec ≠ 0 ∧ x.regs.poisonSr.getLsbD 16 = false) ∧
    let tks := (pair tkCarve (some (.carve 0x0401))).members.set 0 { tkCarve with arrived := some (.carve 0x0801) }
    (world (pair tkCarve (some (.carve 0x0401)))).Issues (curOf (pair tkCarve (some (.carve 0x0401))) tkCarve) ∧
    (∃ x ∈ tks, x.retired = false ∧ x.arrived ≠ some (.carve 0x0801)) ∧ ∀ x ∈ tks, x.retired = false →
      (x.arrived = some (.carve 0x0801) ∨ x.arrived = some (.carve 0x0401)) ∧ x.regs.tvec ≠ 0 ∧ x.regs.poisonSr.getLsbD 16 = false :=
  ⟨⟨⟨rfl, rfl, rfl⟩, by decide, by decide, by decide⟩, ⟨rfl, rfl, rfl⟩, by decide, by decide⟩

/-- The world with two entries in the heap of bush 0. -/
def heapWorld : State := { world (alone tk0) with parts := [(0, { part with heaps := [(0, [some (3, 30), some (9, 90)])] })] }

def tkKey : Task := withRegs fun r => r.write 4 0xFFFFFFFFFFFFFFFF false

theorem wit_WorkHeapInstructions :
    (∃ (s : State) (c : Cur) (p : Part) (g : Seg), s.Issues c ∧ s.part c.team.vf = some p ∧ c.team.openSeg = some g ∧
      c.task.regs.Full 4 ∧ c.task.regs.Full 3 ∧ c.task.regs.val 4 = BitVec.allOnes 64 ∧ c.task.regs.val 3 ≠ BitVec.allOnes 64 ∧
      s.spillFull c.team.vf p (bushOf c.task.core) = false ∧ c.task.regs.Free 5 ∧ c.task.regs.Free 6 ∧
      ((s.popsAt c.team.vf 0).foldl (fun l x => l.erase x) (p.heap 0)).foldl (fun l x => heapInsert x l) [] = []) ∧
    ∃ (c : Cur) (p : Part), heapWorld.Issues c ∧ heapWorld.part c.team.vf = some p ∧ c.team.openSeg.isSome = true ∧
      (62 : Reg) ≠ 0 ∧ (62 : Reg) ≠ 63 ∧ c.task.regs.Free 62 ∧ c.task.regs.Free (62 + 1) ∧
      ((heapWorld.popsAt c.team.vf 0).foldl (fun l x => l.erase x) (p.heap 0)).foldl (fun l x => heapInsert x l) [] ≠ [] :=
  ⟨⟨_, _, _, _, issues tkKey, rfl, rfl, full_of (by decide), full_of (by decide), by decide, by decide, by decide, free_of (by decide),
     free_of (by decide), by decide⟩,
   curOf (alone tk0) tk0, _, ⟨rfl, rfl, rfl⟩, rfl, rfl, by decide, by decide, free_of (by decide), free_of (by decide), by decide⟩

/-- A team whose closed segment wrote a byte at 0x10000, its members at a later segment. -/
def closedOne : Team :=
  let tm := alone tk0
  { tm with segs := [{ tm.newSeg 0 with ts := 3, fin := [(0x10000, 9)] }], openSeg := some (tm.newSeg 1) }

theorem wit_SegmentCommitResult : ∃ (s : State) (g : Seg) (l : Launch), mapGet 0 s.teams = some closedOne ∧
    s.launchOf closedOne = some l ∧ closedOne.nextCommit l.hdr.disjoint = some g ∧ s.atFrontier closedOne.launch g.ts.toNat = true ∧ g.abort = false ∧
    (∀ x ∈ s.amoos, x.team = 0 → x.seq = g.seq → x.applied = true) ∧ s.failing closedOne = false ∧
    (∀ tk ∈ closedOne.members, tk.segBusy g.seq = false) ∧ (l.hdr.disjoint = true → l.taken 0 (verLines g.fin) = none) ∧
    g.poisoned = none ∧ s.logFull (s.performCommit 0 closedOne g l) closedOne.vf = false :=
  ⟨world closedOne, _, _, rfl, rfl, rfl, by decide, by decide, by decide, by decide, by decide, by decide, by decide, by decide⟩

/-- The segment wrote one line, of a page that the tables map as tracked, and nothing else. -/
theorem wit_SegmentCommitResult_line : ∃ g : Seg, closedOne.segs = [g] ∧ verLines g.fin = [0x400] ∧ g.pushes = [] ∧ g.pops = [] ∧
    g.adds = [] ∧ (world closedOne).lineFree closedOne.vf g 0x400 = none :=
  ⟨_, rfl, by decide, rfl, rfl, rfl, by decide⟩

/-- A team whose open segment is flagged, its member past the snapshot with these fills still to land. -/
def flagged (fs : List Fill) : Team :=
  let tm := alone tk0
  { tm with members := [{ tk0 with fills := fs }], openSeg := some { tm.newSeg 0 with abort := true, fin := [(0x10000, 9)] } }

/-- Whether ABORT_RESTORE of a state's team 0 would still wait for a member, once what the aborted segments do is stopped. -/
def abortWaits (tm : Team) : Bool :=
  let gs := fromAborted tm.uncommitted
  (mapGet 0 ((world tm).abortStop 0 tm gs).teams).any fun tm1 =>
    tm1.members.any fun tk => tk.fillsPending || tk.mmaOpen (gs.map (·.seq))

theorem wit_AbortReturnsToSnapshot : ∃ (s : State) (tm : Team) (g : Seg) (x : Snap) (tk : Task), mapGet 0 s.teams = some tm ∧
    fromAborted tm.uncommitted = [g] ∧ tm.swaps = [] ∧ s = world tm ∧ abortWaits tm = false ∧ g.snaps[0]? = some x ∧
    x.regs.seq = g.seq ∧ tm.members[0]? = some tk :=
  ⟨world (flagged []), _, _, _, _, rfl, rfl, rfl, rfl, by decide +kernel, rfl, by decide, rfl⟩

/-- A load's value is still to land; an exchange of two cores is under way. -/
theorem wit_AbortReturnsToSnapshot_waits : abortWaits (flagged [⟨4, .value 5 false⟩]) = true ∧
    fromAborted (flagged [⟨4, .value 5 false⟩]).uncommitted ≠ [] ∧
    (∃ tm : Team, tm = { flagged [] with swaps := [(0, 1)] } ∧ tm.swaps ≠ [] ∧ fromAborted tm.uncommitted ≠ []) :=
  ⟨by decide +kernel, by decide, _, rfl, by decide, by decide⟩

/-! ## Witnesses: engine commands, the matrix engine, fabric control -/

theorem ok_of {x : Except ε α} (h : x.isOk = true) : ∃ a, x = .ok a :=
  match x, h with
  | .ok a, _ => ⟨a, rfl⟩

/-- A task whose registers g8 to g11 hold a command block. -/
def tkBlock (w0 w1 w2 w3 : Word) : Task :=
  withRegs fun r => (((r.write 8 w0 false).write 9 w1 false).write 10 w2 false).write 11 w3 false

/-- What every engine command asks of its registers. -/
def Block (c : Cur) (a d : Reg) : Prop :=
  c.task.regs.Free d ∧ c.task.regs.Full a ∧ c.task.regs.Full (a + 1) ∧ c.task.regs.Full (a + 2) ∧ c.task.regs.Full (a + 3) ∧
  c.task.regs.bad a = false ∧ c.task.regs.bad (a + 1) = false ∧ c.task.regs.bad (a + 2) = false ∧ c.task.regs.bad (a + 3) = false ∧
  a.toNat ≤ 60

theorem bad_block (w0 w1 w2 w3 : Word) (n : Reg) : (tkBlock w0 w1 w2 w3).regs.bad n = false := by
  have h : (tkBlock w0 w1 w2 w3).regs.poisonG = 0 := by
    simp [tkBlock, withRegs, Regs.write, setBit, tk0, Task.start, Regs.start]
  simp [Regs.bad, h]

theorem block (w0 w1 w2 w3 : Word) : Block (curOf (alone (tkBlock w0 w1 w2 w3)) (tkBlock w0 w1 w2 w3)) 8 20 :=
  ⟨free_of (by intro h; cases h), rfl, rfl, rfl, rfl, bad_block w0 w1 w2 w3 8, bad_block w0 w1 w2 w3 9, bad_block w0 w1 w2 w3 10,
    bad_block w0 w1 w2 w3 11, by decide⟩

/-- A descriptor of a restriction of one FP32 point in one dimension with a boundary rule, at scratchpad offset 0 (R341); its
destination in scratchpad or, with `global` 1, in global memory. -/
def gridOf (bnd : Nat) (dst : Nat := 0x100) (global : Nat := 0) : List Byte :=
  leBytes 8 dst ++ leBytes 4 0x200 ++ leBytes 4 (1 + bnd * 2 ^ 3 + 1 * 2 ^ 7 + 1 * 2 ^ 11 + global * 2 ^ 19) ++ leBytes 4 3 ++ leBytes 4 1 ++ leBytes 4 1 ++
  leBytes 4 1 ++ leBytes 4 1 ++ leBytes 4 1 ++ leBytes 24 0

def gridBytes : List Byte := gridOf 0

/-- A restriction table of one dimension: a weight for each class (R27). -/
def table1 : StencilTable := { d := 1, prolong := false, weights := [0x3F800000, 0x3F800000] }

theorem wit_CopyAndStreamCommandsIssue :
    (∃ (s : State) (c : Cur) (p : Part), s.Issues c ∧ Block c 8 20 ∧ (c.task.regs.val 10).toNat < 2 ^ 32 ∧
      bitsOf (c.task.regs.val 11).toNat 3 1 = 0 ∧ bitAt (c.task.regs.val 11).toNat 0 = true ∧
      c.team.carve.spadOk (c.task.regs.val 8).toNat (c.task.regs.val 10).toNat = true ∧
      c.team.carve.spadOk (c.task.regs.val 9).toNat (c.task.regs.val 10).toNat = true ∧
      bitsOf (c.task.regs.val 9).toNat 47 22 = 0 ∧ bitsOf (c.task.regs.val 9).toNat 63 54 = 0 ∧
      bitsOf (c.task.regs.val 9).toNat 53 48 < 4 ^ c.team.size.toNat ∧
      bitsOf (c.task.regs.val 9).toNat 21 0 + (c.task.regs.val 10).toNat ≤ 65536 ∧ c.team.carve.exchange = true ∧
      s.part c.team.vf = some p) ∧
    (∃ (s : State) (c : Cur), s.Issues c ∧ Block c 8 20 ∧ bitsOf (c.task.regs.val 11).toNat 3 1 = 0 ∧
      c.team.carve.spadOk (bitsOf (c.task.regs.val 11).toNat 21 4 * 16) 16 = true ∧ bitsOf (c.task.regs.val 10).toNat 31 22 = 0 ∧
      bitsOf (c.task.regs.val 10).toNat 47 41 = 0 ∧ bitsOf (c.task.regs.val 10).toNat 63 50 = 0 ∧
      (c.task.regs.val 8).toNat % gthSize (c.task.regs.val 10) = 0 ∧ 1 ≤ gthCount (c.task.regs.val 10) ∧
      gthCount (c.task.regs.val 10) ≤ 256 ∧ (c.task.regs.val 9).toNat % 4 = 0 ∧
      c.team.carve.spadOk (c.task.regs.val 9).toNat (4 * gthCount (c.task.regs.val 10)) = true ∧
      c.team.carve.spadOk (bitsOf (c.task.regs.val 10).toNat 21 0)
        (gthCount (c.task.regs.val 10) * gthSize (c.task.regs.val 10)) = true) ∧
    (∃ (s : State) (c : Cur) (p : Part), s.Issues c ∧ Block c 8 20 ∧ (c.task.regs.val 10).toNat < 16 ∧ c.task.regs.val 11 = 0 ∧
      (c.task.regs.val 9).toNat % 64 = 0 ∧ c.team.carve.spadOk (c.task.regs.val 8).toNat (c.task.regs.val 9).toNat = true ∧
      s.part c.team.vf = some p ∧
      (c.task.regs.val 8).toNat + (c.task.regs.val 9).toNat ≤ p.desc.wbanks.length * weightBankBytes) ∧
    ∃ (s : State) (c : Cur), s.Issues c ∧ Block c 8 20 ∧ 2 ^ 32 ≤ (c.task.regs.val 10).toNat :=
  ⟨⟨_, _, _, issues (tkBlock 0 0xFFC0 64 1), block _ _ _ _, by decide, by decide, by decide, by decide, by decide, by decide, by decide,
     by decide, by decide, by decide, rfl⟩,
   ⟨_, _, issues (tkBlock 0x10000 64 (256 * 2 ^ 32 + 3 * 2 ^ 48 + 0x1000) 0), block _ _ _ _, by decide, by decide, by decide, by decide,
     by decide, by decide, by decide, by decide, by decide, by decide, by decide⟩,
   ⟨_, _, _, issues (tkBlock 0 128 15 0), block _ _ _ _, by decide, by decide, by decide, by decide, rfl, by decide⟩,
   _, _, issues (tkBlock 0 0 0x100000000 1), block _ _ _ _, by decide⟩

/-- A world where GTX's descriptor stands at offset 0 and its table in slot 0. -/
def tkGrid : Task := { tkBlock 0 0 0 1 with spad := memWriteBytes [] 0 gridBytes }
def gridWorld : State := { world (alone tkGrid) with parts := [(0, { part with stencils := [(0, table1)] })] }

theorem wit_CopyAndStreamCommandsIssue_gtx : ∃ c : Cur, gridWorld.Issues c ∧
    gtxCheck c gridWorld (c.task.regs.val 8) (c.task.regs.val 9) (c.task.regs.val 10) (c.task.regs.val 11) = none ∧
    (c.grid gridWorld (c.task.regs.val 8)).2.2 = false :=
  ⟨curOf (alone tkGrid) tkGrid, ⟨rfl, rfl, rfl⟩, by decide, by decide⟩

/-- A block of FP16 slots or rows with the matrix engine that it needs. -/
def tkMx (w0 w1 w2 w3 : Word) (slots : List (Nat × Slot)) (rows : List (Nat × Row)) : Task :=
  { tkBlock w0 w1 w2 w3 with mxe := { Mxe.start 0 with slots := slots, rows := rows } }

def slotOf (fmt : Nat) : Slot := { fmt := fmt, mx := false, valid := true, vals := [], scales := [], poison := false }

/-- A valid row that holds FP32 entries. -/
def rowHeld : Row := { vals := List.replicate 32 0, run := .none, held := some 0, valid := true, sat := [], parts := [], wide := [],
                       poison := false }

/-- The check of a matrix command at a task with this block and engine. -/
def mxPasses (kind : CmdKind) (w0 w1 w2 w3 : Word) (slots : List (Nat × Slot)) (rows : List (Nat × Row)) : Bool :=
  let tk := tkMx w0 w1 w2 w3 slots rows
  let c := curOf (alone tk) tk
  let s := world (alone tk)
  (mxCheck (c.mxEnv s) kind 0 (s.loadCode c w0 w1) w0 w1 w2 w3).isNone

theorem wit_MatrixCommandsIssue :
    (∃ (s : State) (c : Cur), s.Issues c ∧ Block c 8 20 ∧ c.task.gsq.running = false ∧ c.task.regs.val 9 = 0 ∧ c.task.regs.val 10 = 0 ∧
      c.task.regs.val 11 = 0 ∧ bitsOf (c.task.regs.val 8).toNat 15 9 = 0 ∧ bitsOf (c.task.regs.val 8).toNat 63 26 = 0 ∧
      bitsOf (c.task.regs.val 8).toNat 8 0 + bitsOf (c.task.regs.val 8).toNat 25 16 + 1 = 512) ∧
    (∃ (s : State) (c : Cur), s.Issues c ∧ Block c 8 20 ∧ c.task.regs.val 9 = 0 ∧ c.task.regs.val 10 = 0 ∧ c.task.regs.val 11 = 0 ∧
      bitAt (c.task.regs.val 8).toNat 7 = false ∧ bitsOf (c.task.regs.val 8).toNat 19 15 = 0 ∧
      bitsOf (c.task.regs.val 8).toNat 63 25 = 0 ∧ bitsOf (c.task.regs.val 8).toNat 6 0 + bitsOf (c.task.regs.val 8).toNat 14 8 + 1 = 128 ∧
      operandOk (bitsOf (c.task.regs.val 8).toNat 23 20) (bitAt (c.task.regs.val 8).toNat 24) = true) ∧
    ∃ (s : State) (c : Cur), s.Issues c ∧ c.task.gsq.running = true ∧ c.task.regs.Free 20 ∧
      (∀ k ∈ [8, 9, 10, 11], c.task.regs.condOf k = .full ∧ c.task.regs.bad k = false) :=
  ⟨⟨_, _, issues (tkBlock 0x1FF 0 0 0), block _ _ _ _, by decide, by decide, by decide, by decide, by decide, by decide, by decide⟩,
   ⟨_, _, issues (tkBlock 0x20007F 0 0 0), block _ _ _ _, by decide, by decide, by decide, by decide, by decide, by decide, by decide,
     by decide⟩,
   _, _, issues { tkBlock 0 0 0 0 with gsq := { Gsq.start with running := true, sect := 64 } }, by decide, free_of (by decide), by decide⟩

theorem wit_MatrixCommandsIssue_checks :
    mxPasses .mldb 0 0x210000 512 0 [] [] = true ∧ mxPasses .mldbT 0 0x210000 512 0 [] [] = true ∧
    mxPasses .mma 0 (2 * 2 ^ 48) 512 0 [(0, slotOf 2)] [] = true ∧
    mxPasses .mmat 0 (11 * 2 ^ 48 + 2 * 2 ^ 52) 2048 0 [(0, slotOf 13)] [] = true ∧
    mxPasses .mdrn 0 (1 * 2 ^ 32) 128 0 [] [(0, rowHeld)] = true ∧ mxPasses .mscl 0 0 0 0 [] [] = true := by decide

/-- A task with a command that waits for its append. -/
def cmdOf (kind : CmdKind) (w0 w1 w2 w3 : Word) : Cmd := Cmd.new kind 0 w0 w1 w2 w3 0 [] none

def tkWait : Task := { tk0 with appends := [{ rd := 20, tl := 14, cmd := cmdOf .strmOutG 0x10000 64 3 0 }] }

theorem wit_AppendNumbersTheCommand : ∃ (s : State) (c : Cur) (x : Append), s.Issues c ∧ c.task.appends = x :: [] ∧
    (c.task.timeline x.tl).cmds.length < 64 ∧
    (x.cmd.kind.isOut = true → (c.task.snk (BitVec.ofNat 4 (x.cmd.w2.toNat % 16))).fifo = []) :=
  ⟨_, _, _, issues tkWait, rfl, by decide, fun _ => rfl⟩

theorem wit_MatrixStatusAndSequencerStart : ∃ (s : State) (c : Cur), s.Issues c ∧ c.task.regs.Free 4 ∧ c.task.regs.Full 1 ∧
    c.task.regs.bad 1 = false ∧ c.task.gsq.running = false ∧ c.task.regs.val 1 ≠ 0 ∧ c.task.regs.val 0 = 0 :=
  ⟨_, _, issues tk0, free_of (by decide), full_of (by decide), by decide, by decide, by decide, by decide⟩

/-! ### Fabric -/

/-- A pattern from its main fields (R103): opcode, format, mode, the three selectors, SNK and SSEL, with DEPTH field 1. -/
def pat (opc fmt mode a b c snk ssel : Nat) (rest : Nat := 0) : Pattern :=
  BitVec.ofNat 128 (opc * 2 ^ 121 + fmt * 2 ^ 117 + mode * 2 ^ 110 + a * 2 ^ 104 + b * 2 ^ 98 + c * 2 ^ 92 + snk * 2 ^ 87 +
    ssel * 2 ^ 82 + 2 ^ 78 + rest)

/-- PASS from fi0 to fo0. -/
def passPat : Pattern := pat 0x20 0 0 32 0 0 1 0

/-- A block of one PE with that pattern in plane 0 or 1 (R107, R108). -/
def blockBytes (planes : Nat) : List Byte :=
  leBytes 2 1 ++ leBytes 1 1 ++ leBytes 1 1 ++ leBytes 2 1 ++ leBytes 2 1 ++ leBytes 1 planes ++ leBytes 3 0 ++ leBytes 4 48 ++
  leBytes 16 passPat.toNat ++ leBytes 4 (if planes = 2 then 2 ^ 30 else 0) ++ leBytes 12 0

/-- A task with a block at program offset 64, which g4 names, and thicket 0 as given. -/
def tkCfg (planes : Nat) (x : Thicket) : Task :=
  ({ withRegs (fun r => r.write 4 64 false) with prog := memWriteBytes [] 64 (blockBytes planes) } : Task).modTh 0 fun _ => x

/-- A running thicket of one PE at the origin. -/
def thOf (e : Elem) : Thicket :=
  { Thicket.start with st := .running, w := 1, h := 1, filled := 1, elems := [(0, e)], num := 1 }

def elemOf (p : Pattern) (a b c : Option Token) (own : Own) : Elem :=
  { Elem.load [(0, p)] 0 with a := { Input.empty with latch := a }, b := { Input.empty with latch := b },
                              c := { Input.empty with latch := c }, own := own }

def tkTh (x : Thicket) : Task := tk0.modTh 0 fun _ => x

/-- Whether the block validates at a task, and no cell of it is held. -/
def cfgOk (tk : Task) : Bool :=
  let c := curOf (alone tk) tk
  let s := world (alone tk)
  let b := readBlock tk.prog 64
  (validate b (c.cfgEnv s 0 none b.x0 b.y0 (tk.takenOver 0 b.cells) []) 64 c.regionSize).isOk &&
    !b.cells.any (c.cfgEnv s 0 none b.x0 b.y0 (tk.takenOver 0 b.cells) []).held

theorem wit_FabricControlResults :
    (∃ (s : State) (c : Cur), s.Issues c ∧ c.task.regs.Free 5 ∧ c.task.regs.Full 4 ∧ c.task.regs.bad 4 = false ∧
      (c.task.regs.val 4).toNat % 16 = 0 ∧ (c.task.th 0).st = .idle ∧ cfgOk c.task = true ∧
      c.task.progBad (c.task.regs.val 4).toNat (max 16 (readBlock c.task.prog (c.task.regs.val 4).toNat).len) = false) ∧
    (∃ (s : State) (c : Cur), s.Issues c ∧ (c.task.th 0).st = .complete ∧ cfgOk c.task = true) ∧
    (∃ (s : State) (c : Cur), s.Issues c ∧ (c.task.th 0).st = .loading) ∧
    (∃ (s : State) (c : Cur), s.Issues c ∧ (c.task.th 0).st = .saved) ∧
    (∃ (s : State) (c : Cur), s.Issues c ∧ (c.task.th 0).st = .running ∧ (c.task.th 0).marking = false ∧ cfgOk c.task = true ∧
      (0 : BitVec 4).toNat ∈ (c.task.th 0).markPorts ∧ (1 : BitVec 4).toNat ∉ (c.task.th 0).markPorts) ∧
    ∃ (s : State) (c : Cur), s.Issues c ∧ (c.task.th 0).st = .running ∧ (c.task.th 0).marking = true :=
  ⟨⟨_, _, issues (tkCfg 1 Thicket.start), free_of (by decide), full_of (by decide), by decide, by decide, by decide, by decide, by decide⟩,
   ⟨_, _, issues (tkCfg 1 { thOf (elemOf passPat none none none .none) with st := .complete }), by decide, by decide⟩,
   ⟨_, _, issues (tkTh { Thicket.start with st := .loading }), by decide⟩,
   ⟨_, _, issues (tkTh { Thicket.start with st := .saved }), by decide⟩,
   ⟨_, _, issues (tkCfg 1 (thOf (elemOf passPat none none none .none))), by decide, by decide, by decide, by decide, by decide⟩,
   _, _, issues (tkTh { thOf (elemOf passPat none none none .none) with marking := true }), by decide, by decide⟩

/-- CFSW of a valid block into plane 1 of a running thicket of the same shape. -/
theorem wit_FabricControlResults_cfsw :
    let tk := tkCfg 2 (thOf (elemOf passPat none none none .none))
    let c := curOf (alone tk) tk
    let s := world (alone tk)
    let x := c.task.th 0
    let b := readBlock c.task.prog 64
    s.Issues c ∧ c.task.regs.Full 4 ∧ c.task.regs.bad 4 = false ∧ x.st ≠ .idle ∧ x.st ≠ .saved ∧ (1 : BitVec 2) ≠ x.active ∧
    x.loading = none ∧ b.w = x.w ∧ b.h = x.h ∧ c.task.progBad 64 (max 16 b.len) = false ∧
    ∃ ps, validate b (c.cfgEnv s 0 (some 1) x.x0 x.y0 []
      (x.placed 1)) 64 c.regionSize = .ok ps :=
  ⟨issues _, full_of (by decide), by decide, by decide, by decide, by decide, by decide, by decide, by decide, by decide, ok_of (by decide)⟩

/-! ## Witnesses: events of a task's units -/

/-- A task with commands on a counter. -/
def tkCmds (t : BitVec 4) (l : List Cmd) : Task := tk0.modTl t fun x => { x with issued := BitVec.ofNat 64 l.length, cmds := l }

/-- A command with number 1 at a byte position. -/
def cmdAt (kind : CmdKind) (w0 w1 w2 w3 : Word) (pos acked : Nat) : Cmd :=
  { cmdOf kind w0 w1 w2 w3 with num := 1, pos := pos, acked := acked }

/-- Tables that map 0x10000: four levels from 0x100000, the last entry a leaf (R410, R411). -/
def tables : Mem :=
  memWriteBytes (memWriteBytes (memWriteBytes (memWriteBytes [] 0x100000 (leBytes 8 0x101001)) 0x101000 (leBytes 8 0x102001)) 0x102000
    (leBytes 8 0x103001)) 0x103008 (leBytes 8 0x1000F)

/-- A world whose tables map 0x10000. -/
def mapped (s : State) : State := { s with mem := s.mem ++ tables }

def walkWorld : State :=
  { world (alone tk0) with mem := tables, parts := [(0, { part with tlb := [] })] }

theorem wit_CopyEvents :
    (∃ (s : State) (c : Cur) (x : Cmd), s.Issues c ∧ (c.task.timeline 0).cmds = x :: [] ∧ s.debugHeld c.team.vf = false ∧
      x.kind = .cpyS2s ∧ x.stall = none ∧ x.cancelled = false ∧ x.pos < x.w2.toNat % 2 ^ 32 ∧ x.overlaps = false ∧
      bitAt x.w3.toNat 0 = false ∧ bitsOf x.w3.toNat 21 4 * 16 + 16 ≤ x.w1.toNat + x.pos) ∧
    (∃ (s : State) (c : Cur) (x : Cmd), s.Issues c ∧ (c.task.timeline 0).cmds = x :: [] ∧ x.kind.isCpy = true ∧ x.cancelled = false ∧
      x.w2.toNat % 2 ^ 32 ≤ x.pos ∧ bitsOf x.w3.toNat 63 22 = 0 ∧ x.num = (c.task.timeline 0).count.toNat + 1 ∧
      (c.task.timeline 0).done = []) ∧
    (∃ (s : State) (c : Cur) (x : Cmd), s.Issues c ∧ (c.task.timeline 0).cmds = x :: [] ∧ x.kind.isCpy = true ∧ x.cancelled = false ∧
      x.w2.toNat % 2 ^ 32 ≤ x.pos ∧ bitsOf x.w3.toNat 63 22 ≠ 0 ∧ x.kind.globalDst = false ∧ x.w2.toNat % 2 ^ 32 ≠ 0 ∧
      x.stall = none ∧ s.lookup c.team.vf (bitsOf x.w3.toNat 63 22 * 128) c.task.engVia = some page ∧ page.kind = 0 ∧ page.writable = true ∧
      s.stalled c.team.vf (page.pa (bitsOf x.w3.toNat 63 22 * 128)) page.tracked = false) ∧
    ∃ p, walkWorld.part 0 = some p ∧ walk walkWorld.mem p.regs.ptroot 0x10000 = some page ∧ page.writable = true ∧
      p.cached [5] 0x10000 = none :=
  ⟨⟨_, _, _, issues (tkCmds 0 [cmdAt .cpyS2s 0 0x3000 64 0x2000 0 0]), rfl, by decide, rfl, rfl, rfl, by decide, by decide, by decide,
     by decide⟩,
   ⟨_, _, _, issues (tkCmds 0 [cmdAt .cpyG2s 0 0x3000 64 1 64 0]), rfl, rfl, rfl, by decide, by decide, by decide, rfl⟩,
   ⟨_, _, _, issues (tkCmds 0 [cmdAt .cpyS2s 0 0x3000 64 0x80000001 64 0]), rfl, rfl, rfl, by and_intros <;> decide⟩,
   _, rfl, by decide, by decide, by decide⟩

/-- A tracked, writable page of RAW elements, and a world in which the caches of core 0's way hold it; its launch is DISJOINT. -/
def rawPage : TlbEntry := { page with leaf := 0x103CF }

def engWorld (tm : Team) : State := { unmarked tm with parts := [(0, { part with tlb := [(192, rawPage), (0, rawPage)] })] }

theorem raw_held (tm : Team) (via : List Nat) (hv : via = [192, 0] ∨ via = [0]) (va n : Nat) (h : 0x10000 ≤ va) (hn : va + n ≤ 0x20000) :
    (engWorld tm).plainRange 0 via rawPage va n := by
  refine ⟨by decide, by decide, ?_, fun i hi => ⟨rfl, _, rfl, ?_, ?_⟩⟩
  · show va % 65536 + n ≤ 65536
    omega
  · have hp : (va + i) / 2 ^ rawPage.size = rawPage.page := by show (va + i) / 65536 = 1; omega
    rcases hv with rfl | rfl <;> simp [Part.cached, hp]
  · rcases hv with rfl | rfl <;> simp

/-- A copy of 64 bytes from or to the page, with its second range in scratchpad or in the page. -/
def tkCopy (kind : CmdKind) (w0 w1 : Word) : Task := tkCmds 0 [cmdAt kind w0 w1 64 0x2000 0 0]

theorem via_copy (kind : CmdKind) (w0 w1 : Word) : (tkCopy kind w0 w1).ctxVia 0 = [192, 0] := by
  simp [Task.ctxVia, Task.engVia, tkCopy, tkCmds, Task.modTl, tk0, Task.start]

/-- What the clauses of a copy over global memory ask. -/
theorem wit_CopyEvents_global : ∀ (kind : CmdKind) (w0 w1 : Word), kind = .cpyG2s ∨ kind = .cpyS2g ∨ kind = .cpyG2g →
    ∃ (s : State) (c : Cur) (x : Cmd), s.Issues c ∧ (c.task.timeline 0).cmds = x :: [] ∧ s.debugHeld c.team.vf = false ∧
      x.kind = kind ∧ x.w0 = w0 ∧ x.w1 = w1 ∧ x.w2.toNat = 64 ∧ x.stall = none ∧ x.cancelled = false ∧ x.pos = 0 ∧ x.acked = x.pos ∧
      s.uninjected c.team.vf ∧ rawPage.writable = true ∧ rawPage.fmt = 15 ∧
      (∀ va n, 0x10000 ≤ va → va + n ≤ 0x20000 → s.plainRange c.team.vf (c.task.ctxVia 0) rawPage va n) ∧
      ∀ va : Nat, s.markWait c.team c.mem x.seg (rawPage.pa va) 64 = false := fun kind w0 w1 hk =>
  ⟨engWorld (alone (tkCopy kind w0 w1)), curOf (alone (tkCopy kind w0 w1)) (tkCopy kind w0 w1), _, ⟨rfl, rfl, rfl⟩, rfl, rfl, rfl, rfl, rfl,
    rfl, rfl, rfl, rfl, rfl, fun _ h => by cases h; rfl, by decide, by decide,
    fun va n h hn => raw_held _ _ (.inl (via_copy kind w0 w1)) va n h hn, fun va => State.markWait_frontier rfl⟩

/-- The version area has room for what a copy writes. -/
theorem wit_CopyEvents_fits : ∀ kind ∈ [CmdKind.cpyS2g, .cpyG2g],
    (engWorld (alone (tkCopy kind 0x10000 0x10040))).StoreFits 0 0 (alone (tkCopy kind 0x10000 0x10040)) 0 0x10040 0x10040
      (List.replicate 64 0) false := fun kind h => by
  refine ⟨?_, .inr fun p hp => ?_⟩
  · revert kind; decide
  · simp only [List.mem_cons, List.not_mem_nil, or_false] at h
    rcases h with rfl | rfl <;> (cases hp; decide +kernel)

def gtxCmd : Cmd := { cmdAt .gtx 0 0 0 1 0 0 with buf := gridBytes, tab := some table1 }

/-- Whether an engine access answers bytes. -/
def ioOk (x : EngIo) : Bool :=
  match x with
  | .ok _ _ bad => !bad
  | _ => false

theorem io_of {x : EngIo} (h : ioOk x = true) : ∃ s bs, x = .ok s bs false :=
  match x, h with
  | .ok s bs false, _ => ⟨s, bs, rfl⟩

/-- A transfer of one point at a stage: the steps done, and its source region read. -/
def gtxAt (x : Cmd) : Cmd := { x with started := true, src := List.replicate 12 (0, false) }

/-- Whether a transfer is live, unstalled, in scratchpad, and names no sync word or counter. -/
def gtxLive (x : Cmd) : Prop :=
  x.kind = .gtx ∧ x.stall = none ∧ x.cancelled = false ∧ x.tab = some table1 ∧ (readGrid x.buf).global = false ∧
  bitAt x.w3.toNat 0 = true ∧ bitsOf x.w3.toNat 63 22 = 0

theorem wit_TransferEvents :
    (∃ (s : State) (c : Cur) (x : Cmd), s.Issues c ∧ s.debugHeld c.team.vf = false ∧ (c.task.timeline 4).cmds = x :: [] ∧ gtxLive x ∧
      x.pos < (readGrid x.buf).count ∧ x.started = false) ∧
    (∃ (s : State) (c : Cur) (x : Cmd), let g := readGrid x.buf
      s.Issues c ∧ (c.task.timeline 4).cmds = x :: [] ∧ gtxLive x ∧ x.pos < g.count ∧ x.started = true ∧
      x.src.length + 1 = gridSpan g.sn g.ws g.sp1 g.sp2) ∧
    (∃ (s : State) (c : Cur) (x : Cmd), let g := readGrid x.buf
      s.Issues c ∧ (c.task.timeline 4).cmds = x :: [] ∧ gtxLive x ∧ x.pos < g.count ∧ x.started = true ∧
      x.src.length = gridSpan g.sn g.ws g.sp1 g.sp2 ∧ (g.value table1 x.src (g.pointAt x.pos)).isSome = true) ∧
    (∃ (s : State) (c : Cur) (x : Cmd), let g := readGrid x.buf
      s.Issues c ∧ (c.task.timeline 4).cmds = x :: [] ∧ gtxLive x ∧ x.pos < g.count ∧ x.started = true ∧
      gridSpan g.sn g.ws g.sp1 g.sp2 ≤ x.src.length ∧ g.value table1 x.src (g.pointAt x.pos) = none) ∧
    ∃ (s : State) (c : Cur) (x : Cmd), s.Issues c ∧ (c.task.timeline 4).cmds = x :: [] ∧ gtxLive x ∧ (readGrid x.buf).count = x.pos :=
  ⟨⟨_, _, _, issues (tkCmds 4 [gtxCmd]), rfl, rfl, by unfold gtxLive; decide, by decide, rfl⟩,
   ⟨_, _, _, issues (tkCmds 4 [{ gtxAt gtxCmd with src := List.replicate 11 (0, false) }]), rfl, by unfold gtxLive; decide, by decide, rfl,
     by decide⟩,
   ⟨_, _, _, issues (tkCmds 4 [gtxAt gtxCmd]), rfl, by unfold gtxLive; decide, by decide, rfl, by decide, by decide +kernel⟩,
   ⟨_, _, _, issues (tkCmds 4 [gtxAt { gtxCmd with buf := gridOf 3 }]), rfl, by unfold gtxLive; decide, by decide, rfl, by decide,
     by decide +kernel⟩,
   _, _, _, issues (tkCmds 4 [{ gtxAt gtxCmd with pos := 1 }]), rfl, by unfold gtxLive; decide, by decide⟩

/-- A transfer whose one destination point lies in a page that the caches hold: not started, and with its source read. -/
def gtxGlobal : Cmd := { gtxCmd with buf := gridOf 0 0x10000 1 }

theorem wit_TransferEvents_global :
    let tk (x : Cmd) : Task := tkCmds 4 [x]
    let g := readGrid gtxGlobal.buf
    (∀ x ∈ [gtxGlobal, gtxAt gtxGlobal], (engWorld (alone (tk x))).Issues (curOf (alone (tk x)) (tk x)) ∧
      ∀ k, k < g.count → (engWorld (alone (tk x))).plainRange 0 [192, 0] rawPage (g.dstAt (g.pointAt k)) 4) ∧
    (tk gtxGlobal).ctxVia 4 = [192, 0] ∧ g.global = true ∧ rawPage.writable = true ∧ rawPage.fmt = 15 ∧ gtxGlobal.started = false ∧
    gridSpan g.sn g.ws g.sp1 g.sp2 = (gtxAt gtxGlobal).src.length ∧
    ((g.value table1 (gtxAt gtxGlobal).src (g.pointAt 0)).any fun v => v.1.length == 4) = true ∧
    (engWorld (alone (tk (gtxAt gtxGlobal)))).StoreFits 0 0 (alone (tk (gtxAt gtxGlobal))) 0 0x10000 0x10000 [0, 0, 0, 0] false := by
  refine ⟨fun x _ => ⟨⟨rfl, rfl, rfl⟩, fun k hk => raw_held _ _ (.inl rfl) _ _ ?_ ?_⟩, by decide, by decide, by decide, by decide, by decide,
    by decide, by decide +kernel, by decide, .inr fun p hp => by cases hp; decide +kernel⟩
  all_goals
    have h0 : k = 0 := Nat.lt_one_iff.1 hk
    subst h0
    decide

def gthCmd : Cmd := cmdAt .gth 0x10000 0x100 0x100000000 1 0 0

theorem wit_GatherEvents : ∃ (s s1 : State) (c : Cur) (x : Cmd) (bs : List Byte), s.Issues c ∧ (c.task.timeline 6).cmds = x :: [] ∧
    x.kind = .gth ∧ x.stall = none ∧ x.cancelled = false ∧ x.started = false ∧
    (c.task.spadBytes c.team.carve x.w1.toNat (4 * gthCount x.w2)).2 = false ∧
    s.gthRead c.tid c.mem c.team.vf 6 x (tabulate (gthCount x.w2) fun i => (x.w0.toNat + gthSize x.w2 *
      leNat (((c.task.spadBytes c.team.carve x.w1.toNat (4 * gthCount x.w2)).1.drop (4 * i)).take 4)) % 2 ^ 64) = .ok s1 bs false :=
  have ⟨s1, bs, h⟩ := io_of (x := (unmarked (alone (tkCmds 6 [gthCmd]))).gthRead 0 0 0 6 gthCmd [0x10000]) (by decide)
  ⟨_, s1, curOf (alone (tkCmds 6 [gthCmd])) (tkCmds 6 [gthCmd]), _, bs, ⟨rfl, rfl, rfl⟩, rfl, rfl, rfl, rfl, rfl, by decide, h⟩

/-- A port's command that has met end-of-stream. -/
theorem wit_StreamEvents :
    (∃ (s : State) (c : Cur) (x : Cmd), s.Issues c ∧ c.task.portCmd false 3 = some x ∧ x.acked ≠ 0 ∧ c.task.portHead 3 = none ∧
      ∀ h ∈ (c.task.src 3).phases, h.2.back = 0) ∧
    ∃ (s : State) (c : Cur) (x : Cmd), s.Issues c ∧ c.task.portCmd true 3 = some x ∧ x.acked ≠ 0 ∧ (c.task.snk 3).fifo = [] :=
  ⟨⟨_, _, _, issues (tkCmds 14 [cmdAt .strmInG 0x10000 0 3 0 0 1]), rfl, by decide, by decide, by decide⟩,
   _, _, _, issues (tkCmds 14 [cmdAt .strmOutG 0x10000 0 3 0 0 1]), rfl, by decide, rfl⟩

/-- A member with one arrival of command 1 of member 0 waiting in its exchange. -/
def tkPx (l : List Cmd) : Task := { tkCmds 9 l with px := [{ sender := 0, num := 1, off := 3, val := 7, bad := false, hit := false }] }

theorem wit_ExchangeEvents :
    (∃ (s : State) (c : Cur) (x : Cmd), s.Issues c ∧ (c.task.timeline 9).cmds = x :: [] ∧ x.stall = none ∧ x.cancelled = false ∧
      s.debugHeld c.team.vf = false ∧ x.kind = .pxst ∧ x.pos < x.w2.toNat % 2 ^ 32 ∧ bitAt x.w3.toNat 0 = true ∧
      (c.team.members[bitsOf x.w1.toNat 53 48]?).isSome = true ∧ c.team.swapping (bitsOf x.w1.toNat 53 48) = false) ∧
    (∃ (s : State) (c : Cur) (x : Cmd), s.Issues c ∧ (c.task.timeline 9).cmds = x :: [] ∧ x.kind = .pxcp ∧ x.acked < x.pos ∧
      x.acked < x.w2.toNat % 2 ^ 32 ∧ (c.team.members[bitsOf x.w1.toNat 53 48]?).isSome = true) ∧
    ∃ (s : State) (c : Cur) (x : Cmd), s.Issues c ∧ (c.task.timeline 9).cmds = x :: [] ∧ x.kind = .pxst ∧
      x.w2.toNat % 2 ^ 32 ≤ x.acked ∧ bitsOf x.w3.toNat 63 22 = 0 ∧ ∃ tk b, c.team.members[bitsOf x.w1.toNat 53 48]? = some tk ∧
        tk.px = [] ++ b :: [] ∧ b.sender = c.mem ∧ b.num = x.num ∧ b.hit = false :=
  ⟨⟨_, _, _, issues (tkCmds 9 [cmdAt .pxst 0 0 64 1 0 0]), rfl, by and_intros <;> decide⟩,
   ⟨_, _, _, issues (tkCmds 9 [cmdAt .pxcp 0 0 128 1 128 0]), rfl, by and_intros <;> decide⟩,
   _, _, _, issues (tkPx [cmdAt .pxst 0 0 64 1 64 64]), rfl, rfl, by decide, by decide, _, _, rfl, rfl, rfl, rfl, rfl⟩

/-- A PXCP whose source lies in a page that the caches hold. -/
theorem wit_ExchangeEvents_pxcp : ∃ (s : State) (c : Cur) (x : Cmd), s.Issues c ∧ (c.task.timeline 9).cmds = x :: [] ∧ x.kind = .pxcp ∧
    x.stall = none ∧ x.cancelled = false ∧ s.debugHeld c.team.vf = false ∧ x.pos < x.w2.toNat % 2 ^ 32 ∧ bitAt x.w3.toNat 0 = true ∧
    (c.team.members[bitsOf x.w1.toNat 53 48]?).isSome = true ∧ c.team.swapping (bitsOf x.w1.toNat 53 48) = false ∧
    s.plainRange c.team.vf (c.task.ctxVia 9) rawPage x.w0.toNat (x.w2.toNat % 2 ^ 32) ∧ x.w0.toNat % 64 + 64 ≤ 64 ∧
    s.markWait c.team c.mem x.seg (rawPage.pa x.w0.toNat) 64 = false ∧ s.uninjected c.team.vf :=
  let tk := tkCmds 9 [cmdAt .pxcp 0x10000 0 64 1 0 0]
  ⟨engWorld (alone tk), curOf (alone tk) tk, _, ⟨rfl, rfl, rfl⟩, rfl, rfl, rfl, rfl, by decide, by decide, by decide, by decide, by decide,
    raw_held _ _ (.inl (by decide)) 0x10000 64 (by decide) (by decide), by decide, State.markWait_frontier rfl, fun _ h => by cases h; rfl⟩

/-- A matrix task: commands on tl8, slots and rows. -/
def tkMxe (l : List Cmd) (slots : List (Nat × Slot)) (rows : List (Nat × Row)) : Task :=
  { tkCmds 8 l with mxe := { Mxe.start 0 with slots := slots, rows := rows } }

/-- What MXE_COMMAND_COMPLETE asks of the head command at every kind. -/
def HeadOfTl8 (s : State) (c : Cur) (x : Cmd) : Prop :=
  s.Issues c ∧ s.debugHeld c.team.vf = false ∧ (c.task.timeline 8).cmds = x :: [] ∧ x.cancelled = false ∧ x.stall = none ∧
  mapGet x.num c.task.gsq.adds = none

theorem head_of_tl8 (x : Cmd) (slots : List (Nat × Slot)) (rows : List (Nat × Row)) (hc : x.cancelled = false) (hs : x.stall = none) :
    HeadOfTl8 (world (alone (tkMxe [x] slots rows))) (curOf (alone (tkMxe [x] slots rows)) (tkMxe [x] slots rows)) x :=
  ⟨issues _, rfl, rfl, hc, hs, rfl⟩

set_option maxRecDepth 20000 in
theorem wit_MatrixEvents :
    (∃ s c x, HeadOfTl8 s c x ∧ x.kind = .mclr) ∧ (∃ s c x, HeadOfTl8 s c x ∧ x.kind = .mscl) ∧
    (∃ s c x, HeadOfTl8 s c x ∧ x.kind = .mzb) ∧
    (∃ s c x, HeadOfTl8 s c x ∧ x.kind = .mdrn ∧ (∀ r ∈ span (drnRow x.w1) (drnM x.w1), (c.task.mxe.row r).valid = true) ∧
      bitAt x.w1.toNat 39 = false ∧ bitAt x.w1.toNat 41 = false ∧ 4 * fmtWidth (drnFmt x.w1) ≤ x.w2.toNat) ∧
    (∃ s c x, HeadOfTl8 s c x ∧ x.kind = .mma ∧ x.tiles ≤ x.pos ∧ mmaPort x.w0 = false) ∧
    (∃ s c x, HeadOfTl8 s c x ∧ x.kind = .mma ∧ x.tiles ≤ x.pos ∧ mmaPort x.w0 = true ∧ c.task.mxeSkip (mmaFo x) 0 = none) ∧
    ∃ s c x, HeadOfTl8 s c x ∧ x.kind = .mldb ∧ ldbSpace x.w1 ≠ 0 ∧
      (ldbRuns x (ldbFmt x.w1) (ldbMx x.w1)).length ≤ x.pos ∧ ldbTern x (ldbFmt x.w1) (x.buf.drop 1) = none :=
  ⟨⟨_, _, _, head_of_tl8 (cmdAt .mclr 0 0 0 0 0 0) [] [] rfl rfl, rfl⟩, ⟨_, _, _, head_of_tl8 (cmdAt .mscl 0 0 0 0 0 0) [] [] rfl rfl, rfl⟩,
   ⟨_, _, _, head_of_tl8 (cmdAt .mzb 0x200000 0 0 0 0 0) [] [] rfl rfl, rfl⟩,
   ⟨_, _, _, head_of_tl8 (cmdAt .mdrn 0 0x100000000 128 0 0 0) [] [(0, rowHeld)] rfl rfl, rfl, by decide, by decide, by decide, by decide⟩,
   ⟨_, _, _, head_of_tl8 (cmdAt .mma 0 0x2000000000000 512 0 1 0) [(0, slotOf 2)] [] rfl rfl, rfl, by decide, by decide⟩,
   ⟨_, _, _, head_of_tl8 (cmdAt .mma 0x8000000000000003 0x2000000000000 512 0 1 0) [(0, slotOf 2)] [] rfl rfl, rfl, by decide, by decide,
     by decide⟩,
   _, _, _, head_of_tl8 (cmdAt .mldb 0 0x10000 256 0 1000 0) [] [] rfl rfl, rfl, by decide, by decide, by decide⟩

/-- An FP64 tile of one row of A against a slot of zeros. -/
def tileCmd : Cmd := cmdAt .mma 0 0x10000000000000 256 0 0 0

theorem wit_MatrixEvents_tile :
    let tk := tkMxe [tileCmd] [(0, slotOf 0)] []
    let c := curOf (alone tk) tk
    let a := [c.task.aRow c.team.carve tileCmd 32 0 0]
    let bv := tabulate 32 fun y => tabulate 32 fun n => (slotOf 0).value y n
    let before := [(c.task.mxe.row 0).open_ 0 1]
    mmaPort tileCmd.w0 = false ∧ tileCmd.pos < tileCmd.tiles ∧ (∀ n ∈ span (mSlot tileCmd.w1) (mCnt tileCmd.w1), c.task.mxe.slot n ≠ none) ∧
    c.task.mxe.slot (mSlot tileCmd.w1) = some (slotOf 0) ∧ (∀ r ∈ span (mmaRow tileCmd.w1) (mmaM tileCmd.w1), (c.task.mxe.row r).valid = true) ∧
    tabulate (tileRows (mmaM tileCmd.w1) 0) (fun r => c.task.aRow c.team.carve tileCmd 32 r 0) = a ∧ passLen (slotOf 0).fmt = 32 ∧
    mmaAcc tileCmd.w1 = 1 ∧ c.task.mxe.upset = 0 ∧
    tileOk (a.map (·.1)) bv before (tileAdd 0 1 bv (slotOf 0).poison before a) (tileTol 0 1 32) = true := by decide +kernel

/-- A section of one node, MCLR of row 0, at 0x10000 (R249, R250). -/
def gsqWorld : State :=
  { unmarked (alone { tk0 with gsq := { Gsq.start with running := true, sect := 0x10000 } }) with
    mem := memWriteBytes (memWriteBytes [] 0x10000 (leBytes 4 1 ++ leBytes 2 1)) 0x10040 [5] }

theorem wit_MatrixEvents_node : ∃ (c : Cur) (s1 s2 : State) (hb nb : List Byte) (h : Nat × Nat × Word × Word),
    let walker := Cmd.new .mclr 0 0 0 0 0 c.team.openSeq [] none
    gsqWorld.Issues c ∧ c.task.gsq.running = true ∧ (∀ p, gsqWorld.part c.team.vf = some p → p.stalled = []) ∧
    (c.task.timeline 8).cmds.length < Config.chainSize ∧ c.task.appends = [] ∧ c.task.gsq.sect.toNat % 64 = 0 ∧
    gsqWorld.engRead c.tid c.mem 8 walker c.task.gsq.sect.toNat 64 = .ok s1 hb false ∧ sectionOf c.task.gsq.sect hb = some h ∧
    s1.engRead c.tid c.mem 8 walker ((c.task.gsq.sect.toNat + 64 * (c.task.gsq.node + 1)) % 2 ^ 64) 64 = .ok s2 nb false ∧
    nodeKind (nb.getD 0 0).toNat = some .mclr ∧ (nb.getD 1 0).toNat < 1 ∧ leNat ((nb.drop 2).take 6) = 0 ∧
    mxCheck (c.mxEnv s2) .mclr 0 (s2.loadCode c (nodeWord nb 0 0) (nodeWord nb 0 1)) (nodeWord nb 0 0) (nodeWord nb 0 1) (nodeWord nb 0 2) (nodeWord nb 0 3) = none := by
  refine ⟨curOf (alone { tk0 with gsq := { Gsq.start with running := true, sect := 0x10000 } })
    { tk0 with gsq := { Gsq.start with running := true, sect := 0x10000 } }, _, _, _, _, _, ⟨rfl, rfl, rfl⟩, rfl,
    fun _ h => by cases h; rfl, by decide, rfl, by decide, rfl, rfl, rfl, by decide, by decide, by decide, by decide⟩

/-! ## Witnesses: the region controller, links, elements -/

/-- A DATA token of sixteen 32-bit lanes of a value. -/
def tok (v : Nat) : Token := { repeatToken 32 v with head := true, tail := true }

/-- A task whose thicket 0 is x and whose port fi0 is p. -/
def tkPort (x : Thicket) (p : SrcPort) : Task := (tkTh x).modSrc 0 fun _ => p

/-- PASS from fi0 to accumulator 0. -/
def accPat : Pattern := pat 0x20 10 0 32 0 0 1 16

/-- A thicket of one PASS to an accumulator; `f` changes it. -/
def thPass (f : Thicket → Thicket) : Thicket := f (thOf (elemOf accPat none none none .none))

/-- The PASS with its requests sent: nothing of it can move while fi0 serves nothing. -/
def elemIdle : Elem := { elemOf accPat none none none .none with a := { latch := none, req := true, chan := [] }, snkReq := [16] }

def cntPat : Pattern := pat 0x2D 0 0 32 0 0 1 16

/-- A source port with these notes on the phase of thicket 0. -/
def noted (g : PortPhase → PortPhase) : SrcPort := { SrcPort.start with phases := [(0, g (PortPhase.begin_ 0 0 1))] }

/-- The module at the clock at which the deadline of markers that entered at clock 0 ends (R364). -/
def deadline (tk : Task) : State := { world (alone { tk with markClk := some 0 }) with clk := 60000 }

theorem wit_RegionControllerEvents_moves :
    (∃ (s : State) (c : Cur), s.Issues c ∧ (c.task.th 0).st = .loading) ∧
    (∃ (s : State) (c : Cur), s.Issues c ∧ (c.task.th 0).moves = true ∧ (c.task.th 0).incomplete = 0 ∧
      (c.task.th 0).num = (c.task.timeline 10).count.toNat + 1 ∧ (c.task.timeline 10).done = []) ∧
    (∃ (s : State) (c : Cur), s.Issues c ∧ (c.task.th 0).loading = some (1, [(0, accPat)], false) ∧ (c.task.th 0).st ≠ .loading ∧
      (c.task.th 0).st ≠ .saved) ∧
    (∃ (s : State) (c : Cur), s.Issues c ∧ (c.task.th 0).moves = true ∧ 0 ∈ (c.task.th 0).sources ∧
      ((c.task.src 0).phase 0).eos = false ∧ c.task.portHead 0 = none ∧ (c.task.src 0).inject = [] ∧
      s.portHeld c.team c.task 0 = false ∧ c.task.roundDue 0 0 = true ∧ ((c.task.src 0).phase 0).tail = true) ∧
    (∃ (s : State) (c : Cur), s.Issues c ∧ (c.task.th 0).moves = true ∧ 0 ∈ (c.task.th 0).sources ∧
      ((c.task.src 0).phase 0).eos = false ∧ c.task.portHead 0 = none ∧ (c.task.src 0).inject = [] ∧
      s.portHeld c.team c.task 0 = false ∧ (c.task.th 0).interval = some 4096 ∧ 4096 ≤ ((c.task.src 0).phase 0).since) :=
  ⟨⟨_, _, issues (tkTh (thPass fun x => { x with st := .loading })), by decide +kernel⟩,
   ⟨_, _, issues (tkTh (thOf { elemIdle with snkEos := true })), by and_intros <;> decide +kernel⟩,
   ⟨_, _, issues (tkTh (thPass fun x => { x with loading := some (1, [(0, accPat)], false) })), by and_intros <;> decide +kernel⟩,
   ⟨_, _, issues (tkPort (thPass fun x => { x with roundPlanes := [1] }) SrcPort.start), by and_intros <;> decide +kernel⟩,
   _, _, issues (tkPort (thOf (elemOf cntPat none none none .none)) (noted fun h => { h with since := 4096 })),
     by and_intros <;> decide +kernel⟩

/-- A task of the one-PE thicket with nothing left to do, whose count began at a clock; stopped by an earlier QUIESCE, or not. -/
def tkCalm (stopped : Bool) (calm : Option Word) : Task :=
  tkPort { thOf elemIdle with stopped := stopped, calm := calm } (noted fun h => { h with eos := true })

/-- What the count asks of the module and the task in focus. -/
def Counts (s : State) (c : Cur) : Prop :=
  s.Issues c ∧ (c.task.th 0).st = .running ∧ (c.task.th 0).err = none ∧ (c.task.th 0).incomplete ≠ 0 ∧ c.task.regs.handler = false ∧
  c.task.causes = [] ∧ s.debugHeld c.team.vf = false ∧ c.task.countHeld 0 (c.task.th 0) = false ∧
  ((c.task.th 0).stopped = true ∨ c.injects s 0 = false ∧ ∀ e ∈ (c.task.th 0).elems, s.elemMoves c 0 e.1 e.2 = false)

/-- The count not begun, one cycle before its end, and at its end; and after an earlier QUIESCE. -/
theorem wit_RegionControllerEvents_quiesce :
    (∃ (s : State) (c : Cur), Counts s c ∧ (c.task.th 0).calm = none) ∧
    (∃ (s : State) (c : Cur), Counts s c ∧ (c.task.th 0).calm = some 1 ∧ (s.clk - 1).toNat = 65535) ∧
    (∃ (s : State) (c : Cur), Counts s c ∧ (c.task.th 0).calm = some 0 ∧ (s.clk - 0).toNat = 65536) ∧
    ∃ (s : State) (c : Cur), Counts s c ∧ (c.task.th 0).stopped = true := by
  have w : ∀ st calm, ({ world (alone (tkCalm st calm)) with clk := 65536 } : State).Issues (curOf (alone (tkCalm st calm)) (tkCalm st calm)) :=
    fun _ _ => ⟨rfl, rfl, rfl⟩
  exact ⟨⟨_, _, ⟨w false none, by and_intros <;> decide +kernel⟩, rfl⟩,
    ⟨_, _, ⟨w false (some 1), by and_intros <;> decide +kernel⟩, rfl, rfl⟩,
    ⟨_, _, ⟨w false (some 0), by and_intros <;> decide +kernel⟩, rfl, rfl⟩,
    _, _, ⟨w true none, by and_intros <;> decide +kernel⟩, rfl⟩

/-- The count goes on no more: a source port without a command and end-of-stream, and an element that moves. -/
theorem wit_RegionControllerEvents_uncounted :
    (∃ (s : State) (c : Cur), s.Issues c ∧ (c.task.th 0).calm = some 0 ∧ c.task.countHeld 0 (c.task.th 0) = true) ∧
    ∃ (s : State) (c : Cur), s.Issues c ∧ (c.task.th 0).calm = some 0 ∧ (c.task.th 0).stopped = false ∧
      ∃ e ∈ (c.task.th 0).elems, s.elemMoves c 0 e.1 e.2 = true :=
  ⟨⟨_, _, issues (tkPort { thOf elemIdle with calm := some 0 } (noted id)), by and_intros <;> decide +kernel⟩,
   _, _, issues (tkTh (thPass fun x => { x with calm := some 0 })), by and_intros <;> decide +kernel⟩

theorem wit_RegionControllerEvents_errors :
    (∃ (s : State) (c : Cur), s.Issues c ∧ (c.task.th 0).err = some (0, true) ∧ (c.task.th 0).st = .running ∧
      (c.task.th 0).stopped = false ∧ (c.task.th 0).lastFix ≠ some (c.task.th 0).checked ∧ c.task.holdsSince 0 = true) ∧
    (∃ (s : State) (c : Cur), s.Issues c ∧ (c.task.th 0).err = some (0, false) ∧ (c.task.th 0).st = .running ∧
      (c.task.th 0).stopped = false ∧ (c.task.th 0).lastFix = some (c.task.th 0).checked) ∧
    (∃ (s : State) (c : Cur), s.Issues c ∧ (c.task.th 0).err = some (0, false) ∧ (c.task.th 0).st = .running ∧
      (c.task.th 0).stopped = false ∧ c.task.holdsSince 0 = false) ∧
    (∃ (s : State) (c : Cur), s.Issues c ∧ (c.task.th 0).st = .running ∧ (c.task.th 0).marking = true ∧ c.markerOver s = true ∧
      c.task.holdsSince 0 = true ∧ (c.task.th 0).err = none) ∧
    ∃ (s : State) (c : Cur), s.Issues c ∧ (c.task.th 0).st = .running ∧ (c.task.th 0).marking = true ∧ c.markerOver s = true ∧
      c.task.holdsSince 0 = false ∧ c.team.st = .running ∧ (c.task.th 0).err = none :=
  ⟨⟨_, _, issues (tkPort (thPass fun x => { x with err := some (0, true) }) (noted id)), by and_intros <;> decide +kernel⟩,
   ⟨_, _, issues (tkTh (thPass fun x => { x with err := some (0, false), lastFix := some 0 })), by and_intros <;> decide +kernel⟩,
   ⟨_, _, issues (tkPort (thPass fun x => { x with err := some (0, false) }) { noted id with base := 5 }), by and_intros <;> decide +kernel⟩,
   ⟨deadline (tkPort (thPass fun x => { x with marking := true }) (noted id)), _, ⟨rfl, rfl, rfl⟩, by and_intros <;> decide +kernel⟩,
   deadline (tkPort (thPass fun x => { x with marking := true }) { noted id with base := 5 }), _, ⟨rfl, rfl, rfl⟩,
     by and_intros <;> decide +kernel⟩

/-- Whether a supply is a token. -/
def suppliesTok (x : Supply) : Bool :=
  match x with
  | .got _ _ => true
  | _ => false

theorem supply_of {x : Supply} (h : suppliesTok x = true) : ∃ s k, x = .got s k :=
  match x, h with
  | .got s k, _ => ⟨s, k, rfl⟩

/-- A port fi0 whose head is a token that the PE at the origin has not taken. -/
def srcHead (x : Token) : SrcPort := { SrcPort.start with cur := some (x, [0]) }

/-- An element of the PE at the origin with a token of a kind at a. -/
def elemMark (k : Kind) : Elem := elemOf accPat (some (controlToken k 0)) none none .none

/-- The one PE of thicket 0 in a world, moving. -/
def Links (s : State) (c : Cur) (e : Elem) : Prop :=
  s.Issues c ∧ (c.task.th 0).elem (placeKey (.pe 0 0)) = some e ∧ (c.task.th 0).moves = true

theorem links (e : Elem) : Links (world (alone (tkTh (thOf e)))) (curOf (alone (tkTh (thOf e))) (tkTh (thOf e))) e :=
  ⟨issues _, rfl, rfl⟩

theorem wit_LinkEvents_inputs :
    (∃ (s : State) (c : Cur) (e : Elem), Links s c e ∧ e.recording (c.task.th 0).marking = false ∧ e.saved = false ∧ pOpc e.pat ≠ 0 ∧
      streamSel (e.sel 0) = true ∧ (e.input 0).latch = none ∧ (e.input 0).chan = [] ∧ (e.input 0).req = false) ∧
    (∃ (s : State) (c : Cur) (e : Elem), Links s c e ∧ e.recording (c.task.th 0).marking = false ∧ e.saved = false ∧ pOpc e.pat ≠ 0 ∧
      streamSel (e.sel 0) = true ∧ (e.input 0).latch = none ∧ (e.input 0).chan = tok 1 :: []) ∧
    (∃ (s : State) (c : Cur) (e : Elem), s.Issues c ∧ (c.task.th 0).elem (placeKey (.pe 0 0)) = some e ∧ (c.task.th 0).moves = true ∧
      e.recording (c.task.th 0).marking = false ∧ e.saved = false ∧ pOpc e.pat ≠ 0 ∧ streamSel (e.sel 0) = true ∧
      (e.input 0).latch = none ∧ (e.input 0).chan = [] ∧ (e.input 0).req = true ∧
      ∃ s1 k, s.supply c.tid c.mem 0 (placeKey (.pe 0 0)) 0 = .got s1 k) :=
  ⟨⟨_, _, _, links (elemOf accPat none none none .none), by and_intros <;> decide +kernel⟩,
   ⟨_, _, _, links { elemIdle with a := { latch := none, req := false, chan := [tok 1] } }, by and_intros <;> decide +kernel⟩,
   _, _, _, issues (tkPort (thOf elemIdle) (srcHead (tok 7))), rfl, rfl, by decide +kernel, rfl, by decide +kernel, by decide +kernel,
     rfl, rfl, rfl, supply_of (by decide +kernel)⟩

/-- A delivery to accumulator 0 to ask, by its pattern or by an entry of an earlier plane's; and one asked, with its entry. -/
theorem wit_LinkEvents_sinks :
    (∃ (s : State) (c : Cur) (e : Elem), Links s c e ∧ keyClass (placeKey (.pe 0 0)) = 0 ∧ e.snkReq = [] ∧ e.out = [] ∧
      e.sinks.head? = some 16) ∧
    (∃ (s : State) (c : Cur) (e : Elem), Links s c e ∧ pSnk e.pat = false ∧ e.snkReq = [] ∧ e.sinks.head? = some 16) ∧
    (∃ (s : State) (c : Cur) (e : Elem) (x : Entry) (es : List Entry), Links s c e ∧ e.snkReq = [16] ∧ e.giveSink 16 = some (x, es) ∧
      x.tok.kind = .data) :=
  ⟨⟨_, _, _, links (elemOf accPat none none none .none), by and_intros <;> decide +kernel⟩,
   ⟨_, _, _, links { elemOf (pat 0x20 0 0 32 0 0 0 0) none none none .none with out := [{ tok := tok 5, mask := 1, alt := false, pat := accPat }] },
     by and_intros <;> decide +kernel⟩,
   _, _, _, _, _, links { elemIdle with out := [{ tok := tok 5, mask := 1, alt := false, pat := accPat }] }, rfl, rfl, rfl⟩

theorem wit_LinkEvents_marks :
    (∃ (s : State) (c : Cur) (e : Elem), Links s c e ∧ e.fault = none ∧ e.pend = [] ∧ e.pendPlane = none ∧
      e.room (placeKey (.pe 0 0)) = true ∧ holdsBack e.pat e = false ∧ wrongKind e.pat e = false ∧
      (∀ i ∈ streams e.pat, heldInput e.pat i = true → ∀ y, (e.input i).latch = some y → y.kind.dataClass = true) ∧
      e.marks e.pat = some [controlToken .round 0] ∧ cntFails e.pat e (controlToken .round 0) = false ∧ e.own = .none ∧
      terminal e.pat = false ∧ mainMask e.pat ≠ 0) ∧
    (∃ (s : State) (c : Cur) (e : Elem), Links s c e ∧ wrongKind e.pat e = false ∧ e.marks e.pat = some [controlToken .bal 0] ∧
      cntFails e.pat e (controlToken .bal 0) = false) ∧
    (∃ (s : State) (c : Cur) (e : Elem), Links s c e ∧ wrongKind e.pat e = false ∧ e.marks e.pat = some [controlToken .eos 0] ∧
      cntFails e.pat e (controlToken .eos 0) = false) ∧
    ∃ (s : State) (c : Cur) (e : Elem), s.Issues c ∧ (c.task.th 0).elem (placeKey (.pe 0 0)) = some e ∧ (c.task.th 0).moves = true ∧
      (c.task.th 0).marking = true ∧ e.saved = false ∧ e.ckptReady = true ∧ e.pendPlane = none :=
  ⟨⟨_, _, _, links (elemMark .round), by and_intros <;> decide +kernel⟩, ⟨_, _, _, links (elemMark .bal), by and_intros <;> decide +kernel⟩,
   ⟨_, _, _, links (elemMark .eos), by and_intros <;> decide +kernel⟩,
   _, _, _, issues (tkTh { thOf (elemMark .ckpt) with marking := true }), rfl, by and_intros <;> decide +kernel⟩

/-- A PE with two stream inputs, the CKPT of one taken and a request on the other. -/
def elemRec : Elem :=
  { elemOf (pat 0x01 10 0 32 33 0 1 16) none (some (controlToken .ckpt 0)) none .none with a := { latch := none, req := true, chan := [] } }

theorem wit_LinkEvents_record : ∃ (s : State) (c : Cur) (e : Elem), s.Issues c ∧ (c.task.th 0).elem (placeKey (.pe 0 0)) = some e ∧
    (c.task.th 0).moves = true ∧ e.recording (c.task.th 0).marking = true ∧ (e.input 0).ckpt = false ∧ (e.input 0).req = true ∧
    streamSel (e.sel 0) = true ∧ ∃ s1 k, s.supply c.tid c.mem 0 (placeKey (.pe 0 0)) 0 = .got s1 k :=
  ⟨_, _, _, issues (tkPort { thOf elemRec with marking := true } (srcHead (tok 7))), rfl, rfl, by decide +kernel, rfl, rfl,
    by decide +kernel, supply_of (by decide +kernel)⟩

/-- A request element with one request of 0x10000 in lane 0 of a. -/
def elemTxq : Elem :=
  { Elem.load [(0, pat 0x2B 15 0 32 0 0 1 1)] 0 with own := .txq [({ plainToken with payload := 0x10000, vmask := 3 }, none)] }

def tkTxq : Task := tkTh { thOf (elemOf passPat none none none .none) with elems := [(80, elemTxq)] }

theorem wit_LinkEvents_txq : ∃ (s : State) (c : Cur) (e : Elem), s.Issues c ∧ (c.task.th 0).elem (placeKey (.request 0)) = some e ∧
    (c.task.th 0).moves = true ∧ placeKey (.request 0) = 80 + (0 : BitVec 2).toNat ∧ e.saved = false ∧
    e.recording (c.task.th 0).marking = false ∧ e.pendPlane = none ∧ (∀ q, s.part c.team.vf = some q → q.stalled = []) ∧
    ∃ s1 bs, s.txqReply c.tid c.mem 0 c.team.openSeq.toNat (2 ^ (pAux e.pat % 4)) { plainToken with payload := 0x10000, vmask := 3 } =
      .ok s1 bs false :=
  ⟨unmarked (alone tkTxq), curOf (alone tkTxq) tkTxq, _, ⟨rfl, rfl, rfl⟩, rfl, rfl, rfl, rfl, rfl, rfl, fun _ h => by cases h; rfl,
    io_of (by decide +kernel)⟩

/-! ### Firings -/

/-- What lets the element of the one-PE thicket fire, as a check. -/
def mayFire (e : Elem) (opc : Nat) : Bool :=
  decide (pOpc e.pat = opc) && e.fault.isNone && !e.saved && e.pend.isEmpty && e.pendPlane.isNone && !wrongKind e.pat e && !pacedError e.pat e &&
    (e.room 0 || terminal e.pat)

/-- The task of an element's world. -/
def curTh (e : Elem) : Cur := curOf (alone (tkTh (thOf e))) (tkTh (thOf e))

theorem mayFire_of {e : Elem} {opc : Nat} (h : mayFire e opc = true) : (curTh e).MayFire 0 (.pe 0 0) e opc := by
  simp only [mayFire, Bool.and_eq_true, decide_eq_true_eq, Bool.or_eq_true, Option.isNone_iff_eq_none, Bool.not_eq_true',
    List.isEmpty_iff] at h
  obtain ⟨⟨⟨⟨⟨⟨⟨h1, h2⟩, h3⟩, h4⟩, h5⟩, h6⟩, h7⟩, h8⟩ := h
  exact ⟨rfl, rfl, h1, h2, h3, rfl, h4, h5, h6, h7, h8.elim .inl fun h => .inr (.inl h)⟩

/-- Whether input i offers a token. -/
def offersTok (e : Elem) (i : Nat) (k : Kind) : Bool :=
  match offer ((curTh e).task.fireEnv (curTh e).team.carve 0 e 0) e.pat e i k with
  | .tok _ => true
  | _ => false

theorem offers_of {e : Elem} {i : Nat} {k : Kind} (h : offersTok e i k = true) :
    ∃ x, (curTh e).Offers (world (alone (tkTh (thOf e)))) (.pe 0 0) e i k x := by
  unfold offersTok at h
  split at h
  · rename_i x hx
    exact ⟨x, hx⟩
  · cases h

/-- The operands of a firing whose b is not held. -/
def operandsOk (e : Elem) (k : Kind) : Bool := offersTok e 0 k && offersTok e 1 .data && offersTok e 2 .data && e.held.isNone

theorem operands_of {e : Elem} {k : Kind} (h : operandsOk e k = true) :
    ∃ x y z, (curTh e).Operands (world (alone (tkTh (thOf e)))) (.pe 0 0) e k x y z := by
  simp only [operandsOk, Bool.and_eq_true, Option.isNone_iff_eq_none] at h
  obtain ⟨⟨⟨ha, hb⟩, hc⟩, hh⟩ := h
  obtain ⟨x, hx⟩ := offers_of ha
  obtain ⟨y, hy⟩ := offers_of hb
  obtain ⟨z, hz⟩ := offers_of hc
  refine ⟨x, y, z, hx, hz, ?_⟩
  rw [if_neg (by simp [Elem.reuses, hh])]
  exact hy

/-- An element of an opcode with streams at a, b and c that hold tokens. -/
def three (opc fmt mode : Nat) (own : Own := .none) (rest : Nat := 0) : Elem :=
  elemOf (pat opc fmt mode 32 33 34 1 16 rest) (some (tok 5)) (some (tok 3)) (some (tok 9)) own

/-- Every element of the list may fire with its operands. -/
theorem fires_of {l : List (Nat × Elem)} (h : l.all (fun x => mayFire x.2 x.1 && operandsOk x.2 .data) = true) :
    ∀ x ∈ l, ∃ (s : State) (c : Cur), s.Issues c ∧ c.MayFire 0 (.pe 0 0) x.2 x.1 ∧ ∃ a b z, c.Operands s (.pe 0 0) x.2 .data a b z := by
  intro x hx
  have := List.all_eq_true.mp h x hx
  rw [Bool.and_eq_true] at this
  exact ⟨_, curTh x.2, issues _, mayFire_of this.1, operands_of this.2⟩

theorem wit_ElementLaneResults : ∀ x ∈ ([0x01, 0x02, 0x03, 0x04, 0x05, 0x06, 0x07, 0x08, 0x09, 0x19, 0x0D, 0x0E, 0x0F, 0x10, 0x11, 0x12,
      0x13, 0x14].map fun k => (k, three k 10 0)),
    ∃ (s : State) (c : Cur), s.Issues c ∧ c.MayFire 0 (.pe 0 0) x.2 x.1 ∧ ∃ a b z, c.Operands s (.pe 0 0) x.2 .data a b z := fires_of (by decide +kernel)

theorem wit_ElementConversionResults : ∀ x ∈ [(0x0A, three 0x0A 1 0), (0x0B, three 0x0B 1 0), (0x0B, three 0x0B 1 2),
      (0x0B, three 0x0B 1 2 (.vals [(1, true)] true)), (0x0C, three 0x0C 2 0), (0x16, three 0x16 10 0),
      (0x16, three 0x16 10 0 (.red [4] true)), (0x17, three 0x17 10 0), (0x17, three 0x17 10 0 (.scn (some 4))), (0x18, three 0x18 15 0)],
    ∃ (s : State) (c : Cur), s.Issues c ∧ c.MayFire 0 (.pe 0 0) x.2 x.1 ∧ ∃ a b z, c.Operands s (.pe 0 0) x.2 .data a b z := fires_of (by decide +kernel)

/-- VLUT with an empty table and a token at b, and with a full one and none at b. -/
theorem wit_ElementConversionResults_lut :
    ((curTh (three 0x15 10 0 (.lut []))).MayFire 0 (.pe 0 0) (three 0x15 10 0 (.lut [])) 0x15 ∧
      (three 0x15 10 0 (.lut [])).b.latch = some (tok 3) ∧ (tok 3).kind = .data) ∧
    let e := elemOf (pat 0x15 10 0 32 33 0 1 16) (some (tok 5)) none none (.lut (List.replicate 256 7))
    (curTh e).MayFire 0 (.pe 0 0) e 0x15 ∧ e.b.latch = none ∧ ∃ x, (curTh e).Offers (world (alone (tkTh (thOf e)))) (.pe 0 0) e 0 .data x :=
  ⟨⟨mayFire_of (by decide +kernel), rfl, rfl⟩, mayFire_of (by decide +kernel), rfl, offers_of (by decide +kernel)⟩

theorem wit_ElementRoutingResults : ∀ x ∈ [(0x20, three 0x20 0 1), (0x21, three 0x21 0 0 .none 0x40000000000000000),
      (0x21, three 0x21 0 0 (.dup 1)), (0x26, three 0x26 0 0), (0x26, three 0x26 0 1 (.hold (tok 4))), (0x22, three 0x22 0 0),
      (0x23, three 0x23 0 1), (0x23, three 0x23 0 1 (.fair 1 (some 0))), (0x24, three 0x24 0 0 .none 0x10000000000000000),
      (0x25, three 0x25 0 0), (0x28, three 0x28 10 0), (0x28, three 0x28 10 0 (.ctrn [tok 1])),
      (0x29, three 0x29 10 0), (0x39, three 0x39 11 0), (0x39, three 0x39 11 0 (.tsel 3))],
    ∃ (s : State) (c : Cur), s.Issues c ∧ c.MayFire 0 (.pe 0 0) x.2 x.1 ∧ ∃ a b z, c.Operands s (.pe 0 0) x.2 .data a b z := fires_of (by decide +kernel)

/-- JOIN .ORD with disjoint lanes. -/
def disjointLanes : Elem :=
  elemOf (pat 0x23 10 0 32 33 0 1 16) (some { tok 5 with vmask := 0x00FF }) (some { tok 3 with vmask := 0xFF00 }) none .none

theorem wit_ElementRoutingResults_join : (curTh disjointLanes).MayFire 0 (.pe 0 0) disjointLanes 0x23 ∧
    (∃ x y z, (curTh disjointLanes).Operands (world (alone (tkTh (thOf disjointLanes)))) (.pe 0 0) disjointLanes .data x y z) ∧
    pMode disjointLanes.pat = 0 ∧ (0x00FF#16 &&& 0xFF00#16) = 0 :=
  ⟨mayFire_of (by decide +kernel), operands_of (by decide +kernel), by decide +kernel, by decide +kernel⟩

/-- RECI with no token at its back edge and occupancy below its limit, RATE with a SCALE token at b and none held. -/
theorem wit_ElementRoutingResults_entry :
    (let e := elemOf (pat 0x24 10 0 32 33 0 1 16 (2 ^ 64)) (some (tok 5)) none none (.reci 1)
     (curTh e).MayFire 0 (.pe 0 0) e 0x24 ∧ e.b.latch = none ∧ streamSel (pSel e.pat 1) = true ∧ 1 ≤ pAux e.pat % 16 ∧
      ∃ x, (curTh e).Offers (world (alone (tkTh (thOf e)))) (.pe 0 0) e 0 .data x) ∧
    (let e := elemOf (pat 0x27 7 0 32 33 0 1 16) (some (tok 5)) none none (.rate (some (controlToken .scale 0)) 2)
     (curTh e).MayFire 0 (.pe 0 0) e 0x27 ∧ pMode e.pat ≠ 1 ∧
       ∃ x, (curTh e).Offers (world (alone (tkTh (thOf e)))) (.pe 0 0) e 0 .data x) ∧
    let e := elemOf (pat 0x27 7 0 32 33 0 1 16) (some (tok 5)) (some (controlToken .scale 0)) none .none
    (curTh e).MayFire 0 (.pe 0 0) e 0x27 ∧ pMode e.pat ≠ 1 ∧ e.b.latch = some (controlToken .scale 0) ∧
      ∃ x, (curTh e).Offers (world (alone (tkTh (thOf e)))) (.pe 0 0) e 0 .data x :=
  ⟨⟨mayFire_of (by decide +kernel), rfl, by decide +kernel, by decide +kernel, offers_of (by decide +kernel)⟩,
    ⟨mayFire_of (by decide +kernel), by decide +kernel, offers_of (by decide +kernel)⟩,
    mayFire_of (by decide +kernel), by decide +kernel, rfl, offers_of (by decide +kernel)⟩

/-- A token of increments: one step, every increment 1 (R216). -/
def incTok : Token := incrToken (tok 0) [List.replicate 16 1] false

/-- TSEL with no reserved code in the quarter of the TERN token that it takes next, first and last. -/
theorem wit_ElementRoutingResults_tsel : ∀ k, k < 64 → (tok 5).val 2 k ≠ 2 ∧ (tok 5).val 2 (64 * 3 + k) ≠ 2 := by decide +kernel

theorem wit_ElementStateResults : ∀ x ∈ [(0x2A, three 0x2A 10 1), (0x2A, three 0x2A 10 2), (0x2A, three 0x2A 10 0), (0x2B, three 0x2B 15 0),
      (0x2C, three 0x2C 0 0), (0x2D, three 0x2D 0 0), (0x2D, three 0x2D 0 0 (.cnt 3 1)), (0x31, three 0x31 1 0), (0x38, three 0x38 1 0),
      (0x38, three 0x38 1 0 (.lrec (List.replicate 16 1)))],
    ∃ (s : State) (c : Cur), s.Issues c ∧ c.MayFire 0 (.pe 0 0) x.2 x.1 ∧ ∃ a b z, c.Operands s (.pe 0 0) x.2 .data a b z := fires_of (by decide +kernel)

/-- SPAD .FIFO that holds a token, and TXQ's aligned addresses. -/
theorem wit_ElementStateResults_fifo :
    let e := three 0x2A 10 0 (.fifo [tok 1] 1)
    (curTh e).MayFire 0 (.pe 0 0) e 0x2A ∧ pMode e.pat = 0 ∧ e.room (placeKey (.pe 0 0)) = true ∧
      ∀ j, j < 8 → (tok 8).ok 64 j = true → (tok 8).val 64 j % 2 ^ 3 = 0 :=
  ⟨mayFire_of (by decide +kernel), by decide +kernel, by decide +kernel, by decide +kernel⟩

/-- SPAD .FIFO with no free entry and one place left in its window of one granule. -/
theorem wit_ElementStateResults_fill :
    let e := { three 0x2A 10 0 (.fifo (List.replicate 1023 (tok 1)) 1023) with
      out := List.replicate 4 { tok := tok 1, mask := 1, alt := false, pat := passPat } }
    e.room 0 = false ∧ 1023 < (pAux e.pat % 4 + 1) * Config.granule / 64 ∧
      ∃ x y z, (curTh e).Operands (world (alone (tkTh (thOf e)))) (.pe 0 0) e .data x y z :=
  ⟨by decide +kernel, by decide +kernel, operands_of (by decide +kernel)⟩

/-- DDAI with its y to come from c as a STATE token; then with increments at a and b and no state due. -/
def ddaiDue : Elem := elemOf (pat 0x30 14 0 32 33 34 1 16) (some incTok) (some incTok) (some (controlToken .state 0)) .none
def ddaiConst : Elem := elemOf (pat 0x30 14 0 32 33 5 1 16) (some incTok) (some incTok) none .none
def ddaiStep : Elem := elemOf (pat 0x30 14 0 32 33 0 1 16) (some incTok) (some incTok) none .none

theorem wit_ElementStateResults_ddai :
    ((curTh ddaiDue).MayFire 0 (.pe 0 0) ddaiDue 0x30 ∧ pSel ddaiDue.pat 2 ≠ 0 ∧ ddaiDue.c.latch = some (controlToken .state 0) ∧
      ∃ x, (curTh ddaiDue).Offers (world (alone (tkTh (thOf ddaiDue)))) (.pe 0 0) ddaiDue 0 .data x) ∧
    ((curTh ddaiConst).MayFire 0 (.pe 0 0) ddaiConst 0x30 ∧ pSel ddaiConst.pat 2 ≠ 0 ∧ streamSel (pSel ddaiConst.pat 2) = false ∧
      (∃ x, (curTh ddaiConst).Offers (world (alone (tkTh (thOf ddaiConst)))) (.pe 0 0) ddaiConst 0 .data x) ∧
      ∃ k, (curTh ddaiConst).Offers (world (alone (tkTh (thOf ddaiConst)))) (.pe 0 0) ddaiConst 2 .state k) ∧
    ((curTh ddaiStep).MayFire 0 (.pe 0 0) ddaiStep 0x30 ∧ pSel ddaiStep.pat 2 = 0 ∧ stepCount incTok = some 1 ∧
      (∃ x, (curTh ddaiStep).Offers (world (alone (tkTh (thOf ddaiStep)))) (.pe 0 0) ddaiStep 0 .data x) ∧
      (∃ x, (curTh ddaiStep).Offers (world (alone (tkTh (thOf ddaiStep)))) (.pe 0 0) ddaiStep 1 .data x) ∧
      ∀ i, i < 16 → (incrAt incTok 0 i).2 = false ∧
        integrate (bitsOf (pK ddaiStep.pat) 13 8) (bitsOf (pK ddaiStep.pat) 21 16) (bitAt (pK ddaiStep.pat) (32 + i))
          (laneOf ddaiStep.bank i).y (laneOf ddaiStep.bank i).rem (incrAt incTok 0 i).1 (incrAt incTok 0 i).1 ≠ none) :=
  ⟨⟨mayFire_of (by decide +kernel), by decide +kernel, rfl, offers_of (by decide +kernel)⟩,
    ⟨mayFire_of (by decide +kernel), by decide +kernel, by decide +kernel, offers_of (by decide +kernel), offers_of (by decide +kernel)⟩,
    mayFire_of (by decide +kernel), by decide +kernel, by decide +kernel, offers_of (by decide +kernel),
    offers_of (by decide +kernel), by decide +kernel⟩

/-- DDAL's lanes convert, DDAO takes a STATE token as its first and second half, INCS adds increments. -/
def ddao (own : Own) : Elem := elemOf (pat 0x32 1 0 32 0 0 1 16) (some (controlToken .state 0)) none none own
def incs : Elem := elemOf (pat 0x33 14 0 32 33 0 1 16) (some incTok) (some incTok) none .none

theorem wit_ElementStateResults_converters :
    (∀ i, i < 16 → ddalY 0 0 (decodeNum 1 ((tok 0x3F800000).val 32 i)) (decodeNum 1 0x3F800000) ≠ none) ∧
    (∀ own ∈ [Own.none, .ddao (controlToken .state 0)], (curTh (ddao own)).MayFire 0 (.pe 0 0) (ddao own) 0x32 ∧
      ∃ x y z, (curTh (ddao own)).Operands (world (alone (tkTh (thOf (ddao own))))) (.pe 0 0) (ddao own) .state x y z) ∧
    (curTh incs).MayFire 0 (.pe 0 0) incs 0x33 ∧
    (∃ x, (curTh incs).Offers (world (alone (tkTh (thOf incs)))) (.pe 0 0) incs 0 .data x) ∧
    (∃ x, (curTh incs).Offers (world (alone (tkTh (thOf incs)))) (.pe 0 0) incs 1 .data x) ∧ stepCount incTok = some 1 ∧
    ∀ i, i < 16 → (incrAt incTok 0 i).2 = false ∧ -7 ≤ (incrAt incTok 0 i).1 + (incrAt incTok 0 i).1 ∧ (incrAt incTok 0 i).1 + (incrAt incTok 0 i).1 ≤ 7 := by
  refine ⟨by decide +kernel, ?_, mayFire_of (by decide +kernel), offers_of (by decide +kernel), offers_of (by decide +kernel), by decide +kernel, by decide +kernel⟩
  intro own h
  simp only [List.mem_cons, List.not_mem_nil, or_false] at h
  rcases h with rfl | rfl
  · exact ⟨mayFire_of (by decide +kernel), operands_of (by decide +kernel)⟩
  · exact ⟨mayFire_of (by decide +kernel), operands_of (by decide +kernel)⟩


/-! ## Witnesses: binding, launches, swaps -/

/-- The launch with an image at 0x10000, and a world of one team of it. -/
def imageLaunch : Launch := { launch with hdr := { launch.hdr with kptr := 0x10000 } }

def sched (l : Launch) (tm : Team) : State := { world tm with launches := [(0, l)] }

/-- The lone task's team in another state, its member changed. -/
def inState (st : TeamState) (f : Task → Task) : Team := { alone (f tk0) with st := st }

/-- A saved team, a staged team whose member loads or is ready, and one that came back from a save. -/
def savedTeam : Team := inState .saved fun tk => { tk with slot := .unbound }
def loadingTeam : Team := inState .staged fun tk => { tk with slot := .loading }
def readyTeam : Team := inState .staged fun tk => { tk with slot := .ready }

/-- A team of two that is to swap them. -/
def swapping : Team := { pair tk0 none with swaps := [(0, 1)] }

/-- A launch in bind mode, and a record of it with no trace. -/
def boundLaunch : Launch := { launch with mode := 2 }

def recorded : RecEntry :=
  { key := 0, occ := 0, team := 0, trunc := true, sumchk := false, digest := [], sig := 0, pairs := [(0, (5, false))], msum := 5, trace := [] }

def withRecord (s : State) (r : RecEntry) : State := { s with parts := [(0, { part with recs := [(0, [r])] })] }

/-- The code that the checks every record passes give, the trace's as said (R306). -/
def failsOf (s : State) (d n : Nat) (l : Launch) (r : BindRec) (traced : Bool) : Nat :=
  let away := match s.part l.vf with
    | none => true
    | some q => (r.cores d).any fun x => !q.desc.sprigs.any fun y => y.toNat = x / 4
  if l.hdr.hasWid r.wid = false then 4 else if l.stage = .held then 6
  else if r.resume ≠ s.savedContext n r.wid then 5 else if traced = true then 8
  else if r.tsz ≠ l.hdr.team ∨ r.core % teamSize r.tsz ≠ 0 then 3 else if away = true then 2 else 0

/-- A record of an operation on a core of the first die, and its resume bit. -/
def recOf (op core : Nat) (resume : Bool) : BindRec :=
  bindRec (BitVec.ofNat 128 (op * 2 ^ 62 + core * 2 ^ 24 + if resume then 2 ^ 21 else 0))

theorem wit_BindingEvents_records :
    (recOf 0 1 false).op = 0 ∧ (recOf 0 1 false).zero = 0 ∧ (recOf 1 0 false).op = 1 ∧ (recOf 2 0 true).op = 2 ∧ (recOf 3 0 false).op = 3 ∧
    (bindRec 1).zero ≠ 0 ∧ (bindRec 1).op = 0 ∧ (bindRec (2 ^ 62 + 1)).zero ≠ 0 ∧ (bindRec (2 ^ 63 + 1)).zero ≠ 0 ∧
    (∀ op, op < 3 → (world (alone tk0)).bindLaunch 0 (bindRec (BitVec.ofNat 128 (op * 2 ^ 62 + 2 ^ 30))) = none) ∧ (11#4).toNat < 12 := by
  decide +kernel

/-- Each check of a record, failed first: a work identifier outside, a HELD launch, a context that is not saved, a trace that has
ended, a group of another size, a core of another partition; and none failed, new, resumed, and on the team's own core. -/
theorem wit_BindingEvents_checks : ∀ x ∈ ([
      (sched launch (alone tk0), launch, bindRec (2 ^ 64), false, 4),
      (sched { launch with stage := .held } (alone tk0), { launch with stage := .held }, recOf 0 1 false, false, 6),
      (sched launch (alone tk0), launch, recOf 0 1 true, false, 5), (sched launch savedTeam, launch, recOf 0 1 false, false, 5),
      (withRecord (sched boundLaunch (alone tk0)) { recorded with trunc := false }, boundLaunch, recOf 0 1 false, true, 8),
      (sched launch (alone tk0), launch, bindRec (2 ^ 22), false, 3), (sched launch (alone tk0), launch, recOf 0 4 false, false, 2),
      (sched launch (alone tk0), launch, recOf 0 3 false, false, 0), (sched launch savedTeam, launch, recOf 0 1 true, false, 0),
      (sched launch (alone tk0), launch, recOf 1 0 false, false, 0), (sched launch loadingTeam, launch, recOf 2 0 false, false, 0),
      (sched launch { loadingTeam with resumed := true }, launch, recOf 2 0 true, false, 0)]
      : List (State × Launch × BindRec × Bool × Nat)),
    x.2.2.1.zero = 0 ∧ x.1.bindLaunch 0 x.2.2.1 = some (0, x.2.1) ∧ failsOf x.1 0 0 x.2.1 x.2.2.1 x.2.2.2.1 = x.2.2.2.2 ∧
    x.2.2.2.1 = x.1.traceRefuses x.2.1 0 0 x.2.2.1.core x.2.2.1.wid := by
  decide +kernel

/-- A group with a staged slot, or in a swap, and free ones. -/
theorem wit_BindingEvents_bind :
    ((recOf 0 0 false).cores 0).any (fun x => (sched launch loadingTeam).stagedAt x || (sched launch loadingTeam).swappingAt x) = true ∧
    ((recOf 0 1 false).cores 0).any (fun x => (sched launch swapping).stagedAt x || (sched launch swapping).swappingAt x) = true ∧
    ((recOf 0 3 false).cores 0).any (fun x => (sched launch (alone tk0)).stagedAt x || (sched launch (alone tk0)).swappingAt x) = false ∧
    ((recOf 0 1 true).cores 0).any (fun x => (sched launch savedTeam).stagedAt x || (sched launch savedTeam).swappingAt x) = false ∧
    (sched launch savedTeam).teamOf 0 0 .saved = some (0, savedTeam) ∧
    ∀ tk ∈ (savedTeam.restage 1 0).members, tk.slot ≠ .gone → ((sched launch savedTeam).placed tk tk.core).isSome = true := by
  decide +kernel

/-- A saved team with two thickets that each take the whole grid: no core has room for both. -/
def crowdedTeam : Team :=
  let whole : Thicket := { Thicket.start with st := .saved, w := 8, h := 8 }
  inState .saved fun tk => { (tk.modTh 0 fun _ => whole).modTh 1 fun _ => whole with slot := .unbound }

theorem wit_BindingEvents_crowded :
    let s := sched launch crowdedTeam
    s.bindLaunch 0 (recOf 0 1 true) = some (0, launch) ∧ failsOf s 0 0 launch (recOf 0 1 true) false = 0 ∧
    s.traceRefuses launch 0 0 (recOf 0 1 true).core (recOf 0 1 true).wid = false ∧
    ((recOf 0 1 true).cores 0).any (fun x => s.stagedAt x || s.swappingAt x) = false ∧ s.teamOf 0 0 .saved = some (0, crowdedTeam) ∧
    ∃ tk ∈ (crowdedTeam.restage 1 0).members, tk.slot ≠ .gone ∧ s.placed tk tk.core = none := by
  decide +kernel

/-- MOVE and WITHDRAW with no such team on the named group, with one in a swap or with a member that saves, and with one to act on. -/
theorem wit_BindingEvents_move :
    let swaps : Team := { alone tk0 with swaps := [(0, 0)] }
    let saves : Team := alone { tk0 with slot := .saving }
    (sched launch (alone tk0)).teamThere 0 (recOf 1 1 false) 0 .running = none ∧
    (sched launch (alone tk0)).teamThere 0 (recOf 1 0 false) 0 .running = some (0, alone tk0) ∧ (alone tk0).swaps = [] ∧
    (∀ tk ∈ (alone tk0).members, tk.slot = .running ∨ tk.slot = .retiring) ∧
    (sched launch swaps).teamThere 0 (recOf 1 0 false) 0 .running = some (0, swaps) ∧ swaps.swaps ≠ [] ∧
    swaps.swapFrom ≠ some (sched launch swaps).clk ∧
    (let ahead : Team := { swaps with swapFrom := some 0 }
     (sched launch ahead).teamThere 0 (recOf 1 0 false) 0 .running = some (0, ahead) ∧ ahead.swaps ≠ [] ∧
       ahead.swapFrom = some (sched launch ahead).clk) ∧
    (sched launch saves).teamThere 0 (recOf 1 0 false) 0 .running = some (0, saves) ∧
    (∃ tk ∈ saves.members, tk.slot ≠ .running ∧ tk.slot ≠ .retiring) ∧
    (sched launch (alone tk0)).teamThere 0 (recOf 2 0 false) 0 .staged = none ∧
    (sched launch loadingTeam).teamThere 0 (recOf 2 0 false) 0 .staged = some (0, loadingTeam) ∧ loadingTeam.resumed = false ∧
    (sched launch { loadingTeam with resumed := true }).teamThere 0 (recOf 2 0 true) 0 .staged =
      some (0, { loadingTeam with resumed := true }) := by
  decide +kernel

theorem wit_BindingEvents_load :
    let s := mapped (sched imageLaunch loadingTeam)
    s.teams.find? (fun x => x.2.st = .staged && x.2.members.any fun tk => tk.core = (0#10).toNat && tk.slot = .loading) =
      some (0, loadingTeam) ∧ s.launchOf loadingTeam = some imageLaunch ∧
    s.image loadingTeam.vf imageLaunch.hdr.kptr.toNat loadingTeam.carve.prog = some ([], []) := by
  decide +kernel

/-- A finished team; a record of its launch with another digest, and with its own. -/
def finishedTeam : Team :=
  { alone { tk0 with slot := .retiring } with segs := [], openSeg := none }

def recordWorld (v : Word) : State := withRecord (sched boundLaunch finishedTeam) { recorded with pairs := [(0, (v, false))] }

theorem wit_BindingEvents_team :
    (readyTeam.st = .staged ∧ ∀ tk ∈ readyTeam.members, tk.slot = .ready ∧ (sched launch readyTeam).runningAt tk.core = false) ∧
    (let tm := inState .saving id
     (sched launch tm).failing tm = false ∧ ∀ tk ∈ tm.members, (if tk.slot = .gone then tk else tk.markAll 0).settled = true) ∧
    ((alone tk0).finished = false ∧ (sched launch (alone tk0)).toCompare (alone tk0) launch = none) ∧
    finishedTeam.finished = true ∧ (sched launch finishedTeam).failing finishedTeam = false ∧
    (sched launch finishedTeam).toCompare finishedTeam launch = none ∧
    (recordWorld finishedTeam.digest).toCompare finishedTeam boundLaunch = some finishedTeam.digest ∧
    (recordWorld 5).toCompare finishedTeam boundLaunch = some 5 ∧ 5 ≠ finishedTeam.digest ∧ (recordWorld 5).failing finishedTeam = false ∧
    (let s : State := { sched launch readyTeam with clk := 6000001 }
     tk0.core < 768 ∧ (s.slotTable (tk0.core / 64)).wdog < s.clk.toNat - readyTeam.stagedFor) := by
  decide +kernel

/-- A launch that has retired its one work identifier, and the same when it is COMPLETE. -/
def retiredLaunch (host : Bool) (done : Word) : Launch :=
  { launch with retired := [(0, (7, false))], host := host, hdr := { launch.hdr with done := done } }

def completeLaunch (host : Bool) (done : Word) : Launch := { retiredLaunch host done with stage := .complete }

/-- A world whose device ring is full. -/
def fullRing (l : Launch) : State :=
  { sched l (alone tk0) with parts := [(0, { part with regs := { part.regs with dltail := part.regs.dlhead + 4096 } })] }

theorem wit_LaunchAndSwapEvents_dispatch :
    let l := { launch with stage := Stage.pooled }
    (sched l (alone tk0)).parentDone l = true ∧ l.hdr.work ≠ l.retired.length ∧ ((sched l (alone tk0)).listed l.vf).length < part.desc.listSize := by
  decide +kernel

/-- A pooled launch all of whose work was abandoned. -/
theorem wit_LaunchAndSwapEvents_spent :
    let l := { retiredLaunch true 0 with stage := Stage.pooled }
    (sched l (alone tk0)).parentDone l = true ∧ l.hdr.work = l.retired.length ∧ (sched l (alone tk0)).recordOf l = none := by
  decide +kernel

theorem wit_LaunchAndSwapEvents_met :
    (sched { launch with stage := .held } (alone tk0)).depMet { launch with stage := .held } = true := by
  decide +kernel

/-- A HELD launch whose counter a write met, and which stands below its value again. -/
theorem wit_LaunchAndSwapEvents_waited :
    let l := { launch with stage := Stage.held }
    ({ sched l (alone tk0) with waits := [⟨.launch 0, 0x10000, 5, true⟩] } : State).waitMet (.launch 0) = true := by decide +kernel

/-- A record for the host or the ring, with and without a DONE counter; and one that waits for the ring. -/
theorem wit_LaunchAndSwapEvents_complete (host : Bool) (d : Word) (h : d = 0 ∨ d = 0x10000) :
    let l := retiredLaunch host d
    let s := mapped (sched l (alone tk0))
    l.stage = .ready ∧ l.retired.length = l.hdr.work ∧ l.posted = false ∧ s.recordOf l = none ∧
    (s.completionHeld (completeLaunch host d) || s.logFull (s.addDone (completeLaunch host d)) 0) = false ∧
    (d = 0 ∨ s.lookup 0 d.toNat [] = some page ∧ page.kind = 0 ∧ page.writable = true) ∧
    (fullRing l).completionHeld (completeLaunch false d) = true := by
  rcases h with rfl | rfl <;> cases host <;> decide +kernel

/-- A tick that is not due, one that is, and one during a seal. -/
theorem wit_LaunchAndSwapEvents_tick :
    let b := 4 * (11#4).toNat + (3#2).toNat
    let due : State := { world (alone tk0) with clk := 600000 }
    (world (alone tk0)).clk.toNat / 600000 < (mapGet b (world (alone tk0)).swapTicks).getD 0 + 1 ∧
    (mapGet b due.swapTicks).getD 0 + 1 ≤ due.clk.toNat / 600000 := by
  decide +kernel

theorem wit_LaunchAndSwapEvents_swap :
    let s := world swapping
    swapping.st = .running ∧ s.failing swapping = false ∧ swapping.swaps = (0, 1) :: [] ∧ swapping.members[0]? = some tk0 ∧
    swapping.members[1]? = some { tk0 with core := 1 } ∧ (tk0.markAll s.clk).settled = true ∧
    (({ tk0 with core := 1 } : Task).markAll s.clk).settled = true ∧
    (s.placed { tk0.markAll s.clk with core := 1 } 1).isSome = true := by
  decide +kernel

/-- A world with a due record of an issue at core 0, and a buffer of a size. -/
def glintWorld (size : Nat) : State :=
  { world (alone tk0) with parts := [(0, { part with desc := { desc with glintSize := size },
                                                     dbg := { part.dbg with glintDue := [List.replicate 64 0] } })] }

theorem wit_LaunchAndSwapEvents_glint : ∀ size ∈ [64, 0], ∃ p : Part,
    (glintWorld size).parts.find? (fun q => q.2.dbg.glintDue.any (glintIs 0 0 0)) = some (0, p) ∧ (glintWorld size).part 0 = some p ∧
    p.dbg.glintDue.find? (glintIs 0 0 0) = some (List.replicate 64 0) ∧ p.desc.glintSize = size ∧ p.dbg.glint = [] := by
  intro size h
  simp only [List.mem_cons, List.not_mem_nil, or_false] at h
  rcases h with rfl | rfl
  · exact ⟨_, rfl, rfl, rfl, rfl, rfl⟩
  · exact ⟨_, rfl, rfl, rfl, rfl, rfl⟩

/-! ## Witnesses: recovery, host, module -/

/-- A seal of interval 1 in progress with these answers. -/
def sealing (a : List (Nat × Bool)) : Sealing := { num := 1, copy := SealCopy.start, answered := a, since := 0 }

/-- A task that waits in SEALW for interval 1. -/
def tkSealw : Task := { tk0 with arrived := some (.sealw 1) }

def sealWorld (a : List (Nat × Bool)) : State := { world (alone tkSealw) with sealing := some (sealing a), clk := 6000000 }

/-- A world whose coordinator is another module, and one of a domain of two modules that it coordinates. -/
def follower (a : List (Nat × Bool)) : State := { sealWorld a with own := 5, domain := [3] }
def leader (a : List (Nat × Bool)) : State := { sealWorld a with domain := [3] }

/-- The same one cycle past the coordinator's timeout; and with a marker wave of a running thicket that is late. -/
def lateLeader (a : List (Nat × Bool)) : State := { leader a with clk := 6000001 }
def waving : State := { sealWorld [] with teams := [(0, alone (tkSealw.modTh 0 fun x => { x with st := .running }))] }

theorem wit_RecoveryEvents_due :
    (let s : State := { world (alone tk0) with clk := 600000, sealDue := true }
     s.power = .on ∧ s.coordinates = true ∧ s.sealPeriod ≤ (s.clk - s.sealClk).toNat ∧ s.sealing = none ∧
       ∀ t ∈ s.teams, t.2.swaps = []) ∧
    (follower []).coordinates = false ∧ (∃ t ∈ (world swapping).teams, t.2.swaps ≠ []) := by
  decide +kernel

theorem wit_RecoveryEvents_answers :
    ((0#8).toNat = (sealWorld []).own ∧ mapGet (0#8).toNat (sealing []).answered = none) ∧
    ((leader []).coordinates = true ∧ (3#8).toNat ∈ (leader []).domain ∧ mapGet (3#8).toNat (sealing []).answered = none) ∧
    ((leader []).clk - (sealing []).since).toNat ≤ 6000000 ∧ waving.waveLate (sealing []) = true ∧
    mapSorted (sealWorld []).parts = true ∧ (sealWorld []).consumed = none ∧
    ((sealWorld [(0, true)]).own = 0 ∧ (sealWorld [(0, true)]).domain = [] ∧ mapGet 0 (sealing [(0, true)]).answered = some true) := by
  decide +kernel

/-- An abort at a member, an abort for a FAIL answer, and a timeout for an answer of the other module that has not come. -/
theorem wit_RecoveryEvents_abort :
    (follower []).coordinates = false ∧ (∃ y ∈ (sealing [(0, false)]).answered, y.2 = false) ∧
    ((lateLeader [(0, true)]).coordinates = true ∧ 6000000 < ((lateLeader [(0, true)]).clk - (sealing [(0, true)]).since).toNat ∧
      ∃ d, d ∈ (lateLeader []).domain ∧ mapGet d (sealing [(0, true)]).answered = none) ∧
    (sealWorld []).sealWaiters (sealing []).num = [(0, 0)] ∧ (sealWorld []).failing (alone tkSealw) = false ∧
    tkSealw.regs.handler = false ∧ tkSealw.regs.tvec ≠ 0 ∧ tkSealw.regs.poisonSr.getLsbD 16 = false ∧ bitAt (1#64).toNat 0 = true :=
  ⟨by decide +kernel, by decide +kernel, ⟨by decide +kernel, by decide +kernel, 3, by decide +kernel, by decide +kernel⟩,
    by and_intros <;> decide +kernel⟩

/-- The pre-image of line 0x400, and a module that has consumed poison since. -/
def preImage : LogRec := { line := 0x400, rin := 1, kind := 0, poison := false, data := List.replicate 64 3 }

def rollWorld : State :=
  { world (alone tk0) with consumed := some ⟨0, 0, 0⟩, parts := [(0, { part with log := [preImage] })] }

/-- A write of line 0x400 of a tracked page is the first of the open interval, and a later one. -/
theorem wit_Logs : page.tracked = true ∧
    (∀ q ∈ (world (alone tk0)).parts, ∀ r ∈ q.2.log, ¬(r.rin = (world (alone tk0)).rin ∧ r.kind = 0 ∧ r.line = 0x10000 / 64)) ∧
    ∃ q ∈ rollWorld.parts, ∃ r ∈ q.2.log, r.rin = rollWorld.rin ∧ r.kind = 0 ∧ r.line = 0x10000 / 64 := by
  decide +kernel

theorem wit_RecoveryEvents_rollback :
    let undone := fun (line : Nat) (r : LogRec) => (∃ q ∈ rollWorld.parts, r ∈ q.2.log) ∧ rollWorld.sealed < r.rin ∧ r.kind ≠ 1 ∧ r.line = line
    rollWorld.consumed = some ⟨0, 0, 0⟩ ∧ mapSorted rollWorld.parts = true ∧ rollWorld.loose = [] ∧
    (∀ y ∈ rollWorld.parts, ∀ r ∈ y.2.log, r.data.length = 64) ∧ undone 0x400 preImage ∧ (∀ r, undone 0x400 r → r = preImage) ∧
    ∀ r, ¬ undone 0x401 r := by
  refine ⟨by decide +kernel, by decide +kernel, by decide +kernel, by decide +kernel, by decide +kernel, fun r h => ?_, fun r h => ?_⟩
  all_goals
    obtain ⟨⟨q, hq, hr⟩, -, -, hl⟩ := h
    simp only [rollWorld, List.mem_singleton] at hq
    subst hq
    simp only [List.mem_singleton] at hr
    subst hr
  · rfl
  · exact absurd hl (by decide)

/-- A queue that fetches the packet of these bytes at host address 0, and its partition. -/
def queue1 : Queue := { Queue.start with ctlEnable := true, log2 := 6, tail := 1, launches := [(1, 0)] }

def hostWorld (q : Queue) (l : Launch) (packet : List (Nat × Byte)) : State :=
  { sched l (alone tk0) with hostMem := packet, mem := headerWorld.mem ++ tables,
                             parts := [(0, { part with queues := Vector.replicate 8 q })] }

/-- A packet's bytes: its type, and the listed ones. -/
def hostPart (q : Queue) : Part := { part with queues := Vector.replicate 8 q }

def turnOk (s : State) (p : Part) (q : Queue) (k : Nat) : Bool :=
  s.fetches p q && s.packet q 0 1 == k && decide (s.packet q 1 1 ≤ 1) && s.packet q 2 6 == 0

/-- LAUNCH of the header at 0x10000. -/
def launchWorld : State := hostWorld queue1 launch [(0, 1), (10, 1)]

theorem wit_HostEvents_launch : turnOk launchWorld (hostPart queue1) queue1 1 = true ∧ launchWorld.packet queue1 8 8 % 64 = 0 ∧
    ∃ bs s1 l, launchWorld.hostHeader 0 (launchWorld.packet queue1 8 8) = some bs ∧
      launchWorld.submit 0 bs (Origin.mk none 0 1 (BitVec.ofNat 64 (launchWorld.packet queue1 16 8)) true queue1.window) = .accepted s1 l :=
  have ⟨s1, l, h⟩ := accepted_of (x := launchWorld.submit 0 (memReadBytes launchWorld.mem 0x10000 64 ++ memReadBytes launchWorld.mem 0x10040 64)
    (Origin.mk none 0 1 0 true false)) (by decide +kernel)
  ⟨by decide +kernel, by decide +kernel, _, s1, l, by decide +kernel, h⟩

/-- COPY of 8 bytes from host address 0x100 to 0x10000. -/
def copyPacket : List (Nat × Byte) := [(0, 2), (9, 1), (18, 1), (24, 8)]

theorem wit_HostEvents_copy :
    (let s := hostWorld queue1 launch copyPacket
     turnOk s (hostPart queue1) queue1 2 = true ∧ s.copyOk (hostPart queue1) queue1 = true) ∧
    let q := { queue1 with busy := true }
    let s := hostWorld q launch copyPacket
    turnOk s (hostPart q) q 2 = true ∧ s.packet q 28 4 = 0 ∧ q.copied = 0 ∧ s.lookup 0 (s.packet q 16 8) [] = some page ∧ page.kind = 0 ∧
      page.writable = true ∧ s.stalled 0 (page.pa (s.packet q 16 8)) page.tracked = false ∧ s.packet q 24 4 ≤ 64 - s.packet q 16 8 % 64 ∧
      (s.copyBytes 0 (Fetched.mk 0 0 (hostPart q) q)).2 = true := by
  decide +kernel

theorem wit_HostEvents_packets :
    (∀ v ∈ [0, 2], let l := { launch with stage := Stage.complete, verdict := v, posted := true }
      let s := hostWorld queue1 l [(0, 3), (8, 1)]
      turnOk s (hostPart queue1) queue1 3 = true ∧ mapGet (s.packet queue1 8 8) queue1.launches = some 0 ∧ 0 ≠ rejectedLaunch ∧
        mapGet 0 s.launches = some l) ∧
    (∀ k ∈ [4, 5, 6], turnOk (hostWorld queue1 launch [(0, BitVec.ofNat 8 k)]) (hostPart queue1) queue1 k = true) ∧
    queue1.busy = false ∧ (hostWorld queue1 launch []).sealing = none ∧ (sealWorld []).sealing ≠ none ∧
    let s := hostWorld queue1 launch [(0, 7), (10, 1), (16, 5)]
    turnOk s (hostPart queue1) queue1 7 = true ∧ s.packet queue1 8 8 % 8 = 0 ∧ s.lookup 0 (s.packet queue1 8 8) [] = some page ∧
      page.kind = 0 ∧ page.writable = true ∧ s.stalled 0 (page.pa (s.packet queue1 8 8)) page.tracked = false ∧ (hostPart queue1).regs.einjArm = false ∧ s.poisonMem = [] := by
  decide +kernel

/-- COUNT at a page that may not be written; an enabling with a packet in progress, and with none. -/
theorem wit_HostEvents_count_readonly :
    let p := { hostPart queue1 with tlb := [] }
    let s := { hostWorld queue1 launch [(0, 7), (10, 1), (16, 5)] with
      parts := [(0, p)], mem := memWriteBytes tables 0x103008 (leBytes 8 0x10003) }
    turnOk s p queue1 7 = true ∧ s.packet queue1 8 8 % 8 = 0 ∧ ((s.lookup 0 (s.packet queue1 8 8) []).any fun pg => !pg.writable) = true := by
  decide +kernel

theorem wit_HostEvents_enable : bitAt (0x80000006#32).toNat 31 = true ∧ ({ Queue.start with busy := true } : Queue).ctlEnable = false ∧
    Queue.start.ctlEnable = false ∧ Queue.start.busy = false := by decide +kernel

/-- A halted queue, and one that is not; a write of its control with the enable bit. -/
theorem wit_HostEvents_control : ({ queue1 with halted := true } : Queue).halted = true ∧ queue1.halted = false ∧
    bitAt (0x80000006#32).toNat 31 = true := by decide +kernel

/-- A partition with a latched snapshot, and one with none. -/
theorem wit_HostEvents_snapshot : (∃ x, ({ part with dbg := { part.dbg with latched := some x } } : Part).dbg.latched = some x) ∧
    part.dbg.latched = none ∧ part.waitingRecs = [] :=
  ⟨⟨(world (alone tk0)).capture 0 part, rfl⟩, rfl, rfl⟩

/-- A stalled access of command 1 of tl0. -/
def stall : Stall := { seq := 3, team := 0, member := 0, tl := 0, num := 1, txq := false, cause := 4, detail := 0, addr := 0 }

theorem wit_HostEvents_fault :
    let tk := tkCmds 0 [{ cmdAt .cpyS2s 0 0x3000 64 0x2000 0 0 with stall := some stall.seq }]
    let s : State := { world (alone tk) with parts := [(0, { part with stalls := [stall, { stall with seq := 4, txq := true }] })] }
    s.stalledBy 0 3 = some stall ∧ s.stalledBy 0 4 = some { stall with seq := 4, txq := true } ∧
    s.task stall.team stall.member = some (alone tk, tk) ∧ (tk.cmd (BitVec.ofNat 4 stall.tl) stall.num).isSome = true ∧
    CmdKind.isOut .cpyS2s = false ∧ mapGet stall.team s.teams = some (alone tk) ∧ (alone tk).vf = 0 ∧ part.fqFull = false ∧
    s.failing (alone tk) = false := by
  decide +kernel

theorem wit_HostEvents_other : (world (alone tk0)).part (0#6).toNat = some part ∧ (11#4).toNat < 12 ∧ (7#64).toNat < 8 ∧
    (let p := { part with regs := { part.regs with tlbinv := 0x8000000000000001 } }
     bitAt p.regs.tlbinv.toNat 63 = true ∧ bitAt p.regs.tlbinv.toNat 0 = true) ∧
    bitAt (0x8000000000010000#64).toNat 63 = true ∧ bitAt (0x8000000000010000#64).toNat 0 = false ∧
    (world (alone tk0)).flash.leaf < Config.xmssLeaves := by
  decide +kernel

/-- A description that keeps its limits. -/
def goodDesc : PartDesc := { desc with sprigs := [1], wbanks := [2], hbmGroups := [1], listSize := 65536, overflowBytes := 2 ^ 26 }

theorem wit_ModuleEvents_partition :
    (let s := world (alone tk0)
     s.part (1#6).toNat = none ∧ descOk goodDesc = true ∧ (∀ q ∈ s.parts, descClash goodDesc q.2.desc = false) ∧
       mappedOut s.out goodDesc = false ∧ sharesOk (goodDesc :: s.parts.map fun q => q.2.desc) = true) ∧
    (let p := Part.start { goodDesc with sprigs := [0], wbanks := [1] } 1
     let s : State := { world (alone tk0) with parts := [(0, p)] }
     let d : PartDesc := { p.desc with sprigs := [0, 2], hbmGroups := [1, 2], sharedGroup := some 0 }
     let new := { d with logSize := some (logBytes p.desc) }
     s.sealing = none ∧ descOk new = true ∧ mappedOut s.out new = false ∧
       (∀ q ∈ s.parts, q.1 ≠ (0#6).toNat → descClash new q.2.desc = false) ∧
       s.outside 0 [0, 2] = false) ∧
    stencilOk { d := 1, prolong := false, weights := [1, 2, 3] } = true := by
  decide +kernel

/-- Bring-up passes where the check of a signature accepts the image in slot 0. -/
theorem wit_ModuleEvents_power (img : List Byte) (h : Config.xmssVerify img = true) :
    State.reset.power = .off ∧ (bringUp 0 0 [1, 2, 3, 4, 5, 6, 7, 8] { Flash.start with image0 := img }).2 = true :=
  ⟨rfl, by simp +decide [bringUp, Flash.passes, Flash.imageOk, Flash.start, hasAlternative, h]⟩

/-- Bring-up after a start whose steps 3 to 5 failed runs their alternatives and records 3 for them. -/
theorem wit_ModuleEvents_alternatives (img : List Byte) (h : Config.xmssVerify img = true) :
    let failed := ((Flash.start.status.set 2 2).set 3 2).set 4 2
    let b := bringUp 0x1C 0 [1, 2, 3, 4, 5, 6, 7, 8] { Flash.start with image0 := img, status := failed }
    b.2 = true ∧ b.1.status.get 2 = 3 ∧ b.1.status.get 3 = 3 ∧ b.1.status.get 4 = 3 := by
  simp +decide [bringUp, Flash.passes, Flash.imageOk, Flash.start, hasAlternative, h]

theorem wit_ModuleEvents_trip : ({ State.reset with power := .tripped } : State).power = .tripped := rfl

theorem wit_ModuleEvents_ecc :
    (∃ (s : State) (c : Cur), s.Issues c ∧ (c.task.th 0).st = .running ∧ (c.task.th 0).elem (placeKey (.pe 0 0)) = some elemIdle ∧
      (c.task.th 0).err = none ∧ ∃ y, mapGet (5#7).toNat c.task.mxe.slots = some y) ∧ (world (alone tk0)).power = .on ∧
    (world (alone tk0)).part (0#6).toNat = some part ∧
    (0x10000#52).toNat % 8 = 0 ∧ (world (alone tk0)).stalled (((world (alone tk0)).parts.map (·.1)).headD 0) 0x10000 true = false :=
  ⟨⟨_, _, issues { tkTh (thOf elemIdle) with mxe := { tk0.mxe with slots := [(5, ⟨0, false, true, [], [], false⟩)] } }, by decide +kernel,
    by decide +kernel, by decide +kernel, _, rfl⟩, rfl, rfl, by decide +kernel, by decide +kernel⟩

/-- A version of the open segment, an exchange region, and a replay token to strike. -/
theorem wit_ModuleEvents_strikes :
    (∃ (c : Cur) (g : Seg), (world versions).Issues c ∧ c.team.openSeg = some g ∧ (mapGet 0x10000 g.fin).isSome = true ∧
      c.team.carve.exchange = true) ∧
    ∃ (s : State) (c : Cur), s.Issues c ∧ (c.task.src 0).replay[(0#10).toNat]? = some (7, tok 1) :=
  ⟨⟨_, _, issues_versions, rfl, by decide, by decide⟩, _, _, issues (tkPort (thOf elemIdle) { SrcPort.start with replay := [(7, tok 1)] }), rfl⟩

/-! ## Single steps, with values from the spec's tables and examples -/

theorem test_add_wraps : leaves (.add 4 1 5 false false) (withRegs fun r => r.write 5 0xFFFFFFFFFFFF0000 false) 4 0 = true := by decide
theorem test_sub_order : leaves (.sub 4 3 2 false false) tk0 4 0xFFFFFFFFFFFFFFFD = true := by decide
/-- R116's table: −7 by 2. -/
theorem test_div_truncates : leaves (.div 6 4 5 false false) (withRegs fun r => (r.write 4 (-7) false).write 5 2 false) 6 (-3) = true := by
  decide
theorem test_rem_sign : leaves (.rem 6 4 5 false false) (withRegs fun r => (r.write 4 (-7) false).write 5 2 false) 6 (-1) = true := by decide
theorem test_div_zero : leaves (.div 6 3 0 false false) tk0 6 0xFFFFFFFFFFFFFFFF = true := by decide
theorem test_div_overflow : leaves (.div 6 4 5 false false) tkDiv 6 0x8000000000000000 = true := by decide
theorem test_divu : leaves (.divu 6 5 4 false false)
    (withRegs fun r => (r.write 5 0xFFFFFFFFFFFFFFFF false).write 4 2 false) 6 0x7FFFFFFFFFFFFFFF = true := by decide
theorem test_mulh : leaves (.mulh 6 5 5 false false) tkDiv 6 0 = true := by decide
theorem test_mulhu : leaves (.mulhu 6 5 5 false false) tkDiv 6 0xFFFFFFFFFFFFFFFE = true := by decide
theorem test_sar_sign : leaves (.sar 6 4 2 false false) tkDiv 6 0xFF80000000000000 = true := by decide
theorem test_clz_of_zero : leaves (.clz 6 0 false) tk0 6 64 = true := by decide
/-- R117: ANDI with −16 clears bits [3:0]. -/
theorem test_andi_sign : leaves (.andi 6 5 false (-16)) tkDiv 6 0xFFFFFFFFFFFFFFF0 = true := by decide
theorem test_sext : leaves (.sext 6 4 false 7) (withRegs fun r => r.write 4 0x1280 false) 6 0xFFFFFFFFFFFFFF80 = true := by decide
theorem test_bfx : leaves (.bfx 6 4 false 7 4) (withRegs fun r => r.write 4 0x1280 false) 6 0x28 = true := by decide
theorem test_bfi_keeps : leaves (.bfi 6 4 false 3 8) (withRegs fun r => (r.write 4 0xF5 false).write 6 0xFFFF false) 6 0xF5FF = true := by
  decide
theorem test_lui_keeps_low : leaves (.lui 1 0x12345678) tk0 1 0x1234567800010000 = true := by decide
/-- A pending destination waits: the pc stays, and nothing is written. -/
theorem test_pending_waits : runs (.mov 4 1 false) tkEmpty (fun t => t.regs.pc == 0 && t.regs.condOf 4 == .pending) = true := by decide
/-- A void source with its e bit takes EMPTY-READ, cause 2, at the vector table's entry (R133, R353, R354). -/
theorem test_void_source_traps : runs (.mov 6 5 true) tkEmpty (fun t => t.regs.handler && t.regs.pc == 72 && t.regs.tcause.toNat % 65536 == 2) =
    true := by decide
theorem test_cmp_unsigned : runs (.cmp 1 4 3 5 false false) (withRegs fun r => r.write 5 (-1) false) (fun t => t.regs.pred 1) = true := by
  decide
theorem test_branch_back : runs (.br 0 false (-1)) (withRegs fun r => { r with pc := 8 }) (fun t => t.regs.pc == 4) = true := by decide
theorem test_jal_links : runs (.jal 57 3) tk0 (fun t => t.regs.pc == 12 && t.regs.val 57 == 4) = true := by decide
theorem test_loop_of_zero : runs (.loop 0 false 5) tk0 (fun t => t.regs.pc == 24 && t.regs.loops.isEmpty) = true := by decide
theorem test_nested_end : runs .nop (withRegs fun r => { r with pc := 16, loops := [⟨8, 20, 1⟩, ⟨4, 20, 2⟩] })
    (fun t => t.regs.pc == 4 && t.regs.loops == [⟨4, 20, 1⟩]) = true := by decide
theorem test_trap_saves : runs (.trap 9) tk0 (fun t => t.regs.handler && t.regs.epc == 4 && t.regs.tval == 9) = true := by decide
theorem test_eret : runs .eret (withRegs fun r => { r with handler := true, epc := 0x40, pc := 0x80 })
    (fun t => !t.regs.handler && t.regs.pc == 0x40) = true := by decide
theorem test_store_is_a_version : nextIs (exec (.st 3 1 false 3 3 0) (world (alone tk0))) (fun t => t.mem == [] &&
    (t.cur.any fun c => c.team.openSeg.any fun g => mapGet 0x10000 (g.own.getD 0 []) == some 5)) = true := by decide
theorem test_acz : runs (.acz 2) { tk0 with fa := tk0.fa.set 2 { Acc.start with lanes := List.replicate 16 9, sat := true } }
    (fun t => t.fa.get 2 == Acc.start) = true := by decide
/-- VADD of FP32 1 and 2. -/
theorem test_vadd_fp32 : taskIs (exec (.vadd 0 (.pe 0 0)) (world (alone (tkTh (thOf (elemOf (pat 0x01 1 0 32 33 0 1 16)
    (some (tok 0x3F800000)) (some (tok 0x40000000)) none .none)))))) (fun t => ((t.th 0).elem 0).any fun e =>
      e.out.any fun x => x.tok.val 32 3 == 0x40400000) = true := by decide +kernel

end Sys2Proof.Tests
end

section

namespace Sys2Proof.Machine

/-! ## Predicates: a read after a write (R32) -/

/-- A number at or above the width names no bit, so that a set there reads false. -/
theorem getLsbD_setBit {w : Nat} (x : BitVec w) (n k : Nat) (v : Bool) :
    (setBit x n v).getLsbD k = if k = n then decide (n < w) && v else x.getLsbD k := by
  have hx : x.getLsbD k = true → k < w := BitVec.lt_of_getLsbD
  have hp : (BitVec.ofNat w (2 ^ n)).getLsbD k = (decide (k < w) && decide (n = k)) := by
    rw [BitVec.getLsbD_ofNat, Nat.testBit_two_pow]
  have hset : (setBit x n true).getLsbD k = (x.getLsbD k || (decide (k < w) && decide (n = k))) := by
    rw [setBit, if_pos rfl, BitVec.getLsbD_or, hp]
  have hclear : (setBit x n false).getLsbD k = (x.getLsbD k && (decide (k < w) && !(decide (k < w) && decide (n = k)))) := by
    rw [setBit, if_neg Bool.false_ne_true, BitVec.getLsbD_and, BitVec.getLsbD_not, hp]
  by_cases hk : k = n
  · subst hk
    cases v with
    | false => simp [hclear]
    | true => simpa [hset] using hx
  · cases v with
    | false => simpa [hclear, hk, Ne.symm hk] using hx
    | true => simp [hset, hk, Ne.symm hk]

theorem setPred_zero (r : Regs) (v b : Bool) : r.setPred 0 v b = r := rfl

theorem pred_setPred_same (r : Regs) {d : Pred} (h : d ≠ 0) (v b : Bool) : (r.setPred d v b).pred d = v := by
  have hlt : d.toNat < 8 := d.isLt
  unfold Regs.pred Regs.setPred
  rw [if_neg h, if_neg h, getLsbD_setBit, if_pos rfl, decide_eq_true hlt, Bool.true_and]

theorem pred_setPred_other (r : Regs) {d n : Pred} (h : n ≠ d) (v b : Bool) : (r.setPred d v b).pred n = r.pred n := by
  have hne : n.toNat ≠ d.toNat := (toFin_ne h).symm
  unfold Regs.pred Regs.setPred
  split
  · rfl
  · split
    · rfl
    · exact (getLsbD_setBit ..).trans (if_neg hne)

/-! ## g0 (R31) -/

theorem write_zero (r : Regs) (v : Word) (b : Bool) : r.write 0 v b = r := rfl

/-- Every register file reads g0 as full (R31, R33). -/
theorem full_zero (r : Regs) : r.Full 0 := rfl

/-! ## The instructions that write a predicate (R32, R123, R124, R134) -/

/-- With its checks passed, a compare or a predicate operation answers its predicate written, in the cycle that issues it. -/
theorem issuePred_ok {s : State} {c : Cur} (h : s.Issues c) {ck : Regs → Ready} (hk : ck c.task.regs = .ok) (p : Pred)
    (val bad : Regs → Bool) : issuePred s p ck val bad = c.writesPred s p (val c.task.regs) (bad c.task.regs) :=
  issue_ok h hk _

theorem execCmp_ok {s : State} {c : Cur} {a b : Reg} (h : s.Issues c) (ha : c.task.regs.Full a) (hb : c.task.regs.Full b)
    (d : Pred) (cc : BitVec 3) (e f : Bool) :
    execCmp d cc a b e f s = c.writesPred s d (compareCond cc (c.task.regs.val a) (c.task.regs.val b))
      (c.task.regs.bad a || c.task.regs.bad b) :=
  issuePred_ok h (Ready.then_ok (src_ok ha) (src_ok hb)) d _ _

theorem execCmpi_ok {s : State} {c : Cur} {a : Reg} (h : s.Issues c) (ha : c.task.regs.Full a) (d : Pred) (cc : BitVec 3)
    (e : Bool) (i : BitVec 13) :
    execCmpi d cc a e i s = c.writesPred s d (compareCond cc (c.task.regs.val a) (sext13 i)) (c.task.regs.bad a) :=
  issuePred_ok h (src_ok ha) d _ _

/-- Predicate logic reads no register, so that it waits for none. -/
theorem execPredicate_ok {s : State} {c : Cur} (h : s.Issues c) (d x y : Pred) (op : Bool → Bool → Bool) :
    execPredicate s d x y op = c.writesPred s d (op (c.task.regs.pred x) (c.task.regs.pred y))
      (c.task.regs.badPred x || c.task.regs.badPred y) :=
  issuePred_ok h rfl d _ _

/-- FCHK reads the full/empty bit alone, so that it does not wait for a fill. -/
theorem execFchk_ok {s : State} {c : Cur} (h : s.Issues c) (d : Pred) (a : Reg) :
    execFchk d a s = c.writesPred s d (c.task.regs.condOf a = .full) false :=
  issuePred_ok h rfl d _ _

/-! ## The statements of chapter 02 on g0 and p0 -/

/-- Settles O9: a write acts on one cell of the file, and g0 is none of the cells that it can act on. -/
theorem hardwiredRegisters : Obligations.HardwiredRegisters := by
  intro r
  refine ⟨val_zero r, full_zero r, dst_ok (free_of_full (full_zero r)), fun d v bad => ⟨?_, ?_, ?_⟩⟩
  · rintro rfl
    exact write_zero r v bad
  · intro hd
    exact ⟨val_write_same r hd v bad, condOf_write_same r d v bad⟩
  · intro n hn
    exact ⟨val_write_other r hn v bad, condOf_write_other r hn v bad⟩

/-- R32 at one register file: what a write of a predicate changes, and what it leaves. -/
theorem setPred_spec (r : Regs) (d : Pred) (v bad : Bool) :
    (d = 0 → r.setPred d v bad = r) ∧ (d ≠ 0 → (r.setPred d v bad).pred d = v) ∧
      ∀ n, n ≠ d → (r.setPred d v bad).pred n = r.pred n := by
  refine ⟨?_, fun hd => pred_setPred_same r hd v bad, fun n hn => pred_setPred_other r hn v bad⟩
  rintro rfl
  exact setPred_zero r v bad

/-- Settles O10: a write acts on one bit of the file, and each of the seven instructions is one `issuePred` whose checks pass. -/
theorem hardwiredPredicate : Obligations.HardwiredPredicate := by
  refine ⟨fun r => ⟨pred_zero r, setPred_spec r⟩, ?_⟩
  intro s c i d a b x y cc e f imm h ha hb hi
  simp only [List.mem_cons, List.not_mem_nil, or_false] at hi
  obtain rfl | rfl | rfl | rfl | rfl | rfl | rfl := hi
  · exact ⟨_, _, execCmp_ok h ha hb d cc e f⟩
  · exact ⟨_, _, execCmpi_ok h ha d cc e imm⟩
  · exact ⟨_, _, execPredicate_ok h d x y _⟩
  · exact ⟨_, _, execPredicate_ok h d x y _⟩
  · exact ⟨_, _, execPredicate_ok h d x y _⟩
  · exact ⟨_, _, execPredicate_ok h d x x fun v _ => !v⟩
  · exact ⟨_, _, execFchk_ok h d a⟩

end Sys2Proof.Machine

end

section

namespace Sys2Proof.Machine

/-! ## Quotient and remainder (R116) -/

/-- The one quotient that 64 bits cannot hold is that of −2^63 by −1. -/
theorem signedOverflow_iff (x y : Word) :
    y.toInt = -1 ∧ x.toInt = -2 ^ 63 ↔ x = BitVec.ofInt 64 (-(2 ^ 63)) ∧ y = BitVec.allOnes 64 := by
  rw [← BitVec.toInt_inj (x := x), ← BitVec.toInt_inj (x := y), and_comm]
  exact Iff.rfl

theorem divRem_zero (x : Word) : divRem x 0 = (BitVec.allOnes 64, x) := rfl

theorem divRem_overflow {x y : Word} (h : y.toInt = -1 ∧ x.toInt = -2 ^ 63) : divRem x y = (x, 0) := by
  have hy : y ≠ 0 := by
    rintro rfl
    exact absurd h.1 (by decide)
  rw [divRem, if_neg hy, if_pos ((signedOverflow_iff x y).mp h)]

/-- Outside the two corners, the pair is the library's signed division, which truncates toward zero, and its remainder. -/
theorem divRem_exact {x y : Word} (hy : y ≠ 0) (h : ¬(y.toInt = -1 ∧ x.toInt = -2 ^ 63)) :
    divRem x y = (x.sdiv y, x.srem y) := by
  have hq : BitVec.ofInt 64 (x.toInt.tdiv y.toInt) = x.sdiv y :=
    BitVec.eq_of_toInt_eq ((BitVec.toInt_ofInt _).trans (BitVec.toInt_sdiv x y).symm)
  have hr : BitVec.ofInt 64 (x.toInt.tmod y.toInt) = x.srem y := by
    rw [← BitVec.toInt_srem, BitVec.ofInt_toInt]
  rw [divRem, if_neg hy, if_neg (mt (signedOverflow_iff x y).mpr h), hq, hr]

theorem toInt_sdiv_of_not_overflow {x y : Word} (h : ¬(y.toInt = -1 ∧ x.toInt = -2 ^ 63)) :
    (x.sdiv y).toInt = x.toInt.tdiv y.toInt :=
  BitVec.toInt_sdiv_of_ne_or_ne x y (not_and_or.mp (mt (signedOverflow_iff x y).mpr h))

theorem divRemU_zero (x : Word) : divRemU x 0 = (BitVec.allOnes 64, x) := rfl

theorem divRemU_exact (x : Word) {y : Word} (hy : y ≠ 0) : divRemU x y = (x / y, x % y) := by
  rw [divRemU, if_neg hy, ← BitVec.udiv_def, ← BitVec.umod_def]

/-- R116 for int64 operands. -/
theorem divRem_spec (x y : Word) :
    (y = 0 → (divRem x y).1 = 0xFFFFFFFFFFFFFFFF#64 ∧ (divRem x y).2 = x) ∧
    (y.toInt = -1 ∧ x.toInt = -2 ^ 63 → (divRem x y).1.toInt = -2 ^ 63 ∧ (divRem x y).2 = 0) ∧
    (y ≠ 0 ∧ ¬(y.toInt = -1 ∧ x.toInt = -2 ^ 63) →
      (divRem x y).1.toInt = x.toInt.tdiv y.toInt ∧
        (divRem x y).2.toInt = x.toInt - (divRem x y).1.toInt * y.toInt) := by
  refine ⟨?_, fun h => ?_, fun ⟨hy, h⟩ => ?_⟩
  · rintro rfl
    rw [divRem_zero]
    exact ⟨rfl, rfl⟩
  · rw [divRem_overflow h]
    exact ⟨h.2, rfl⟩
  · rw [divRem_exact hy h, BitVec.toInt_srem, toInt_sdiv_of_not_overflow h, Int.tmod_def, Int.mul_comm]
    exact ⟨rfl, rfl⟩

/-- R116 for uint64 operands. -/
theorem divRemU_spec (x y : Word) :
    (y = 0 → (divRemU x y).1 = 0xFFFFFFFFFFFFFFFF#64 ∧ (divRemU x y).2 = x) ∧
    (y ≠ 0 → (divRemU x y).1.toNat = x.toNat / y.toNat ∧
      (divRemU x y).2.toNat = x.toNat - (divRemU x y).1.toNat * y.toNat) := by
  refine ⟨?_, fun hy => ?_⟩
  · rintro rfl
    rw [divRemU_zero]
    exact ⟨rfl, rfl⟩
  · rw [divRemU_exact x hy, BitVec.toNat_umod, BitVec.toNat_udiv]
    exact ⟨rfl, Nat.mod_eq_sub_div_mul⟩

/-- Settles O12: each of the four is one `execRR` whose checks pass, so that it writes and goes on, and what it writes is a
part of the pair that R116 defines. -/
theorem divisionResults : Obligations.DivisionResults := by
  intro s c d a b e f h hd ha hb x y bad
  exact ⟨⟨(divRem x y).1, (divRem x y).2, execRR_ok h hd ha hb fun v w => (divRem v w).1,
      execRR_ok h hd ha hb fun v w => (divRem v w).2, divRem_spec x y⟩,
    (divRemU x y).1, (divRemU x y).2, execRR_ok h hd ha hb fun v w => (divRemU v w).1,
      execRR_ok h hd ha hb fun v w => (divRemU v w).2, divRemU_spec x y⟩

end Sys2Proof.Machine

end
